-- ==== Sys2Proof/Word.lean ====
section
/-! DEFINITION. The word and byte types, and the four components R, G, B, A of a register (spec/10_state.md R21, R22). -/

namespace Sys2Proof

/-- A command word, a command parameter, an address, or one component of a register: 32 bits
(spec/30_encoding.md R101; spec/10_state.md R22, decision D2). -/
abbrev Word := BitVec 32

/-- One byte of memory. -/
abbrev Byte := BitVec 8

/-- The four components of a temporary register (R21). -/
inductive Comp where
  | r | g | b | a
  deriving DecidableEq, Repr, Inhabited

/-- One value per component: a register's contents, a write mask, a swizzle. -/
structure Quad (α : Type) where
  r : α
  g : α
  b : α
  a : α
  deriving DecidableEq, Repr, Inhabited

namespace Quad

/-- The value at one component. -/
def get {α : Type} (q : Quad α) : Comp → α
  | .r => q.r
  | .g => q.g
  | .b => q.b
  | .a => q.a

/-- The quad whose component c is f c. -/
def ofFn {α : Type} (f : Comp → α) : Quad α :=
  ⟨f .r, f .g, f .b, f .a⟩

/-- The same value in every component. -/
def all {α : Type} (v : α) : Quad α :=
  ⟨v, v, v, v⟩

/-- The new value where the mask is set, the old one elsewhere (spec/41_alu_output.md R182). -/
def merge {α : Type} (mask : Quad Bool) (new old : Quad α) : Quad α :=
  ofFn fun c => if mask.get c then new.get c else old.get c

end Quad

/-- The contents of one temporary register. -/
abbrev Vec4 := Quad Word

/-- One bit per component. -/
abbrev Mask := Quad Bool

/-- A program index pair (x, y): which element of the domain a processor works on (spec/40_commands.md R149). How wide x and y are
is not given beside the 12 bits of the domain command's bounds (R141, R142; spec/10_state.md R40); here neither is bounded. Log
entry 44, DESIGN CHOICE. -/
structure IndexPair where
  x : Nat
  y : Nat
  deriving DecidableEq, Repr, Inhabited

end Sys2Proof
end

