-- ==== Sys2Proof/Syntax.lean ====
section
/-! DEFINITION. The instructions and commands as abstract records, one constructor per row of spec/opcode_table.json
(spec/30_encoding.md R101 to R108). -/

namespace Sys2Proof

/-- A temporary address, which may be relative to the loop variable aL (spec/10_state.md R20, R24). -/
structure TempAddr where
  base : Nat
  rel : Bool
  deriving DecidableEq, Repr, Inhabited

/-- The fields of a texture instruction but its operation (spec/30_encoding.md R108). -/
structure TexFields where
  dst : TempAddr
  src : TempAddr
  /-- One selector per coordinate, each naming a component of the source. -/
  swizzle : Quad Comp
  sampler : Nat
  unscaled : Bool
  wmask : Mask
  /-- The predication control (R104); none: not predicated. -/
  pred : Option Nat
  wait : Bool
  acquire : Bool
  deriving DecidableEq, Repr, Inhabited

/-- What an ALU source address can name: what the spec names as operands of ALU instructions. Log entry 21, DESIGN CHOICE. -/
inductive SrcAddr where
  | temp (a : TempAddr)
  | floatConst (n : Nat)
  | inline (v : Word)
  deriving DecidableEq, Repr, Inhabited

/-- The six sources of an ALU instruction: 3 RGB vectors and 3 alpha scalars (spec/41_alu_output.md R171). -/
structure AluSources where
  rgb0 : SrcAddr
  rgb1 : SrcAddr
  rgb2 : SrcAddr
  alpha0 : SrcAddr
  alpha1 : SrcAddr
  alpha2 : SrcAddr
  deriving DecidableEq, Repr, Inhabited

/-- A source selector: which of the six sources feeds an operand (R172). -/
inductive SrcSel where
  | rgb0 | rgb1 | rgb2 | alpha0 | alpha1 | alpha2
  deriving DecidableEq, Repr, Inhabited

/-- An operand of the RGB engine: RGB_SEL_x, then RED_SWIZ_x, GREEN_SWIZ_x, BLUE_SWIZ_x (R172). -/
structure RgbOperand where
  sel : SrcSel
  red : Comp
  green : Comp
  blue : Comp
  deriving DecidableEq, Repr, Inhabited

/-- An operand of the alpha engine: ALPHA_SEL_x and its swizzle select (R172). -/
structure AlphaOperand where
  sel : SrcSel
  swiz : Comp
  deriving DecidableEq, Repr, Inhabited

/-- The output modifier OMOD_* (spec/41_alu_output.md R179). The settings whose names are lost are other n. -/
inductive Omod where
  | disabled
  | div4
  | div8
  | other (n : Nat)
  deriving DecidableEq, Repr, Inhabited

/-- The RGB engine's part of an ALU instruction (spec/30_encoding.md R106). That each engine has a destination, an output
modifier and a clamp of its own, where R179 and R180 speak of "the instruction's", is the model's choice. Log entry 21, DESIGN
CHOICE. -/
structure RgbPart where
  dst : TempAddr
  a : RgbOperand
  b : RgbOperand
  c : RgbOperand
  omod : Omod
  clamp : Bool
  /-- RGB_WMASK, one bit per channel. -/
  wr : Bool
  wg : Bool
  wb : Bool
  /-- RGB_OMASK, one bit per channel. -/
  pr : Bool
  pg : Bool
  pb : Bool
  deriving DecidableEq, Repr, Inhabited

/-- The alpha engine's part of an ALU instruction (spec/30_encoding.md R106), with its own destination, output modifier and
clamp. Log entry 21, DESIGN CHOICE. -/
structure AlphaPart where
  dst : TempAddr
  a : AlphaOperand
  b : AlphaOperand
  c : AlphaOperand
  omod : Omod
  clamp : Bool
  /-- ALPHA_WMASK. -/
  wa : Bool
  /-- The alpha output mask (its name is cut, R182). -/
  pa : Bool
  deriving DecidableEq, Repr, Inhabited

/-- ALU operations whose names are lost: the bit-exact MOV (spec/44_floating_point.md R295), the addition
(spec/41_alu_output.md R178), and the rest of the lost list (R178, R296). -/
inductive UnnamedOp where
  | mov
  | add
  | other (n : Nat)
  deriving DecidableEq, Repr, Inhabited

/-- What one engine computes. -/
inductive AluOp where
  | max | cnd | cmp | frc
  | unnamed (u : UnnamedOp)
  | copy
  deriving DecidableEq, Repr, Inhabited

/-- The alpha engine's half of an instruction whose row names the RGB engine's operation: the two engines are driven by one
ALU instruction (R170). -/
structure AlphaHalf where
  op : AluOp
  part : AlphaPart
  deriving DecidableEq, Repr, Inhabited

/-- The RGB engine's half of an instruction whose row names the alpha engine's operation. -/
structure RgbHalf where
  op : AluOp
  part : RgbPart
  deriving DecidableEq, Repr, Inhabited

/-- The fields of an ALU instruction that both engines share. -/
structure AluCommon where
  src : AluSources
  pred : Option Nat
  /-- The NOP flag (spec/41_alu_output.md R184). -/
  nop : Bool
  wait : Bool
  deriving DecidableEq, Repr, Inhabited

/-- A cross-engine copy: which engine copies, and what the other does in the same instruction (R190). -/
inductive CopyHalf where
  | toRgb (p : RgbPart) (other : Option AlphaHalf)
  | toAlpha (p : AlphaPart) (other : Option RgbHalf)
  deriving DecidableEq, Repr, Inhabited

/-- An operation without a visible name on one engine, and what the other does in the same instruction (R178, R170). -/
inductive UnnamedHalf where
  | rgb (u : UnnamedOp) (p : RgbPart) (other : Option AlphaHalf)
  | alpha (u : UnnamedOp) (p : AlphaPart) (other : Option RgbHalf)
  deriving DecidableEq, Repr, Inhabited

/-- The fields of an OUTPUT instruction (spec/41_alu_output.md R187, R188; the table's row OUTPUT). -/
structure OutputFields where
  /-- Which output the values go to. -/
  out : Nat
  /-- The temporaries sent. -/
  srcs : List TempAddr
  /-- RGB_OMASK and the alpha output mask: which components are sent (R182). -/
  omask : Mask
  /-- A conditional output: it sends the CO a conditional value (R188, "for conditional output, a conditional value"). How an
  OUTPUT says so is lost. Log entry 33, DESIGN CHOICE. -/
  conditional : Bool
  /-- Uncached write mode (R187). How the mode is entered is lost; that each OUTPUT says it is the model's choice. Log entry 49,
  DESIGN CHOICE. -/
  uncached : Bool
  pred : Option Nat
  nop : Bool
  wait : Bool
  /-- "some acquiring choice" (R187). -/
  acquire : Bool
  deriving DecidableEq, Repr, Inhabited

/-- A branch-counter operation: the three values that are named (spec/30_encoding.md R107, "values including";
spec/43_flow_control.md R264). Whether the field takes others is not said. Log entry 14, DESIGN CHOICE. -/
inductive BranchOp where
  | none | incr | decr
  deriving DecidableEq, Repr, Inhabited

/-- The fields of a flow-control instruction (spec/30_encoding.md R107; spec/43_flow_control.md R267). -/
structure Flow where
  /-- JUMP_FUNC. -/
  func : BitVec 8
  /-- Column c3 of the table of R267. -/
  any : Bool
  /-- JUMP_ADDR. -/
  addr : Nat
  /-- JUMP_GLOBAL. -/
  global : Bool
  /-- Column c5: NONE in every visible row, so 0 stands for NONE; what other values do is lost. Log entry 17. -/
  c5 : Nat
  /-- Column c6: the branch-counter operation where the stream does not jump. -/
  op0 : BranchOp
  /-- Column c7: the branch-counter operation where it jumps. -/
  op1 : BranchOp
  /-- B_POP_CNT. -/
  popCnt : Nat
  /-- Column c9: 0 in every visible row; what other values do is lost. Log entry 17. -/
  c9 : Nat
  /-- Which predicate bit and which boolean constant the jump tests: the fields that say so are lost, so these are plain
  codes (log entry 13). -/
  predSel : Nat
  boolSel : Nat
  wait : Bool
  deriving DecidableEq, Repr, Inhabited

/-- Data formats 0 to 4; the rest are reserved (spec/20_memory.md R63). -/
inductive DataFormat where
  | uint16x1 | uint8x4 | float32x1 | float32x2 | float32x4
  deriving DecidableEq, Repr, Inhabited

/-- A base-address parameter: bits 31:11 (spec/20_memory.md R61). -/
structure BaseParam where
  addr : BitVec 21
  deriving DecidableEq, Repr, Inhabited

/-- A format parameter: pitch 12:2, tiling 17:16, format 26:24 (spec/20_memory.md R62). -/
structure FormatParam where
  pitch : BitVec 11
  tiling : BitVec 2
  format : DataFormat
  deriving DecidableEq, Repr, Inhabited

/-- The size parameter, its bits 12:0, and the base-address parameter that follows it (spec/40_commands.md R140). -/
structure SizeParam where
  size : BitVec 13
  base : BaseParam
  deriving DecidableEq, Repr, Inhabited

/-- A visible bound of the domain, bits 11:0 of its parameter, and the bits beside it that hold the lost bounds: the parameter's
other bits, and for the last visible bound the parameters after it (spec/40_commands.md R141, R142). -/
structure DomainBound where
  bound : BitVec 12
  others : List Word
  deriving DecidableEq, Repr, Inhabited

/-- The visible test conditions (spec/40_commands.md R147). -/
inductive Condition where
  | never | less
  deriving DecidableEq, Repr, Inhabited

/-- Every instruction and command of spec/opcode_table.json, one constructor per row. An ALU instruction may give the engine
that its row does not name no operation (none): that engine then writes nothing and keeps its last result. R170 says that an
instruction drives both, and nothing of an idle one. Log entry 21, DESIGN CHOICE. -/
inductive Instr where
  /-- TEX_INST_NOP, R213. -/
  | texNop (t : TexFields)
  /-- TEX_INST_LOOKUP, R214. -/
  | texLookup (t : TexFields)
  /-- TEX_INST_KILL_LT_0, R215. -/
  | texKillLtZero (t : TexFields)
  /-- TEX_INST_LOOKUP_PROJ, R216. -/
  | texLookupProj (t : TexFields)
  /-- TEX_INST_LOOKUP_UNCACHED, R217. -/
  | texLookupUncached (t : TexFields)
  /-- OP_RGB_MAX, R174; co: what the alpha engine does in the same instruction (so in the next three); none where it does
  nothing. -/
  | opRgbMax (p : RgbPart) (co : Option AlphaHalf) (c : AluCommon)
  /-- OP_RGB_CND, R175. -/
  | opRgbCnd (p : RgbPart) (co : Option AlphaHalf) (c : AluCommon)
  /-- OP_RGB_CMP, R176. -/
  | opRgbCmp (p : RgbPart) (co : Option AlphaHalf) (c : AluCommon)
  /-- OP_RGB_FRC, R177. -/
  | opRgbFrc (p : RgbPart) (co : Option AlphaHalf) (c : AluCommon)
  /-- OP_ALPHA_MAX, R174; co: what the RGB engine does in the same instruction (so in the next three). -/
  | opAlphaMax (p : AlphaPart) (co : Option RgbHalf) (c : AluCommon)
  /-- OP_ALPHA_CND, R175. -/
  | opAlphaCnd (p : AlphaPart) (co : Option RgbHalf) (c : AluCommon)
  /-- OP_ALPHA_CMP, R176. -/
  | opAlphaCmp (p : AlphaPart) (co : Option RgbHalf) (c : AluCommon)
  /-- OP_ALPHA_FRC, R177. -/
  | opAlphaFrc (p : AlphaPart) (co : Option RgbHalf) (c : AluCommon)
  /-- An ALU operation without a visible name, on either engine, R178, R295, R296. -/
  | aluUnnamed (h : UnnamedHalf) (c : AluCommon)
  /-- The cross-engine copy, R190. -/
  | aluCrossEngineCopy (h : CopyHalf) (c : AluCommon)
  /-- OUTPUT, R185 to R188, R231. -/
  | output (o : OutputFields)
  /-- FC JUMP, R263, R264, R266. -/
  | fcJump (f : Flow)
  /-- FC LOOP with the integer constant it takes its parameters from, R265. -/
  | fcLoop (f : Flow) (k : Nat)
  /-- FC ENDLOOP, R265. -/
  | fcEndloop (f : Flow)
  /-- FC REP with its integer constant, R265. -/
  | fcRep (f : Flow) (k : Nat)
  /-- FC ENDREP, R265. -/
  | fcEndrep (f : Flow)
  /-- FC CONTINUE, R262. -/
  | fcContinue (f : Flow)
  /-- set_consti_fmt, R135. -/
  | setConstiFmt (b : BaseParam) (f : FormatParam)
  /-- set_cond_test, R146, R147. -/
  | setCondTest (c : Condition)
  /-- read_perf_counters, R145: the address of the area. -/
  | readPerfCounters (addr : Word)
  /-- The float-constants format command, R134. -/
  | floatConstFmt (b : BaseParam) (f : FormatParam)
  /-- The input base-address command for input k, R137. -/
  | inputBase (k : Nat) (b : BaseParam)
  /-- The output base-address command for output k, R138. -/
  | outputBase (k : Nat) (b : BaseParam)
  /-- The program-data command, R139. -/
  | programData (b : BaseParam) (f : FormatParam)
  /-- The command with the size parameter, R140: its bits 12:0, and the base-address parameter that follows it. -/
  | sizeParameter (v : SizeParam)
  /-- The domain command, R141, R142: the visible bounds, and the rest of its parameters' bits, which hold the lost ones. -/
  | domainBounds (i0 j0 : DomainBound)
  /-- The command that starts the program and waits until all processors are idle, R143. -/
  | programStart
  /-- The performance-counter start and stop commands with their parameter 0, R144. -/
  | perfControl (start : Bool) (param : Word)
  deriving DecidableEq, Repr

/-- Is this an instruction of the DPP array (true) or a command of the PE (false)? (spec/30_encoding.md R100). -/
def Instr.isDpp : Instr → Bool
  | .texNop _ | .texLookup _ | .texKillLtZero _ | .texLookupProj _ | .texLookupUncached _ => true
  | .opRgbMax _ _ _ | .opRgbCnd _ _ _ | .opRgbCmp _ _ _ | .opRgbFrc _ _ _ => true
  | .opAlphaMax _ _ _ | .opAlphaCnd _ _ _ | .opAlphaCmp _ _ _ | .opAlphaFrc _ _ _ => true
  | .aluUnnamed _ _ | .aluCrossEngineCopy _ _ | .output _ => true
  | .fcJump _ | .fcLoop _ _ | .fcEndloop _ | .fcRep _ _ | .fcEndrep _ | .fcContinue _ => true
  | .setConstiFmt _ _ | .setCondTest _ | .readPerfCounters _ | .floatConstFmt _ _ => false
  | .inputBase _ _ | .outputBase _ _ | .programData _ _ | .sizeParameter _ => false
  | .domainBounds _ _ | .programStart | .perfControl _ _ => false

/-- The TEX_SEM_WAIT bit, which every DPP instruction has (spec/30_encoding.md R104; spec/42_texture.md R222); a command has
none. -/
def Instr.semWait : Instr → Bool
  | .texNop t | .texLookup t | .texKillLtZero t | .texLookupProj t | .texLookupUncached t => t.wait
  | .opRgbMax _ _ c | .opRgbCnd _ _ c | .opRgbCmp _ _ c | .opRgbFrc _ _ c => c.wait
  | .opAlphaMax _ _ c | .opAlphaCnd _ _ c | .opAlphaCmp _ _ c | .opAlphaFrc _ _ c => c.wait
  | .aluUnnamed _ c | .aluCrossEngineCopy _ c => c.wait
  | .output o => o.wait
  | .fcJump f | .fcLoop f _ | .fcEndloop f | .fcRep f _ | .fcEndrep f | .fcContinue f => f.wait
  | .setConstiFmt _ _ | .setCondTest _ | .readPerfCounters _ | .floatConstFmt _ _ => false
  | .inputBase _ _ | .outputBase _ _ | .programData _ _ | .sizeParameter _ => false
  | .domainBounds _ _ | .programStart | .perfControl _ _ => false

/-! ## Commands whose opcode word is lost (spec/40_commands.md R132) -/

/-- The commands known from their descriptions only: those of the opcode table, then those that only the table of control state
names (spec/10_state.md R41). -/
inductive LostCommand where
  /-- R145. -/
  | readPerfCounters
  /-- R134. -/
  | floatConstFmt
  /-- R137. -/
  | inputBase
  /-- R138. -/
  | outputBase
  /-- R139. -/
  | programData
  /-- R140. -/
  | sizeParameter
  /-- R141, R142. -/
  | domain
  /-- R143. -/
  | programStart
  /-- R144. -/
  | perfStart
  | perfStop
  /-- The format commands of inputs and outputs (R41). -/
  | inputFormat
  | outputFormat
  /-- The command with a 2K-aligned base address that sets the conditional output buffer (R41, R132). -/
  | condBufBase
  /-- The command that enables performance counters (R41, "commands lost"). -/
  | perfEnable
  deriving DecidableEq, Repr, Inhabited

/-- The commands of R41 that have no row in the opcode table, with their parameters. -/
inductive ExtraCommand where
  | inputFormat (k : Nat) (f : FormatParam)
  | outputFormat (k : Nat) (f : FormatParam)
  | condBufBase (b : BaseParam)
  /-- Its parameters, whose fields are lost. -/
  | perfEnable (ps : List Word)
  deriving DecidableEq, Repr

/-- What the PE reads: a command of the opcode table, or one without a row. -/
inductive Command where
  | row (i : Instr)
  | extra (x : ExtraCommand)
  deriving DecidableEq, Repr

end Sys2Proof
end

