-- ==== Sys2Proof/Config.lean ====
section
/-! DEFINITION. What an implementation fixes and what the spec leaves open (spec/00_scope.md R8; spec/92_eei_decisions.md, open
parameters; spec/93_implementation_defined.md). Every opaque constant below has no body: no proof can know its value, so a
statement holds for every value of it. -/

namespace Sys2Proof

/-! ## Types the open functions speak of -/

/-- How a buffer's elements are laid out (spec/20_memory.md R62). -/
structure Layout where
  /-- The pitch value, 4 times the field. -/
  pitch : Word
  tiling : BitVec 2
  format : DataFormat
  deriving DecidableEq, Repr, Inhabited

/-- A buffer's descriptor: where it lies and how its elements are laid out (spec/10_state.md R41). -/
structure Desc where
  base : Word
  layout : Layout
  deriving DecidableEq, Repr, Inhabited

/-- A constant buffer's descriptor: the commands that set it set an "offset" too (spec/10_state.md R35; spec/40_commands.md
R134, R135). -/
structure ConstBuf where
  desc : Desc
  offset : Word
  deriving DecidableEq, Repr, Inhabited

/-- One element as the units move it (spec/20_memory.md R67): the 32-bit words of a FLOAT32 element, little-endian in memory
(R65), or the bytes of a UINT element. -/
inductive Elem where
  | words (ws : List Word)
  | bytes (bs : List Byte)
  deriving DecidableEq, Repr, Inhabited

/-- The three lookups (spec/42_texture.md R214, R216, R217). -/
inductive LookupOp where
  | standard | projected | uncached
  deriving DecidableEq, Repr, Inhabited

/-- How one floating-point value stands to another. -/
inductive FloatOrder where
  | lt | eq | gt | unordered
  deriving DecidableEq, Repr, Inhabited

/-- The three channels of an integer constant that a loop reads (spec/43_flow_control.md R265). -/
structure IntConst where
  red : Int
  green : Int
  blue : Int
  deriving DecidableEq, Repr, Inhabited

/-- One LOOP in progress: iterations left, its aL increment, and aL as it was before the LOOP. The widths of the count and of aL
are lost (spec/44_floating_point.md R299): both are integers, and the count goes down exactly. Log entry 15, DESIGN CHOICE. -/
structure LoopFrame where
  left : Int
  step : Int
  savedAL : Int
  deriving DecidableEq, Repr, Inhabited

/-- The loop state of an instruction stream (spec/10_state.md R32, R33); its integers are not bounded, as in LoopFrame. Log
entry 15, DESIGN CHOICE. -/
structure LoopState where
  aL : Int
  loopStack : List LoopFrame
  /-- Iterations left of each REP in progress. -/
  repStack : List Int
  deriving DecidableEq, Repr, Inhabited

/-- One output register as an OUTPUT sends it: the components the mask lets through (spec/41_alu_output.md R188). -/
abbrev Masked := Quad (Option Word)

/-- Flow-control modes (spec/43_flow_control.md R260). -/
inductive FlowMode where
  | partialMode | fullMode
  deriving DecidableEq, Repr, Inhabited

/-! ## Sizes (spec/00_scope.md R8) -/

/-- NTEMP less its lower bound. -/
opaque Config.ntempExtra : Nat

/-- NTEMP: OPEN, at least 7. -/
def Config.ntemp : Nat := Config.ntempExtra + 7

/-- NSAMP less its lower bound. -/
opaque Config.nsampExtra : Nat

/-- NSAMP: OPEN, at least 3. -/
def Config.nsamp : Nat := Config.nsampExtra + 3

/-- GROUP less its lower bound. -/
opaque Config.groupExtra : Nat

/-- GROUP: OPEN, at least 1. -/
def Config.group : Nat := Config.groupExtra + 1

/-- NPROC less GROUP. -/
opaque Config.nprocExtra : Nat

/-- NPROC: OPEN; at least one group of processors (log entry 6, DEDUCED). -/
def Config.nproc : Nat := Config.group + Config.nprocExtra

/-- OFIFO: OPEN. Nothing reads it: the spec gives an OUTPUT no capacity limit (spec/41_alu_output.md R186). -/
opaque Config.ofifo : Nat

/-- NPERF: the number of performance counters, OPEN, and their width in bits, OPEN (spec/60_exceptions.md R318). -/
opaque Config.nperf : Nat
opaque Config.perfWidth : Nat

/-- STACK_FULL less one. -/
opaque Config.stackFullExtra : Nat

/-- How many loops may be open at once: none in partial mode, which "supports neither loops nor subroutines"; in full mode
STACK_FULL, which is OPEN (spec/43_flow_control.md R260, R261). Log entry 15, DEDUCED. -/
def Config.loopStackSize : FlowMode → Nat
  | .partialMode => 0
  | .fullMode => Config.stackFullExtra + 1

/-- How far full mode's branch nesting goes beyond partial mode's. -/
opaque Config.branchExtra : Nat

/-- How deep branch statements may be nested: 6 in partial mode, deeper in full mode (spec/43_flow_control.md R260). -/
def Config.branchDepth : FlowMode → Nat
  | .partialMode => 6
  | .fullMode => Config.branchExtra + 7

/-- The size of one DPP instruction in bytes, which is lost (spec/20_memory.md R66). -/
opaque Config.instrBytes : Nat

/-- The bytes of a program in memory, which are lost (spec/30_encoding.md R108): its instructions, where the loader placed them,
and the place of the byte. Log entry 40. -/
opaque Config.programByte : List Instr → Word → Nat → Byte

/-- How many parameters a command whose opcode word is lost takes beyond the ones the spec shows: "No commands take a variable
number of parameters" (spec/30_encoding.md R101), so a constant of the command. Log entry 36. -/
opaque Config.extraParams : LostCommand → Nat

/-! ## Draws: values under no law, fresh at each use (spec/00_scope.md R10) -/

/-- The scheduler's free choices: tick, then which choice within the step. -/
opaque Config.choice : Nat → Nat → Nat

/-- How many steps an operation of the texture unit may stay outstanding that is issued at this tick, and how long the release
of a semaphore acquired at it may wait: any number, but a number (D7: "every outstanding operation is eventually performed"). -/
opaque Config.patience : Nat → Nat

/-- Does the read of one element see this later write, beyond the ones R72 guarantees? Tick, reader, the element's address, the
write's number. One answer for the whole element, whose read is one event (spec/20_memory.md R68). -/
opaque Config.seesWrite : Nat → IndexPair → Nat → Nat → Bool

/-- What the read of one element returns where its data is not synchronised: tick, reader, the element's address, the place of the
byte in it (spec/20_memory.md R68, R72 to R74). -/
opaque Config.drawElem : Nat → IndexPair → Nat → Nat → Byte

/-- The launch memory's contents where the model lists none (spec/10_state.md R46: "a parameter of the launch"). -/
opaque Config.launchByte : Nat → Byte

/-- What a temporary holds that nothing has written since the launch: run number, index pair, register (spec/10_state.md
R23; 91_not_in_source.md N12). -/
opaque Config.unwrittenTemp : Nat → IndexPair → Nat → Vec4

/-- Launch contents that R46 calls unspecified: tick and index pair. -/
opaque Config.launchCounter : Nat → IndexPair → Int
opaque Config.launchPred : Nat → IndexPair → Mask
opaque Config.launchAluResult : Nat → IndexPair → Bool
opaque Config.launchLast : Nat → IndexPair → Vec4
opaque Config.launchAL : Nat → Int

/-- aL after the outermost loop ends: "its value outside a loop [is] lost" (spec/10_state.md R32). -/
opaque Config.outsideAL : Nat → Int

/-- alu_result after an ALU instruction, whose rule is lost: tick, index pair, old value (spec/10_state.md R31). -/
opaque Config.aluResultAfter : Nat → IndexPair → Bool → Bool

/-- Has the MC conditional output cache dropped this element by now? The spec names no capacity and no replacement rule
(spec/20_memory.md R78). -/
opaque Config.condEvicted : Nat → IndexPair → Bool

/-- What an enabled performance counter shows after one more step: tick, counter, old value (spec/60_exceptions.md R318). -/
opaque Config.perfCount : Nat → Nat → Nat → Nat

/-- Which counters the command that enables them names: its fields are lost (spec/10_state.md R41). -/
opaque Config.perfEnables : List Word → List Nat

/-- The descriptors a program finds where no command has set them: "unspecified" (spec/10_state.md R46). The instructions that
would use one are refused before. -/
opaque Config.unsetDesc : Nat → Desc
opaque Config.unsetConsts : ConstBuf

/-! ## Lost functions of memory and descriptors (spec/20_memory.md R64; spec/42_texture.md R232) -/

/-- How far a buffer reaches beyond its first element: its extent is lost. -/
opaque Config.bufferSlack : Desc → Nat

/-- Which elements of its buffer a lookup reads: operation, descriptor, UNSCALED, coordinates. -/
opaque Config.texElems : LookupOp → Desc → Bool → Vec4 → List Nat

/-- What a lookup returns, given the elements it read. -/
opaque Config.texValue : LookupOp → Desc → Bool → Vec4 → List Elem → Vec4

/-- Where an output write request places its elements: offsets from the output's base, given how many registers are sent. -/
opaque Config.outPlaces : Desc → IndexPair → Nat → List Nat

/-- The components of a FLOAT32 element an output write request stores: which element, which component. -/
opaque Config.outWord : Desc → IndexPair → List Masked → Nat → Nat → Word

/-- The bytes of a UINT element an output write request stores: which element, which byte. -/
opaque Config.outByte : Desc → IndexPair → List Masked → Nat → Nat → Byte

/-- The "offset" of a constant buffer: where the command carries it is lost (spec/40_commands.md R135). Log entry 50. -/
opaque Config.constOffset : BaseParam → FormatParam → Word

/-- Where a floating-point or integer constant lies: the offset of its element from the constant buffer's base. -/
opaque Config.constPlace : ConstBuf → Nat → Nat

/-- A floating-point constant, given its element (spec/10_state.md R35). -/
opaque Config.floatConstValue : ConstBuf → Elem → Vec4

/-- An integer constant, given its element (spec/10_state.md R36). -/
opaque Config.intConstValue : ConstBuf → Elem → IntConst

/-- Where an element of the conditional output buffer lies: its offset from the base; and how many bytes it takes. -/
opaque Config.condPlace : IndexPair → Nat
opaque Config.condBytes : Nat

/-- The value b, given the element's bytes (spec/40_commands.md R148). The type and width of v and b are lost: here both, and what
the CO's cache keeps, are 32-bit words. Log entry 33, DESIGN CHOICE. -/
opaque Config.condWord : List Byte → Word

/-- The conditional value v an OUTPUT supplies: which instruction or operand supplies it is lost (R148), and so is its width: 32
bits here. Tick, index pair, values sent. Log entry 33, DESIGN CHOICE. -/
opaque Config.condValue : Nat → IndexPair → List Masked → Word

/-- What the CO compares with b for an OUTPUT that is not conditional, which sends no conditional value (spec/41_alu_output.md
R188). Tick, index pair. Log entry 33. -/
opaque Config.absentValue : Nat → IndexPair → Word

/-- Does the test Less pass for an OUTPUT that is not conditional while no command has set a conditional output buffer? (R148).
Tick, index pair. Log entry 33. -/
opaque Config.absentPasses : Nat → IndexPair → Bool

/-- v is less than b: the type and width of v and b are lost (R147, R148). Both are 32-bit words. Log entry 33, DESIGN CHOICE. -/
opaque Config.condLess : Word → Word → Bool

/-- A byte that an OUTPUT of a killed processor may store: tick, index pair, address
(spec/42_texture.md R215, decision D10). -/
opaque Config.unsaidByte : Nat → IndexPair → Nat → Byte

/-- The bytes read_perf_counters transfers (spec/40_commands.md R145: layout lost). -/
opaque Config.perfDump : List Nat → List Byte

/-! ## The numerics configuration (spec/44_floating_point.md R294) -/

/-- MAX of two values that compare equal but differ, as +0 and -0 do: is A returned? -/
opaque Config.maxTieA : Word → Word → Bool

/-- MAX with a NaN operand. -/
opaque Config.maxOpen : Word → Word → Word

/-- Does CND return A where C stands so to 0.5? The operator is not recoverable (spec/41_alu_output.md R175). Log entry 23. -/
opaque Config.cndPicksA : FloatOrder → Bool

/-- Does CMP return A where C stands so to 0? The operator is not recoverable (R176). -/
opaque Config.cmpPicksA : FloatOrder → Bool

/-- How a denormal C stands to 0 in CMP: whether denormal inputs are flushed is not said (spec/44_floating_point.md R293). -/
opaque Config.denormalOrder : Word → FloatOrder

/-- FRC of an infinity or a NaN. -/
opaque Config.frcOpen : Word → Word

/-- Does FRC flush a denormal operand? (R293: whether denormal inputs are flushed is not said.) -/
opaque Config.frcFlushes : Word → Bool

/-- Is the zero that FRC gives for -0 or a flushed denormal negative? -/
opaque Config.frcZeroNegative : Word → Bool

/-- Does FRC round up where A - floor(A) is no single-precision number? (R294: every operation's rounding.) -/
opaque Config.frcRoundsUp : Word → Bool

/-- The operations whose names are lost (AluOp, spec/41_alu_output.md R178). The addition takes no third operand: its C is 0. -/
opaque Config.aluOp : UnnamedOp → Word → Word → Word → Word

/-- The scalar the alpha engine copies from the RGB engine's three (R190). -/
opaque Config.copyToAlpha : Word → Word → Word → Word

/-- Does the cross-engine copy take the result after the output modifier and clamp (true) or before (false)? (R190). -/
opaque Config.copyTakesFinal : Bool

/-- The bits from which the standard NaN's pattern is made (R293: not given). -/
opaque Config.standardNaNBits : Word

/-- Is the zero that replaces this denormal negative? (R293: sign not given). -/
opaque Config.flushNegative : Word → Bool

/-- The output modifiers whose names are lost (spec/41_alu_output.md R179). -/
opaque Config.omodOther : Nat → Word → Word

/-- Is the zero that -0 divided by 4 or 8 gives negative? The exponent of the divisor. -/
opaque Config.zeroDivNegative : Nat → Bool

/-- Does a quotient that lies between the largest denormal and the least normal number round up to the normal one? -/
opaque Config.omodRoundsUp : Nat → Word → Bool

/-- The clamp of a NaN. -/
opaque Config.clampNaN : Word → Word

/-- Is the zero to which the clamp brings -0 or a denormal negative? (R294: the sign of a flushed zero.) -/
opaque Config.clampZeroNegative : Word → Bool

/-- Does the clamp flush a positive denormal to zero? (R293: whether denormal inputs are flushed is not said.) -/
opaque Config.clampFlushes : Word → Bool

/-- "less than zero" of -0, a NaN or a negative denormal (LtZero, spec/42_texture.md R233). -/
opaque Config.ltZeroOpen : Word → Bool

/-! ## Lost rules of predication and flow control -/

/-- The predicate bit a result sets: tick, index pair, channel, result (spec/41_alu_output.md R182; 91_not_in_source.md
N9). -/
opaque Config.predicateBit : Nat → IndexPair → Comp → Word → Bool

/-- Does this predication control enable this channel under these predicate bits? (spec/10_state.md R30). -/
opaque Config.predEnable : Nat → Mask → Comp → Bool

/-- The predicate a jump tests, of the processor's predicate bits, by its lost selector (spec/43_flow_control.md R263). -/
opaque Config.jumpPredicate : Nat → Mask → Bool

/-- The boolean a jump tests, of the boolean constants, by its lost selector (R263; spec/10_state.md R37). -/
opaque Config.jumpBoolean : Nat → List Bool → Bool

/-- The order of the eight lines of JUMP_FUNC, which cannot be recovered (R263): each combination of the three inputs has
its own bit. -/
opaque Config.jumpIndex : Equiv.Perm (Fin 8)

/-- The stream's direction where its active processors disagree or there is none: column c3, the tick (R264, R267). -/
opaque Config.jumpSplit : Bool → Nat → Bool

/-- What columns c5 and c9 do to a processor where they are not the visible NONE and 0: column c5, column c9, whether its own
condition disagrees, its active flag and its counter (R267: lost). -/
opaque Config.branchLost : Nat → Nat → Bool → Bool → Int → Bool × Nat

/-- Does a LOOP or REP with no iteration to make jump to JUMP_ADDR at once? (R265, R267: not said). -/
opaque Config.zeroTripSkips : Bool

/-- A sum of loop integers that does not fit an int32 (spec/44_floating_point.md R299: widths and overflow lost). -/
opaque Config.intOverflow : Int → Int → Int

/-- The register a relative address outside 0 to NTEMP - 1 names (spec/10_state.md R24: wrap and range check lost); not bounded
by NTEMP. Log entry 18, DESIGN CHOICE. -/
opaque Config.relOutside : Nat → Int → Nat

/-- What CONTINUE does to the loops that are open (spec/43_flow_control.md R262: lost). -/
opaque Config.continueLoops : LoopState → LoopState

/-! ## The domain (spec/40_commands.md R141, R142) -/

/-- The range of index values the domain command sets, of the visible bounds and the bits beside them. A finite set; which one is
lost. Log entry 44. -/
opaque Config.domainOf : DomainBound → DomainBound → List IndexPair

end Sys2Proof
end

