-- ==== Sys2Proof/Machine/Float.lean ====
section
/-! DEFINITION. Arithmetic on single-precision patterns: what the spec fixes, with the open numerics of Config elsewhere
(spec/44_floating_point.md R290 to R295; spec/41_alu_output.md R174 to R181; spec/42_texture.md R233). -/

namespace Sys2Proof.Machine

/-- 0.5. -/
def floatHalf : Word := 0x3F000000#32

/-- 1.0. -/
def floatOne : Word := 0x3F800000#32

/-- -0. -/
def floatNegZero : Word := 0x80000000#32

/-- The exponent field. -/
def floatExp (w : Word) : Nat := (w.extractLsb' 23 8).toNat

/-- The fraction field. -/
def floatFrac (w : Word) : Nat := (w.extractLsb' 0 23).toNat

/-- The pattern without its sign bit, which rises with the magnitude. -/
def floatMag (w : Word) : Nat := (w.extractLsb' 0 31).toNat

def isNaN (w : Word) : Bool := floatExp w == 255 && floatFrac w != 0

def isInf (w : Word) : Bool := floatExp w == 255 && floatFrac w == 0

def isDenormal (w : Word) : Bool := floatExp w == 0 && floatFrac w != 0

/-- An integer that rises with the value of any pattern but a NaN; 0 for both zeros. -/
def floatKey (w : Word) : Int :=
  if w.msb then -(floatMag w : Int) else (floatMag w : Int)

/-- How a stands to b. -/
def floatOrder (a b : Word) : FloatOrder :=
  if isNaN a || isNaN b then .unordered
  else if floatKey a < floatKey b then .lt
  else if floatKey a = floatKey b then .eq
  else .gt

/-- Maximum of A and B (R174): fixed for ordered, unequal operands, infinities and denormals among them (U15, R293 leave these
open); a NaN and the two zeros are R294's. Log entry 22, DESIGN CHOICE. -/
def floatMax (a b : Word) : Word :=
  match floatOrder a b with
  | .lt => b
  | .gt => a
  | .eq => if a = b then a else if Config.maxTieA a b then a else b
  | .unordered => Config.maxOpen a b

/-- Conditional select on C against 0.5, yielding A or B (R175). An infinite C stands to 0.5 as any value above or below it
does, which 93_implementation_defined.md U15 leaves open. A or B is returned bit for bit, a denormal not flushed, which R293
leaves open. Log entry 23, DESIGN CHOICE. -/
def floatCnd (a b c : Word) : Word :=
  if Config.cndPicksA (floatOrder c floatHalf) then a else b

/-- Conditional select on C against 0, yielding A or B (R176); an infinite C, and a denormal A or B, as in `floatCnd`. Log entry
23, DESIGN CHOICE. -/
def floatCmp (a b c : Word) : Word :=
  if Config.cmpPicksA (if isDenormal c then Config.denormalOrder c else floatOrder c 0) then a else b

/-- A finite value times 2^149, which is an integer. -/
def floatScaled (w : Word) : Int :=
  let m : Nat := if floatExp w = 0 then floatFrac w else (2 ^ 23 + floatFrac w) * 2 ^ (floatExp w - 1)
  if w.msb then -(m : Int) else (m : Int)

/-- The place of the lowest of the 24 leading bits of n. -/
def lowestBit (n : Nat) : Nat :=
  Nat.log2 n - 23

/-- The pattern of the greatest single-precision number that is not above n * 2^-149, n below 2^150. -/
def floatDown (n : Nat) : Word :=
  if n < 2 ^ 23 then BitVec.ofNat 32 n
  else BitVec.ofNat 32 ((lowestBit n + 1) * 2 ^ 23 + (n / 2 ^ lowestBit n - 2 ^ 23))

/-- n * 2^-149 as a single-precision number: exactly where it is one, else one of its two neighbours, whose patterns differ by
one; which is R294's. -/
def floatRound (up : Bool) (n : Nat) : Word :=
  if n % 2 ^ lowestBit n ≠ 0 ∧ up = true then floatDown n + 1 else floatDown n

/-- A - floor(A) (R177): exact where that is a single-precision number and rounded where not; a zero for -0 and for a denormal
that is flushed; only an infinity or a NaN gives any value (R294). The zero that a whole A other than -0 gives is +0, which
spec/95_test_vectors.md V-ALU 8 shows for 3.0 and nothing fixes for the others. Log entry 24, DESIGN CHOICE. -/
def floatFrc (a : Word) : Word :=
  if floatExp a == 255 then Config.frcOpen a
  else if a == floatNegZero || (isDenormal a && Config.frcFlushes a) then
    (if Config.frcZeroNegative a then floatNegZero else 0)
  else floatRound (Config.frcRoundsUp a) (floatScaled a % 2 ^ 149).toNat

/-- "less than zero" (spec/42_texture.md R233). Log entry 28. -/
def ltZero (w : Word) : Bool :=
  if isNaN w || (w.msb && floatExp w == 0) then Config.ltZeroOpen w else w.msb

/-- The one standard NaN (R293). Log entry 27. -/
def standardNaN : Word :=
  let w := Config.standardNaNBits ||| 0x7F800000#32
  if floatFrac w = 0 then w ||| 1#32 else w

/-- The zero that replaces a denormal (R293). -/
def flushedZero (w : Word) : Word :=
  if Config.flushNegative w then floatNegZero else 0

/-- What an enabled output modifier does to every result: a NaN becomes the standard NaN, a denormal becomes zero (R181,
R293). -/
def standardize (w : Word) : Word :=
  if isNaN w then standardNaN
  else if isDenormal w then flushedZero w
  else w

/-- A zero with the sign of w. -/
def signedZero (w : Word) : Word :=
  w &&& floatNegZero

/-- The least normal number with the sign of w. -/
def leastNormal (w : Word) : Word :=
  signedZero w ||| 0x00800000#32

/-- Division by 2^k for k of 2 or 3 (R179): an infinity stays, a zero is a zero, a normal quotient is exact, and one too small to
be normal is flushed (R293) unless its rounding, which is open (R294), makes it the least normal number. Log entry 27. -/
def floatDivPow (k : Nat) (w : Word) : Word :=
  if isNaN w || isInf w || w == 0 then w
  else if w == floatNegZero then (if Config.zeroDivNegative k then floatNegZero else 0)
  else if floatExp w == k && floatFrac w == 2 ^ 23 - 1 && Config.omodRoundsUp k w then leastNormal w
  else if floatExp w ≤ k then flushedZero w
  else w - BitVec.ofNat 32 (k * 2 ^ 23)

/-- The output modifier (R179, R181, R293): with any setting but DISABLED a NaN result is the standard NaN and a denormal one a
zero. -/
def omodApply : Omod → Word → Word
  | .disabled, w => w
  | .div4, w => standardize (floatDivPow 2 w)
  | .div8, w => standardize (floatDivPow 3 w)
  | .other n, w =>
    if isNaN w then standardNaN
    else if isDenormal w then flushedZero w
    else standardize (Config.omodOther n w)

/-- The clamp to the range 0 to 1 (R180): every result but a NaN's is in the range. Log entry 27. -/
def clampApply (w : Word) : Word :=
  if isNaN w then Config.clampNaN w
  else if w.msb && floatExp w == 0 then (if Config.clampZeroNegative w then floatNegZero else 0)
  else if w.msb then 0
  else if isDenormal w && Config.clampFlushes w then (if Config.clampZeroNegative w then floatNegZero else 0)
  else if floatKey floatOne < floatKey w then floatOne
  else w

/-- The result path: the output modifier, then the clamp (R180). -/
def resultPath (m : Omod) (clamp : Bool) (w : Word) : Word :=
  if clamp then clampApply (omodApply m w) else omodApply m w

/-- An operation whose name is lost: MOV copies A's bits (spec/44_floating_point.md R295), the rest is AluOp (R178); an
addition takes two operands. -/
def unnamedEval : UnnamedOp → Word → Word → Word → Word
  | .mov, a, _, _ => a
  | .add, a, b, _ => Config.aluOp .add a b 0
  | .other n, a, b, c => Config.aluOp (.other n) a b c

/-- One engine's operation on one channel. A copy takes no operand: `AluEngines` gives it the other engine's result. -/
def aluEval : AluOp → Word → Word → Word → Word
  | .max, a, b, _ => floatMax a b
  | .cnd, a, b, c => floatCnd a b c
  | .cmp, a, b, c => floatCmp a b c
  | .frc, a, _, _ => floatFrc a
  | .unnamed u, a, b, c => unnamedEval u a b c
  | .copy, a, _, _ => a

end Sys2Proof.Machine
end

