-- ==== Sys2Proof/Machine/State.lean ====
section
/-! DEFINITION. The state of the machine as plain data, why a step can stop, and the state after reset
(spec/10_state.md; INVENTORY.md '## State' lists every field with its rule and reset value). -/

namespace Sys2Proof.Machine

/-- Why the machine stops with a fault (spec/60_exceptions.md R310). A fault is no event of the hardware, which reports none. -/
inductive Fault where
  /-- TEX_SEM_ACQUIRE without TEX_SEM_WAIT (spec/42_texture.md R223). Raised by `issue`. Safe. -/
  | acquireWithoutWait
  /-- A read of a register an outstanding lookup owns (R229). Raised by `checkRegs`. Safe. -/
  | ownedRegisterRead
  /-- A write of such a register, by an instruction or another lookup (R229). Raised by `checkRegs`. Safe. -/
  | ownedRegisterWrite
  /-- A loop or a branch nested deeper than the mode allows (spec/43_flow_control.md R261). Raised by the flow-control
  meanings. Safe. -/
  | stackOverflow
  /-- ENDLOOP or ENDREP with no loop open (R261). Raised by their meanings. Safe. -/
  | stackUnderflow
  /-- The pc passed the program's end without issuing its last OUTPUT (spec/10_state.md R25). Raised by `issueNext`. Safe. -/
  | pcPastEnd
  /-- The PE's buffer or the listed memory ends inside a command. Raised by `peFetch`. Safe. -/
  | commandCut
  deriving DecidableEq, Repr

/-- Why the model gives something no meaning (spec/60_exceptions.md R310, with this model's own reasons after the spec's). -/
inductive Refusal where
  /-- An instruction that has no meaning yet. Raised by `exec`. Safe. -/
  | notModelled (mnemonic : String)
  /-- A reserved bit is set (spec/30_encoding.md R110). Raised by `peFetch` on what the decoder says. Safe. -/
  | reservedNonzero
  /-- A reserved or lost value (R110; spec/40_commands.md R147). Raised by `peFetch`. Safe. -/
  | reservedValue
  /-- An opcode word the spec does not give (spec/40_commands.md R132). Raised by `peFetch`. Safe. -/
  | unknownCommand
  /-- An output or uncached write into the program's memory (spec/20_memory.md R76). Raised by the OUTPUT meaning. Safe. -/
  | writeIntoProgram
  /-- Two instances write the same location, or one reads what another wrote (R68; spec/60_exceptions.md R320; decision D22).
  Raised by the performing of a lookup and by the meanings of OUTPUT and, for their constants, of ALU rows, LOOP and REP. Safe. -/
  | outputRace
  /-- The use of a descriptor that no command has set (spec/10_state.md R46, decision D21). Raised by the meanings of lookups, ALU
  rows, OUTPUT, LOOP, REP and the program start. Safe. -/
  | descriptorNotSet
  /-- A file that is no 32-bit ELF object with a .text section (spec/70_reset_and_hazards.md R343, R344). Raised by
  `State.loadProgram`. Safe. -/
  | notAnExecutable
  /-- A command area that is not 4-byte aligned (R66). Raised by `peFetch`. Safe. -/
  | misalignedCommands
  /-- A command in a program. Raised by `issueNext`. Safe. -/
  | notAnInstruction
  /-- An ill-formed term (WellFormed.lean). Raised by `issueNext`. Safe. -/
  | illFormed
  deriving DecidableEq, Repr

/-- The texture semaphore: free, or held since the operation of this sequence number (spec/10_state.md R26). -/
inductive Sem where
  | free
  | held (k : Nat)
  deriving DecidableEq, Repr, Inhabited

/-- What an outstanding operation of the texture unit is (R27; spec/90_conflicts.md C7). -/
inductive PendOp where
  | lookup (o : LookupOp)
  | kill
  | write
  deriving DecidableEq, Repr, Inhabited

/-- One processor's part of an outstanding operation: values read at issue (spec/42_texture.md R230). -/
structure Lane where
  xy : IndexPair
  /-- The coordinates of a lookup, or the components a kill examines. -/
  coords : Vec4
  /-- The components a lookup writes or a kill examines. -/
  mask : Mask
  /-- The bytes an uncached write stores. -/
  cells : List Host.Cell
  deriving DecidableEq, Repr, Inhabited

/-- An outstanding operation (spec/10_state.md R27). -/
structure Pend where
  seq : Nat
  op : PendOp
  sampler : Nat
  unscaled : Bool
  dst : Nat
  lanes : List Lane
  /-- The tick by which the texture unit has performed it (spec/42_texture.md R219, decision D7). Log entry 8. -/
  due : Nat
  deriving DecidableEq, Repr, Inhabited

/-- A processor of the array (spec/60_exceptions.md R317). Two of its fields are the model's choices. Log entry 20, DESIGN
CHOICE. -/
structure Proc where
  xy : IndexPair
  /-- The temporaries written since the launch, by rising number; the others read as `initialTemp` says. -/
  temps : List (Nat × Vec4)
  killed : Bool
  active : Bool
  counter : Int
  /-- The predicate bits: four, one for each of the channels R, G, B, A. Their number is lost (spec/10_state.md R30; N9). -/
  pred : Mask
  /-- alu_result: one for each processor. Whether it belongs to the processor or to the stream is not said (R31, R317). -/
  aluResult : Bool
  /-- The last result of the RGB engine (r, g, b) and of the alpha engine (a): what a later cross-engine copy takes. -/
  last : Vec4
  deriving DecidableEq, Repr, Inhabited

/-- An instruction stream: a group of processors that issue together (spec/92_eei_decisions.md D5). -/
structure Stream where
  pc : Nat
  sem : Sem
  /-- The tick by which a held semaphore is released once it can be (decision D7). Log entry 8. -/
  semDue : Nat
  pending : List Pend
  seq : Nat
  procs : List Proc
  /-- How many branches the stream is inside: its branch operations' increments less what decrements took (spec/43_flow_control.md
  R260). Log entry 14. -/
  depth : Nat
  loops : LoopState
  callStack : List Nat
  done : Bool
  /-- Space in the output register fifo is reserved (spec/41_alu_output.md R186). One record for each stream: whose it is, is
  not said (spec/60_exceptions.md R317). Log entry 53, DESIGN CHOICE. -/
  fifoReserved : Bool
  deriving DecidableEq, Repr, Inhabited

/-- The temporaries a launch writes for one instance (spec/70_reset_and_hazards.md R341). -/
structure EntryRegs where
  xy : IndexPair
  regs : List (Nat × Vec4)
  deriving DecidableEq, Repr, Inhabited

/-- The descriptor of an input or output: the parts that commands have set (R41). -/
structure Slot where
  base : Option Word
  layout : Option Layout
  deriving DecidableEq, Repr, Inhabited

/-- Control state that commands and the launch set (spec/10_state.md R41); none where nothing has set it (R46). -/
structure Control where
  floatConsts : Option ConstBuf
  consti : Option ConstBuf
  programDesc : Option Desc
  condBuf : Option Word
  inputs : List (Nat × Slot)
  outs : List (Nat × Slot)
  cond : Condition
  i0 : BitVec 12
  j0 : BitVec 12
  /-- The size parameter, and the base address that follows it (spec/40_commands.md R140). -/
  sizeParam : BitVec 13
  sizeBase : Option Word
  domain : List IndexPair
  entryRegs : List EntryRegs
  mode : FlowMode
  /-- The boolean constants; how many there are is not given, so any number (R37). Log entry 45, DESIGN CHOICE. -/
  bools : List Bool
  pipeFlushed : Bool
  deriving DecidableEq, Repr, Inhabited

/-- A command buffer the host submitted (spec/40_commands.md R152). -/
structure Submission where
  id : Word
  addr : Nat
  size : Nat
  deriving DecidableEq, Repr, Inhabited

/-- An opcode word that is lost: this command's, at this address. Memory lists nothing at its four bytes, so whatever is written
there later stands in its place (R132; spec/30_encoding.md R101). Log entry 36. -/
structure PlacedOp where
  addr : Nat
  cmd : LostCommand
  /-- The input or output the command names: how it does is lost (R137). -/
  index : Nat
  deriving DecidableEq, Repr, Inhabited

/-- The Processor Execution unit (spec/40_commands.md R130, R131). -/
structure Pe where
  ptr : Nat
  limit : Nat
  current : Option Word
  queue : List Submission
  consumed : List Word
  nextId : Word
  ops : List PlacedOp
  deriving DecidableEq, Repr

/-- What one OUTPUT wrote for one instance (spec/20_memory.md R72 to R74), or may write for a killed one (spec/42_texture.md
R215). -/
structure WriteRec where
  run : Nat
  xy : IndexPair
  /-- The tick at which the OUTPUT issued. -/
  issued : Nat
  /-- An uncached write with an acquiring choice. -/
  acquired : Bool
  /-- The stream's sequence counter when an instruction with WAIT first issued after the acquire was released. -/
  synced : Option Nat
  /-- Its processor was killed: whether it reaches memory is unsaid (spec/42_texture.md R215, decision D10). -/
  unsaid : Bool
  cells : List Host.Cell
  deriving DecidableEq, Repr, Inhabited

/-- Locations one instance of the running program has read (spec/60_exceptions.md R320). -/
structure ReadRec where
  xy : IndexPair
  addrs : List Nat
  deriving DecidableEq, Repr, Inhabited

/-- An output event (spec/41_alu_output.md R188). -/
structure OutputEvent where
  run : Nat
  xy : IndexPair
  out : Nat
  uncached : Bool
  vals : List Masked
  /-- The CO's test passed, so output write requests were dispatched (spec/40_commands.md R148). -/
  written : Bool
  deriving DecidableEq, Repr, Inhabited

/-- How an instance ended (spec/42_texture.md R215, R236). -/
inductive EndKind where
  | normal | killed
  deriving DecidableEq, Repr, Inhabited

/-- Performance counters (spec/10_state.md R43). -/
structure Perf where
  counting : Bool
  /-- Parameter 0 of the last start or stop command, whose meaning is lost. -/
  param : Word
  /-- The counters that are enabled (R41, R43; spec/60_exceptions.md R318). -/
  enabled : List Nat
  /-- The counters that have counted, by rising number; the others are 0. -/
  counters : List (Nat × Nat)
  deriving DecidableEq, Repr, Inhabited

/-- The whole machine. -/
structure State where
  pe : Pe
  ctl : Control
  program : List Instr
  /-- Where the loader placed the program (spec/70_reset_and_hazards.md R342). -/
  programAt : Option Word
  int32Refs : List Word
  /-- The program's file has an early-exit note (R348). -/
  earlyExit : Bool
  running : Bool
  waiting : List IndexPair
  /-- The stream that issued last, and the others that run beside it (spec/10_state.md R40). -/
  stream : Stream
  others : List Stream
  runNo : Nat
  mem : List Host.Cell
  writes : List WriteRec
  reads : List ReadRec
  outputs : List OutputEvent
  ended : List (IndexPair × EndKind)
  /-- The MC conditional output cache: the buffer's base and the index pair of a request, and its value (spec/20_memory.md
  R78). -/
  condCache : List ((Word × IndexPair) × Word)
  perf : Perf
  tick : Nat
  deriving DecidableEq, Repr

/-- A processor after reset: idle, every register zero. Log entry 4, DESIGN CHOICE. -/
def Proc.reset : Proc :=
  { xy := ⟨0, 0⟩, temps := [], killed := false, active := true, counter := 0, pred := Quad.all false,
    aluResult := false, last := Quad.all 0 }

def LoopState.reset : LoopState :=
  { aL := 0, loopStack := [], repStack := [] }

/-- The instruction stream after reset: nothing issued, nothing outstanding, the semaphore free (R46). -/
def Stream.reset : Stream :=
  { pc := 0, sem := .free, semDue := 0, pending := [], seq := 0, procs := [Proc.reset], depth := 0
    loops := LoopState.reset, callStack := [], done := false, fifoReserved := false }

def Control.reset : Control :=
  { floatConsts := none, consti := none, programDesc := none, condBuf := none, inputs := [], outs := [], cond := .never
    i0 := 0, j0 := 0, sizeParam := 0, sizeBase := none, domain := [], entryRegs := [],
    mode := .partialMode, bools := [], pipeFlushed := false }

def Pe.reset : Pe :=
  { ptr := 0, limit := 0, current := none, queue := [], consumed := [], nextId := 0, ops := [] }

/-- The machine after reset: all processors idle, no command buffer, no program, memory with nothing listed. The source gives
no reset value (spec/10_state.md R46; spec/70_reset_and_hazards.md R340). Log entry 4, DESIGN CHOICE. -/
def State.reset : State :=
  { pe := Pe.reset, ctl := Control.reset, program := [], programAt := none, int32Refs := [], earlyExit := false
    running := false, waiting := [], stream := Stream.reset, others := [], runNo := 0, mem := [], writes := [], reads := []
    outputs := [], ended := [], condCache := [],
    perf := { counting := false, param := 0, enabled := [], counters := [] }, tick := 0 }

end Sys2Proof.Machine
end

