-- ==== Sys2Proof/Machine/Ops.lean ====
section
/-! DEFINITION. The shared operations: keyed lists, memory and what a read sees of it, registers, the semaphore and the common
issue procedure (spec/42_texture.md R212). The hardware takes no exception and returns from none (spec/60_exceptions.md R311,
R314), so there is no entry or return operation: a fault or refusal is the model's own stop. -/

namespace Sys2Proof.Machine

/-- The outcome of an instruction or a step. -/
abbrev Result := Host.Outcome State Fault Refusal

/-! ## Lists keyed by a number, in rising order -/

/-- The value at a key. -/
def assocGet {α : Type} : List (Nat × α) → Nat → Option α
  | [], _ => none
  | (j, v) :: t, k => if j = k then some v else assocGet t k

/-- The list with a value at a key, its keys still rising. -/
def assocSet {α : Type} : List (Nat × α) → Nat → α → List (Nat × α)
  | [], k, v => [(k, v)]
  | (j, u) :: t, k, v =>
    if k < j then (k, v) :: (j, u) :: t
    else if k = j then (k, v) :: t
    else (j, u) :: assocSet t k v

/-- The keys rise strictly: one canonical form for each map. -/
abbrev Rising {α : Type} (l : List (Nat × α)) : Prop :=
  (l.map Prod.fst).Pairwise (· < ·)

/-! ## Memory (spec/20_memory.md R60, R65) -/

/-- The byte at an address; none where nothing has been written: an unlisted address has no value. Log entry 35. -/
def Memory.read (m : List Host.Cell) (a : Nat) : Option Byte :=
  assocGet m a

def Memory.write (m : List Host.Cell) (a : Nat) (v : Byte) : List Host.Cell :=
  assocSet m a v

/-- Write every cell, the last one last. -/
def Memory.writeAll : List Host.Cell → List Host.Cell → List Host.Cell
  | m, [] => m
  | m, c :: cs => Memory.writeAll (Memory.write m c.1 c.2) cs

/-- The canonical form of memory: addresses strictly rising, all within the 32-bit space (R60). -/
abbrev Memory.wf (m : List Host.Cell) : Prop :=
  Rising m ∧ ∀ c ∈ m, c.1 < 2 ^ 32

/-- The byte address at an offset from a base (R64). Log entry 47. -/
def cellAddr (base : Word) (off : Nat) : Nat :=
  (base + BitVec.ofNat 32 off).toNat

/-- Bytes as cells from an offset from a base on. -/
def cellsFrom (base : Word) (off : Nat) (bs : List Byte) : List Host.Cell :=
  bs.zipIdx.map fun e => (cellAddr base (off + e.2), e.1)

/-- How many bytes an element of a format takes (R63). -/
def elemSize : DataFormat → Nat
  | .uint16x1 => 2
  | .uint8x4 => 4
  | .float32x1 => 4
  | .float32x2 => 8
  | .float32x4 => 16

/-! ## What a read sees (spec/20_memory.md R71 to R74, R78). Log entry 31 -/

/-- The launch memory's byte: a parameter of the launch where the model lists none. -/
def plainByte (m : List Host.Cell) (a : Nat) : Byte :=
  (Memory.read m a).getD (Config.launchByte a)

def WriteRec.covers (w : WriteRec) (a : Nat) : Bool :=
  (Memory.read w.cells a).isSome

/-- The recorded writes that touch an address, oldest first. -/
def State.writesAt (s : State) (a : Nat) : List WriteRec :=
  s.writes.filter fun w => w.covers a

/-- Is this write one R72 guarantees to an operation of sequence number k of this instance: its own, acquired, and waited on
before that operation issued? -/
def WriteRec.granted (w : WriteRec) (run : Nat) (xy : IndexPair) (k : Nat) : Bool :=
  w.run == run && w.xy == xy &&
    match w.synced with
    | none => false
    | some j => decide (j < k)

/-- The writes from the last granted one on; none if no write is granted. -/
def fromLastGranted (run : Nat) (xy : IndexPair) (k : Nat) : List WriteRec → List WriteRec
  | [] => []
  | w :: ws =>
    match fromLastGranted run xy k ws with
    | [] => if w.granted run xy k then w :: ws else []
    | r :: rs => r :: rs

/-- Byte j, at address a, of the element at address e, as a cached read sees it: the launch's data, or a draw where any program
wrote (R74). A read of an element is one event (R68): its draw is one, of all the element's bytes. -/
def State.cachedByte (s : State) (xy : IndexPair) (e j a : Nat) : Byte :=
  match s.writesAt a with
  | [] => plainByte s.mem a
  | _ :: _ => Config.drawElem s.tick xy e j

/-- The newest of these writes that the read of the element at e sees, after one that it is guaranteed. -/
def newestSeen (tick : Nat) (xy : IndexPair) (e : Nat) : WriteRec → List WriteRec → WriteRec
  | g, [] => g
  | g, w :: ws => newestSeen tick xy e (if Config.seesWrite tick xy e w.issued then w else g) ws

/-- Byte j, at address a, of the element at address e, as an uncached read by operation k of an instance sees it: the last granted
write's data or a later one's; a draw if the location was written but nothing is granted; else the launch's data (R72). -/
def State.uncachedByte (s : State) (xy : IndexPair) (k e j a : Nat) : Byte :=
  match s.writesAt a with
  | [] => plainByte s.mem a
  | w :: ws =>
    match fromLastGranted s.runNo xy k (w :: ws) with
    | [] => Config.drawElem s.tick xy e j
    | g :: later =>
      (Memory.read (newestSeen s.tick xy e g later).cells a).getD (Config.drawElem s.tick xy e j)

/-- The n bytes of an element at an offset from a base, as a cached read: one event (R67, R68). -/
def State.cachedElem (s : State) (xy : IndexPair) (base : Word) (off n : Nat) : List Byte :=
  (List.range n).map fun j => s.cachedByte xy (cellAddr base off) j (cellAddr base (off + j))

/-- Did another instance of this run write the address? (R68). Log entry 41. -/
def State.writtenByOther (s : State) (xy : IndexPair) (a : Nat) : Bool :=
  s.writes.any fun w => w.run == s.runNo && w.xy != xy && w.covers a

/-- Has another instance of this run looked up the address? (spec/60_exceptions.md R320). Log entry 41. -/
def State.readByOther (s : State) (xy : IndexPair) (a : Nat) : Bool :=
  s.reads.any fun r => r.xy != xy && r.addrs.contains a

/-- Would these reads see what another instance of this run wrote? (spec/60_exceptions.md R320, decision D22). Log entry 41. -/
def State.readsRace (s : State) (rs : List ReadRec) : Bool :=
  rs.any fun r => r.addrs.any (s.writtenByOther r.xy)

/-- Record reads. -/
def State.noteReads (s : State) (rs : List ReadRec) : State :=
  { s with reads := s.reads ++ rs }

/-- Read memory on behalf of instances: refused where another instance wrote; else recorded, and the state is the one given. -/
def takeReads (s : State) (rs : List ReadRec) (t : State) : Result :=
  if s.readsRace rs then .refused .outputRace else .next (t.noteReads rs)

/-! ## Temporary registers (spec/10_state.md R20 to R23) -/

/-- What a register nothing has written reads as: zero after reset, a free value in a program run. Log entries 4, 5. -/
def initialTemp (run : Nat) (xy : IndexPair) (d : Nat) : Vec4 :=
  match run with
  | 0 => Quad.all 0
  | n + 1 => Config.unwrittenTemp n xy d

def Proc.temp (p : Proc) (run d : Nat) : Vec4 :=
  (assocGet p.temps d).getD (initialTemp run p.xy d)

/-- Write the components of register d that the mask selects (spec/41_alu_output.md R182). -/
def Proc.writeTemp (p : Proc) (run d : Nat) (mask : Mask) (v : Vec4) : Proc :=
  { p with temps := assocSet p.temps d (Quad.merge mask v (p.temp run d)) }

/-- A processor whose instructions have effects: active and not killed (spec/42_texture.md R214, R215). -/
def Proc.live (p : Proc) : Bool :=
  p.active && !p.killed

/-! ## The instruction stream -/

/-- Replace the stream. -/
def State.withStream (s : State) (st : Stream) : State :=
  { s with stream := st }

/-- Apply an instruction's effect to every live processor. -/
def State.onLive (s : State) (f : Proc → Proc) : State :=
  s.withStream { s.stream with procs := s.stream.procs.map fun p => if p.live then f p else p }

def State.anyLive (s : State) : Bool :=
  s.stream.procs.any Proc.live

def Pend.isLookup (e : Pend) : Bool :=
  match e.op with
  | .lookup _ => true
  | .kill => false
  | .write => false

/-- Is register d the destination of an outstanding lookup? The whole register is owned (spec/42_texture.md R229). -/
def Stream.owned (st : Stream) (d : Nat) : Bool :=
  st.pending.any fun e => e.isLookup && e.dst == d

/-- The register checks of an effect: the sources, then the destination (R229; spec/60_exceptions.md R313). -/
def checkRegs (s : State) (reads writes : List Nat) (k : Result) : Result :=
  if reads.any s.stream.owned then .fault .ownedRegisterRead
  else if writes.any s.stream.owned then .fault .ownedRegisterWrite
  else k

/-- Add an outstanding operation (spec/10_state.md R27). -/
def State.addPending (s : State) (e : Pend) : State :=
  s.withStream { s.stream with pending := s.stream.pending ++ [e] }

/-! ## The semaphore and the common issue procedure (spec/42_texture.md R212, R220 to R225) -/

/-- A stream's instruction with WAIT issues: the acquired uncached writes of its processors before it are complete
(spec/20_memory.md R72). -/
def WriteRec.sync (w : WriteRec) (run : Nat) (st : Stream) : WriteRec :=
  { w with synced :=
      if w.acquired && w.run == run && st.procs.any (fun p => p.xy == w.xy) then w.synced.or (some st.seq) else w.synced }

def State.syncWrites (s : State) : State :=
  { s with writes := s.writes.map fun w => w.sync s.runNo s.stream }

/-- Does an instruction with this WAIT bit hold now? (R222). -/
def State.holds (s : State) (wait : Bool) : Bool :=
  wait && s.stream.sem != .free

/-- The state an instruction goes on from, having waited or not. -/
def State.waited (s : State) (wait : Bool) : State :=
  if wait then s.syncWrites else s

/-- Step 2 of R212: a hold changes nothing; otherwise go on, having waited. -/
def gate (wait : Bool) (s : State) (k : State → Result) : Result :=
  if s.holds wait then .next s
  else k (s.waited wait)

/-- Step 3 of R212 for a texture instruction or an uncached write: the next sequence number. -/
def State.bumpSeq (s : State) : State :=
  s.withStream { s.stream with seq := s.stream.seq + 1 }

/-- The state an effect starts from: waited, and numbered if the instruction takes a number. -/
def State.ready (s : State) (wait takesSeq : Bool) : State :=
  if takesSeq then (s.waited wait).bumpSeq else s.waited wait

/-- The tick by which the texture unit has done what is asked of it now (R219, decision D7). Log entry 8. -/
def State.deadline (s : State) : Nat :=
  s.tick + Config.patience s.tick

/-- Steps 4 and 5 of R212: acquire, then move on. -/
def State.finishIssue (s : State) (acquire : Bool) (k : Nat) : State :=
  s.withStream { s.stream with
    sem := if acquire then .held k else s.stream.sem
    semDue := if acquire then s.deadline else s.stream.semDue
    pc := s.stream.pc + 1 }

/-- The effect and steps 4 and 5 of R212, from the state that is ready. -/
def issueBody (acquire : Bool) (effect : State → Nat → Result) (s : State) : Result :=
  match effect s s.stream.seq with
  | .next t => .next (t.finishIssue acquire s.stream.seq)
  | .fault f => .fault f
  | .refused r => .refused r

/-- The common issue procedure (R212) of every instruction but flow control: ACQUIRE needs WAIT, then the wait, then the rest. -/
def issue (wait acquire takesSeq : Bool) (s : State) (effect : State → Nat → Result) : Result :=
  if acquire && !wait then .fault .acquireWithoutWait
  else if s.holds wait then .next s
  else issueBody acquire effect (s.ready wait takesSeq)

end Sys2Proof.Machine
end

