-- ==== Sys2Proof/Machine/Flags.lean ====
section
/-! DEFINITION. The condition bits: predication, predicate bits, alu_result and the kill test (spec/10_state.md R29 to R31;
spec/41_alu_output.md R182, R183). The hardware has no other flags (spec/44_floating_point.md R291). -/

namespace Sys2Proof.Machine

/-- The channels a predication control enables for a processor. Log entry 19. -/
def Proc.enabled (p : Proc) (pred : Option Nat) : Mask :=
  match pred with
  | none => Quad.all true
  | some code => Quad.ofFn fun c => Config.predEnable code p.pred c

/-- The channels in both masks. -/
def maskInter (m n : Mask) : Mask :=
  Quad.ofFn fun c => m.get c && n.get c

/-- The predicate bits after an ALU instruction whose output mask is m (R182). Log entry 20. -/
def Proc.predAfter (p : Proc) (tick : Nat) (m : Mask) (v : Vec4) : Mask :=
  Quad.ofFn fun c => if m.get c then Config.predicateBit tick p.xy c (v.get c) else p.pred.get c

/-- alu_result after an ALU instruction (R31). Log entry 20. -/
def Proc.aluResultAfter (p : Proc) (tick : Nat) : Bool :=
  Config.aluResultAfter tick p.xy p.aluResult

/-- Does a kill's test find a component less than zero among those examined? (spec/42_texture.md R215). -/
def killTest (mask : Mask) (v : Vec4) : Bool :=
  (mask.r && ltZero v.r) || (mask.g && ltZero v.g) || (mask.b && ltZero v.b) || (mask.a && ltZero v.a)

end Sys2Proof.Machine
end

