-- ==== Sys2Proof/WellFormed.lean ====
section
/-! DEFINITION. Which instruction terms are well formed: addresses within the register file and the samplers
(spec/30_encoding.md R108), an acquire choice only where the instruction has one (spec/41_alu_output.md R187). -/

namespace Sys2Proof

/-- A temporary address below NTEMP; a relative one is resolved when the instruction issues, and its base is not bounded: the
spec bounds dst_addr and src_addr (R108) and does not say whether a relative address's base is one of them. Log entry 18, DESIGN
CHOICE. -/
def TempAddr.wf (a : TempAddr) : Bool :=
  a.rel || decide (a.base < Config.ntemp)

/-- Both addresses below NTEMP, the sampler ID below NSAMP. -/
def TexFields.wf (t : TexFields) : Bool :=
  t.dst.wf && t.src.wf && decide (t.sampler < Config.nsamp)

/-- A source carries the number of a floating-point constant, which is not bounded: how a source selects one, and how many there
are, is lost (spec/10_state.md R35; spec/41_alu_output.md R171). Log entry 21, DESIGN CHOICE. -/
def SrcAddr.wf : SrcAddr → Bool
  | .temp a => a.wf
  | .floatConst _ => true
  | .inline _ => true

def AluSources.wf (s : AluSources) : Bool :=
  s.rgb0.wf && s.rgb1.wf && s.rgb2.wf && s.alpha0.wf && s.alpha1.wf && s.alpha2.wf

def CopyHalf.wf : CopyHalf → Bool
  | .toRgb p o => p.dst.wf && o.all (·.part.dst.wf)
  | .toAlpha p o => p.dst.wf && o.all (·.part.dst.wf)

def UnnamedHalf.wf : UnnamedHalf → Bool
  | .rgb _ p o => p.dst.wf && o.all (·.part.dst.wf)
  | .alpha _ p o => p.dst.wf && o.all (·.part.dst.wf)

/-- Only an OUTPUT in uncached write mode has an acquire choice (R187; spec/42_texture.md R212). The output's number is not
bounded: the number of outputs is lost (spec/10_state.md R39). Nor is the number of temporaries it sends, all under one output
mask, none too: its operands are lost (R188). Log entries 6, 32, DESIGN CHOICE. -/
def OutputFields.wf (o : OutputFields) : Bool :=
  o.srcs.all TempAddr.wf && (!o.acquire || o.uncached)

/-- Well-formedness of a term of any row. Flow-control terms and commands carry no field that a bound limits: the widths of
B_POP_CNT and of the loops' integer-constant selector are lost (spec/43_flow_control.md R264, R265; N24), and any number is well
formed. Log entry 14, DESIGN CHOICE. -/
def Instr.wf : Instr → Bool
  | .texNop t | .texLookup t | .texKillLtZero t | .texLookupProj t | .texLookupUncached t => t.wf
  | .opRgbMax p co c | .opRgbCnd p co c | .opRgbCmp p co c | .opRgbFrc p co c =>
    p.dst.wf && co.all (·.part.dst.wf) && c.src.wf
  | .opAlphaMax p co c | .opAlphaCnd p co c | .opAlphaCmp p co c | .opAlphaFrc p co c =>
    p.dst.wf && co.all (·.part.dst.wf) && c.src.wf
  | .aluUnnamed h c => h.wf && c.src.wf
  | .aluCrossEngineCopy h c => h.wf && c.src.wf
  | .output o => o.wf
  | .fcJump _ | .fcLoop _ _ | .fcEndloop _ | .fcRep _ _ | .fcEndrep _ | .fcContinue _ => true
  | .setConstiFmt _ _ | .setCondTest _ | .readPerfCounters _ | .floatConstFmt _ _ => true
  | .inputBase _ _ | .outputBase _ _ | .programData _ _ | .sizeParameter _ => true
  | .domainBounds _ _ | .programStart | .perfControl _ _ => true

end Sys2Proof
end

