-- ==== Sys2Proof/Decode.lean ====
section
/-! DEFINITION. The decoder of command words and, after it, the encoder (spec/30_encoding.md R101, R102, R110;
spec/20_memory.md R61 to R63, R65). Only two commands have known opcode words; no DPP instruction has a binary encoding
(R100, R108). -/

namespace Sys2Proof

/-- Why bytes are no command. -/
inductive DecodeError where
  /-- Fewer bytes than the opcode word and its parameters take. -/
  | truncated
  /-- An opcode word the spec does not give (R102, R132). -/
  | unknownCommand
  /-- A reserved bit is set (R110). -/
  | reservedNonzero
  /-- A reserved or lost value: format 5 to 7 (R63), condition 2 to 7 (R147). -/
  | reservedValue
  deriving DecidableEq, Repr

/-- The first little-endian word of a byte list, and the rest (R65). -/
def takeWord : List Byte → Option (Word × List Byte)
  | b0 :: b1 :: b2 :: b3 :: rest => some (b3 ++ b2 ++ b1 ++ b0, rest)
  | _ => none

/-- The base-address parameter: bits 10:0 reserved, 31:11 the address (R61). -/
def decodeBase (p : Word) : Except DecodeError BaseParam :=
  if p.extractLsb' 0 11 ≠ 0 then .error .reservedNonzero
  else .ok ⟨p.extractLsb' 11 21⟩

/-- The data format of a 3-bit field (R63). -/
def decodeDataFormat (v : BitVec 3) : Except DecodeError DataFormat :=
  match v.toNat with
  | 0 => .ok .uint16x1
  | 1 => .ok .uint8x4
  | 2 => .ok .float32x1
  | 3 => .ok .float32x2
  | 4 => .ok .float32x4
  | _ => .error .reservedValue

/-- The format parameter: 12:2 pitch, 17:16 tiling, 26:24 format, the rest reserved (R62). -/
def decodeFormat (p : Word) : Except DecodeError FormatParam :=
  if p.extractLsb' 0 2 ≠ 0 ∨ p.extractLsb' 13 3 ≠ 0 ∨ p.extractLsb' 18 6 ≠ 0 ∨ p.extractLsb' 27 5 ≠ 0 then
    .error .reservedNonzero
  else
    match decodeDataFormat (p.extractLsb' 24 3) with
    | .ok f => .ok ⟨p.extractLsb' 2 11, p.extractLsb' 16 2, f⟩
    | .error e => .error e

/-- The condition parameter: bits 2:0; 0 Never, 1 Less (spec/40_commands.md R147). -/
def decodeCondition (p : Word) : Except DecodeError Condition :=
  if p.extractLsb' 3 29 ≠ 0 then .error .reservedNonzero
  else
    match (p.extractLsb' 0 3).toNat with
    | 0 => .ok .never
    | 1 => .ok .less
    | _ => .error .reservedValue

/-- The opcode word of set_consti_fmt (R102). -/
def opcodeSetConstiFmt : Word := 0xC0010F00#32

/-- The opcode word of set_cond_test (R102). -/
def opcodeSetCondTest : Word := 0xC0001B00#32

/-- The command an opcode word and the bytes after it spell, and the bytes left over. The whole opcode word is matched
(R102). -/
def decodeAfter (op : Word) (rest : List Byte) : Except DecodeError (Instr × List Byte) :=
  if op = opcodeSetConstiFmt then
    match takeWord rest with
    | none => .error .truncated
    | some (p0, rest1) =>
      match takeWord rest1 with
      | none => .error .truncated
      | some (p1, rest2) =>
        match decodeBase p0, decodeFormat p1 with
        | .ok b, .ok f => .ok (.setConstiFmt b f, rest2)
        | .error e, _ => .error e
        | .ok _, .error e => .error e
  else if op = opcodeSetCondTest then
    match takeWord rest with
    | none => .error .truncated
    | some (p0, rest1) =>
      match decodeCondition p0 with
      | .ok c => .ok (.setCondTest c, rest1)
      | .error e => .error e
  else .error .unknownCommand

/-- Decode one command from bytes: the command and the bytes after it, or why not. -/
def decode (bs : List Byte) : Except DecodeError (Instr × List Byte) :=
  match takeWord bs with
  | none => .error .truncated
  | some (op, rest) => decodeAfter op rest

/-- How many bytes the longest decodable command takes: an opcode word and two parameters. -/
def maxCommandBytes : Nat := 12

/-- The n lowest bytes of a number, least significant first. -/
def bytesOfNat : Nat → Nat → List Byte
  | 0, _ => []
  | n + 1, w => BitVec.ofNat 8 w :: bytesOfNat n (w / 256)

/-- The bytes of the instruction whose lowest nbits bits are w and whose other bits are 0. -/
def tableBytes (nbits w : Nat) : List Byte :=
  bytesOfNat maxCommandBytes (w % 2 ^ nbits)

/-- The command whose bits are w, numbered as spec/opcode_table.json numbers them. -/
def decodeTableWord (nbits w : Nat) : Option Instr :=
  match decode (tableBytes nbits w) with
  | .ok (i, _) => some i
  | .error _ => none

/-! ## Commands whose opcode word is lost: their parameters (spec/40_commands.md R134 to R145). Log entry 36 -/

/-- The fixed number of parameters a command takes: given for two (R136, R145), else what the spec shows
and an unknown rest; every command has at least one (spec/30_encoding.md R101). That the base-address parameter which R140 says
follows the size parameter "on the same page" is the size command's second parameter, not another command's, is the model's. Log
entry 36, DESIGN CHOICE. -/
def LostCommand.params : LostCommand → Nat
  | .readPerfCounters => 1
  | .floatConstFmt => 2
  | .inputBase => 1 + Config.extraParams .inputBase
  | .outputBase => 1 + Config.extraParams .outputBase
  | .programData => 2 + Config.extraParams .programData
  | .sizeParameter => 2 + Config.extraParams .sizeParameter
  | .domain => 2 + Config.extraParams .domain
  | .programStart => 1 + Config.extraParams .programStart
  | .perfStart => 1 + Config.extraParams .perfStart
  | .perfStop => 1 + Config.extraParams .perfStop
  | .inputFormat => 1 + Config.extraParams .inputFormat
  | .outputFormat => 1 + Config.extraParams .outputFormat
  | .condBufBase => 1 + Config.extraParams .condBufBase
  | .perfEnable => 1 + Config.extraParams .perfEnable

/-- The first n little-endian words of a byte list, and the rest (R65). -/
def takeWords : Nat → List Byte → Option (List Word × List Byte)
  | 0, bs => some ([], bs)
  | n + 1, bs =>
    match takeWord bs with
    | none => none
    | some (w, rest) =>
      match takeWords n rest with
      | none => none
      | some (ws, rest2) => some (w :: ws, rest2)

/-- A command from a base-address parameter. -/
def withBase (p : Word) (f : BaseParam → Command) : Except DecodeError Command :=
  match decodeBase p with
  | .ok b => .ok (f b)
  | .error e => .error e

/-- A command from a format parameter. -/
def withFormat (p : Word) (f : FormatParam → Command) : Except DecodeError Command :=
  match decodeFormat p with
  | .ok x => .ok (f x)
  | .error e => .error e

/-- A command from a base-address and a format parameter. -/
def withBaseFormat (p q : Word) (f : BaseParam → FormatParam → Command) : Except DecodeError Command :=
  match decodeBase p with
  | .ok b => withFormat q (f b)
  | .error e => .error e

/-- The size parameter: bits 31:13 reserved, 12:0 the size (R140); then a base-address parameter (log entry 36, DESIGN CHOICE). -/
def decodeSize (p q : Word) : Except DecodeError Command :=
  if p.extractLsb' 13 19 ≠ 0 then .error .reservedNonzero
  else withBase q fun b => .row (.sizeParameter ⟨p.extractLsb' 0 13, b⟩)

/-- The domain command: i0 and j0 in bits 11:0 of its first two parameters (R141, R142); the bits above, of which the spec only
presumes that they are reserved, and the parameters after these may hold the lost bounds. -/
def decodeDomain (p q : Word) (rest : List Word) : Command :=
  .row (.domainBounds ⟨p.extractLsb' 0 12, [p &&& 0xFFFFF000#32]⟩ ⟨q.extractLsb' 0 12, (q &&& 0xFFFFF000#32) :: rest⟩)

/-- A command that needs a second parameter. -/
def withSecond (rest : List Word) (f : Word → List Word → Except DecodeError Command) : Except DecodeError Command :=
  match rest with
  | [] => .error .truncated
  | q :: more => f q more

/-- The command a lost opcode word stands for, with its first parameter and the others; k is the input or output it names, which
the spec does not say how (R137). The parameters beyond the ones the spec shows are read past. -/
def decodeLost (c : LostCommand) (k : Nat) (p : Word) (rest : List Word) : Except DecodeError Command :=
  match c with
  | .readPerfCounters => .ok (.row (.readPerfCounters p))
  | .floatConstFmt => withSecond rest fun q _ => withBaseFormat p q fun b f => .row (.floatConstFmt b f)
  | .inputBase => withBase p fun b => .row (.inputBase k b)
  | .outputBase => withBase p fun b => .row (.outputBase k b)
  | .programData => withSecond rest fun q _ => withBaseFormat p q fun b f => .row (.programData b f)
  | .sizeParameter => withSecond rest fun q _ => decodeSize p q
  | .domain => withSecond rest fun q more => .ok (decodeDomain p q more)
  | .programStart => .ok (.row .programStart)
  | .perfStart => .ok (.row (.perfControl true p))
  | .perfStop => .ok (.row (.perfControl false p))
  | .inputFormat => withFormat p fun f => .extra (.inputFormat k f)
  | .outputFormat => withFormat p fun f => .extra (.outputFormat k f)
  | .condBufBase => withBase p fun b => .extra (.condBufBase b)
  | .perfEnable => .ok (.extra (.perfEnable (p :: rest)))

/-! ## The encoder -/

/-- A word's bytes, least significant first (R65). -/
def wordBytes (w : Word) : List Byte :=
  [w.extractLsb' 0 8, w.extractLsb' 8 8, w.extractLsb' 16 8, w.extractLsb' 24 8]

/-- The base-address parameter of a base (R61). -/
def encodeBase (b : BaseParam) : Word :=
  b.addr ++ 0#11

/-- The 3-bit code of a data format (R63). -/
def encodeDataFormat : DataFormat → BitVec 3
  | .uint16x1 => 0
  | .uint8x4 => 1
  | .float32x1 => 2
  | .float32x2 => 3
  | .float32x4 => 4

/-- The format parameter (R62). -/
def encodeFormat (f : FormatParam) : Word :=
  0#5 ++ encodeDataFormat f.format ++ 0#6 ++ f.tiling ++ 0#3 ++ f.pitch ++ 0#2

/-- The condition parameter (R147). -/
def encodeCondition : Condition → Word
  | .never => 0
  | .less => 1

/-- The words of a command whose encoding the spec gives; none for every other term (R100, R108, R132). -/
def encode : Instr → Option (List Word)
  | .setConstiFmt b f => some [opcodeSetConstiFmt, encodeBase b, encodeFormat f]
  | .setCondTest c => some [opcodeSetCondTest, encodeCondition c]
  | .texNop _ | .texLookup _ | .texKillLtZero _ | .texLookupProj _ | .texLookupUncached _ => none
  | .opRgbMax _ _ _ | .opRgbCnd _ _ _ | .opRgbCmp _ _ _ | .opRgbFrc _ _ _ => none
  | .opAlphaMax _ _ _ | .opAlphaCnd _ _ _ | .opAlphaCmp _ _ _ | .opAlphaFrc _ _ _ => none
  | .aluUnnamed _ _ | .aluCrossEngineCopy _ _ | .output _ => none
  | .fcJump _ | .fcLoop _ _ | .fcEndloop _ | .fcRep _ _ | .fcEndrep _ | .fcContinue _ => none
  | .readPerfCounters _ | .floatConstFmt _ _ | .inputBase _ _ | .outputBase _ _ => none
  | .programData _ _ | .sizeParameter _ | .domainBounds _ _ | .programStart | .perfControl _ _ => none

/-- The bytes of a list of words, in memory order (R65, R101). -/
def wordsBytes : List Word → List Byte
  | [] => []
  | w :: ws => wordBytes w ++ wordsBytes ws

end Sys2Proof
end

