-- ==== Sys2Proof/Machine/Operands.lean ====
section
/-! DEFINITION. Operand forms: temporary addresses, swizzles, ALU sources and selectors, constants (spec/10_state.md R20, R24,
R35, R36; spec/41_alu_output.md R171, R172). -/

namespace Sys2Proof.Machine

/-- A relative address: base plus aL where that is a register; else a free register, which need not be below NTEMP (R24). Log
entry 18, DESIGN CHOICE. -/
def relReg (base : Nat) (aL : Int) : Nat :=
  if 0 ≤ (base : Int) + aL ∧ (base : Int) + aL < Config.ntemp then ((base : Int) + aL).toNat
  else Config.relOutside base aL

/-- The register a temporary address names now. -/
def State.regOf (s : State) (a : TempAddr) : Nat :=
  if a.rel then relReg a.base s.stream.loops.aL else a.base

/-- The components of v that a swizzle selects (spec/30_encoding.md R108). -/
def swizzled (sw : Quad Comp) (v : Vec4) : Vec4 :=
  Quad.ofFn fun c => v.get (sw.get c)

/-- The 32-bit words of a list of bytes, little-endian (spec/20_memory.md R65). Up to three bytes after the last whole word are
not read; what the loader does with a note that ends so is not said (spec/70_reset_and_hazards.md R346, R347). Log entry 48,
DESIGN CHOICE. -/
def wordsOf : List Byte → List Word
  | b0 :: b1 :: b2 :: b3 :: rest => (b3 ++ b2 ++ b1 ++ b0) :: wordsOf rest
  | _ => []

/-- An element of a format, from its bytes (spec/20_memory.md R63, R65). -/
def elemOf (f : DataFormat) (bs : List Byte) : Elem :=
  match f with
  | .uint16x1 => .bytes bs
  | .uint8x4 => .bytes bs
  | .float32x1 => .words (wordsOf bs)
  | .float32x2 => .words (wordsOf bs)
  | .float32x4 => .words (wordsOf bs)

/-- The addresses of the bytes of an element of a buffer. -/
def elemAddrs (d : Desc) (off : Nat) : List Nat :=
  (List.range (elemSize d.layout.format)).map fun j => cellAddr d.base (off + j)

/-- The addresses of element n of a constant buffer; none where no command has set it. -/
def constAddrs (b : Option ConstBuf) (n : Nat) : List Nat :=
  b.elim [] fun b => elemAddrs b.desc (Config.constPlace b n)

/-- Element n of a constant buffer: one cached read of one whole element (spec/20_memory.md R67). Two sources of an instruction
that name one constant read it once: where it is a draw, both get the same one (spec/00_scope.md R10 does not say whether that
is one use of a draw or two). Log entry 34, DESIGN CHOICE. -/
def State.constElem (s : State) (xy : IndexPair) (b : ConstBuf) (n : Nat) : Elem :=
  elemOf b.desc.layout.format
    (s.cachedElem xy b.desc.base (Config.constPlace b n) (elemSize b.desc.layout.format))

/-- Floating-point constant n (R35). Log entry 34. -/
def State.floatConst (s : State) (xy : IndexPair) (n : Nat) : Vec4 :=
  let b := s.ctl.floatConsts.getD Config.unsetConsts
  Config.floatConstValue b (s.constElem xy b n)

/-- Integer constant n (R36; spec/43_flow_control.md R265), which the stream reads once for all its processors: as index pair
(0, 0), where it is a draw. Log entry 34, DESIGN CHOICE. -/
def State.intConst (s : State) (n : Nat) : IntConst :=
  let b := s.ctl.consti.getD Config.unsetConsts
  Config.intConstValue b (s.constElem ⟨0, 0⟩ b n)

/-- The value of an ALU source for a processor (R171). An inline value stands in all four components: what each of them is, is not
said. Log entry 21, DESIGN CHOICE. -/
def State.srcValue (s : State) (p : Proc) : SrcAddr → Vec4
  | .temp a => p.temp s.runNo (s.regOf a)
  | .floatConst n => s.floatConst p.xy n
  | .inline v => Quad.all v

/-- The source address a selector picks (R172). -/
def pickSource (s : AluSources) : SrcSel → SrcAddr
  | .rgb0 => s.rgb0
  | .rgb1 => s.rgb1
  | .rgb2 => s.rgb2
  | .alpha0 => s.alpha0
  | .alpha1 => s.alpha1
  | .alpha2 => s.alpha2

/-- How many of the operands A, B, C an operation takes (R174 to R178). -/
def arity : AluOp → Nat
  | .max => 2
  | .cnd => 3
  | .cmp => 3
  | .frc => 1
  | .unnamed .mov => 1
  | .unnamed .add => 2
  | .unnamed (.other _) => 3
  | .copy => 0

/-- The register a source address names, if it names one. -/
def State.srcReg (s : State) : SrcAddr → List Nat
  | .temp a => [s.regOf a]
  | .floatConst _ => []
  | .inline _ => []

/-- The floating-point constant a source address reads, if it reads one. -/
def srcConst : SrcAddr → List Nat
  | .temp _ => []
  | .floatConst n => [n]
  | .inline _ => []

/-- A descriptor's parts are both set (spec/10_state.md R41, R46). -/
def Slot.desc (s : Slot) : Option Desc :=
  match s.base, s.layout with
  | some b, some l => some { base := b, layout := l }
  | _, _ => none

/-- The descriptor at a number of a list; none where no command has set it. -/
def slotDesc (l : List (Nat × Slot)) (k : Nat) : Option Desc :=
  (assocGet l k).bind Slot.desc

end Sys2Proof.Machine
end

