-- ==== Sys2Proof/Machine/Alu.lean ====
section
/-! DEFINITION. The ALU instructions: two engines, the result path, the masks, the cross-engine copy
(spec/41_alu_output.md R170 to R184, R190). -/

namespace Sys2Proof.Machine

/-! ## Operands -/

/-- The source selectors of the operands an RGB operation takes. -/
def rgbSels (h : RgbHalf) : List SrcSel :=
  [h.part.a.sel, h.part.b.sel, h.part.c.sel].take (arity h.op)

/-- The source selectors of the operands an alpha operation takes. -/
def alphaSels (h : AlphaHalf) : List SrcSel :=
  [h.part.a.sel, h.part.b.sel, h.part.c.sel].take (arity h.op)

/-- The selectors both engines use. -/
def aluSels (rgb : Option RgbHalf) (alpha : Option AlphaHalf) : List SrcSel :=
  rgb.elim [] rgbSels ++ alpha.elim [] alphaSels

/-- The floating-point constants an ALU instruction reads (R171). -/
def aluConsts (c : AluCommon) (rgb : Option RgbHalf) (alpha : Option AlphaHalf) : List Nat :=
  (aluSels rgb alpha).flatMap fun sel => srcConst (pickSource c.src sel)

/-- The temporaries an ALU instruction reads (R171, R172). Log entry 10. -/
def State.aluReads (s : State) (c : AluCommon) (rgb : Option RgbHalf) (alpha : Option AlphaHalf) : List Nat :=
  (aluSels rgb alpha).flatMap fun sel => s.srcReg (pickSource c.src sel)

/-- The temporaries an ALU instruction writes: those with a write-mask bit set (R182). -/
def State.aluWrites (s : State) (rgb : Option RgbHalf) (alpha : Option AlphaHalf) : List Nat :=
  rgb.elim [] (fun h => if h.part.wr || h.part.wg || h.part.wb then [s.regOf h.part.dst] else []) ++
    alpha.elim [] (fun h => if h.part.wa then [s.regOf h.part.dst] else [])

/-- An RGB operand's value at a channel (R172). A swizzle may pick any component of a temporary, the A that the alpha engine
wrote among them: R190's "only through a special operation" is read as being about an engine's result, not about what an earlier
instruction left in a register. Log entry 26, DESIGN CHOICE. -/
def State.rgbOperand (s : State) (c : AluCommon) (p : Proc) (o : RgbOperand) : Comp → Word
  | .r => (s.srcValue p (pickSource c.src o.sel)).get o.red
  | .g => (s.srcValue p (pickSource c.src o.sel)).get o.green
  | .b => (s.srcValue p (pickSource c.src o.sel)).get o.blue
  | .a => 0

/-- An alpha operand's value (R172): any component of its source, as for an RGB operand. Log entry 26, DESIGN CHOICE. -/
def State.alphaOperand (s : State) (c : AluCommon) (p : Proc) (o : AlphaOperand) : Word :=
  (s.srcValue p (pickSource c.src o.sel)).get o.swiz

/-! ## What each engine computes -/

/-- The RGB engine's operation on a channel, a copy apart. -/
def State.rgbOwn (s : State) (c : AluCommon) (p : Proc) (h : RgbHalf) (ch : Comp) : Word :=
  aluEval h.op (s.rgbOperand c p h.part.a ch) (s.rgbOperand c p h.part.b ch) (s.rgbOperand c p h.part.c ch)

/-- The alpha engine's operation, a copy apart. -/
def State.alphaOwn (s : State) (c : AluCommon) (p : Proc) (h : AlphaHalf) : Word :=
  aluEval h.op (s.alphaOperand c p h.part.a) (s.alphaOperand c p h.part.b) (s.alphaOperand c p h.part.c)

/-- The result another engine's copy takes of this one: before or after the result path (R190). -/
def copied (m : Omod) (clamp : Bool) (w : Word) : Word :=
  if Config.copyTakesFinal then resultPath m clamp w else w

/-- The alpha result an RGB copy takes: this instruction's, or else the last one (R190). Log entry 26. -/
def State.copySourceAlpha (s : State) (c : AluCommon) (p : Proc) (alpha : Option AlphaHalf) : Word :=
  match alpha with
  | none => p.last.a
  | some h => if h.op = .copy then p.last.a else copied h.part.omod h.part.clamp (s.alphaOwn c p h)

/-- The RGB result an alpha copy takes, made one scalar (R190). Log entry 26. -/
def State.copySourceRgb (s : State) (c : AluCommon) (p : Proc) (rgb : Option RgbHalf) : Word :=
  match rgb with
  | none => Config.copyToAlpha p.last.r p.last.g p.last.b
  | some h =>
    if h.op = .copy then Config.copyToAlpha p.last.r p.last.g p.last.b
    else Config.copyToAlpha (copied h.part.omod h.part.clamp (s.rgbOwn c p h .r))
      (copied h.part.omod h.part.clamp (s.rgbOwn c p h .g)) (copied h.part.omod h.part.clamp (s.rgbOwn c p h .b))

/-- The RGB engine's result on a channel before the result path. -/
def State.rgbRaw (s : State) (c : AluCommon) (p : Proc) (alpha : Option AlphaHalf) (h : RgbHalf) (ch : Comp) : Word :=
  if h.op = .copy then s.copySourceAlpha c p alpha else s.rgbOwn c p h ch

/-- The alpha engine's result before the result path. -/
def State.alphaRaw (s : State) (c : AluCommon) (p : Proc) (rgb : Option RgbHalf) (h : AlphaHalf) : Word :=
  if h.op = .copy then s.copySourceRgb c p rgb else s.alphaOwn c p h

/-- The RGB engine's final results (R180); the alpha component is not its own. -/
def State.rgbFinal (s : State) (c : AluCommon) (p : Proc) (alpha : Option AlphaHalf) (h : RgbHalf) : Vec4 :=
  Quad.ofFn fun ch => resultPath h.part.omod h.part.clamp (s.rgbRaw c p alpha h ch)

/-- The alpha engine's final result (R180). -/
def State.alphaFinal (s : State) (c : AluCommon) (p : Proc) (rgb : Option RgbHalf) (h : AlphaHalf) : Word :=
  resultPath h.part.omod h.part.clamp (s.alphaRaw c p rgb h)

/-! ## Writing the results -/

/-- RGB_WMASK as a mask of a register's components. -/
def rgbWmask (p : RgbPart) : Mask := ⟨p.wr, p.wg, p.wb, false⟩

/-- RGB_OMASK as a mask of the predicate bits. -/
def rgbPmask (p : RgbPart) : Mask := ⟨p.pr, p.pg, p.pb, false⟩

def alphaWmask (p : AlphaPart) : Mask := ⟨false, false, false, p.wa⟩

def alphaPmask (p : AlphaPart) : Mask := ⟨false, false, false, p.pa⟩

/-- Write a result under its masks: a register write where any write-mask bit is set, and predicate bits (R182). Where the
instruction writes predicate bits itself, predication goes by the bits from before it, for both engines (R183). Log entry 19,
DESIGN CHOICE. -/
def writeResult (s : State) (pred : Option Nat) (old : Proc) (dst : Nat) (wmask pmask : Mask) (v : Vec4) (p : Proc) : Proc :=
  let p1 :=
    if wmask.r || wmask.g || wmask.b || wmask.a then
      p.writeTemp s.runNo dst (maskInter wmask (old.enabled pred)) v
    else p
  { p1 with pred := p.predAfter s.tick (maskInter pmask (old.enabled pred)) v }

/-- The RGB engine's writes. -/
def State.writeRgb (s : State) (c : AluCommon) (old : Proc) (alpha : Option AlphaHalf) (h : RgbHalf) (p : Proc) : Proc :=
  writeResult s c.pred old (s.regOf h.part.dst) (rgbWmask h.part) (rgbPmask h.part) (s.rgbFinal c old alpha h) p

/-- The alpha engine's writes. -/
def State.writeAlpha (s : State) (c : AluCommon) (old : Proc) (rgb : Option RgbHalf) (h : AlphaHalf) (p : Proc) : Proc :=
  writeResult s c.pred old (s.regOf h.part.dst) (alphaWmask h.part) (alphaPmask h.part) (Quad.all (s.alphaFinal c old rgb h)) p

/-- The results a later cross-engine copy may take (R190). A value an engine merely copied counts as its result for a later copy,
though a copy of the same instruction does not take it. Log entry 26, DESIGN CHOICE. -/
def State.lastAfter (s : State) (c : AluCommon) (p : Proc) (rgb : Option RgbHalf) (alpha : Option AlphaHalf) : Vec4 :=
  { r := rgb.elim p.last.r fun h => copied h.part.omod h.part.clamp (s.rgbRaw c p alpha h .r)
    g := rgb.elim p.last.g fun h => copied h.part.omod h.part.clamp (s.rgbRaw c p alpha h .g)
    b := rgb.elim p.last.b fun h => copied h.part.omod h.part.clamp (s.rgbRaw c p alpha h .b)
    a := alpha.elim p.last.a fun h => copied h.part.omod h.part.clamp (s.alphaRaw c p rgb h) }

/-- An ALU instruction's effect on one processor: every operand is read before any result is written (R178). -/
def State.aluProc (s : State) (c : AluCommon) (rgb : Option RgbHalf) (alpha : Option AlphaHalf) (p : Proc) : Proc :=
  let p1 := rgb.elim p fun h => s.writeRgb c p alpha h p
  let p2 := alpha.elim p1 fun h => s.writeAlpha c p rgb h p1
  { p2 with last := s.lastAfter c p rgb alpha, aluResult := p.aluResultAfter s.tick }

/-- Does the instruction use the floating-point constants' descriptor while no command has set it? (spec/10_state.md R46). -/
def State.constsUnset (s : State) (c : AluCommon) (rgb : Option RgbHalf) (alpha : Option AlphaHalf) : Bool :=
  s.anyLive && s.ctl.floatConsts.isNone && !(aluConsts c rgb alpha).isEmpty

/-- What an ALU instruction reads of memory: its constants, for each live processor (spec/10_state.md R35). -/
def State.constReads (s : State) (c : AluCommon) (rgb : Option RgbHalf) (alpha : Option AlphaHalf) : List ReadRec :=
  (s.stream.procs.filter Proc.live).flatMap fun p =>
    (aluConsts c rgb alpha).map fun n => { xy := p.xy, addrs := constAddrs s.ctl.floatConsts n }

/-- Effect of an ALU instruction. The NOP flag only keeps the next instruction away (R184) and changes nothing here. The
register faults (spec/60_exceptions.md R313) come before the refusals, and of these the descriptor's first. Log entry 52, DESIGN
CHOICE. -/
def aluEffect (c : AluCommon) (rgb : Option RgbHalf) (alpha : Option AlphaHalf) (s : State) (_ : Nat) : Result :=
  checkRegs s (if s.anyLive then s.aluReads c rgb alpha else []) (if s.anyLive then s.aluWrites rgb alpha else [])
    (if s.constsUnset c rgb alpha then .refused .descriptorNotSet
    else takeReads s (s.constReads c rgb alpha) (s.onLive (s.aluProc c rgb alpha)))

/-- Issue an ALU instruction: it has no acquire bit (spec/42_texture.md R212). -/
def issueAlu (c : AluCommon) (rgb : Option RgbHalf) (alpha : Option AlphaHalf) (s : State) : Result :=
  issue c.wait false false s (aluEffect c rgb alpha)

/-! ## The instructions -/

/-- OP_RGB_MAX (R174). -/
def execOpRgbMax (p : RgbPart) (co : Option AlphaHalf) (c : AluCommon) (s : State) : Result :=
  issueAlu c (some ⟨.max, p⟩) co s

/-- OP_RGB_CND (R175). -/
def execOpRgbCnd (p : RgbPart) (co : Option AlphaHalf) (c : AluCommon) (s : State) : Result :=
  issueAlu c (some ⟨.cnd, p⟩) co s

/-- OP_RGB_CMP (R176). -/
def execOpRgbCmp (p : RgbPart) (co : Option AlphaHalf) (c : AluCommon) (s : State) : Result :=
  issueAlu c (some ⟨.cmp, p⟩) co s

/-- OP_RGB_FRC (R177). -/
def execOpRgbFrc (p : RgbPart) (co : Option AlphaHalf) (c : AluCommon) (s : State) : Result :=
  issueAlu c (some ⟨.frc, p⟩) co s

/-- OP_ALPHA_MAX (R174). -/
def execOpAlphaMax (p : AlphaPart) (co : Option RgbHalf) (c : AluCommon) (s : State) : Result :=
  issueAlu c co (some ⟨.max, p⟩) s

/-- OP_ALPHA_CND (R175). -/
def execOpAlphaCnd (p : AlphaPart) (co : Option RgbHalf) (c : AluCommon) (s : State) : Result :=
  issueAlu c co (some ⟨.cnd, p⟩) s

/-- OP_ALPHA_CMP (R176). -/
def execOpAlphaCmp (p : AlphaPart) (co : Option RgbHalf) (c : AluCommon) (s : State) : Result :=
  issueAlu c co (some ⟨.cmp, p⟩) s

/-- OP_ALPHA_FRC (R177). -/
def execOpAlphaFrc (p : AlphaPart) (co : Option RgbHalf) (c : AluCommon) (s : State) : Result :=
  issueAlu c co (some ⟨.frc, p⟩) s

/-- The two engines' halves of an instruction whose row is an unnamed operation. -/
def unnamedHalves : UnnamedHalf → Option RgbHalf × Option AlphaHalf
  | .rgb u p o => (some ⟨.unnamed u, p⟩, o)
  | .alpha u p o => (o, some ⟨.unnamed u, p⟩)

/-- The two engines' halves of a cross-engine copy. -/
def copyHalves : CopyHalf → Option RgbHalf × Option AlphaHalf
  | .toRgb p o => (some ⟨.copy, p⟩, o)
  | .toAlpha p o => (o, some ⟨.copy, p⟩)

/-- An ALU operation without a visible name (R178; spec/44_floating_point.md R295, R296). -/
def execAluUnnamed (h : UnnamedHalf) (c : AluCommon) (s : State) : Result :=
  issueAlu c (unnamedHalves h).1 (unnamedHalves h).2 s

/-- The cross-engine copy (R190). -/
def execAluCrossEngineCopy (h : CopyHalf) (c : AluCommon) (s : State) : Result :=
  issueAlu c (copyHalves h).1 (copyHalves h).2 s

end Sys2Proof.Machine
end

