-- ==== Sys2Proof/Machine/Commands.lean ====
section
/-! DEFINITION. The commands of the PE, the MC and the CO (spec/40_commands.md R130 to R148). Moving the PE past a command's
words is the step's (spec/30_encoding.md R101). -/

namespace Sys2Proof.Machine

def State.withCtl (s : State) (c : Control) : State :=
  { s with ctl := c }

/-- The base address of a base-address parameter: its low 11 bits taken as zero (spec/20_memory.md R61). -/
def baseValue (b : BaseParam) : Word :=
  b.addr ++ 0#11

/-- The pitch of a format parameter: 4 times the field (spec/20_memory.md R62). -/
def pitchValue (f : FormatParam) : Word :=
  (f.pitch ++ 0#2).setWidth 32

/-- The layout of a format parameter (spec/20_memory.md R62). -/
def layoutOf (f : FormatParam) : Layout :=
  { pitch := pitchValue f, tiling := f.tiling, format := f.format }

/-- The descriptor a base-address and a format parameter give (R135, R136). -/
def descOf (b : BaseParam) (f : FormatParam) : Desc :=
  { base := baseValue b, layout := layoutOf f }

/-- A constant buffer's descriptor: the "offset" that the command sets too is carried where the spec does not show, so it is free
(R134, R135). Log entry 50. -/
def constBufOf (b : BaseParam) (f : FormatParam) : ConstBuf :=
  { desc := descOf b f, offset := Config.constOffset b f }

/-- set_consti_fmt (R135). -/
def execSetConstiFmt (b : BaseParam) (f : FormatParam) (s : State) : Result :=
  .next (s.withCtl { s.ctl with consti := some (constBufOf b f) })

/-- set_cond_test (R146, R147). -/
def execSetCondTest (c : Condition) (s : State) : Result :=
  .next (s.withCtl { s.ctl with cond := c })

/-- The value of a performance counter. -/
def Perf.value (p : Perf) (n : Nat) : Nat :=
  (assocGet p.counters n).getD 0

/-- The cells read_perf_counters writes: the counters' bytes from the address on; their layout is lost. They
are made of the counters' values alone, where it is not said whether they depend on which counters are enabled
(spec/60_exceptions.md R318). Log entry 43, DESIGN CHOICE. -/
def perfCells (addr : Word) (p : Perf) : List Host.Cell :=
  cellsFrom addr 0 (Config.perfDump ((List.range Config.nperf).map p.value))

/-- read_perf_counters (R145). It leaves no write record: whether a later lookup sees its bytes is not said, and here every
later read sees them. It resets no counter: what resets them is lost (spec/60_exceptions.md R318). Log entry 43, DESIGN CHOICE. -/
def execReadPerfCounters (addr : Word) (s : State) : Result :=
  .next { s with mem := Memory.writeAll s.mem (perfCells addr s.perf) }

/-- The float-constants format command (R134). -/
def execFloatConstFmt (b : BaseParam) (f : FormatParam) (s : State) : Result :=
  .next (s.withCtl { s.ctl with floatConsts := some (constBufOf b f) })

/-- The parts of a descriptor that are set at a number of a list. -/
def slotAt (l : List (Nat × Slot)) (k : Nat) : Slot :=
  (assocGet l k).getD { base := none, layout := none }

/-- A list of descriptors with the base of number k set. -/
def setBase (l : List (Nat × Slot)) (k : Nat) (b : BaseParam) : List (Nat × Slot) :=
  assocSet l k { slotAt l k with base := some (baseValue b) }

/-- A list of descriptors with the layout of number k set. -/
def setLayout (l : List (Nat × Slot)) (k : Nat) (f : FormatParam) : List (Nat × Slot) :=
  assocSet l k { slotAt l k with layout := some (layoutOf f) }

/-- The input base-address command (R137). -/
def execInputBase (k : Nat) (b : BaseParam) (s : State) : Result :=
  .next (s.withCtl { s.ctl with inputs := setBase s.ctl.inputs k b })

/-- The output base-address command (R138). -/
def execOutputBase (k : Nat) (b : BaseParam) (s : State) : Result :=
  .next (s.withCtl { s.ctl with outs := setBase s.ctl.outs k b })

/-- The program-data command (R139; spec/10_state.md R41, program location). -/
def execProgramData (b : BaseParam) (f : FormatParam) (s : State) : Result :=
  .next (s.withCtl { s.ctl with programDesc := some (descOf b f) })

/-- The command with the size parameter (R140): it and the base address after it are recorded, and nothing takes a size from it.
Log entry 44. -/
def execSizeParameter (v : SizeParam) (s : State) : Result :=
  .next (s.withCtl { s.ctl with sizeParam := v.size, sizeBase := some (baseValue v.base) })

/-- The domain command (R141, R142): it sets the range a program is run over, a free finite set of what its parameters say. Log
entry 44. -/
def execDomainBounds (i0 j0 : DomainBound) (s : State) : Result :=
  .next (s.withCtl { s.ctl with i0 := i0.bound, j0 := j0.bound, domain := Config.domainOf i0 j0 })

/-- A write without the bytes that one of the later writes certainly replaced. -/
def WriteRec.besides (w : WriteRec) (later : List WriteRec) : WriteRec :=
  { w with cells := w.cells.filter fun c => !later.any fun v => !v.unsaid && v.covers c.1 }

/-- What a flush leaves of recorded writes, oldest first: those of killed processors, of which it is unsaid whether they reach
memory, without the bytes that were written since. -/
def unsaidLeft : List WriteRec → List WriteRec
  | [] => []
  | w :: ws => if w.unsaid then w.besides ws :: unsaidLeft ws else unsaidLeft ws

/-- The recorded writes a new program may meet: all of them, or, where the pipe was flushed, what is unsaid (spec/20_memory.md
R73; spec/42_texture.md R215, R217). The records are dropped for every reader, the PE too, where R77 leaves undefined what a flush
does beyond the lookups of R73 and R74. Log entries 9, 31, 46, DESIGN CHOICE. -/
def State.writesKept (s : State) : List WriteRec :=
  if s.ctl.pipeFlushed then unsaidLeft s.writes else s.writes

/-- Start a program over the domain: a new run whose instances wait to be launched (R143; spec/70_reset_and_hazards.md R341). The
MC conditional output cache and the performance counters, whose contents at a program start R46 of spec/10_state.md calls
unspecified, keep what they hold; so do entry_regs. Log entries 4, 44, DESIGN CHOICE. -/
def State.startProgram (s : State) : State :=
  { s with
    waiting := s.ctl.domain.dedup
    runNo := s.runNo + 1
    writes := s.writesKept
    reads := []
    ctl := { s.ctl with pipeFlushed := false } }

/-- The program-start command (R143); refused where no command has set the program's location (spec/10_state.md R46, decision
D21). -/
def execProgramStart (s : State) : Result :=
  if s.ctl.programDesc.isNone then .refused .descriptorNotSet else .next s.startProgram

/-- The performance-counter start and stop commands (R144). Neither resets a counter: what resets them is lost
(spec/60_exceptions.md R318). Log entry 43, DESIGN CHOICE. -/
def execPerfControl (start : Bool) (param : Word) (s : State) : Result :=
  .next { s with perf := { s.perf with counting := start, param := param } }

/-- The commands of the table of control state that have no row in the opcode table (spec/10_state.md R41). The enabling command
replaces the set of enabled counters: whether it adds to it instead is lost. Log entry 51, DESIGN CHOICE. -/
def State.execExtra (s : State) : ExtraCommand → State
  | .inputFormat k f => s.withCtl { s.ctl with inputs := setLayout s.ctl.inputs k f }
  | .outputFormat k f => s.withCtl { s.ctl with outs := setLayout s.ctl.outs k f }
  | .condBufBase b => s.withCtl { s.ctl with condBuf := some (baseValue b) }
  | .perfEnable ps => { s with perf := { s.perf with enabled := Config.perfEnables ps } }

end Sys2Proof.Machine
end

