-- ==== Sys2Proof/Machine/FlowControl.lean ====
section
/-! DEFINITION. Flow control: the jump decision, the branch-counter operations, jumps, loops (spec/43_flow_control.md R260 to
R269). The spec's own model refuses flow control (92_eei_decisions.md D19); this one gives it the effect R263 to R267 name, with
a free value for each part that is lost. Log entry 12. -/

namespace Sys2Proof.Machine

/-! ## The jump decision (R263) -/

/-- The three inputs of JUMP_FUNC as a number. -/
def jumpCode (alu pred bool : Bool) : Fin 8 :=
  ⟨4 * alu.toNat + 2 * pred.toNat + bool.toNat, by cases alu <;> cases pred <;> cases bool <;> decide⟩

/-- A processor's own jump condition: the bit of JUMP_FUNC its inputs select (R263). Log entry 13. -/
def State.jumpCond (s : State) (f : Flow) (p : Proc) : Bool :=
  f.func.getLsbD (Config.jumpIndex (jumpCode p.aluResult (Config.jumpPredicate f.predSel p.pred)
    (Config.jumpBoolean f.boolSel s.ctl.bools))).val

/-- The direction the stream takes: 0x00 never jumps and 0xff always does; else the processors' common condition, and where
they disagree or there is none, a free choice (R263, R264). Log entry 13. -/
def State.jumps (s : State) (f : Flow) : Bool :=
  if f.func = 0#8 then false
  else if f.func = 0xff#8 then true
  else
    match (s.stream.procs.filter Proc.live).map (s.jumpCond f) with
    | [] => Config.jumpSplit f.any s.tick
    | d :: ds => if ds.all (· == d) then d else Config.jumpSplit f.any s.tick

/-! ## Branch-counter operations (R264). Log entry 14 -/

/-- The branch operation applied: column c6 where the stream does not jump, c7 where it does; so an ENDIF, which never jumps and
has DECR in c6, decrements (R267). Log entry 14, DEDUCED. -/
def branchOpOf (f : Flow) (taken : Bool) : BranchOp :=
  if taken then f.op1 else f.op0

/-- A branch operation on one processor; disagrees says that its own condition is not the direction taken. The counter is an
integer without bounds, so it neither wraps nor saturates: its width and overflow are lost (spec/44_floating_point.md R299). Log
entry 14, DESIGN CHOICE. -/
def branchProc (op : BranchOp) (popCnt : Nat) (disagrees : Bool) (p : Proc) : Proc :=
  if p.killed then p
  else
    match op with
    | .none => p
    | .incr =>
      if p.active then (if disagrees then { p with active := false, counter := 0 } else p)
      else { p with counter := p.counter + 1 }
    | .decr =>
      if p.active then p
      else { p with counter := p.counter - popCnt, active := decide (p.counter - popCnt < 0) }

/-- How many branches the stream is inside after a branch operation: an increment enters one, a decrement leaves B_POP_CNT. Where
that is more than are open, none is open after it and nothing faults: whether it is a stack underflow (R261) is not said. Log
entry 14, DESIGN CHOICE. -/
def depthAfter (op : BranchOp) (popCnt depth : Nat) : Nat :=
  match op with
  | .none => depth
  | .incr => depth + 1
  | .decr => depth - popCnt

/-- What columns c5 and c9 do to a processor: nothing where they are NONE and 0, as in every visible row; else what is lost, a
counter staying below the number of open branches. Log entry 17. -/
def lostColumns (f : Flow) (depth : Nat) (disagrees : Bool) (p : Proc) : Proc :=
  if p.killed || (f.c5 == 0 && f.c9 == 0) then p
  else
    { p with
      active := (Config.branchLost f.c5 f.c9 disagrees p.active p.counter).1 || depth == 0
      counter := ((Config.branchLost f.c5 f.c9 disagrees p.active p.counter).2 % depth : Nat) }

/-- Would the operation nest branches deeper than the mode allows? What counts as nesting is the model's choice: every increment
the stream applies, whichever processors are active. (R260, R261; spec/10_state.md R33.) Log entry 14, DESIGN CHOICE. -/
def State.tooDeep (s : State) (op : BranchOp) : Bool :=
  op == .incr && decide (Config.branchDepth s.ctl.mode ≤ s.stream.depth)

/-- What a flow-control instruction does to a processor. -/
def State.branchedProc (s : State) (f : Flow) (taken : Bool) (p : Proc) : Proc :=
  lostColumns f (depthAfter (branchOpOf f taken) f.popCnt s.stream.depth) (s.jumpCond f p != taken)
    (branchProc (branchOpOf f taken) f.popCnt (s.jumpCond f p != taken) p)

/-- The stream after a flow-control instruction: the branch operation, then the pc (R264, R266). -/
def State.branched (s : State) (f : Flow) (taken : Bool) : State :=
  s.withStream { s.stream with
    procs := s.stream.procs.map (s.branchedProc f taken)
    depth := depthAfter (branchOpOf f taken) f.popCnt s.stream.depth
    pc := if taken then f.addr else s.stream.pc + 1 }

/-- Take or do not take the jump, unless that nests too deep. -/
def flowGo (f : Flow) (taken : Bool) (s : State) : Result :=
  if s.tooDeep (branchOpOf f taken) then .fault .stackOverflow
  else .next (s.branched f taken)

/-! ## Loops (R265, R267). Log entry 15 -/

def State.withLoops (s : State) (l : LoopState) : State :=
  s.withStream { s.stream with loops := l }

/-- A sum of loop integers: exact where an int32 holds it, else free (spec/44_floating_point.md R299). -/
def loopSum (a b : Int) : Int :=
  if -(2 ^ 31) ≤ a + b ∧ a + b < 2 ^ 31 then a + b else Config.intOverflow a b

/-- Is the loop passed over at its entry: by its JUMP_FUNC, or because it has no iteration to make? -/
def State.skipsLoop (s : State) (f : Flow) (c : IntConst) : Bool :=
  s.jumps f || (decide (c.red ≤ 0) && Config.zeroTripSkips)

/-- Is there no room for one more loop in this mode? (R260, R261). -/
def State.loopsFull (s : State) (used : Nat) : Bool :=
  decide (Config.loopStackSize s.ctl.mode ≤ used)

/-- The loop state inside a LOOP: count from red, aL from green, increment from blue (R265), each an integer as the constant
gives it: the widths of the count and of aL are lost (spec/44_floating_point.md R299). Log entry 15, DESIGN CHOICE. -/
def enterLoop (l : LoopState) (c : IntConst) : LoopState :=
  { l with aL := c.green, loopStack := { left := c.red, step := c.blue, savedAL := l.aL } :: l.loopStack }

/-- The loop state for the next iteration of a LOOP. -/
def stepLoop (l : LoopState) (fr : LoopFrame) (rest : List LoopFrame) : LoopState :=
  { l with aL := loopSum l.aL fr.step, loopStack := { fr with left := fr.left - 1 } :: rest }

/-- The loop state after a LOOP ends: the enclosing loop's aL, or a free one where there is no enclosing loop (spec/10_state.md
R32). -/
def leaveLoop (l : LoopState) (tick : Nat) (fr : LoopFrame) (rest : List LoopFrame) : LoopState :=
  { l with
    aL := match rest with
      | [] => Config.outsideAL tick
      | _ :: _ => fr.savedAL
    loopStack := rest }

/-- Does a LOOP or REP use the integer constants' descriptor while no command has set it? (spec/10_state.md R46). -/
def State.constiUnset (s : State) (f : Flow) : Bool :=
  !s.jumps f && s.ctl.consti.isNone

/-- What a LOOP or REP reads of memory unless its JUMP_FUNC passes: its constant, for every processor of the stream that is not
killed. -/
def State.constiReads (s : State) (f : Flow) (k : Nat) : List ReadRec :=
  if s.jumps f then []
  else
    (s.stream.procs.filter fun p => !p.killed).map fun p => { xy := p.xy, addrs := constAddrs s.ctl.consti k }

/-- LOOP and REP: read the constant, which must have a descriptor and be no other instance's write, then go on with it, where
the stack may overflow: an order that spec/60_exceptions.md R313 does not give. Log entry 52, DESIGN CHOICE. -/
def withIntConst (f : Flow) (k : Nat) (s : State) (body : IntConst → State → Result) : Result :=
  if s.constiUnset f then .refused .descriptorNotSet
  else if s.readsRace (s.constiReads f k) then .refused .outputRace
  else body (s.intConst k) (s.noteReads (s.constiReads f k))

/-- LOOP with its constant. Where its JUMP_FUNC passes it initialises nothing, and its constant is not read: the spec shows only
JUMP_FUNC 0x00 there and does not say (R265, R267). Log entry 15, DESIGN CHOICE. -/
def loopBody (f : Flow) (c : IntConst) (s : State) : Result :=
  if s.skipsLoop f c then flowGo f true s
  else if s.loopsFull s.stream.loops.loopStack.length then .fault .stackOverflow
  else flowGo f false (s.withLoops (enterLoop s.stream.loops c))

/-- Effect of LOOP. -/
def loopEffect (f : Flow) (k : Nat) (s : State) : Result :=
  withIntConst f k s (loopBody f)

/-- Effect of ENDLOOP: back to JUMP_ADDR while an iteration is left and the jump condition passes. The underflow comes before a
nesting that overflows: spec/60_exceptions.md R313 gives no order. Log entry 52, DESIGN CHOICE. -/
def endloopEffect (f : Flow) (s : State) : Result :=
  match s.stream.loops.loopStack with
  | [] => .fault .stackUnderflow
  | fr :: rest =>
    if decide (1 < fr.left) && s.jumps f then flowGo f true (s.withLoops (stepLoop s.stream.loops fr rest))
    else flowGo f false (s.withLoops (leaveLoop s.stream.loops s.tick fr rest))

/-- REP with its constant: as LOOP, without aL (R265); its count too is not bounded. Log entry 15, DESIGN CHOICE. -/
def repBody (f : Flow) (c : IntConst) (s : State) : Result :=
  if s.skipsLoop f c then flowGo f true s
  else if s.loopsFull s.stream.loops.repStack.length then .fault .stackOverflow
  else flowGo f false (s.withLoops { s.stream.loops with repStack := c.red :: s.stream.loops.repStack })

/-- Effect of REP. -/
def repEffect (f : Flow) (k : Nat) (s : State) : Result :=
  withIntConst f k s (repBody f)

/-- Effect of ENDREP; the underflow first, as in ENDLOOP. Log entry 52, DESIGN CHOICE. -/
def endrepEffect (f : Flow) (s : State) : Result :=
  match s.stream.loops.repStack with
  | [] => .fault .stackUnderflow
  | n :: rest =>
    if decide (1 < n) && s.jumps f then
      flowGo f true (s.withLoops { s.stream.loops with repStack := (n - 1) :: rest })
    else flowGo f false (s.withLoops { s.stream.loops with repStack := rest })

/-! ## The instructions: each waits by its TEX_SEM_WAIT (R269) -/

/-- FC JUMP (R263, R264, R266). -/
def execFcJump (f : Flow) (s : State) : Result :=
  gate f.wait s fun t => flowGo f (t.jumps f) t

/-- FC LOOP (R265). -/
def execFcLoop (f : Flow) (k : Nat) (s : State) : Result :=
  gate f.wait s (loopEffect f k)

/-- FC ENDLOOP (R265). -/
def execFcEndloop (f : Flow) (s : State) : Result :=
  gate f.wait s (endloopEffect f)

/-- FC REP (R265). -/
def execFcRep (f : Flow) (k : Nat) (s : State) : Result :=
  gate f.wait s (repEffect f k)

/-- FC ENDREP (R265). -/
def execFcEndrep (f : Flow) (s : State) : Result :=
  gate f.wait s (endrepEffect f)

/-- The loops after a CONTINUE: those that were open or fewer, in both modes (R260); what it does to them is free. -/
def continuedLoops (l : LoopState) : LoopState :=
  { aL := (Config.continueLoops l).aL
    loopStack := (Config.continueLoops l).loopStack.take l.loopStack.length
    repStack := (Config.continueLoops l).repStack.take l.repStack.length }

/-- FC CONTINUE (R262): the jump and branch operations its fields give; what it does to the loops is free. With no loop open it
runs too: whether that is a stack underflow (R261) is not said. Log entry 16, DESIGN CHOICE. -/
def execFcContinue (f : Flow) (s : State) : Result :=
  gate f.wait s fun t => flowGo f (t.jumps f) (t.withLoops (continuedLoops t.stream.loops))

end Sys2Proof.Machine
end

