-- ==== Sys2Proof/Machine/Output.lean ====
section
/-! DEFINITION. The OUTPUT instruction, the CO's test and the output write requests (spec/41_alu_output.md R185 to R188;
spec/40_commands.md R148; spec/42_texture.md R231; spec/20_memory.md R68, R76, R78). -/

namespace Sys2Proof.Machine

/-! ## The CO -/

/-- The value b in memory for an index pair, of the buffer at a base (R148). Log entry 33. -/
def State.condFresh (s : State) (base : Word) (xy : IndexPair) : Word :=
  Config.condWord (s.cachedElem xy base (Config.condPlace xy) Config.condBytes)

/-- The cached value of a request, unless the cache dropped it. -/
def State.condCached (s : State) (base : Word) (xy : IndexPair) : Option Word :=
  if Config.condEvicted s.tick xy then none
  else (s.condCache.find? fun e => e.1 == (base, xy)).map Prod.snd

/-- Pull a value into the cache. -/
def State.condFill (s : State) (base : Word) (xy : IndexPair) (b : Word) : State :=
  { s with condCache := (s.condCache.filter fun e => e.1 != (base, xy)) ++ [((base, xy), b)] }

/-- The addresses of an element of the conditional output buffer. -/
def condAddrs (base : Word) (xy : IndexPair) : List Nat :=
  (List.range Config.condBytes).map fun j => cellAddr base (Config.condPlace xy + j)

/-- What a request for b reads of memory: nothing where the cache has it. -/
def State.condReads (s : State) (base : Word) (xy : IndexPair) : List ReadRec :=
  match s.condCached base xy with
  | some _ => []
  | none => [{ xy := xy, addrs := condAddrs base xy }]

/-- Read b through the MC conditional output cache (spec/20_memory.md R78). -/
def State.condRead (s : State) (base : Word) (xy : IndexPair) : Word × State :=
  match s.condCached base xy with
  | some b => (b, s)
  | none => (s.condFresh base xy, (s.condFill base xy (s.condFresh base xy)).noteReads (s.condReads base xy))

/-- The value v that the CO tests for a processor's output: the one that a conditional OUTPUT supplies (R148, R188); one that is
not conditional supplies none, so it is free. Log entry 33, DESIGN CHOICE. -/
def State.sentValue (s : State) (o : OutputFields) (xy : IndexPair) (vals : List Masked) : Word :=
  if o.conditional then Config.condValue s.tick xy vals else Config.absentValue s.tick xy

/-- Is an output's write request dispatched? If the CO's test on its value and index pair passes: Never fails, so that no output
is ever written under it; Less compares v with b (R147, R148, R188). Refused where the test of a conditional OUTPUT needs a
buffer that no command has set (spec/10_state.md R46), or a test would read what another instance wrote (spec/60_exceptions.md
R320). An OUTPUT that is not conditional needs none: without it the result is free. Log entry 33, DESIGN CHOICE. -/
def State.coTest (s : State) (o : OutputFields) (xy : IndexPair) (vals : List Masked) : Except Refusal (Bool × State) :=
  match s.ctl.cond, s.ctl.condBuf with
  | .never, _ => .ok (false, s)
  | .less, none => if o.conditional then .error .descriptorNotSet else .ok (Config.absentPasses s.tick xy, s)
  | .less, some base =>
    if s.readsRace (s.condReads base xy) then .error .outputRace
    else .ok (Config.condLess (s.sentValue o xy vals) (s.condRead base xy).1, (s.condRead base xy).2)

/-! ## Output write requests -/

/-- The values a processor sends (R188). -/
def State.outVals (s : State) (o : OutputFields) (p : Proc) : List Masked :=
  o.srcs.map fun a => Quad.ofFn fun c =>
    if (maskInter o.omask (p.enabled o.pred)).get c then some ((p.temp s.runNo (s.regOf a)).get c) else none

/-- The descriptor of an output (spec/10_state.md R39). -/
def State.outDesc (s : State) (k : Nat) : Option Desc :=
  slotDesc s.ctl.outs k

/-- The bytes of one element that an output write request stores: whole, its FLOAT32 components as little-endian words
(spec/20_memory.md R63, R65, R67). -/
def outElemBytes (d : Desc) (xy : IndexPair) (vals : List Masked) (e : Nat) : List Byte :=
  match d.layout.format with
  | .uint16x1 => (List.range 2).map (Config.outByte d xy vals e)
  | .uint8x4 => (List.range 4).map (Config.outByte d xy vals e)
  | .float32x1 => (List.range 1).flatMap fun c => wordBytes (Config.outWord d xy vals e c)
  | .float32x2 => (List.range 2).flatMap fun c => wordBytes (Config.outWord d xy vals e c)
  | .float32x4 => (List.range 4).flatMap fun c => wordBytes (Config.outWord d xy vals e c)

/-- The bytes an output write request stores, in canonical form: placement is lost (R188; spec/20_memory.md R64). Log entry
32. -/
def outCells (d : Desc) (xy : IndexPair) (vals : List Masked) : List Host.Cell :=
  Memory.writeAll []
    ((Config.outPlaces d xy vals.length).zipIdx.flatMap fun e => cellsFrom d.base e.1 (outElemBytes d xy vals e.2))

/-- Is the address in the program's memory, where the loader placed it or where a command says it lies? (spec/20_memory.md R76).
An area that runs past the address space goes on at 0, as `cellAddr` does. Log entries 40, 47, DESIGN CHOICE. -/
def State.inProgram (s : State) (a : Nat) : Bool :=
  (s.programAt.toList ++ (s.ctl.programDesc.map Desc.base).toList).any fun b =>
    decide ((BitVec.ofNat 32 a - b).toNat < Config.instrBytes * s.program.length)

/-- Does another instance of this run write or look up the address? (R68; spec/60_exceptions.md R320). -/
def State.sharedWithOther (s : State) (xy : IndexPair) (a : Nat) : Bool :=
  s.writtenByOther xy a || s.readByOther xy a

/-- The state after one processor's output event and, if its request is dispatched, the request. -/
def State.recordOutput (s : State) (o : OutputFields) (xy : IndexPair) (vals : List Masked) (pass : Bool)
    (cells : List Host.Cell) : State :=
  { s with
    outputs := s.outputs ++ [{ run := s.runNo, xy := xy, out := o.out, uncached := o.uncached, vals := vals, written := pass }]
    writes := if pass then
        s.writes ++ [{ run := s.runNo, xy := xy, issued := s.tick, acquired := o.acquire && o.uncached, synced := none
                       unsaid := false, cells := cells }]
      else s.writes
    mem := if o.uncached then s.mem else Memory.writeAll s.mem cells }

/-- What one processor's output stores: nothing where its request is not dispatched; refused where it goes to an output whose
descriptor no command has set, into the program, or where another instance reads or writes, in this order, which R313 does not
give. An output that lets no component through makes a request as any other: the spec does not say that it makes none (R185,
R188). Log entries 32, 52, DESIGN CHOICE. -/
def State.outRequest (s : State) (o : OutputFields) (xy : IndexPair) (vals : List Masked) (pass : Bool) :
    Except Refusal (List Host.Cell) :=
  if !pass then .ok []
  else
    match s.outDesc o.out with
    | none => .error .descriptorNotSet
    | some d =>
      if (outCells d xy vals).any fun c => s.inProgram c.1 then .error .writeIntoProgram
      else if (outCells d xy vals).any fun c => s.sharedWithOther xy c.1 then .error .outputRace
      else .ok (outCells d xy vals)

/-- The tests of several processors' outputs, one after the other, before any of them is dispatched. Log entry 33. -/
def testAll (o : OutputFields) : List Proc → State → Except Refusal (List Bool × State)
  | [], s => .ok ([], s)
  | p :: ps, s =>
    match s.coTest o p.xy (s.outVals o p) with
    | .error r => .error r
    | .ok (b, t) =>
      match testAll o ps t with
      | .error r => .error r
      | .ok (bs, u) => .ok (b :: bs, u)

/-- One processor's output event, and its write request if the test passed (R188, R148). -/
def outputOne (o : OutputFields) (p : Proc) (pass : Bool) (s : State) : Except Refusal (State × Lane) :=
  match s.outRequest o p.xy (s.outVals o p) pass with
  | .error r => .error r
  | .ok cells =>
    .ok (s.recordOutput o p.xy (s.outVals o p) pass cells,
      { xy := p.xy, coords := Quad.all 0, mask := Quad.all false, cells := cells })

/-- The outputs of several processors with their tests' results, one after the other. -/
def outputAll (o : OutputFields) : List (Proc × Bool) → State → Except Refusal (State × List Lane)
  | [], s => .ok (s, [])
  | e :: es, s =>
    match outputOne o e.1 e.2 s with
    | .error r => .error r
    | .ok (s1, l) =>
      match outputAll o es s1 with
      | .error r => .error r
      | .ok (s2, ls) => .ok (s2, l :: ls)

/-- The outputs of the stream's live processors: their tests, then their requests. -/
def State.sendOutputs (s : State) (o : OutputFields) : Except Refusal (State × List Lane) :=
  match testAll o (s.stream.procs.filter Proc.live) s with
  | .error r => .error r
  | .ok (bs, t) => outputAll o ((s.stream.procs.filter Proc.live).zip bs) t

/-- Is the instruction at the pc the last of the program? (R185). -/
def State.atLast (s : State) : Bool :=
  s.stream.pc + 1 == s.program.length

/-- The stream after an OUTPUT: the fifo is reserved (R186), with no live processor too (log entry 53, DESIGN CHOICE), the last
OUTPUT ends the program (R185), an uncached write is outstanding (spec/42_texture.md R231). -/
def State.closeOutput (s : State) (o : OutputFields) (k : Nat) (lanes : List Lane) : State :=
  s.withStream { s.stream with
    fifoReserved := true
    done := s.stream.done || s.atLast
    pending := if o.uncached then
        s.stream.pending ++
          [{ seq := k, op := .write, sampler := 0, unscaled := false, dst := 0, lanes := lanes, due := s.deadline }]
      else s.stream.pending }

/-- Effect of an OUTPUT (R188). -/
def outputEffect (o : OutputFields) (s : State) (k : Nat) : Result :=
  checkRegs s (if s.anyLive then o.srcs.map s.regOf else []) []
    (match s.sendOutputs o with
    | .error r => .refused r
    | .ok (s1, lanes) => .next (s1.closeOutput o k lanes))

/-- OUTPUT (R185 to R188, R231). -/
def execOutput (o : OutputFields) (s : State) : Result :=
  issue o.wait (o.acquire && o.uncached) o.uncached s (outputEffect o)

end Sys2Proof.Machine
end

