-- ==== Sys2Proof/Machine/Texture.lean ====
section
/-! DEFINITION. The five texture instructions and the texture unit's steps Perform and Release (spec/42_texture.md). -/

namespace Sys2Proof.Machine

/-! ## Effects at issue -/

/-- What issue records for a processor of a lookup: its swizzled coordinates and the components it may write (R214, R230, R234).
Predication gates these by the predicate bits as they are at issue, not at Perform. Log entry 19, DESIGN CHOICE. -/
def lookupLane (s : State) (t : TexFields) (p : Proc) : Lane :=
  { xy := p.xy
    coords := swizzled t.swizzle (p.temp s.runNo (s.regOf t.src))
    mask := maskInter t.wmask (p.enabled t.pred)
    cells := [] }

/-- What issue records for a processor of a kill: its components, not swizzled, and those examined (R215), gated by the predicate
bits as in `lookupLane`. Log entry 19, DESIGN CHOICE. -/
def killLane (s : State) (t : TexFields) (p : Proc) : Lane :=
  { xy := p.xy
    coords := p.temp s.runNo (s.regOf t.src)
    mask := maskInter t.wmask (p.enabled t.pred)
    cells := [] }

/-- The lanes of the processors an instruction acts on. -/
def State.lanes (s : State) (f : Proc → Lane) : List Lane :=
  (s.stream.procs.filter Proc.live).map f

/-- The outstanding operation a lookup adds (R214). -/
def lookupPend (o : LookupOp) (t : TexFields) (s : State) (k : Nat) : Pend :=
  { seq := k, op := .lookup o, sampler := t.sampler, unscaled := t.unscaled, dst := s.regOf t.dst,
    lanes := s.lanes (lookupLane s t), due := s.deadline }

/-- The outstanding operation a kill adds (R215). -/
def killPend (t : TexFields) (s : State) (k : Nat) : Pend :=
  { seq := k, op := .kill, sampler := 0, unscaled := false, dst := 0, lanes := s.lanes (killLane s t)
    due := s.deadline }

/-- The registers whose ownership the reads of the live processors check. -/
def State.readBy (s : State) (regs : List Nat) : List Nat :=
  if s.anyLive then regs else []

/-- The descriptor a sampler ID names (spec/10_state.md R38). -/
def State.inputDesc (s : State) (k : Nat) : Option Desc :=
  slotDesc s.ctl.inputs k

/-- Does a lookup of this sampler use a descriptor no command has set? (spec/10_state.md R46). -/
def State.inputUnset (s : State) (k : Nat) : Bool :=
  s.anyLive && (s.inputDesc k).isNone

/-- Effect of a lookup (R214, R216, R217). -/
def lookupEffect (o : LookupOp) (t : TexFields) (s : State) (k : Nat) : Result :=
  checkRegs s (s.readBy [s.regOf t.src]) [s.regOf t.dst]
    (if s.inputUnset t.sampler then .refused .descriptorNotSet else .next (s.addPending (lookupPend o t s k)))

/-- Effect of a kill (R215). -/
def killEffect (t : TexFields) (s : State) (k : Nat) : Result :=
  checkRegs s (s.readBy [s.regOf t.src]) [] (.next (s.addPending (killPend t s k)))

/-- Effect of a texture NOP: nothing (R213). -/
def nopEffect (s : State) (_ : Nat) : Result :=
  .next s

/-! ## The instructions -/

/-- TEX_INST_NOP (R213). -/
def execTexNop (t : TexFields) (s : State) : Result :=
  issue t.wait t.acquire true s nopEffect

/-- TEX_INST_LOOKUP (R214). -/
def execTexLookup (t : TexFields) (s : State) : Result :=
  issue t.wait t.acquire true s (lookupEffect .standard t)

/-- TEX_INST_KILL_LT_0 (R215). -/
def execTexKillLtZero (t : TexFields) (s : State) : Result :=
  issue t.wait t.acquire true s (killEffect t)

/-- TEX_INST_LOOKUP_PROJ (R216). -/
def execTexLookupProj (t : TexFields) (s : State) : Result :=
  issue t.wait t.acquire true s (lookupEffect .projected t)

/-- TEX_INST_LOOKUP_UNCACHED (R217). -/
def execTexLookupUncached (t : TexFields) (s : State) : Result :=
  issue t.wait t.acquire true s (lookupEffect .uncached t)

/-! ## Perform (R219) -/

/-- The byte a lookup sees: through the cache, or not (R214, R217; spec/20_memory.md R72, R74). Byte j, at address a, of the
element at e. -/
def State.lookupByte (s : State) (o : LookupOp) (xy : IndexPair) (k e j a : Nat) : Byte :=
  match o with
  | .standard => s.cachedByte xy e j a
  | .projected => s.cachedByte xy e j a
  | .uncached => s.uncachedByte xy k e j a

/-- How many bytes a buffer takes: one element at least, and never beyond the address space. Log entry 30. -/
def bufferBytes (d : Desc) : Nat :=
  elemSize d.layout.format + Config.bufferSlack d % (2 ^ 32 - d.base.toNat - elemSize d.layout.format + 1)

/-- The offset of an element inside its buffer (R232 b). -/
def elemPlace (d : Desc) (n : Nat) : Nat :=
  n % (bufferBytes d - elemSize d.layout.format + 1)

/-- The descriptor of an outstanding lookup; a free one where none is set, which the lookup's issue has refused. -/
def State.pendDesc (s : State) (e : Pend) : Desc :=
  (s.inputDesc e.sampler).getD (Config.unsetDesc e.sampler)

/-- The offsets of the elements a lookup reads for a lane, all inside the buffer (R232 b). -/
def State.lookupPlaces (s : State) (o : LookupOp) (e : Pend) (l : Lane) : List Nat :=
  (Config.texElems o (s.pendDesc e) e.unscaled l.coords).map (elemPlace (s.pendDesc e))

/-- One element as a lookup reads it: a whole element in one event (spec/20_memory.md R67, R68). -/
def State.lookupElem (s : State) (o : LookupOp) (xy : IndexPair) (k : Nat) (d : Desc) (off : Nat) : Elem :=
  elemOf d.layout.format ((List.range (elemSize d.layout.format)).map fun j =>
    s.lookupByte o xy k (cellAddr d.base off) j (cellAddr d.base (off + j)))

/-- What a lookup returns for a lane: TexFetch (R232). Log entry 30. -/
def State.texFetch (s : State) (o : LookupOp) (e : Pend) (l : Lane) : Vec4 :=
  Config.texValue o (s.pendDesc e) e.unscaled l.coords
    ((s.lookupPlaces o e l).map (s.lookupElem o l.xy e.seq (s.pendDesc e)))

/-- The addresses a lookup reads for a lane. -/
def State.lookupAddrs (s : State) (o : LookupOp) (e : Pend) (l : Lane) : List Nat :=
  (s.lookupPlaces o e l).flatMap (elemAddrs (s.pendDesc e))

/-- What performing a lookup reads, for each lane. -/
def State.lookupReads (s : State) (o : LookupOp) (e : Pend) : List ReadRec :=
  e.lanes.map fun l => { xy := l.xy, addrs := s.lookupAddrs o e l }

/-- Does the outstanding lookup read what another instance of the run wrote? (spec/60_exceptions.md R320, decision D22). A kill is
never refused, whatever its `killedOutputs` overlap. Log entry 41, DESIGN CHOICE. -/
def State.races (s : State) (e : Pend) : Bool :=
  match e.op with
  | .lookup o => s.readsRace (s.lookupReads o e)
  | .kill => false
  | .write => false

/-- The lane of a processor, if the operation recorded it. -/
def Pend.lane (e : Pend) (p : Proc) : Option Lane :=
  e.lanes.find? fun l => l.xy == p.xy

/-- A lookup's result reaches a processor's destination register (R214, R234). -/
def performLookup (s : State) (o : LookupOp) (e : Pend) (p : Proc) : Proc :=
  match e.lane p with
  | none => p
  | some l => p.writeTemp s.runNo e.dst l.mask (s.texFetch o e l)

/-- Does a kill land on a processor? (R215). -/
def Pend.kills (e : Pend) (p : Proc) : Bool :=
  (e.lane p).any fun l => killTest l.mask l.coords

/-- A kill on a processor (R215). Log entry 9. -/
def performKill (e : Pend) (p : Proc) : Proc :=
  if e.kills p then { p with killed := true } else p

/-- The fields of an OUTPUT. -/
def outputFields : Instr → Option OutputFields
  | .output o => some o
  | .texNop _ | .texLookup _ | .texKillLtZero _ | .texLookupProj _ | .texLookupUncached _ => none
  | .opRgbMax _ _ _ | .opRgbCnd _ _ _ | .opRgbCmp _ _ _ | .opRgbFrc _ _ _ => none
  | .opAlphaMax _ _ _ | .opAlphaCnd _ _ _ | .opAlphaCmp _ _ _ | .opAlphaFrc _ _ _ => none
  | .aluUnnamed _ _ | .aluCrossEngineCopy _ _ => none
  | .fcJump _ | .fcLoop _ _ | .fcEndloop _ | .fcRep _ _ | .fcEndrep _ | .fcContinue _ => none
  | .setConstiFmt _ _ | .setCondTest _ | .readPerfCounters _ | .floatConstFmt _ _ => none
  | .inputBase _ _ | .outputBase _ _ | .programData _ _ | .sizeParameter _ => none
  | .domainBounds _ _ | .programStart | .perfControl _ _ => none

/-- The cells that an OUTPUT of a killed processor may store: where its values would go, with bytes of which nothing is said; none
where it goes to an output no command has set, or the CO's test never passes. -/
def State.unsaidCells (s : State) (xy : IndexPair) (o : OutputFields) : List Host.Cell :=
  if s.ctl.cond == .never then []
  else
    (s.outDesc o.out).elim [] fun d =>
      (outCells d xy (o.srcs.map fun _ => Quad.all none)).map fun c => (c.1, Config.unsaidByte s.tick xy c.1)

/-- What the program's OUTPUTs may yet write for the processors that a kill lands on: whether the ones issued after the kill
reach memory is unsaid, and which are issued depends on a flow the model does not follow (R215, decision D10). The kill goes on
although such bytes may lie in the program's area (spec/20_memory.md R76), or where another instance has read or written already
(R68): only later accesses to them are refused. Log entries 9, 41, DESIGN CHOICE. -/
def State.killedOutputs (s : State) (e : Pend) : List WriteRec :=
  (s.stream.procs.filter fun p => !p.killed && e.kills p).flatMap fun p =>
    (s.program.filterMap outputFields).map fun o =>
      { run := s.runNo, xy := p.xy, issued := s.tick, acquired := false, synced := none, unsaid := true
        cells := s.unsaidCells p.xy o }

/-- The bytes an uncached write stores. -/
def Pend.cells (e : Pend) : List Host.Cell :=
  e.lanes.flatMap Lane.cells

/-- The operation's Perform, without its removal from pending (R214 to R217, R231). -/
def State.performElem (s : State) (e : Pend) : State :=
  match e.op with
  | .lookup o =>
    (s.withStream { s.stream with procs := s.stream.procs.map (performLookup s o e) }).noteReads (s.lookupReads o e)
  | .kill =>
    { s with
      stream := { s.stream with procs := s.stream.procs.map (performKill e) }
      writes := s.writes ++ s.killedOutputs e }
  | .write => { s with mem := Memory.writeAll s.mem e.cells }

/-- Remove the outstanding operation at a place of the list. -/
def State.dropPending (s : State) (i : Nat) : State :=
  s.withStream { s.stream with pending := s.stream.pending.eraseIdx i }

/-- Perform the outstanding operation at a place of the list (R219). -/
def State.performAt (s : State) (i : Nat) : State :=
  match s.stream.pending[i]? with
  | none => s
  | some e => (s.performElem e).dropPending i

/-- The step Perform: refused where a lookup would read what another instance of the run wrote. -/
def State.performStep (s : State) (i : Nat) : Result :=
  if (s.stream.pending[i]?).any s.races then .refused .outputRace else .next (s.performAt i)

/-! ## Release (R226) -/

/-- Release is enabled: the semaphore is held(k) and nothing of sequence number at most k is outstanding. -/
def Stream.releasable (st : Stream) : Bool :=
  match st.sem with
  | .free => false
  | .held k => st.pending.all fun e => decide (k < e.seq)

def State.releasable (s : State) : Bool :=
  s.stream.releasable

/-- Release the semaphore. -/
def State.release (s : State) : State :=
  s.withStream { s.stream with sem := .free }

end Sys2Proof.Machine
end

