-- ==== Sys2Proof/Machine/Dispatch.lean ====
section
/-! DEFINITION. One arm per instruction and command. -/

namespace Sys2Proof.Machine

def exec (i : Instr) (s : State) : Host.Outcome State Fault Refusal :=
  match i with
  | .texNop t => Sys2Proof.Machine.execTexNop t s
  | .texLookup t => Sys2Proof.Machine.execTexLookup t s
  | .texKillLtZero t => Sys2Proof.Machine.execTexKillLtZero t s
  | .texLookupProj t => Sys2Proof.Machine.execTexLookupProj t s
  | .texLookupUncached t => Sys2Proof.Machine.execTexLookupUncached t s
  | .opRgbMax p co c => Sys2Proof.Machine.execOpRgbMax p co c s
  | .opRgbCnd p co c => Sys2Proof.Machine.execOpRgbCnd p co c s
  | .opRgbCmp p co c => Sys2Proof.Machine.execOpRgbCmp p co c s
  | .opRgbFrc p co c => Sys2Proof.Machine.execOpRgbFrc p co c s
  | .opAlphaMax p co c => Sys2Proof.Machine.execOpAlphaMax p co c s
  | .opAlphaCnd p co c => Sys2Proof.Machine.execOpAlphaCnd p co c s
  | .opAlphaCmp p co c => Sys2Proof.Machine.execOpAlphaCmp p co c s
  | .opAlphaFrc p co c => Sys2Proof.Machine.execOpAlphaFrc p co c s
  | .aluUnnamed h c => Sys2Proof.Machine.execAluUnnamed h c s
  | .aluCrossEngineCopy h c => Sys2Proof.Machine.execAluCrossEngineCopy h c s
  | .output o => Sys2Proof.Machine.execOutput o s
  | .fcJump f => Sys2Proof.Machine.execFcJump f s
  | .fcLoop f k => Sys2Proof.Machine.execFcLoop f k s
  | .fcEndloop f => Sys2Proof.Machine.execFcEndloop f s
  | .fcRep f k => Sys2Proof.Machine.execFcRep f k s
  | .fcEndrep f => Sys2Proof.Machine.execFcEndrep f s
  | .fcContinue f => Sys2Proof.Machine.execFcContinue f s
  | .setConstiFmt b f => Sys2Proof.Machine.execSetConstiFmt b f s
  | .setCondTest c => Sys2Proof.Machine.execSetCondTest c s
  | .readPerfCounters addr => Sys2Proof.Machine.execReadPerfCounters addr s
  | .floatConstFmt b f => Sys2Proof.Machine.execFloatConstFmt b f s
  | .inputBase k b => Sys2Proof.Machine.execInputBase k b s
  | .outputBase k b => Sys2Proof.Machine.execOutputBase k b s
  | .programData b f => Sys2Proof.Machine.execProgramData b f s
  | .sizeParameter v => Sys2Proof.Machine.execSizeParameter v s
  | .domainBounds i0 j0 => Sys2Proof.Machine.execDomainBounds i0 j0 s
  | .programStart => Sys2Proof.Machine.execProgramStart s
  | .perfControl start param => Sys2Proof.Machine.execPerfControl start param s

end Sys2Proof.Machine
end

