-- ==== Sys2Proof/Machine/Fetch.lean ====
section
/-! DEFINITION. How the PE reads a command (spec/40_commands.md R130 to R132; spec/30_encoding.md R101; spec/20_memory.md
R65, R66). -/

namespace Sys2Proof.Machine

/-- Why a fetch stops. -/
abbrev Stop := Fault ⊕ Refusal

def stopResult : Stop → Result
  | .inl f => .fault f
  | .inr r => .refused r

/-- The byte the PE reads: none where nothing has been written; a draw where a program's write may not have reached memory
(R143); a command's words are read one by one (spec/20_memory.md R67). After a program start with the pipe flushed an earlier
program's bytes are plain memory here too (`State.writesKept`; R77). Log entries 31, 35, DESIGN CHOICE. -/
def State.peByte (s : State) (a : Nat) : Option Byte :=
  match s.writesAt a with
  | [] => Memory.read s.mem a
  | _ :: _ => some (Config.drawElem s.tick ⟨0, 0⟩ (a - a % 4) (a % 4))

/-- Up to n bytes from an address on, as far as memory holds any. -/
def State.peBytes (s : State) : Nat → Nat → List Byte
  | _, 0 => []
  | a, n + 1 =>
    match s.peByte a with
    | none => []
    | some b => b :: s.peBytes (a + 1) n

/-- How a decoding error stops the machine. -/
def decodeStop : DecodeError → Stop
  | .truncated => .inl .commandCut
  | .unknownCommand => .inr .unknownCommand
  | .reservedNonzero => .inr .reservedNonzero
  | .reservedValue => .inr .reservedValue

/-- Does a lost opcode word still stand where it was placed? It does while memory lists nothing at its four bytes and no program's
write covers one; whatever is written over it (a program's output, a counter dump, the host's bytes) is read in its place. Log
entry 36, DESIGN CHOICE. -/
def State.opStands (s : State) (t : PlacedOp) : Bool :=
  (List.range 4).all fun j => (s.peByte (t.addr + j)).isNone

/-- A command whose opcode word is lost, with its parameters read from memory (R131, R132; spec/30_encoding.md R101). -/
def State.fetchOp (s : State) (t : PlacedOp) : Except Stop (Command × Nat) :=
  if s.pe.limit < s.pe.ptr + 4 * (1 + t.cmd.params) then .error (.inl .commandCut)
  else
    match takeWords t.cmd.params (s.peBytes (s.pe.ptr + 4) (4 * t.cmd.params)) with
    | none => .error (.inl .commandCut)
    | some ([], _) => .error (.inl .commandCut)
    | some (p :: ps, _) =>
      match decodeLost t.cmd t.index p ps with
      | .ok c => .ok (c, 1 + t.cmd.params)
      | .error e => .error (decodeStop e)

/-- A command whose opcode word is given, from its bytes. -/
def State.fetchBytes (s : State) : Except Stop (Command × Nat) :=
  let bs := s.peBytes s.pe.ptr (min maxCommandBytes (s.pe.limit - s.pe.ptr))
  match decode bs with
  | .ok (i, rest) => .ok (.row i, (bs.length - rest.length) / 4)
  | .error e => .error (decodeStop e)

/-- The command at the PE's pointer and how many words it takes. -/
def State.peFetch (s : State) : Except Stop (Command × Nat) :=
  if s.pe.ptr % 4 ≠ 0 then .error (.inr .misalignedCommands)
  else
    match s.pe.ops.find? fun t => t.addr == s.pe.ptr && s.opStands t with
    | some t => s.fetchOp t
    | none => s.fetchBytes

/-- Move the PE past a command's words (R101). -/
def State.advancePe (s : State) (words : Nat) : State :=
  { s with pe := { s.pe with ptr := s.pe.ptr + 4 * words } }

end Sys2Proof.Machine
end

