-- ==== Sys2Proof/Machine/Launch.lean ====
section
/-! DEFINITION. Launching instances, what a running stream can do next, and the end of an instance
(spec/70_reset_and_hazards.md R341, R352; spec/42_texture.md R219, R226, R236; spec/10_state.md R40). -/

namespace Sys2Proof.Machine

/-- A free index into a list: the only one where there is only one. -/
def pickIndex {α : Type} (tick n : Nat) : List α → Nat
  | [] => 0
  | [_] => 0
  | l => Config.choice tick n % l.length

/-- Take up to g index pairs in a free order: those taken and those left (R40: no order assumed). Log entry 7. -/
def drawGroup (tick : Nat) : Nat → List IndexPair → List IndexPair × List IndexPair
  | 0, l => ([], l)
  | g + 1, l =>
    match l[pickIndex tick g l]? with
    | none => ([], l)
    | some xy =>
      let r := drawGroup tick g (l.eraseIdx (pickIndex tick g l))
      (xy :: r.1, r.2)

/-- The temporaries a launch writes for an instance (R341, entry_regs): whatever registers the launch names, below NTEMP or not,
which R341 does not say. The map is kept: a later program start writes it again for the same index pairs, until a launch sets
another. What survives between programs is not said (spec/60_exceptions.md R322). Log entry 44, DESIGN CHOICE. -/
def State.entryTemps (s : State) (xy : IndexPair) : List (Nat × Vec4) :=
  match s.ctl.entryRegs.find? fun e => e.xy == xy with
  | none => []
  | some e => e.regs.foldl (fun l r => assocSet l r.1 r.2) []

/-- A processor at the start of an instance (R341, R46): what R46 calls unspecified is free. Log entries 5, 14, 20, 26. -/
def State.launchProc (s : State) (xy : IndexPair) : Proc :=
  { xy := xy, temps := s.entryTemps xy, killed := false, active := true, counter := Config.launchCounter s.tick xy,
    pred := Config.launchPred s.tick xy, aluResult := Config.launchAluResult s.tick xy,
    last := Config.launchLast s.tick xy }

/-- The stream of a group of instances at its start (R341). The flow-control stacks, which R46 calls unspecified, start empty, and
no branch is open. Log entry 15, DESIGN CHOICE. -/
def State.launchStream (s : State) (xys : List IndexPair) : Stream :=
  { pc := 0, sem := .free, semDue := 0, pending := [], seq := 0, procs := xys.map s.launchProc, depth := 0
    loops := { aL := Config.launchAL s.tick, loopStack := [], repStack := [] }, callStack := [], done := false,
    fifoReserved := false }

/-- All streams that run. -/
def State.streams (s : State) : List Stream :=
  s.stream :: s.others

/-- How many processors are at work. -/
def State.busy (s : State) : Nat :=
  if s.running then (s.streams.map fun st => st.procs.length).sum else 0

/-- Is there an index pair that waits, and a group of idle processors for it? (R320, spec/10_state.md R40). Log entry 7. -/
def State.canLaunch (s : State) : Bool :=
  !s.waiting.isEmpty && decide (s.busy + Config.group ≤ Config.nproc)

/-- Launch the next group of waiting index pairs, beside the streams that run. -/
def State.launchGroup (s : State) : State :=
  let g := drawGroup s.tick Config.group s.waiting
  { s with
    waiting := g.2
    running := true
    stream := s.launchStream g.1
    others := if s.running then s.streams else [] }

/-- Every processor of the stream has been killed (spec/42_texture.md R215). -/
def State.allKilled (s : State) : Bool :=
  s.stream.procs.all Proc.killed

/-- The stream issues nothing more: its last OUTPUT has issued or all its processors are killed. -/
def State.issuedAll (s : State) : Bool :=
  s.stream.done || s.allKilled

/-- The run of the stream is final (spec/42_texture.md R236). -/
def State.finished (s : State) : Bool :=
  s.issuedAll && s.stream.pending.isEmpty && s.stream.sem == .free

/-- Does the instruction at the pc hold? (R222). -/
def State.nextHolds (s : State) : Bool :=
  match s.program[s.stream.pc]? with
  | none => false
  | some i => s.holds i.semWait

/-- What can happen next in a running stream. -/
inductive Move where
  | issue
  | perform (i : Nat)
  | release
  deriving DecidableEq, Repr

/-- The enabled moves: issue, if the stream has an instruction that does not hold; perform any outstanding operation; release
(R219, R222, R226). So a hold comes before the refusal of an ill-formed term at the pc, which spec/60_exceptions.md R313 does not
place. Log entry 52, DESIGN CHOICE. -/
def State.moves (s : State) : List Move :=
  (if s.issuedAll || s.nextHolds then [] else [.issue]) ++
    (List.range s.stream.pending.length).map .perform ++
    (if s.releasable then [.release] else [])

/-- Has the texture unit put this move off as long as it may? (D7). Log entry 8. -/
def Stream.isDue (st : Stream) (tick : Nat) : Move → Bool
  | .issue => false
  | .perform i => (st.pending[i]?).any fun e => decide (e.due ≤ tick)
  | .release => st.releasable && decide (st.semDue ≤ tick)

/-- The moves to choose from: those that are due, if any is, else all. -/
def State.openMoves (s : State) : List Move :=
  match s.moves.filter (s.stream.isDue s.tick) with
  | [] => s.moves
  | m :: ms => m :: ms

/-- The move that happens: a free choice. Log entry 8. -/
def State.pickMove (s : State) : Option Move :=
  s.openMoves[pickIndex s.tick 0 s.openMoves]?

/-! ## Which stream moves (spec/92_eei_decisions.md D25: every interleaving). Log entry 7 -/

/-- Has a stream a move of the texture unit that is due? -/
def Stream.overdue (st : Stream) (tick : Nat) : Bool :=
  (st.pending.any fun e => decide (e.due ≤ tick)) || st.isDue tick .release

/-- The places of the streams that may move next: those with a move that is due, if any has, else all. -/
def State.turnPlaces (s : State) : List Nat :=
  match (List.range s.streams.length).filter fun i => (s.streams[i]?).any fun st => st.overdue s.tick with
  | [] => List.range s.streams.length
  | i :: is => i :: is

/-- Bring the stream at a place of the others to the front. -/
def State.focus (s : State) : Nat → State
  | 0 => s
  | i + 1 =>
    match s.others[i]? with
    | none => s
    | some st => { s with stream := st, others := s.others.set i s.stream }

/-- The stream that moves next, in front: a free choice. -/
def State.turn (s : State) : State :=
  s.focus ((s.turnPlaces[pickIndex s.tick 1 s.turnPlaces]?).getD 0)

/-! ## The end -/

/-- How an instance ended (R215, R236). -/
def endKind (p : Proc) : EndKind :=
  if p.killed then .killed else .normal

/-- Mark the writes of the killed processors of a stream: whether they reach memory is unsaid (R215, D10). Log entry 9. -/
def WriteRec.after (w : WriteRec) (run : Nat) (st : Stream) : WriteRec :=
  { w with unsaid := w.unsaid || (w.run == run && st.procs.any fun p => p.killed && p.xy == w.xy) }

/-- The stream ends: its processors are idle; another stream is in front, if one runs. The PE sees them idle from the next step
on, which R352 does not say. Log entry 42, DESIGN CHOICE. -/
def State.retire (s : State) : State :=
  { s with
    running := !s.others.isEmpty
    stream := s.others.headD s.stream
    others := s.others.tail
    writes := s.writes.map fun w => w.after s.runNo s.stream
    ended := s.ended ++ s.stream.procs.map fun p => (p.xy, endKind p) }

/-- The performance counters after one more step: those that are enabled and exist may count (spec/60_exceptions.md R318). Log
entry 43. -/
def Perf.step (p : Perf) (tick : Nat) : Perf :=
  if p.counting then
    { p with counters := p.enabled.foldl (fun l n =>
        if n < Config.nperf then
          assocSet l n (Config.perfCount tick n ((assocGet p.counters n).getD 0) % 2 ^ Config.perfWidth)
        else l) p.counters }
  else p

/-- What every step adds: the tick from which draws take their freshness, and the counters. -/
def State.endStep (s : State) : State :=
  { s with tick := s.tick + 1, perf := s.perf.step s.tick }

end Sys2Proof.Machine
end

