-- ==== Sys2Proof/Machine/Agents.lean ====
section
/-! DEFINITION. The agents' steps: the instruction stream, the texture unit, the PE (spec/10_state.md, head of the file;
spec/40_commands.md R131, R143). -/

namespace Sys2Proof.Machine

/-- The stream issues the instruction at its pc (spec/42_texture.md R212; spec/10_state.md R25). A term that cannot stand there
is refused before every fault, an acquire without wait too, but after a hold, during which no move issues it (`State.moves`):
spec/60_exceptions.md R313 does not place these refusals. Log entry 52, DESIGN CHOICE. -/
def State.issueNext (s : State) : Result :=
  match s.program[s.stream.pc]? with
  | none => .fault .pcPastEnd
  | some i =>
    if !i.isDpp then .refused .notAnInstruction
    else if !i.wf then .refused .illFormed
    else exec i s

/-- One enabled move. -/
def State.doMove (s : State) : Move → Result
  | .issue => s.issueNext
  | .perform i => s.performStep i
  | .release => .next s.release

/-- A step of a running stream. -/
def State.runStep (s : State) : Result :=
  if s.finished then .next s.retire
  else
    match s.pickMove with
    | none => .next s
    | some m => s.doMove m

/-- The PE has read its buffer to the end. -/
def State.consumeBuffer (s : State) (id : Word) : State :=
  { s with pe := { s.pe with current := none, consumed := s.pe.consumed ++ [id] } }

/-- The PE takes the next submitted buffer, or stays idle (R152). -/
def State.takeBuffer (s : State) : State :=
  match s.pe.queue with
  | [] => s
  | b :: rest => { s with pe := { s.pe with current := some b.id, ptr := b.addr, limit := b.addr + b.size, queue := rest } }

/-- What a command does. -/
def State.execCommand (s : State) : Command → Result
  | .row i => exec i s
  | .extra x => .next (s.execExtra x)

/-- The PE executes the command at its pointer and moves past its words (R101, R131). -/
def State.runCommand (s : State) : Result :=
  match s.peFetch with
  | .error e => stopResult e
  | .ok (c, words) =>
    match s.execCommand c with
    | .next t => .next (t.advancePe words)
    | .fault f => .fault f
    | .refused r => .refused r

/-- A step of the PE. A command area that is not 4-byte aligned is refused when its first command is read, so that one of no
bytes is consumed: when it is refused is not said (spec/20_memory.md R66). Log entry 37, DESIGN CHOICE. -/
def State.peStep (s : State) : Result :=
  match s.pe.current with
  | none => .next s.takeBuffer
  | some id => if s.pe.limit ≤ s.pe.ptr then .next (s.consumeBuffer id) else s.runCommand

/-- One step of the agent whose turn it is: the launch of a waiting group, else a running stream, else the PE, which a program
start has blocked until all processors are idle (R143). -/
def State.agentStep (s : State) : Result :=
  if s.canLaunch then .next s.launchGroup
  else if s.running then s.turn.runStep
  else s.peStep

end Sys2Proof.Machine
end

