-- ==== Sys2Proof/Machine/HostCalls.lean ====
section
/-! DEFINITION. What the host does from outside: build a command buffer (spec/70_reset_and_hazards.md R342), submit a command
buffer and ask whether one is consumed (spec/40_commands.md R151, R152), flush the pipe (spec/20_memory.md R73), load a program
(spec/70_reset_and_hazards.md R342 to R348). None of these is an instruction; they are inputs between steps. -/

namespace Sys2Proof.Machine

/-- Submit a command buffer by address and size; the answer is its unique identifier (R152). The address is any
number: how wide the GPU address is that the host passes is not said (spec/10_state.md R44; spec/20_memory.md R60). Log entry 37,
DESIGN CHOICE. -/
def State.submit (s : State) (addr size : Nat) : State × Word :=
  ({ s with pe := { s.pe with
      queue := s.pe.queue ++ [{ id := s.pe.nextId, addr := addr, size := size }]
      nextId := s.pe.nextId + 1 } }, s.pe.nextId)

/-- Has the command buffer of this identifier been consumed? (amCommandBufferConsumed, R151). The call's return type and exact
meaning are cut off (N19): the answer is a Boolean, which becomes true in a step of its own, once the PE has come to the
buffer's end and what it started is idle. Log entry 37, DESIGN CHOICE. -/
def State.bufferConsumed (s : State) (buf : Word) : Bool :=
  s.pe.consumed.contains buf

/-- The pipe is flushed before the next program starts (R73). Log entry 46. -/
def State.flushPipe (s : State) : State :=
  { s with ctl := { s.ctl with pipeFlushed := true } }

/-- The record of the host's bytes that replace ones of which it is unsaid whether a killed processor wrote them: after a flush it
is the host's that are there (R73). Nothing where there are none. Log entry 9. -/
def State.replacing (s : State) (cells : List Host.Cell) : List WriteRec :=
  match cells.filter fun c => s.writes.any fun w => w.unsaid && w.covers c.1 with
  | [] => []
  | cs =>
    [{ run := s.runNo, xy := ⟨0, 0⟩, issued := s.tick, acquired := false, synced := none, unsaid := false
       cells := Memory.writeAll [] cs }]

/-- The launch's memory: the host writes bytes (spec/10_state.md R46, "a parameter of the launch"). Where a program's write that
no flush has followed covers a byte, later reads of it stay draws: whether the host's byte or the program's is seen is not
settled. Log entry 31, DESIGN CHOICE. The addresses are any numbers, as in `State.submit`. Log entry 37, DESIGN CHOICE. -/
def State.hostWrite (s : State) (cells : List Host.Cell) : State :=
  { s with mem := Memory.writeAll s.mem cells, writes := s.writes ++ s.replacing cells }

/-! ## Building a command buffer (spec/70_reset_and_hazards.md R342, step 2). Log entry 36 -/

/-- One item of a command buffer: a command with its words, or a command whose opcode word is lost, with its parameters. -/
inductive BufferItem where
  | words (ws : List Word)
  | lost (c : LostCommand) (index : Nat) (params : List Word)
  deriving DecidableEq, Repr

/-- How many bytes an item takes. -/
def BufferItem.bytes : BufferItem → Nat
  | .words ws => 4 * ws.length
  | .lost _ _ ps => 4 * (1 + ps.length)

/-- The cells of words from an address on. -/
def wordCells (addr : Nat) (ws : List Word) : List Host.Cell :=
  (wordsBytes ws).zipIdx.map fun e => (addr + e.2, e.1)

/-- Memory with nothing listed at the four bytes from an address on. -/
def Memory.forgetWord (m : List Host.Cell) (addr : Nat) : List Host.Cell :=
  m.filter fun c => decide (c.1 < addr ∨ addr + 4 ≤ c.1)

/-- The host writes an item: its words; or a lost opcode word, at whose bytes memory then lists nothing, and its parameters. -/
def State.placeItem (s : State) (addr : Nat) : BufferItem → State
  | .words ws => s.hostWrite (wordCells addr ws)
  | .lost c k ps =>
    { s with
      mem := Memory.forgetWord s.mem addr
      pe := { s.pe with ops := { addr := addr, cmd := c, index := k } :: s.pe.ops } }.hostWrite (wordCells (addr + 4) ps)

/-- The host writes the items of a command buffer one after the other. -/
def State.buildBuffer (s : State) (addr : Nat) : List BufferItem → State
  | [] => s
  | i :: is => (s.placeItem addr i).buildBuffer (addr + i.bytes) is

/-! ## Launch parameters -/

/-- The parts of an input's or output's descriptor that the launch sets. -/
structure SlotParams where
  base : Option BaseParam
  format : Option FormatParam
  deriving DecidableEq, Repr

/-- Its base 2K aligned and its pitch a multiple of 4, as a command would set them (spec/20_memory.md R61, R62). -/
def SlotParams.slot (p : SlotParams) : Slot :=
  { base := p.base.map baseValue, layout := p.format.map layoutOf }

/-- The launch parameters (spec/92_eei_decisions.md D21): the domain (spec/40_commands.md R142), entry_regs
(spec/70_reset_and_hazards.md R341), the flow-control mode (spec/43_flow_control.md R260), the boolean constants
(spec/10_state.md R37), of which the spec gives no number, so any list of them, and the descriptors of inputs, outputs and the
conditional output buffer (R41). Log entries 44, 45, DESIGN CHOICE. -/
structure LaunchParams where
  domain : List IndexPair
  entryRegs : List EntryRegs
  mode : FlowMode
  bools : List Bool
  inputs : List (Nat × SlotParams)
  outs : List (Nat × SlotParams)
  condBuf : Option BaseParam
  deriving DecidableEq, Repr

/-- The descriptors that launch parameters give. -/
def slotsOf (l : List (Nat × SlotParams)) : List (Nat × Slot) :=
  l.foldl (fun acc e => assocSet acc e.1 e.2.slot) []

/-- Set the launch parameters. -/
def State.withLaunch (s : State) (p : LaunchParams) : State :=
  { s with ctl := { s.ctl with
      domain := p.domain, entryRegs := p.entryRegs, mode := p.mode, bools := p.bools, inputs := slotsOf p.inputs
      outs := slotsOf p.outs, condBuf := p.condBuf.map baseValue } }

/-! ## The program loader (R342 to R348). Log entry 48 -/

/-- The ELF class of a file (R343). -/
inductive ElfClass where
  | class32 | class64
  deriving DecidableEq, Repr

/-- A section's type (R344). -/
inductive SectionType where
  | progbits
  | other (n : Nat)
  deriving DecidableEq, Repr

/-- A section (R344). -/
structure ElfSection where
  /-- The characters of its name. -/
  name : List Byte
  type : SectionType
  /-- SHF_ALLOC. -/
  alloc : Bool
  /-- SHF_EXECINSTR. -/
  execInstr : Bool
  /-- Its contents: instructions as terms, since they have no known encoding (spec/30_encoding.md R108); empty for data. -/
  contents : List Instr
  deriving DecidableEq, Repr

/-- A segment and its program header, whose fields are lost (R343). -/
structure Segment where
  header : List Word
  sections : List ElfSection
  deriving DecidableEq, Repr

/-- A note (R345): one known by its type and name; the Program Information note, its lost fields and its reserved words (R347);
the early-exit note (R348). The types of the last two are lost, so the term says which note it is. -/
inductive Note where
  | typed (type name desc : List Byte)
  | programInfo (fields reserved : List Byte)
  | earlyExit (desc : List Byte)
  deriving DecidableEq, Repr

/-- An executable file in its execution view, as far as the spec gives it (R343 to R345). It holds no machine number and no data
encoding: these header values are lost, and the loader checks neither. Log entry 48, DESIGN CHOICE. -/
structure ObjectFile where
  elfClass : ElfClass
  segments : List Segment
  notes : List Note
  deriving DecidableEq, Repr

/-- ".text". -/
def textName : List Byte :=
  [0x2E, 0x74, 0x65, 0x78, 0x74]

/-- Is this the section of the executable instructions: .text, SHT_PROGBITS, SHF_ALLOC and SHF_EXECINSTR? (R344). -/
def ElfSection.isText (x : ElfSection) : Bool :=
  x.name == textName && x.type == .progbits && x.alloc && x.execInstr

/-- The section of the executable instructions. -/
def ObjectFile.text (f : ObjectFile) : Option ElfSection :=
  (f.segments.flatMap Segment.sections).find? ElfSection.isText

/-- ELF_NOTE_ATI: the seven characters of ATI DPP and a terminating zero (R346). -/
def noteNameAti : List Byte :=
  [0x41, 0x54, 0x49, 0x20, 0x44, 0x50, 0x50, 0x00]

/-- The integer constants an Int32 Constants note lists: type 6 as a little-endian word, name ELF_NOTE_ATI (R346;
spec/20_memory.md R65); none for another note. -/
def Note.int32Consts : Note → Option (List Word)
  | .typed ty name desc => if takeWord ty = some (6#32, []) ∧ name = noteNameAti then some (wordsOf desc) else none
  | .programInfo _ _ => none
  | .earlyExit _ => none

/-- The integer constants a file references; none without the note (R346). -/
def ObjectFile.int32Refs (f : ObjectFile) : List Word :=
  (f.notes.findSome? Note.int32Consts).getD []

/-- Is a reserved word of a Program Information note nonzero? (R347). A note may have any number of them, none too, where the page
shows a run of six or more. Log entry 48, DESIGN CHOICE. -/
def Note.reservedSet : Note → Bool
  | .typed _ _ _ => false
  | .programInfo _ reserved => (wordsOf reserved).any (· != 0#32)
  | .earlyExit _ => false

def Note.isEarlyExit : Note → Bool
  | .typed _ _ _ => false
  | .programInfo _ _ => false
  | .earlyExit _ => true

/-- The bytes of a program's instructions, from its address on (R342, step 1). What they are is lost, so they are free values. Log
entry 40. -/
def programCells (code : List Instr) (base : Word) : List Host.Cell :=
  cellsFrom base 0 ((List.range (Config.instrBytes * code.length)).map (Config.programByte code base))

/-- Load a program at a 2K-aligned address, its bytes in memory there (R342): refused where the file is no 32-bit ELF object
with a .text section, or a reserved word of its Program Information note is nonzero (R347). A file without that note is loaded:
whether the note is required or optional is cut (R345; log entry 48, DESIGN CHOICE). Its machine number and data encoding are
not looked at (R343; log entry 48, DESIGN CHOICE). That it has an early exit is recorded, and nothing exits early (R348). Its
integer-constant references are recorded and nothing reads them: what one does is not said, so a LOOP or REP runs whether or not
its constant is listed (R346; log entry 48, DESIGN CHOICE). -/
def State.loadProgram (s : State) (f : ObjectFile) (at_ : BaseParam) : Except Refusal State :=
  match f.elfClass, f.text with
  | .class32, some x =>
    if f.notes.any Note.reservedSet then .error .reservedNonzero
    else .ok { s.hostWrite (programCells x.contents (baseValue at_)) with
      program := x.contents, programAt := some (baseValue at_), int32Refs := f.int32Refs
      earlyExit := f.notes.any Note.isEarlyExit }
  | .class32, none => .error .notAnExecutable
  | .class64, _ => .error .notAnExecutable

end Sys2Proof.Machine
end

