-- ==== Sys2Proof/Machine/Step.lean ====
section
/-! DEFINITION. One step of the machine, and the state in which a given command is fetched next. -/

namespace Sys2Proof.Machine

/-- One step: the agent whose turn it is, then the tick. -/
def step (s : State) : Host.Outcome State Fault Refusal :=
  match s.agentStep with
  | .next t => .next t.endStep
  | .fault f => .fault f
  | .refused r => .refused r

/-- Where withFetchWord puts the bytes: the PE's pointer, or address 0 where the pointer cannot be read from. -/
def State.fetchPlace (s : State) : Nat :=
  if s.pe.ptr % 4 = 0 ∧ s.pe.ptr + maxCommandBytes ≤ 2 ^ 32 then s.pe.ptr else 0

/-- Bytes as cells from an address on. -/
def cellsAt : Nat → List Byte → List Host.Cell
  | _, [] => []
  | a, b :: bs => (a, b) :: cellsAt (a + 1) bs

/-- s with the command whose lowest nbits bits are w where the PE fetches next: no program running or waiting, a buffer being
read whose pointer is at the command's bytes, and no program's write over them; a lost opcode word placed there stands no longer
(`State.opStands`). Log entry 38. -/
def State.withFetchWord (s : State) (nbits w : Nat) : State :=
  { s with
    running := false
    waiting := []
    writes := s.writes.filter fun r => !(List.range maxCommandBytes).any fun j => r.covers (s.fetchPlace + j)
    mem := Memory.writeAll s.mem (cellsAt s.fetchPlace (tableBytes nbits w))
    pe := { s.pe with
      ptr := s.fetchPlace
      limit := max s.pe.limit (s.fetchPlace + maxCommandBytes)
      current := some (s.pe.current.getD 0) } }

end Sys2Proof.Machine
end

