-- ==== Sys2Proof/Safety.lean ====
section
/-! DEFINITION. The invariants that claims are stated in. -/

namespace Sys2Proof.Machine

/-! ## Terms of the statements -/

/-- The state with another semaphore. -/
def State.withSem (s : State) (m : Sem) : State :=
  { s with stream := { s.stream with sem := m } }

/-- The two engines' halves and the common fields of an ALU instruction (spec/41_alu_output.md R170); none of another type. -/
def aluHalves : Instr → Option (Option RgbHalf × Option AlphaHalf × AluCommon)
  | .opRgbMax p co c => some (some ⟨.max, p⟩, co, c)
  | .opRgbCnd p co c => some (some ⟨.cnd, p⟩, co, c)
  | .opRgbCmp p co c => some (some ⟨.cmp, p⟩, co, c)
  | .opRgbFrc p co c => some (some ⟨.frc, p⟩, co, c)
  | .opAlphaMax p co c => some (co, some ⟨.max, p⟩, c)
  | .opAlphaCnd p co c => some (co, some ⟨.cnd, p⟩, c)
  | .opAlphaCmp p co c => some (co, some ⟨.cmp, p⟩, c)
  | .opAlphaFrc p co c => some (co, some ⟨.frc, p⟩, c)
  | .aluUnnamed (.rgb u p o) c => some (some ⟨.unnamed u, p⟩, o, c)
  | .aluUnnamed (.alpha u p o) c => some (o, some ⟨.unnamed u, p⟩, c)
  | .aluCrossEngineCopy (.toRgb p o) c => some (some ⟨.copy, p⟩, o, c)
  | .aluCrossEngineCopy (.toAlpha p o) c => some (o, some ⟨.copy, p⟩, c)
  | .texNop _ | .texLookup _ | .texKillLtZero _ | .texLookupProj _ | .texLookupUncached _ | .output _ => none
  | .fcJump _ | .fcLoop _ _ | .fcEndloop _ | .fcRep _ _ | .fcEndrep _ | .fcContinue _ => none
  | .setConstiFmt _ _ | .setCondTest _ | .readPerfCounters _ | .floatConstFmt _ _ | .inputBase _ _ => none
  | .outputBase _ _ | .programData _ _ | .sizeParameter _ | .domainBounds _ _ | .programStart | .perfControl _ _ => none

/-- Is a processor's write request dispatched, as the state is when its OUTPUT issues? Never under Never; under Less if v is
less than b, and where no buffer is set, for an OUTPUT that is not conditional, as is free (spec/40_commands.md R147, R148;
spec/41_alu_output.md R188). -/
def State.passes (s : State) (o : OutputFields) (p : Proc) : Bool :=
  match s.ctl.cond, s.ctl.condBuf with
  | .never, _ => false
  | .less, none => !o.conditional && Config.absentPasses s.tick p.xy
  | .less, some base => Config.condLess (s.sentValue o p.xy (s.outVals o p)) (s.condRead base p.xy).1

/-- What a processor's test reads of memory: b, under Less, where the buffer is set and the cached value is gone. -/
def State.testReads (s : State) (p : Proc) : List ReadRec :=
  match s.ctl.cond with
  | .never => []
  | .less => s.ctl.condBuf.elim [] fun base => s.condReads base p.xy

/-- The state with a record of all that the outstanding kills may make unsaid: the outputs of the processors they land on
(spec/42_texture.md R215). -/
def State.afterKills (s : State) : State :=
  { s with writes := s.writes ++ (s.stream.pending.filter fun e => e.op == .kill).flatMap s.killedOutputs }

/-- A single-precision number next to r times 2^-149, or equal to it: finite, with no finite number between (spec/41_alu_output.md
R177; spec/44_floating_point.md R294, rounding). -/
def isNeighbour (w : Word) (r : Int) : Prop :=
  floatExp w ≠ 255 ∧ ∀ v : Word, floatExp v ≠ 255 →
    ¬(floatScaled w < floatScaled v ∧ floatScaled v ≤ r) ∧ ¬(r ≤ floatScaled v ∧ floatScaled v < floatScaled w)

/-- The bytes a processor's output stores. -/
def State.cellsOf (s : State) (o : OutputFields) (p : Proc) : List Host.Cell :=
  if s.passes o p then (s.outDesc o.out).elim [] fun d => outCells d p.xy (s.outVals o p) else []

/-! ## Memory (spec/20_memory.md R60) -/

/-- Every byte an outstanding uncached write will store lies in the address space. -/
def Stream.pendingInSpace (st : Stream) : Prop :=
  ∀ e ∈ st.pending, ∀ l ∈ e.lanes, ∀ c ∈ l.cells, c.1 < 2 ^ 32

/-- Memory is in canonical form and stays within the address space. -/
def State.MemInv (s : State) : Prop :=
  Memory.wf s.mem ∧ ∀ st ∈ s.streams, st.pendingInSpace

/-! ## The texture semaphore and ownership (spec/42_texture.md R212, R223, R226, R229) -/

/-- The numbers of outstanding operations rise in issue order and none is ahead of the stream's counter. -/
def Stream.seqOrdered (st : Stream) : Prop :=
  (st.pending.map Pend.seq).Pairwise (· < ·) ∧ ∀ e ∈ st.pending, e.seq ≤ st.seq

/-- The semaphore is free or held by an operation this stream has issued. -/
def Stream.semKnown (st : Stream) : Prop :=
  ∀ k, st.sem = .held k → k ≤ st.seq

/-- No two outstanding lookups have one destination. -/
def Stream.ownersDistinct (st : Stream) : Prop :=
  ((st.pending.filter Pend.isLookup).map Pend.dst).Nodup

/-- What the texture unit may rely on, in every stream. -/
def State.SemInv (s : State) : Prop :=
  ∀ st ∈ s.streams, st.seqOrdered ∧ st.semKnown ∧ st.ownersDistinct

/-! ## Descriptors (spec/20_memory.md R61, R62; spec/00_scope.md R8, BASE_ALIGN and PITCH_MAX) -/

/-- A base that is 2K aligned. -/
def baseAligned (b : Word) : Prop :=
  b.extractLsb' 0 11 = 0

/-- A pitch that is a multiple of 4 and at most 8188. -/
def pitchAligned (l : Layout) : Prop :=
  l.pitch.extractLsb' 0 2 = 0 ∧ l.pitch.toNat ≤ 8188

def descAligned (d : Desc) : Prop :=
  baseAligned d.base ∧ pitchAligned d.layout

/-- What is set of an input's or output's descriptor is aligned. -/
def Slot.aligned (s : Slot) : Prop :=
  (∀ b, s.base = some b → baseAligned b) ∧ ∀ l, s.layout = some l → pitchAligned l

/-- Every descriptor that is set is aligned: the constants', the program's, the inputs', the outputs', the conditional output
buffer's, and the base after the size parameter. -/
def State.DescInv (s : State) : Prop :=
  (∀ b, s.ctl.floatConsts = some b → descAligned b.desc) ∧ (∀ b, s.ctl.consti = some b → descAligned b.desc) ∧
    (∀ d, s.ctl.programDesc = some d → descAligned d) ∧ (∀ b, s.ctl.condBuf = some b → baseAligned b) ∧
    (∀ b, s.ctl.sizeBase = some b → baseAligned b) ∧
    (∀ e ∈ s.ctl.inputs, e.2.aligned) ∧ ∀ e ∈ s.ctl.outs, e.2.aligned

/-! ## Branch counters (spec/43_flow_control.md R260, R264) -/

/-- A stream is inside no more branches than the mode allows, and a processor that is inactive has fewer of them to leave than the
stream is inside. -/
def Stream.branchesWithin (st : Stream) (mode : FlowMode) : Prop :=
  st.depth ≤ Config.branchDepth mode ∧
    ∀ p ∈ st.procs, p.killed = false → p.active = false → 0 ≤ p.counter ∧ p.counter < (st.depth : Int)

def State.BranchInv (s : State) : Prop :=
  ∀ st ∈ s.streams, st.branchesWithin s.ctl.mode

end Sys2Proof.Machine
end

