-- ==== Sys2Proof/Certificates/Slice0/Obligations.lean ====
section
/-! DEFINITION. The statements for the provers, by family; each docstring names the rules it comes from. -/

open Sys2Proof Sys2Proof.Machine

/-! ## Texture instructions (spec/42_texture.md) -/

/-- R213: a texture NOP, whatever its addresses name, takes a number, acquires if it says so, and moves on; with ACQUIRE its
release waits for all prior operations and for nothing of its own. The tick by which the release is done once it can be is log
entry 8's (the model's). -/
def Obligations.TexNopOnlyTakesANumberAndTheSemaphore : Prop :=
  ∀ (t : TexFields) (s : State), (t.acquire = true → t.wait = true) → s.holds t.wait = false →
    exec (.texNop t) s = .next { s with
      stream := { s.stream with
        seq := s.stream.seq + 1
        pc := s.stream.pc + 1
        sem := if t.acquire then .held (s.stream.seq + 1) else s.stream.sem
        semDue := if t.acquire then s.deadline else s.stream.semDue }
      writes := (s.waited t.wait).writes } ∧
    (t.acquire = true → ∀ u, exec (.texNop t) s = .next u →
      u.releasable = s.stream.pending.all fun e => decide (s.stream.seq + 1 < e.seq))

/-- R214, R216, R217 (Effect): a lookup of any of the three kinds that does not hold and whose registers nothing owns adds one
outstanding operation, with the swizzled coordinates of every live processor as they are now, and changes nothing else but the
sequence number, the semaphore, the pc and the record of what the wait has synchronised. One that would use a descriptor no
command has set is refused (R46, decision D21). A swizzle puts at each component the one it selects; a temporary address names
its base, or where it is relative the register base + aL, and a free one where that is none of 0 to NTEMP - 1 (R24, log entry
18, the model's). That the recorded mask is WMASK and the predication's channels, with the predicate bits as they are at issue, is
log entry 19's (the model's); the tick by which the lookup is performed is log entry 8's (the model's); so too in the next
statement. -/
def Obligations.LookupsQueueTheirCoordinates : Prop :=
  (∀ (sw : Quad Comp) (v : Vec4) (ch : Comp), (swizzled sw v).get ch = v.get (sw.get ch)) ∧
  (∀ (s : State) (a : TempAddr), s.regOf a =
    let n := (a.base : Int) + s.stream.loops.aL
    if a.rel = false then a.base
    else if 0 ≤ n ∧ n < Config.ntemp then n.toNat
    else Config.relOutside a.base s.stream.loops.aL) ∧
  ∀ (t : TexFields) (s : State), (t.acquire = true → t.wait = true) → s.holds t.wait = false →
    (s.anyLive = true → s.stream.owned (s.regOf t.src) = false) → s.stream.owned (s.regOf t.dst) = false →
    ∀ (i : Instr) (o : LookupOp),
      (i, o) ∈ [(Instr.texLookup t, LookupOp.standard), (Instr.texLookupProj t, LookupOp.projected),
        (Instr.texLookupUncached t, LookupOp.uncached)] →
      (s.inputUnset t.sampler = true → exec i s = .refused .descriptorNotSet) ∧
      (s.inputUnset t.sampler = false → exec i s = .next { s with
        stream := { s.stream with
          seq := s.stream.seq + 1
          pc := s.stream.pc + 1
          sem := if t.acquire then .held (s.stream.seq + 1) else s.stream.sem
          semDue := if t.acquire then s.deadline else s.stream.semDue
          pending := s.stream.pending ++ [{
            seq := s.stream.seq + 1, op := .lookup o, sampler := t.sampler, unscaled := t.unscaled, dst := s.regOf t.dst
            lanes := (s.stream.procs.filter Proc.live).map fun p =>
              { xy := p.xy
                coords := swizzled t.swizzle (p.temp s.runNo (s.regOf t.src))
                mask := maskInter t.wmask (p.enabled t.pred)
                cells := [] }
            due := s.deadline }] }
        writes := (s.waited t.wait).writes })

/-- R215 (Effect): a kill that does not hold and whose source nothing owns adds one outstanding operation with the unswizzled
components of every live processor, and reads no destination, sampler or swizzle. That predication limits the examined channels,
by the predicate bits as they are at issue, is log entry 19's (the model's). -/
def Obligations.KillQueuesUnswizzledComponents : Prop :=
  ∀ (t : TexFields) (s : State), (t.acquire = true → t.wait = true) → s.holds t.wait = false →
    (s.anyLive = true → s.stream.owned (s.regOf t.src) = false) →
    exec (.texKillLtZero t) s = .next { s with
      stream := { s.stream with
        seq := s.stream.seq + 1
        pc := s.stream.pc + 1
        sem := if t.acquire then .held (s.stream.seq + 1) else s.stream.sem
        semDue := if t.acquire then s.deadline else s.stream.semDue
        pending := s.stream.pending ++ [{
          seq := s.stream.seq + 1, op := .kill, sampler := 0, unscaled := false, dst := 0
          lanes := (s.stream.procs.filter Proc.live).map fun p =>
            { xy := p.xy
              coords := p.temp s.runNo (s.regOf t.src)
              mask := maskInter t.wmask (p.enabled t.pred)
              cells := [] }
          due := s.deadline }] }
      writes := (s.waited t.wait).writes }

/-- R223 with log entry 11 (the fault on the spelling alone is the spec's decision D6): ACQUIRE without WAIT faults whatever the
semaphore, on all five texture operations and on an uncached write; so no instruction of any type acquires while another
acquire is outstanding: a held semaphore stays held as it is. -/
def Obligations.AcquireRequiresWait : Prop :=
  ∀ s : State,
    (∀ t : TexFields, t.acquire = true → t.wait = false →
      ∀ i ∈ [Instr.texNop t, .texLookup t, .texKillLtZero t, .texLookupProj t, .texLookupUncached t],
        exec i s = .fault .acquireWithoutWait) ∧
    (∀ o : OutputFields, o.acquire = true → o.uncached = true → o.wait = false →
      exec (.output o) s = .fault .acquireWithoutWait) ∧
    ∀ (i : Instr) (t : State) (k : Nat), s.stream.sem = .held k → exec i s = .next t → t.stream.sem = .held k

/-- R222: an instruction of any type whose WAIT bit is set does not issue while the semaphore is held: nothing changes. One
whose WAIT bit is clear issues whatever the semaphore is: run it with the semaphore changed, and the outcome is the same but for
the semaphore itself. -/
def Obligations.WaitBitDecidesWhetherToHold : Prop :=
  ∀ (i : Instr) (s : State),
    (∀ k : Nat, i.semWait = true → s.stream.sem = .held k → exec i s = .next s) ∧
    ∀ m : Sem, i.semWait = false →
      exec i (s.withSem m) =
        match exec i s with
        | .next u => .next (u.withSem m)
        | .fault f => .fault f
        | .refused r => .refused r

/-- R229, R313 with decision D8: an instruction that does not hold faults on a register an outstanding lookup owns: on a read of
it first, then on a write of it; for lookups, the kill, every ALU row and OUTPUT. Which registers an ALU row reads and writes
(`aluReads`, `aluWrites`) is the model's choice (log entry 10); an instruction reads for its live processors. -/
def Obligations.OwnedRegistersFault : Prop :=
  ∀ s : State,
    (∀ t : TexFields, (t.acquire = true → t.wait = true) → s.holds t.wait = false →
      (s.anyLive = true → s.stream.owned (s.regOf t.src) = true →
        ∀ i ∈ [Instr.texLookup t, .texKillLtZero t, .texLookupProj t, .texLookupUncached t],
          exec i s = .fault .ownedRegisterRead) ∧
      ((s.anyLive = true → s.stream.owned (s.regOf t.src) = false) → s.stream.owned (s.regOf t.dst) = true →
        ∀ i ∈ [Instr.texLookup t, .texLookupProj t, .texLookupUncached t], exec i s = .fault .ownedRegisterWrite)) ∧
    (∀ (c : AluCommon) (rgb : Option RgbHalf) (alpha : Option AlphaHalf) (i : Instr), aluHalves i = some (rgb, alpha, c) →
      s.holds c.wait = false → s.anyLive = true →
      ((s.aluReads c rgb alpha).any s.stream.owned = true → exec i s = .fault .ownedRegisterRead) ∧
      ((s.aluReads c rgb alpha).any s.stream.owned = false → (s.aluWrites rgb alpha).any s.stream.owned = true →
        exec i s = .fault .ownedRegisterWrite)) ∧
    (∀ o : OutputFields, (o.acquire = true → o.uncached = true → o.wait = true) → s.holds o.wait = false →
      s.anyLive = true → (o.srcs.map s.regOf).any s.stream.owned = true → exec (.output o) s = .fault .ownedRegisterRead)

/-! ## The texture unit's steps -/

/-- R214 (Perform), R234, R232: performing a lookup writes, for each processor it recorded, the masked components of its
destination register with what TexFetch gives, leaves every other register and every other processor alone, removes the
operation, and changes nothing else. What TexFetch gives is a function of the operation, the descriptor that the sampler names,
UNSCALED, the coordinates and the bytes of the elements read (R232 a), each byte seen as CachedLookupsOfWrittenLocationsAreDraws
and UncachedReadsSeeWaitedWrites say (R232 c); every byte lies inside the buffer the descriptor names (R232 b). It is refused
where it reads what another instance of the run wrote (R320, log entry 41). The places and values TexFetch reads inside the
buffer are free (log entry 30). -/
def Obligations.PerformedLookupWritesItsDestination : Prop :=
  ∀ (s : State) (n : Nat) (e : Pend) (o : LookupOp), s.stream.pending[n]? = some e → e.op = .lookup o →
    s.doMove (.perform n) = (if s.races e then .refused .outputRace else .next { s with
      stream := { s.stream with
        procs := s.stream.procs.map (performLookup s o e)
        pending := s.stream.pending.eraseIdx n }
      reads := s.reads ++ e.lanes.map fun l => { xy := l.xy, addrs := s.lookupAddrs o e l } }) ∧
    (s.races e = true ↔ ∃ l ∈ e.lanes, ∃ a ∈ s.lookupAddrs o e l, ∃ w ∈ s.writes,
      w.run = s.runNo ∧ w.xy ≠ l.xy ∧ w.covers a = true) ∧
    (baseAligned (s.pendDesc e).base → (s.pendDesc e).base.toNat + bufferBytes (s.pendDesc e) ≤ 2 ^ 32 ∧
      ∀ l : Lane, ∀ a ∈ s.lookupAddrs o e l,
        (s.pendDesc e).base.toNat ≤ a ∧ a < (s.pendDesc e).base.toNat + bufferBytes (s.pendDesc e)) ∧
    (∀ d, s.inputDesc e.sampler = some d → s.pendDesc e = d) ∧
    (∀ l : Lane, let d := s.pendDesc e
      s.texFetch o e l = Config.texValue o d e.unscaled l.coords
        ((Config.texElems o d e.unscaled l.coords).map fun n =>
          elemOf d.layout.format ((List.range (elemSize d.layout.format)).map fun j =>
            s.lookupByte o l.xy e.seq (cellAddr d.base (elemPlace d n)) j (cellAddr d.base (elemPlace d n + j)))) ∧
      ∀ a, a ∈ s.lookupAddrs o e l ↔ ∃ n ∈ Config.texElems o d e.unscaled l.coords,
        ∃ j < elemSize d.layout.format, a = cellAddr d.base (elemPlace d n + j)) ∧
    ∀ p : Proc,
      (∀ l, e.lane p = some l →
        (performLookup s o e p).temp s.runNo e.dst =
          Quad.ofFn fun c => if l.mask.get c then (s.texFetch o e l).get c else (p.temp s.runNo e.dst).get c) ∧
      (∀ d, d ≠ e.dst → (performLookup s o e p).temp s.runNo d = p.temp s.runNo d) ∧
      (e.lane p = none → performLookup s o e p = p) ∧
      performLookup s o e p = { p with temps := (performLookup s o e p).temps }

/-- R215 (Perform): a kill, when performed, kills exactly the recorded processors with an examined component less than zero, and
writes no register. From then on it is unsaid, for each processor it newly kills and each OUTPUT of the program, whether the
bytes that OUTPUT would store for it are written (decision D10, log entry 9): a record marks them so, and marks no others. -/
def Obligations.PerformedKillKillsNegativeComponents : Prop :=
  ∀ (s : State) (n : Nat) (e : Pend), s.stream.pending[n]? = some e → e.op = .kill →
    s.doMove (.perform n) = .next { s with
      stream := { s.stream with
        procs := s.stream.procs.map fun p =>
          { p with killed := p.killed || match e.lane p with
            | none => false
            | some l => [Comp.r, .g, .b, .a].any fun c => l.mask.get c && ltZero (l.coords.get c) }
        pending := s.stream.pending.eraseIdx n }
      writes := s.writes ++ s.killedOutputs e } ∧
    (∀ w ∈ s.killedOutputs e, w.unsaid = true ∧ w.run = s.runNo ∧
      ∃ p ∈ s.stream.procs, p.killed = false ∧ w.xy = p.xy ∧ (∃ l, e.lane p = some l ∧
        [Comp.r, .g, .b, .a].any (fun c => l.mask.get c && ltZero (l.coords.get c)) = true) ∧
        ∃ o, Instr.output o ∈ s.program ∧ ∀ a, w.covers a = true →
          ∃ d, s.outDesc o.out = some d ∧ ∃ c ∈ outCells d p.xy (s.outVals o p), c.1 = a) ∧
    ∀ p ∈ s.stream.procs, p.killed = false → ∀ l, e.lane p = some l →
      [Comp.r, .g, .b, .a].any (fun c => l.mask.get c && ltZero (l.coords.get c)) = true →
      ∀ o, Instr.output o ∈ s.program → s.ctl.cond ≠ .never → ∀ d, s.outDesc o.out = some d →
        ∃ w ∈ s.killedOutputs e, w.xy = p.xy ∧ ∀ c ∈ outCells d p.xy (s.outVals o p), w.covers c.1 = true

/-- R233: "less than zero" is fixed for ordinary values: true of every negative normal number and of negative infinity, false of
+0, of every positive number and of positive infinity. -/
def Obligations.LessThanZeroOnOrdinaryValues : Prop :=
  ∀ w : Word,
    (w.msb = true → 0 < floatExp w → isNaN w = false → ltZero w = true) ∧
    (w.msb = false → isNaN w = false → ltZero w = false) ∧
    ltZero 0xFF800000#32 = true ∧ ltZero 0#32 = false ∧ ltZero 0x7F800000#32 = false

/-- R231 (Perform): performing an uncached write stores its recorded bytes: an address outside them reads as before, and memory
is all that changes beside the removed operation. -/
def Obligations.PerformedWriteStoresItsCells : Prop :=
  ∀ (s : State) (n : Nat) (e : Pend), s.stream.pending[n]? = some e → e.op = .write →
    s.doMove (.perform n) = .next (s.performAt n) ∧
    s.performAt n = { s with
      mem := Memory.writeAll s.mem (e.lanes.flatMap Lane.cells)
      stream := { s.stream with pending := s.stream.pending.eraseIdx n } } ∧
    (∀ a, (∀ l ∈ e.lanes, ∀ c ∈ l.cells, c.1 ≠ a) → Memory.read (s.performAt n).mem a = Memory.read s.mem a) ∧
    (∀ (pre post : List Host.Cell) (a : Nat) (v : Byte), e.lanes.flatMap Lane.cells = pre ++ (a, v) :: post →
      (∀ c ∈ post, c.1 ≠ a) → Memory.read (s.performAt n).mem a = some v)

/-- R226: Release is a move exactly while the semaphore is held(k) and nothing of number at most k is outstanding, and it frees
the semaphore and changes nothing else; no Perform changes the semaphore; and when a step of the stream whose turn it is ends
its held(k), the semaphore is free, every operation of number at most k has been performed, and no other stream changes (that
streams take turns is log entry 7's). -/
def Obligations.ReleaseNeedsAllPriorOperations : Prop :=
  ∀ s : State,
    (Move.release ∈ s.moves ↔ ∃ k, s.stream.sem = .held k ∧ ∀ e ∈ s.stream.pending, ¬ e.seq ≤ k) ∧
    s.doMove .release = .next { s with stream := { s.stream with sem := .free } } ∧
    (∀ n : Nat, (s.performAt n).stream.sem = s.stream.sem) ∧
    ∀ (t : State) (k : Nat), s.running = true → s.canLaunch = false → s.turn.stream.sem = .held k → step s = .next t →
      t.others = s.turn.others ∧
      (t.stream.sem ≠ .held k → t.stream.sem = .free ∧ ∀ e ∈ t.stream.pending, k < e.seq)

/-- R219, R222, R226, R79 with the decision D7 that every outstanding operation is eventually performed (log entry 8): whatever
the free order, an instruction that holds in the only stream is let go after at most as many steps as there are outstanding
operations and one more, and no instruction issues meanwhile. And in any stream an operation or a release that is due is not put
off while no group of instances can be launched (a launch comes first: log entry 7): while there is one, every step performs one
that is due or releases a semaphore that is due. The premise on races counts what the outstanding kills will make unsaid (log
entries 9, 41). -/
def Obligations.HoldIsLiftedWithinPendingSteps : Prop :=
  ∀ s : State, s.running = true → s.canLaunch = false →
    (s.others = [] → s.issuedAll = false → s.nextHolds = true → (∀ e ∈ s.stream.pending, s.afterKills.races e = false) →
      ∃ (m : Nat) (t : State), m ≤ s.stream.pending.length + 1 ∧ Host.Core.run core m s = .next t ∧
        t.stream.sem = .free ∧ t.stream.pc = s.stream.pc ∧ t.stream.seq = s.stream.seq ∧ t.running = true) ∧
    ((∃ st ∈ s.streams, st.overdue s.tick = true) →
      ∃ m : Move, s.agentStep = s.turn.doMove m ∧ s.turn.stream.isDue s.tick m = true ∧
        (m = .release ∨ ∃ n e, m = .perform n ∧ s.turn.stream.pending[n]? = some e ∧ e.due ≤ s.tick))

/-! ## What a read sees (spec/20_memory.md) -/

/-- R74, with log entry 31 for what decision D22 leaves free: a cached lookup of a location no program has written since the
launch's memory was set up returns the launch memory's contents; of a location any write has touched, a draw, one for the whole
element that is read (R68). -/
def Obligations.CachedLookupsOfWrittenLocationsAreDraws : Prop :=
  ∀ (s : State) (xy : IndexPair) (k e j a : Nat) (o : LookupOp), o = .standard ∨ o = .projected →
    ((∀ w ∈ s.writes, w.covers a = false) → s.lookupByte o xy k e j a = plainByte s.mem a) ∧
    ((∃ w ∈ s.writes, w.covers a = true) → s.lookupByte o xy k e j a = Config.drawElem s.tick xy e j)

/-- R72, with log entry 31 for the draws and the grant to the writing processor alone (decisions D15, D22): an uncached read by
an operation of number k reads, where a write of that processor and program was acquired and waited on by an instruction issued
before it, that write's data or a later write's; whatever state it is performed in. A read where no such write is granted is a
draw; one where nothing has been written, the launch memory's contents. An instruction with WAIT grants every acquired write of
its stream's processors to the operations after it; and while the run goes on no step takes a grant back, loses a write or
changes their order. -/
def Obligations.UncachedReadsSeeWaitedWrites : Prop :=
  ∀ (s : State) (xy : IndexPair) (k e j a : Nat),
    (∀ (pre post : List WriteRec) (w : WriteRec),
      s.writesAt a = pre ++ w :: post → w.granted s.runNo xy k = true →
      ∃ v ∈ w :: post, Memory.read v.cells a = some (s.lookupByte .uncached xy k e j a)) ∧
    ((∃ w ∈ s.writes, w.covers a = true) →
      (∀ w ∈ s.writes, w.covers a = true → w.granted s.runNo xy k = false) →
      s.lookupByte .uncached xy k e j a = Config.drawElem s.tick xy e j) ∧
    ((∀ w ∈ s.writes, w.covers a = false) → s.lookupByte .uncached xy k e j a = plainByte s.mem a) ∧
    ((s.waited true).writes = s.writes.map (fun w => w.sync s.runNo s.stream) ∧
      ∀ w ∈ s.writes, w.acquired = true → w.run = s.runNo → (∃ p ∈ s.stream.procs, p.xy = w.xy) →
        (∀ i, w.synced = some i → i ≤ s.stream.seq) → s.stream.seq < k →
        (w.sync s.runNo s.stream).granted s.runNo w.xy k = true) ∧
    ∀ t : State, step s = .next t → t.runNo = s.runNo →
      ∃ (f : WriteRec → WriteRec) (new : List WriteRec), t.writes = s.writes.map f ++ new ∧
        ∀ w, f w = { w with synced := (f w).synced, unsaid := (f w).unsaid } ∧
          ∀ i, w.synced = some i → (f w).synced = some i

/-! ## ALU instructions (spec/41_alu_output.md) -/

/-- R170, R182, R212: every ALU row that does not hold and touches no owned register applies its effect to every live
processor, moves on, records the constants it reads, and changes nothing else. One that would use the floating-point constants
while no command has set their descriptor is refused (R46, decision D21), and so is one that would read a constant which another
instance of the run wrote (R320, D22, log entry 41); that this is their order is log entry 52's (the model's). -/
def Obligations.AluRowsActOnEveryLiveProcessor : Prop :=
  ∀ (i : Instr) (c : AluCommon) (rgb : Option RgbHalf) (alpha : Option AlphaHalf) (s : State),
    aluHalves i = some (rgb, alpha, c) → s.holds c.wait = false →
    (s.anyLive = true → (s.aluReads c rgb alpha).any s.stream.owned = false ∧
      (s.aluWrites rgb alpha).any s.stream.owned = false) →
    (s.constsUnset c rgb alpha = true → exec i s = .refused .descriptorNotSet) ∧
    (s.constsUnset c rgb alpha = false → s.readsRace (s.constReads c rgb alpha) = true → exec i s = .refused .outputRace) ∧
    (s.constsUnset c rgb alpha = false → s.readsRace (s.constReads c rgb alpha) = false → exec i s = .next { s with
      stream := { s.stream with
        pc := s.stream.pc + 1
        procs := s.stream.procs.map fun p => if p.live then s.aluProc c rgb alpha p else p }
      writes := (s.waited c.wait).writes
      reads := s.reads ++ s.constReads c rgb alpha }) ∧
    (aluConsts c rgb alpha = [] → s.constReads c rgb alpha = []) ∧
    (s.readsRace (s.constReads c rgb alpha) = true ↔ ∃ p ∈ s.stream.procs, p.live = true ∧
      ∃ n ∈ aluConsts c rgb alpha, ∃ a ∈ constAddrs s.ctl.floatConsts n, ∃ w ∈ s.writes,
        w.run = s.runNo ∧ w.xy ≠ p.xy ∧ w.covers a = true)

/-- R182, R180, R172: each engine's result, taken through the output modifier and then the clamp, reaches a channel of its
destination exactly where the write mask and the predication let it, whatever the other engine does beside it. An operand is the
source that its selector picks, swizzled (R172); a source is a temporary, a constant read through the cache or an inline value
(R171; what it can name is log entry 21's); that a floating-point constant is a function of one element of its buffer, at a
place that is lost, is log entry 34's. The operations are those of the next statements (MAX, CND, CMP, FRC), the move, and for
the lost names a free function of the operands (log entry 25). That predication gates register writes rests on R183 and log
entry 19, that each engine has a destination, modifier and clamp of its own on log entry 21, that a swizzle may pick a component
which the other engine wrote on log entry 26: the model's choices. -/
def Obligations.EngineResultsReachMaskedComponents : Prop :=
  ∀ (s : State) (c : AluCommon) (p : Proc),
    (∀ (h : RgbHalf) (alpha : Option AlphaHalf) (ch : Comp), ch ≠ .a → h.op ≠ .copy →
      ((s.aluProc c (some h) alpha p).temp s.runNo (s.regOf h.part.dst)).get ch =
        if (rgbWmask h.part).get ch && (p.enabled c.pred).get ch then
          resultPath h.part.omod h.part.clamp
            (aluEval h.op (s.rgbOperand c p h.part.a ch) (s.rgbOperand c p h.part.b ch) (s.rgbOperand c p h.part.c ch))
        else (p.temp s.runNo (s.regOf h.part.dst)).get ch) ∧
    (∀ (h : AlphaHalf) (rgb : Option RgbHalf), h.op ≠ .copy →
      ((s.aluProc c rgb (some h) p).temp s.runNo (s.regOf h.part.dst)).a =
        if h.part.wa && (p.enabled c.pred).a then
          resultPath h.part.omod h.part.clamp
            (aluEval h.op (s.alphaOperand c p h.part.a) (s.alphaOperand c p h.part.b) (s.alphaOperand c p h.part.c))
        else (p.temp s.runNo (s.regOf h.part.dst)).a) ∧
    (∀ o : RgbOperand, let v := s.srcValue p (pickSource c.src o.sel)
      s.rgbOperand c p o .r = v.get o.red ∧ s.rgbOperand c p o .g = v.get o.green ∧ s.rgbOperand c p o .b = v.get o.blue) ∧
    (∀ o : AlphaOperand, s.alphaOperand c p o = (s.srcValue p (pickSource c.src o.sel)).get o.swiz) ∧
    [SrcSel.rgb0, .rgb1, .rgb2, .alpha0, .alpha1, .alpha2].map (pickSource c.src) =
      [c.src.rgb0, c.src.rgb1, c.src.rgb2, c.src.alpha0, c.src.alpha1, c.src.alpha2] ∧
    (∀ a b d : Word, aluEval .max a b d = floatMax a b ∧ aluEval .cnd a b d = floatCnd a b d ∧
      aluEval .cmp a b d = floatCmp a b d ∧ aluEval .frc a b d = floatFrc a ∧ aluEval (.unnamed .mov) a b d = a ∧
      aluEval (.unnamed .add) a b d = Config.aluOp .add a b 0 ∧
      ∀ n, aluEval (.unnamed (.other n)) a b d = Config.aluOp (.other n) a b d) ∧
    (∀ ch, (p.enabled none).get ch = true ∧ ∀ code, (p.enabled (some code)).get ch = Config.predEnable code p.pred ch) ∧
    (∀ a, s.srcValue p (.temp a) = p.temp s.runNo (s.regOf a)) ∧ (∀ v, s.srcValue p (.inline v) = Quad.all v) ∧
    ∀ (n : Nat) (b : ConstBuf), s.ctl.floatConsts = some b →
      let off := Config.constPlace b n
      s.srcValue p (.floatConst n) = Config.floatConstValue b (elemOf b.desc.layout.format
        ((List.range (elemSize b.desc.layout.format)).map fun j =>
          s.cachedByte p.xy (cellAddr b.desc.base off) j (cellAddr b.desc.base (off + j))))

/-- R182: the frame of an ALU instruction on a processor: registers that are no engine's destination keep their contents; of a
register that is one, a component keeps its value that no engine writes there: A where no alpha half has it as its destination
with its mask bit set, R, G or B where no RGB half has; and its index pair, kill flag, active flag and branch counter do not
change. -/
def Obligations.AluKeepsOtherRegisters : Prop :=
  ∀ (s : State) (c : AluCommon) (rgb : Option RgbHalf) (alpha : Option AlphaHalf) (p : Proc),
    (∀ d, (∀ h, rgb = some h → d ≠ s.regOf h.part.dst) → (∀ h, alpha = some h → d ≠ s.regOf h.part.dst) →
      (s.aluProc c rgb alpha p).temp s.runNo d = p.temp s.runNo d) ∧
    (∀ d, (∀ h, alpha = some h → d ≠ s.regOf h.part.dst ∨ h.part.wa = false) →
      ((s.aluProc c rgb alpha p).temp s.runNo d).a = (p.temp s.runNo d).a) ∧
    (∀ d ch, ch ≠ .a → (∀ h, rgb = some h → d ≠ s.regOf h.part.dst ∨ (rgbWmask h.part).get ch = false) →
      ((s.aluProc c rgb alpha p).temp s.runNo d).get ch = (p.temp s.runNo d).get ch) ∧
    (∀ r : RgbPart, (rgbWmask r).get .r = r.wr ∧ (rgbWmask r).get .g = r.wg ∧ (rgbWmask r).get .b = r.wb) ∧
    (s.aluProc c rgb alpha p).xy = p.xy ∧ (s.aluProc c rgb alpha p).killed = p.killed ∧
    (s.aluProc c rgb alpha p).active = p.active ∧ (s.aluProc c rgb alpha p).counter = p.counter

/-- R190: a cross-engine copy into the RGB engine writes the alpha engine's result of the same instruction, or, with no alpha
operation in it, the alpha result of an earlier one; one into the alpha engine writes the scalar made of the RGB engine's three
results (how is lost: log entry 26), of the same instruction or an earlier one; what is copied goes through the copy's own
modifier and clamp and reaches the components its write mask and the predication let it. Whether a copy takes the other engine's
result before or after its result path is free, and a value that was itself copied counts as a result for a later instruction,
not for the same one (log entry 26, the model's). An instruction leaves each engine that it uses its result for later copies,
and the other engine its old one. The last two parts say the same with the predication, modifiers and clamps off. That
predication gates the copied value's write is log entry 19's, that the copy has a modifier and a clamp of its own log entry 21's
(the model's). -/
def Obligations.CopyBringsTheOtherEnginesResult : Prop :=
  (∀ (s : State) (c : AluCommon) (p : Proc),
    let rgbValue := fun (h : RgbHalf) (ch : Comp) => aluEval h.op (s.rgbOperand c p h.part.a ch)
      (s.rgbOperand c p h.part.b ch) (s.rgbOperand c p h.part.c ch)
    let alphaValue := fun h : AlphaHalf => aluEval h.op (s.alphaOperand c p h.part.a) (s.alphaOperand c p h.part.b)
      (s.alphaOperand c p h.part.c)
    let taken := fun (m : Omod) (clamp : Bool) (w : Word) => if Config.copyTakesFinal then resultPath m clamp w else w
    let fromAlpha := fun alpha : Option AlphaHalf => match alpha with
      | none => p.last.a
      | some h => if h.op = .copy then p.last.a else taken h.part.omod h.part.clamp (alphaValue h)
    let fromRgb := fun (rgb : Option RgbHalf) (ch : Comp) => match rgb with
      | none => p.last.get ch
      | some h => if h.op = .copy then p.last.get ch else taken h.part.omod h.part.clamp (rgbValue h ch)
    let scalar := fun rgb : Option RgbHalf => Config.copyToAlpha (fromRgb rgb .r) (fromRgb rgb .g) (fromRgb rgb .b)
    (∀ (h : RgbHalf) (alpha : Option AlphaHalf) (ch : Comp), ch ≠ .a → h.op = .copy →
      ((s.aluProc c (some h) alpha p).temp s.runNo (s.regOf h.part.dst)).get ch =
        if (rgbWmask h.part).get ch && (p.enabled c.pred).get ch then resultPath h.part.omod h.part.clamp (fromAlpha alpha)
        else (p.temp s.runNo (s.regOf h.part.dst)).get ch) ∧
    (∀ (h : AlphaHalf) (rgb : Option RgbHalf), h.op = .copy →
      ((s.aluProc c rgb (some h) p).temp s.runNo (s.regOf h.part.dst)).a =
        if h.part.wa && (p.enabled c.pred).a then resultPath h.part.omod h.part.clamp (scalar rgb)
        else (p.temp s.runNo (s.regOf h.part.dst)).a) ∧
    (∀ (rgb : Option RgbHalf) (alpha : Option AlphaHalf) (ch : Comp), ch ≠ .a →
      (s.aluProc c rgb alpha p).last.get ch = match rgb with
        | none => p.last.get ch
        | some h => taken h.part.omod h.part.clamp (if h.op = .copy then fromAlpha alpha else rgbValue h ch)) ∧
    ∀ (rgb : Option RgbHalf) (alpha : Option AlphaHalf), (s.aluProc c rgb alpha p).last.a = match alpha with
        | none => p.last.a
        | some h => taken h.part.omod h.part.clamp (if h.op = .copy then scalar rgb else alphaValue h)) ∧
  ∀ (s : State) (c : AluCommon) (p : Proc), c.pred = none →
    (∀ (r : RgbPart) (ch : Comp), ch ≠ .a → r.omod = .disabled → r.clamp = false → (rgbWmask r).get ch = true →
      ((s.aluProc c (some ⟨.copy, r⟩) none p).temp s.runNo (s.regOf r.dst)).get ch = p.last.a ∧
      ∀ q : AlphaHalf, q.op ≠ .copy → q.part.omod = .disabled → q.part.clamp = false →
        ((s.aluProc c (some ⟨.copy, r⟩) (some q) p).temp s.runNo (s.regOf r.dst)).get ch =
          aluEval q.op (s.alphaOperand c p q.part.a) (s.alphaOperand c p q.part.b) (s.alphaOperand c p q.part.c) ∧
        (s.aluProc c (some ⟨.copy, r⟩) (some q) p).last.a =
          aluEval q.op (s.alphaOperand c p q.part.a) (s.alphaOperand c p q.part.b) (s.alphaOperand c p q.part.c)) ∧
    ∀ r : AlphaPart, r.omod = .disabled → r.clamp = false → r.wa = true →
      ((s.aluProc c none (some ⟨.copy, r⟩) p).temp s.runNo (s.regOf r.dst)).a =
        Config.copyToAlpha p.last.r p.last.g p.last.b ∧
      ∀ q : RgbHalf, q.op ≠ .copy → q.part.omod = .disabled → q.part.clamp = false →
        let v := fun ch => aluEval q.op (s.rgbOperand c p q.part.a ch) (s.rgbOperand c p q.part.b ch)
          (s.rgbOperand c p q.part.c ch)
        ((s.aluProc c (some q) (some ⟨.copy, r⟩) p).temp s.runNo (s.regOf r.dst)).a =
          Config.copyToAlpha (v .r) (v .g) (v .b) ∧
        ∀ ch, ch ≠ .a → (s.aluProc c (some q) (some ⟨.copy, r⟩) p).last.get ch = v ch

/-- R174: MAX of two ordered values that differ is the greater one, in either order. That infinities and denormals are ordered
like any other value, and a denormal operand is not flushed, is the model's choice (log entry 22; U15 and R293 leave it open).
-/
def Obligations.MaxReturnsTheGreater : Prop :=
  ∀ a b : Word, isNaN a = false → isNaN b = false → floatScaled a < floatScaled b → floatMax a b = b ∧ floatMax b a = b

/-- R175, R176: CND and CMP yield A or B, and which one depends on nothing but how C stands to 0.5 or to 0.
Whatever C is, a denormal too, the choice of A or B is one for all A and B; a denormal A or B is returned as it is. That all NaN
conditions act alike, -0 as +0, and an infinity as any value above or below, is the model's choice (log entry 23;
R294 and U15 leave them open). -/
def Obligations.ConditionalSelectsDependOnTheConditionOnly : Prop :=
  ∀ c d : Word,
    (floatOrder c floatHalf = floatOrder d floatHalf →
      (∀ a b, floatCnd a b c = a ∧ floatCnd a b d = a) ∨ ∀ a b, floatCnd a b c = b ∧ floatCnd a b d = b) ∧
    (isDenormal c = false → isDenormal d = false → floatOrder c 0 = floatOrder d 0 →
      (∀ a b, floatCmp a b c = a ∧ floatCmp a b d = a) ∨ ∀ a b, floatCmp a b c = b ∧ floatCmp a b d = b) ∧
    ((∀ a b, floatCmp a b c = a) ∨ ∀ a b, floatCmp a b c = b) ∧
    (isDenormal c = true → isDenormal d = true → Config.denormalOrder c = Config.denormalOrder d →
      ∀ a b, floatCmp a b c = floatCmp a b d)

/-- R177: FRC of a finite A is a neighbour among the single-precision numbers of A less the largest integer not above A, not
negative and at most 1, so exactly that number wherever it is one; but that -0 gives a zero, and a denormal may too (R294 leaves
the rounding, the zeros' signs and the denormals open: log entry 24). A positive denormal is itself or a zero; and where the
fraction is a normal number or +0, FRC of an A that is no denormal and not -0 is exactly that number, bit for bit; that a whole
A gives +0 is log entry 24's too (the model's). -/
def Obligations.FractionIsExactWhereRepresentable : Prop :=
  (∀ a : Word, floatExp a ≠ 255 → a ≠ floatNegZero →
    (isNeighbour (floatFrc a) (floatScaled a % 2 ^ 149) ∧ (floatFrc a).msb = false ∧ floatScaled (floatFrc a) ≤ 2 ^ 149) ∨
      (isDenormal a = true ∧ (floatFrc a = 0 ∨ floatFrc a = floatNegZero))) ∧
  (∀ a : Word, isDenormal a = true → a.msb = false → floatFrc a = a ∨ floatFrc a = 0 ∨ floatFrc a = floatNegZero) ∧
  (floatFrc floatNegZero = 0 ∨ floatFrc floatNegZero = floatNegZero) ∧
  ∀ a w : Word, floatExp a ≠ 255 → isDenormal a = false → a ≠ floatNegZero →
    floatExp w ≠ 255 → isDenormal w = false → w ≠ floatNegZero →
    0 ≤ floatScaled w → floatScaled w < 2 ^ 149 → (∃ n : Int, floatScaled a = floatScaled w + n * 2 ^ 149) →
    floatFrc a = w

/-- R179, R181, R293: OMOD_D8 divides by 8, and the setting before it by 4, exactly wherever the quotient is a normal number; an
infinity divided is that infinity, and a zero a zero (log entry 27). With the output modifier disabled the result bits pass
unchanged; with any setting that enables it a NaN result is the one standard NaN, a denormal one a zero, and no result is a
denormal. -/
def Obligations.OutputModifierDividesAndStandardizes : Prop :=
  (∀ w : Word, isNaN w = false → isInf w = false →
    (2 < floatExp w → floatScaled (omodApply .div4 w) * 4 = floatScaled w) ∧
    (3 < floatExp w → floatScaled (omodApply .div8 w) * 8 = floatScaled w)) ∧
  (∀ w : Word, ∀ m ∈ [Omod.div4, .div8], (isInf w = true → omodApply m w = w) ∧
    (w = 0 → omodApply m w = 0) ∧ (w = floatNegZero → omodApply m w = 0 ∨ omodApply m w = floatNegZero)) ∧
  (∀ w, omodApply .disabled w = w) ∧
  ∀ (m : Omod) (w : Word), m ≠ .disabled →
    (isNaN w = true → omodApply m w = standardNaN) ∧
    (isDenormal w = true → omodApply m w = 0 ∨ omodApply m w = floatNegZero) ∧
    (omodApply m w = standardNaN ∨ isNaN (omodApply m w) = false) ∧
    isDenormal (omodApply m w) = false ∧ isNaN standardNaN = true

/-- R180: the clamp comes after the output modifier; it brings every value but a NaN into 0 to 1: one that is there stays as it
is (unless it is a denormal or -0), one below becomes a zero, one above becomes 1. -/
def Obligations.ClampBringsIntoRange : Prop :=
  ∀ (m : Omod) (w : Word), resultPath m true w = clampApply (omodApply m w) ∧
    (isNaN w = false →
      (0 ≤ floatKey (clampApply w) ∧ floatKey (clampApply w) ≤ floatKey floatOne) ∧
      (isDenormal w = false → w ≠ floatNegZero → 0 ≤ floatKey w → floatKey w ≤ floatKey floatOne →
        clampApply w = w) ∧
      (floatKey w < 0 → clampApply w = 0 ∨ clampApply w = floatNegZero) ∧
      (floatKey floatOne < floatKey w → clampApply w = floatOne))

/-- R295: with the output modifier disabled an ALU operation copies its operand with all 32 bits of every component unchanged.
-/
def Obligations.MovPreservesEveryBit : Prop :=
  ∀ (s : State) (c : AluCommon) (p : Proc) (r : RgbPart) (q : AlphaPart) (sel : SrcSel),
    r.a = ⟨sel, .r, .g, .b⟩ → q.a = ⟨sel, .a⟩ → r.omod = .disabled → q.omod = .disabled → r.clamp = false →
    q.clamp = false → r.wr = true → r.wg = true → r.wb = true → q.wa = true → r.dst = q.dst → c.pred = none →
    (s.aluProc c (some ⟨.unnamed .mov, r⟩) (some ⟨.unnamed .mov, q⟩) p).temp s.runNo (s.regOf r.dst) =
      s.srcValue p (pickSource c.src sel)

/-! ## OUTPUT and the CO -/

/-- R147, R148, R188: under the test Never every OUTPUT that does not hold and reads no owned register completes, records one
output event a live processor, and generates no output write request: no byte and no write record changes. That the fifo's
record is the stream's, and is set with no live processor too, is log entry 53's (the model's). -/
def Obligations.NeverTestWritesNoOutput : Prop :=
  ∀ (o : OutputFields) (s : State), (o.acquire = true → o.uncached = true → o.wait = true) → s.holds o.wait = false →
    (s.anyLive = true → (o.srcs.map s.regOf).any s.stream.owned = false) → s.ctl.cond = .never →
    ∃ u, exec (.output o) s = .next u ∧ u.mem = s.mem ∧ u.writes = (s.waited o.wait).writes ∧
      u.outputs = s.outputs ++ (s.stream.procs.filter Proc.live).map (fun p =>
        { run := s.runNo, xy := p.xy, out := o.out, uncached := o.uncached, vals := s.outVals o p, written := false }) ∧
      u.stream.pc = s.stream.pc + 1 ∧ u.stream.procs = s.stream.procs ∧ u.stream.fifoReserved = true ∧
      u.ctl = s.ctl ∧ u.condCache = s.condCache ∧ u.reads = s.reads ∧ u.others = s.others

/-- R148, R188, R231: an OUTPUT of any number of live processors whose descriptors are set, whose tests read nothing another
instance wrote, and whose requests land neither in the program nor where another instance reads or writes, completes: it records
one event a processor, dispatches the request of each whose output passes the test, at once or as one outstanding uncached
write, and changes no register. What the tests read of memory is recorded; the CO's cache then holds the values they read, and
loses nothing else. What an OUTPUT sends is, of each source, the components that its mask and the predication let through; what
a test reads is the value the cache keeps, and where it keeps none an element of the conditional output buffer; under Less an
OUTPUT that is not conditional passes or fails freely. A request stores whole elements of the output's format (R67), at places
from its base, a FLOAT32 component as a little-endian word (R65). That predication limits the components, where the elements lie
and what they hold, what the test compares, that the last index ends the stream, how an OUTPUT says that it is conditional or
uncached, that one which lets no component through makes a request too, and whose the fifo's record is, are the model's choices
(log entries 19, 32, 33, 42, 49, 53). -/
def Obligations.OutputOfLiveProcessorsCompletes : Prop :=
  ∀ (o : OutputFields) (s : State), (o.acquire = true → o.uncached = true → o.wait = true) → s.holds o.wait = false →
    (s.anyLive = true → (o.srcs.map s.regOf).any s.stream.owned = false) →
    (s.anyLive = true → o.conditional = true → s.ctl.cond = .less → s.ctl.condBuf ≠ none) →
    let live := s.stream.procs.filter Proc.live
    (live.map Proc.xy).Nodup →
    (∀ p ∈ live, s.readsRace (s.testReads p) = false) →
    (∀ p ∈ live, ∀ q ∈ live, p.xy ≠ q.xy → ∀ c ∈ s.cellsOf o p, ∀ r ∈ s.testReads q, c.1 ∉ r.addrs) →
    (∀ p ∈ live, s.passes o p = true → s.outDesc o.out ≠ none) →
    (∀ p ∈ live, ∀ c ∈ s.cellsOf o p, s.inProgram c.1 = false ∧ s.sharedWithOther p.xy c.1 = false) →
    (∀ p ∈ live, ∀ q ∈ live, p.xy ≠ q.xy → ∀ c ∈ s.cellsOf o p, ∀ d ∈ s.cellsOf o q, c.1 ≠ d.1) →
    let k := if o.uncached then s.stream.seq + 1 else s.stream.seq
    ∃ cache, exec (.output o) s = .next { s with
        stream := { s.stream with
          seq := k
          pc := s.stream.pc + 1
          sem := if o.acquire && o.uncached then .held k else s.stream.sem
          semDue := if o.acquire && o.uncached then s.deadline else s.stream.semDue
          fifoReserved := true
          done := s.stream.done || s.stream.pc + 1 == s.program.length
          pending := if o.uncached then s.stream.pending ++
              [{ seq := k, op := .write, sampler := 0, unscaled := false, dst := 0
                 lanes := live.map fun p =>
                   { xy := p.xy, coords := Quad.all 0, mask := Quad.all false, cells := s.cellsOf o p }
                 due := s.deadline }]
            else s.stream.pending }
        condCache := cache
        reads := s.reads ++ live.flatMap s.testReads
        outputs := s.outputs ++ live.map fun p =>
          { run := s.runNo, xy := p.xy, out := o.out, uncached := o.uncached, vals := s.outVals o p, written := s.passes o p }
        writes := (s.waited o.wait).writes ++ (live.filter (s.passes o)).map fun p =>
          { run := s.runNo, xy := p.xy, issued := s.tick, acquired := o.acquire && o.uncached, synced := none
            unsaid := false, cells := s.cellsOf o p }
        mem := if o.uncached then s.mem else Memory.writeAll s.mem (live.flatMap (s.cellsOf o)) } ∧
      (s.ctl.cond = .never ∨ s.ctl.condBuf = none → cache = s.condCache) ∧
      (∀ p, s.outVals o p = o.srcs.map fun a => Quad.ofFn fun ch =>
        if o.omask.get ch && (p.enabled o.pred).get ch then some ((p.temp s.runNo (s.regOf a)).get ch) else none) ∧
      (∀ (d : Desc) (xy : IndexPair) (vals : List Masked),
        let size := elemSize d.layout.format
        let places := Config.outPlaces d xy vals.length
        let byte := fun e j => match d.layout.format with
          | .uint16x1 | .uint8x4 => Config.outByte d xy vals e j
          | .float32x1 | .float32x2 | .float32x4 => (Config.outWord d xy vals e (j / 4)).extractLsb' (8 * (j % 4)) 8
        outCells d xy vals = Memory.writeAll [] (places.zipIdx.flatMap fun p =>
          (List.range size).map fun j => (cellAddr d.base (p.1 + j), byte p.2 j))) ∧
      (∀ (base : Word) (xy : IndexPair),
        let kept := if Config.condEvicted s.tick xy then none
          else (s.condCache.find? fun e => e.1 == (base, xy)).map Prod.snd
        let addr := fun j => cellAddr base (Config.condPlace xy + j)
        (s.condRead base xy).1 = kept.getD
          (Config.condWord ((List.range Config.condBytes).map fun j => s.cachedByte xy (addr 0) j (addr j))) ∧
        s.condReads base xy =
          if kept = none then [{ xy := xy, addrs := (List.range Config.condBytes).map addr }] else []) ∧
      ∀ base, s.ctl.cond = .less → s.ctl.condBuf = some base →
        (∀ p ∈ live, ((base, p.xy), (s.condRead base p.xy).1) ∈ cache) ∧
        ∀ key, (∀ p ∈ live, key ≠ (base, p.xy)) → ∀ b, (key, b) ∈ cache ↔ (key, b) ∈ s.condCache

/-- R188, R182: the frame of an OUTPUT, for any number of processors: registers, flags, control state, the other streams and the
program do not change, and the record of reads only grows, by what the tests of live processors read; memory changes nowhere but
in the cells of the requests, and not at all for an uncached write. -/
def Obligations.OutputKeepsAllButItsCells : Prop :=
  ∀ (o : OutputFields) (s t : State), exec (.output o) s = .next t →
    t.stream.procs = s.stream.procs ∧ t.stream.loops = s.stream.loops ∧ t.stream.depth = s.stream.depth ∧
    t.others = s.others ∧ t.ctl = s.ctl ∧ t.pe = s.pe ∧ t.program = s.program ∧ t.runNo = s.runNo ∧ t.perf = s.perf ∧
    (∃ rs, t.reads = s.reads ++ rs ∧ (s.ctl.cond = .never ∨ s.ctl.condBuf = none → rs = []) ∧
      ∀ r ∈ rs, ∃ p ∈ s.stream.procs, p.live = true ∧ r ∈ s.testReads p) ∧
    t.ended = s.ended ∧ t.waiting = s.waiting ∧
    (o.uncached = true → t.mem = s.mem) ∧
    ∀ a, (∀ p ∈ s.stream.procs, p.live = true → ∀ d, s.outDesc o.out = some d →
        ∀ c ∈ outCells d p.xy (s.outVals o p), c.1 ≠ a) →
      Memory.read t.mem a = Memory.read s.mem a

/-- R76, R68, R320, with decision D21 (log entries 33, 40, 41): an OUTPUT of one live processor is refused for want of a
descriptor exactly if it is conditional and its test needs a buffer, or its request an output, that no command has set; as a
write into the program exactly if its test is no race and a byte of the request it dispatches lies in the program's memory; and
as a race exactly if its test would read what another instance wrote, or no byte lies in the program but one where another
instance of the run wrote or read. -/
def Obligations.ForbiddenOutputWritesAreRefused : Prop :=
  ∀ (o : OutputFields) (s : State) (p : Proc), (o.acquire = true → o.uncached = true → o.wait = true) →
    s.holds o.wait = false → s.stream.procs.filter Proc.live = [p] →
    (o.srcs.map s.regOf).any s.stream.owned = false →
    (exec (.output o) s = .refused .descriptorNotSet ↔
      (o.conditional = true ∧ s.ctl.cond = .less ∧ s.ctl.condBuf = none) ∨
        (s.readsRace (s.testReads p) = false ∧ s.passes o p = true ∧ s.outDesc o.out = none)) ∧
    (exec (.output o) s = .refused .writeIntoProgram ↔
      s.readsRace (s.testReads p) = false ∧ ∃ c ∈ s.cellsOf o p, s.inProgram c.1 = true) ∧
    (exec (.output o) s = .refused .outputRace ↔ s.readsRace (s.testReads p) = true ∨
      (∀ c ∈ s.cellsOf o p, s.inProgram c.1 = false) ∧ ∃ c ∈ s.cellsOf o p, s.sharedWithOther p.xy c.1 = true)

/-! ## Flow control (spec/43_flow_control.md) -/

/-- R263, R264: a processor's own jump condition is the bit of JUMP_FUNC selected by its alu_result, the predicate (of its
predicate bits) and the boolean (of the boolean constants, R37): which of these a jump tests, and the order of the table's
lines, are free (log entry 13); every combination of the three inputs has a bit of its own. JUMP_FUNC 0x00 never jumps and 0xff
always does, for a processor and for the stream, whatever that order; and where every live processor's own condition is the
same, that is the direction the stream takes. -/
def Obligations.JumpFuncDecidesTheJump : Prop :=
  ∀ (s : State) (f : Flow) (p : Proc),
    (s.jumpCond f p = f.func.getLsbD (Config.jumpIndex (jumpCode p.aluResult (Config.jumpPredicate f.predSel p.pred)
      (Config.jumpBoolean f.boolSel s.ctl.bools))).val) ∧
    (f.func = 0x00#8 → s.jumpCond f p = false ∧ s.jumps f = false) ∧
    (f.func = 0xff#8 → s.jumpCond f p = true ∧ s.jumps f = true) ∧
    (∀ a b c a' b' c' : Bool, Config.jumpIndex (jumpCode a b c) = Config.jumpIndex (jumpCode a' b' c') →
      a = a' ∧ b = b' ∧ c = c') ∧
    ∀ d : Bool, s.anyLive = true → (∀ q ∈ s.stream.procs, q.live = true → s.jumpCond f q = d) → s.jumps f = d

/-- R264: a decrement takes B_POP_CNT from an inactive processor's counter and activates it if that goes negative; an increment
adds 1 to an inactive processor's counter, deactivates an active processor that disagrees, which starts from counter 0 (log
entry 14, the model's), and leaves one that agrees as it is; a processor that is active is not touched by a decrement, and a
killed one by neither. -/
def Obligations.BranchOperationsMoveCounters : Prop :=
  ∀ (n : Nat) (b : Bool) (p : Proc),
    (p.killed = true → ∀ op, branchProc op n b p = p) ∧
    (p.killed = false → p.active = false →
      branchProc .decr n b p = { p with counter := p.counter - n, active := decide (p.counter - n < 0) } ∧
      branchProc .incr n b p = { p with counter := p.counter + 1 }) ∧
    (p.killed = false → p.active = true → branchProc .decr n b p = p ∧
      (branchProc .incr n b p).active = !b ∧ branchProc .incr n false p = p ∧
      branchProc .incr n true p = { p with active := false, counter := 0 }) ∧
    branchProc .none n b p = p

/-- R266, R264: a JUMP that does not hold and nests no branch too deep sets the pc to JUMP_ADDR if the stream jumps and to the
next instruction if not, applies one of its two branch operations to every processor (column c6 where it does not jump, c7
where it does: log entry 14), and changes nothing else. Columns c5 and c9 do nothing where they are NONE and 0, as in every
row of R267; what other values do is free (log entry 17). -/
def Obligations.JumpSetsThePc : Prop :=
  ∀ (f : Flow) (s : State), s.holds f.wait = false → s.tooDeep (branchOpOf f (s.jumps f)) = false →
    exec (.fcJump f) s = .next { s with
      stream := { s.stream with
        pc := if s.jumps f then f.addr else s.stream.pc + 1
        depth := depthAfter (branchOpOf f (s.jumps f)) f.popCnt s.stream.depth
        procs := s.stream.procs.map (s.branchedProc f (s.jumps f)) }
      writes := (s.waited f.wait).writes } ∧
    (f.func = 0x00#8 → branchOpOf f (s.jumps f) = f.op0) ∧ (f.func = 0xff#8 → branchOpOf f (s.jumps f) = f.op1) ∧
    (f.c5 = 0 → f.c9 = 0 → ∀ (taken : Bool) (p : Proc), s.branchedProc f taken p =
      branchProc (branchOpOf f taken) f.popCnt (s.jumpCond f p != taken) p)

/-- R265, R266 (log entries 12, 15): a LOOP whose JUMP_FUNC does not pass and whose count is positive enters its loop: the
iteration count from the constant's red channel, aL from green, the increment from blue; a REP takes the count alone. One whose
jump condition passes goes to JUMP_ADDR (as, by log entry 15, may one with no iteration to make). One that would read a constant
while no command has set their descriptor is refused (R46, decision D21), and so is one that would read, for a processor that is
not killed, a constant which another instance of the run wrote (R320, D22, log entry 41). The constant is a function of one
element of its buffer (R36), at a place that is lost, each byte read as a cached lookup reads it, once for the stream (log entry
34, the model's). That these refusals come before the stack's overflow, and in this order, is log entry 52's (the model's). -/
def Obligations.LoopEntryTakesTheConstant : Prop :=
  ∀ (f : Flow) (k : Nat) (s : State), s.holds f.wait = false →
    let c := s.intConst k
    let l := s.stream.loops
    let skip := s.jumps f || (decide (c.red ≤ 0) && Config.zeroTripSkips)
    (s.constiUnset f = true → exec (.fcLoop f k) s = .refused .descriptorNotSet ∧
      exec (.fcRep f k) s = .refused .descriptorNotSet) ∧
    (s.constiUnset f = false → s.readsRace (s.constiReads f k) = true → exec (.fcLoop f k) s = .refused .outputRace ∧
      exec (.fcRep f k) s = .refused .outputRace) ∧
    (s.readsRace (s.constiReads f k) = true ↔ s.jumps f = false ∧ ∃ p ∈ s.stream.procs, p.killed = false ∧
      ∃ a ∈ constAddrs s.ctl.consti k, ∃ w ∈ s.writes, w.run = s.runNo ∧ w.xy ≠ p.xy ∧ w.covers a = true) ∧
    (s.jumps f = true → s.constiReads f k = []) ∧
    (∀ b : ConstBuf, s.ctl.consti = some b →
      let off := Config.constPlace b k
      c = Config.intConstValue b (elemOf b.desc.layout.format ((List.range (elemSize b.desc.layout.format)).map fun j =>
        s.cachedByte ⟨0, 0⟩ (cellAddr b.desc.base off) j (cellAddr b.desc.base (off + j))))) ∧
    (s.constiUnset f = false → s.readsRace (s.constiReads f k) = false → s.tooDeep (branchOpOf f skip) = false →
      ((skip = false → l.loopStack.length < Config.loopStackSize s.ctl.mode) →
        exec (.fcLoop f k) s = .next { s with
          stream := { s.stream with
            pc := if skip then f.addr else s.stream.pc + 1
            depth := depthAfter (branchOpOf f skip) f.popCnt s.stream.depth
            loops := if skip then l else
              { aL := c.green
                loopStack := { left := c.red, step := c.blue, savedAL := l.aL } :: l.loopStack
                repStack := l.repStack }
            procs := s.stream.procs.map (s.branchedProc f skip) }
          writes := (s.waited f.wait).writes
          reads := s.reads ++ s.constiReads f k }) ∧
      ((skip = false → l.repStack.length < Config.loopStackSize s.ctl.mode) →
        exec (.fcRep f k) s = .next { s with
          stream := { s.stream with
            pc := if skip then f.addr else s.stream.pc + 1
            depth := depthAfter (branchOpOf f skip) f.popCnt s.stream.depth
            loops := if skip then l else { aL := l.aL, loopStack := l.loopStack, repStack := c.red :: l.repStack }
            procs := s.stream.procs.map (s.branchedProc f skip) }
          writes := (s.waited f.wait).writes
          reads := s.reads ++ s.constiReads f k }))

/-- R265, R267 (log entries 12, 15): an ENDLOOP with an iteration left whose jump condition passes goes back to JUMP_ADDR and
steps aL by the increment; else it goes on and leaves the loop, aL being the enclosing loop's again; an ENDREP does the same
with its count alone. -/
def Obligations.LoopEndGoesBackOrOn : Prop :=
  ∀ (f : Flow) (s : State), s.holds f.wait = false →
    (∀ (fr : LoopFrame) (rest : List LoopFrame), s.stream.loops.loopStack = fr :: rest →
      let back := decide (1 < fr.left) && s.jumps f
      s.tooDeep (branchOpOf f back) = false →
      exec (.fcEndloop f) s = .next { s with
        stream := { s.stream with
          pc := if back then f.addr else s.stream.pc + 1
          depth := depthAfter (branchOpOf f back) f.popCnt s.stream.depth
          loops := { s.stream.loops with
            aL := if back then loopSum s.stream.loops.aL fr.step
              else if rest = [] then Config.outsideAL s.tick else fr.savedAL
            loopStack := if back then { left := fr.left - 1, step := fr.step, savedAL := fr.savedAL } :: rest else rest }
          procs := s.stream.procs.map (s.branchedProc f back) }
        writes := (s.waited f.wait).writes }) ∧
    (∀ (n : Int) (rest : List Int), s.stream.loops.repStack = n :: rest →
      let back := decide (1 < n) && s.jumps f
      s.tooDeep (branchOpOf f back) = false →
      exec (.fcEndrep f) s = .next { s with
        stream := { s.stream with
          pc := if back then f.addr else s.stream.pc + 1
          depth := depthAfter (branchOpOf f back) f.popCnt s.stream.depth
          loops := { s.stream.loops with repStack := if back then (n - 1) :: rest else rest }
          procs := s.stream.procs.map (s.branchedProc f back) }
        writes := (s.waited f.wait).writes })

/-- R262 with log entry 16 (the model's choice): a CONTINUE jumps and branches as its fields say; what it does to the open loops
is free, but that it opens none: in partial mode there never is one (R260); nothing else changes. -/
def Obligations.ContinueJumpsAsItsFieldsSay : Prop :=
  ∀ (f : Flow) (s : State), s.holds f.wait = false → s.tooDeep (branchOpOf f (s.jumps f)) = false →
    ∃ l : LoopState, exec (.fcContinue f) s = .next { s with
        stream := { s.stream with
          pc := if s.jumps f then f.addr else s.stream.pc + 1
          depth := depthAfter (branchOpOf f (s.jumps f)) f.popCnt s.stream.depth
          loops := l
          procs := s.stream.procs.map (s.branchedProc f (s.jumps f)) }
        writes := (s.waited f.wait).writes } ∧
      l.loopStack.length ≤ s.stream.loops.loopStack.length ∧ l.repStack.length ≤ s.stream.loops.repStack.length

/-- R261, R260 (log entries 14, 15): the end of a loop that is not open is an underflow; a branch nested beyond the mode's depth
an overflow, on every flow-control instruction; a loop entered where the mode's stack is full an overflow, so that in partial
mode, which supports no loops and 6 nested branches, every loop that is entered is one. That an underflow comes before an overflow
of the same instruction is log entry 52's (the model's). -/
def Obligations.StackMisuseFaults : Prop :=
  ∀ (f : Flow) (s : State), s.holds f.wait = false →
    (s.stream.loops.loopStack = [] → exec (.fcEndloop f) s = .fault .stackUnderflow) ∧
    (s.stream.loops.repStack = [] → exec (.fcEndrep f) s = .fault .stackUnderflow) ∧
    (s.tooDeep (branchOpOf f (s.jumps f)) = true →
      exec (.fcJump f) s = .fault .stackOverflow ∧ exec (.fcContinue f) s = .fault .stackOverflow) ∧
    (∀ (fr : LoopFrame) (rest : List LoopFrame), s.stream.loops.loopStack = fr :: rest →
      s.tooDeep (branchOpOf f (decide (1 < fr.left) && s.jumps f)) = true → exec (.fcEndloop f) s = .fault .stackOverflow) ∧
    (∀ (n : Int) (rest : List Int), s.stream.loops.repStack = n :: rest →
      s.tooDeep (branchOpOf f (decide (1 < n) && s.jumps f)) = true → exec (.fcEndrep f) s = .fault .stackOverflow) ∧
    (∀ k : Nat, s.constiUnset f = false → s.readsRace (s.constiReads f k) = false →
      let skip := s.skipsLoop f (s.intConst k)
      (exec (.fcLoop f k) s = .fault .stackOverflow ↔ s.tooDeep (branchOpOf f skip) = true ∨
        (skip = false ∧ Config.loopStackSize s.ctl.mode ≤ s.stream.loops.loopStack.length)) ∧
      (exec (.fcRep f k) s = .fault .stackOverflow ↔ s.tooDeep (branchOpOf f skip) = true ∨
        (skip = false ∧ Config.loopStackSize s.ctl.mode ≤ s.stream.loops.repStack.length))) ∧
    (∀ op, s.tooDeep op = true ↔ op = .incr ∧ Config.branchDepth s.ctl.mode ≤ s.stream.depth) ∧
    Config.loopStackSize .partialMode = 0 ∧ Config.branchDepth .partialMode = 6 ∧ 6 < Config.branchDepth .fullMode

/-! ## Commands (spec/40_commands.md) -/

/-- R135, R146, R147: set_consti_fmt sets the integer constants' base (2K aligned), pitch, tiling and format from its two words,
and their offset, which is carried where the spec does not show (log entry 50: free); set_cond_test sets the condition; neither
changes anything else. -/
def Obligations.DecodableCommandsSetTheirState : Prop :=
  ∀ (b : BaseParam) (f : FormatParam) (c : Condition) (s : State),
    exec (.setCondTest c) s = .next { s with ctl := { s.ctl with cond := c } } ∧
    exec (.setConstiFmt b f) s = .next { s with ctl := { s.ctl with consti := some (constBufOf b f) } } ∧
    (constBufOf b f).desc = descOf b f ∧
    (descOf b f).base = encodeBase b &&& 0xFFFFF800#32 ∧
    (descOf b f).layout.pitch = encodeFormat f &&& 0x1FFC#32 ∧
    (descOf b f).layout.tiling = (encodeFormat f).extractLsb' 16 2 ∧
    encodeDataFormat (descOf b f).layout.format = (encodeFormat f).extractLsb' 24 3

/-- R134, R137 to R141, R41 (log entries 36, 44, 51): the set-up commands with lost names set their own descriptor, bounds or
enables, and nothing else; the domain command sets the range a program is run over; an input's or output's base and layout are
set for that number alone, each leaving the other as it was, and its descriptor is set once both are. -/
def Obligations.SetupCommandsSetTheirOwnState : Prop :=
  ∀ (b : BaseParam) (f : FormatParam) (k : Nat) (v : SizeParam) (i0 j0 : DomainBound) (ws : List Word)
    (s : State),
    exec (.floatConstFmt b f) s = .next { s with ctl := { s.ctl with floatConsts := some (constBufOf b f) } } ∧
    exec (.programData b f) s = .next { s with ctl := { s.ctl with programDesc := some (descOf b f) } } ∧
    exec (.sizeParameter v) s = .next { s with
      ctl := { s.ctl with sizeParam := v.size, sizeBase := some (encodeBase v.base) } } ∧
    exec (.domainBounds i0 j0) s = .next { s with
      ctl := { s.ctl with i0 := i0.bound, j0 := j0.bound, domain := Config.domainOf i0 j0 } } ∧
    (∃ u : State, exec (.inputBase k b) s = .next u ∧ u = { s with ctl := { s.ctl with inputs := u.ctl.inputs } } ∧
      slotAt u.ctl.inputs k = { slotAt s.ctl.inputs k with base := some (encodeBase b) } ∧
      ∀ j, j ≠ k → slotAt u.ctl.inputs j = slotAt s.ctl.inputs j) ∧
    (∃ u : State, exec (.outputBase k b) s = .next u ∧ u = { s with ctl := { s.ctl with outs := u.ctl.outs } } ∧
      slotAt u.ctl.outs k = { slotAt s.ctl.outs k with base := some (encodeBase b) } ∧
      ∀ j, j ≠ k → slotAt u.ctl.outs j = slotAt s.ctl.outs j) ∧
    (∃ u : State, s.execExtra (.inputFormat k f) = u ∧ u = { s with ctl := { s.ctl with inputs := u.ctl.inputs } } ∧
      slotAt u.ctl.inputs k = { slotAt s.ctl.inputs k with layout := some (layoutOf f) } ∧
      ∀ j, j ≠ k → slotAt u.ctl.inputs j = slotAt s.ctl.inputs j) ∧
    (∃ u : State, s.execExtra (.outputFormat k f) = u ∧ u = { s with ctl := { s.ctl with outs := u.ctl.outs } } ∧
      slotAt u.ctl.outs k = { slotAt s.ctl.outs k with layout := some (layoutOf f) } ∧
      ∀ j, j ≠ k → slotAt u.ctl.outs j = slotAt s.ctl.outs j) ∧
    ((s.execExtra (.inputFormat k f)).inputDesc k =
        (slotAt s.ctl.inputs k).base.map (fun a => { base := a, layout := layoutOf f }) ∧
      ∀ j, j ≠ k → (s.execExtra (.inputFormat k f)).inputDesc j = s.inputDesc j) ∧
    ((s.execExtra (.outputFormat k f)).outDesc k =
        (slotAt s.ctl.outs k).base.map (fun a => { base := a, layout := layoutOf f }) ∧
      ∀ j, j ≠ k → (s.execExtra (.outputFormat k f)).outDesc j = s.outDesc j) ∧
    s.execExtra (.condBufBase b) = { s with ctl := { s.ctl with condBuf := some (encodeBase b) } } ∧
    s.execExtra (.perfEnable ws) = { s with perf := { s.perf with enabled := Config.perfEnables ws } }

/-- R143, R341, R73: a program start makes every index pair of the domain wait for its instance, once each; the writes of
earlier programs are hidden by caches no longer exactly if the pipe was flushed, but for those of killed processors: of them a
byte stays unsaid (D10) unless a later write that is not unsaid covers it (R73, R217); nothing else but the run's number, its
reads and the spent flush changes; that the MC conditional output cache and the performance counters are kept, where R46 calls
both unspecified, is log entry 4's, and that a flush serves every reader is log entry 31's (the model's). A start without a
program location is refused (R46, decision D21). -/
def Obligations.ProgramStartQueuesTheDomain : Prop :=
  ∀ s : State, (s.ctl.programDesc = none → exec .programStart s = .refused .descriptorNotSet) ∧
    (s.ctl.programDesc ≠ none → ∃ u, exec .programStart s = .next u ∧
      (∀ xy, xy ∈ u.waiting ↔ xy ∈ s.ctl.domain) ∧ u.waiting.Nodup ∧
      (s.ctl.pipeFlushed = true →
        (∀ pre w post, s.writes = pre ++ w :: post → w.unsaid = true → ∃ v ∈ u.writes, v = { w with cells := v.cells } ∧
          ∀ a, Memory.read v.cells a =
            if ∃ x ∈ post, x.unsaid = false ∧ x.covers a = true then none else Memory.read w.cells a) ∧
        (∀ v ∈ u.writes, v.unsaid = true ∧ ∃ pre w post, s.writes = pre ++ w :: post ∧ v = { w with cells := v.cells } ∧
          ∀ a, v.covers a = true → w.covers a = true ∧ ∀ x ∈ post, x.unsaid = false → x.covers a = false)) ∧
      (s.ctl.pipeFlushed = false → u.writes = s.writes) ∧
      u = { s with
        waiting := u.waiting, runNo := s.runNo + 1, writes := u.writes, reads := []
        ctl := { s.ctl with pipeFlushed := false } })

/-- R144, R145, R318: the counter commands start or stop counting; read_perf_counters writes the counters to memory from its
address on, byte j of the dump j bytes above it (of two at one address, as in a dump longer than the address space, the later),
and changes no byte outside them; only a counter that is enabled counts, and only while counting is on. The layout of the dump
and what a counter counts are free, and that the dump is made of the counters' values alone is the model's (log entry 43). -/
def Obligations.PerformanceCounterCommands : Prop :=
  ∀ (b : Bool) (w : Word) (s : State),
    exec (.perfControl b w) s = .next { s with perf := { s.perf with counting := b, param := w } } ∧
    exec (.readPerfCounters w) s = .next { s with mem := Memory.writeAll s.mem (perfCells w s.perf) } ∧
    (∀ a, (∀ j < (Config.perfDump ((List.range Config.nperf).map s.perf.value)).length, cellAddr w j ≠ a) →
      Memory.read (Memory.writeAll s.mem (perfCells w s.perf)) a = Memory.read s.mem a) ∧
    (let dump := Config.perfDump ((List.range Config.nperf).map s.perf.value)
      ∀ a, Memory.read (Memory.writeAll s.mem (perfCells w s.perf)) a =
        ((List.range dump.length).reverse.find? fun j => cellAddr w j == a).elim (Memory.read s.mem a) fun j => dump[j]?) ∧
    ∀ tick n : Nat,
      (s.perf.step tick).value n =
        if s.perf.counting = true ∧ n ∈ s.perf.enabled ∧ n < Config.nperf then
          Config.perfCount tick n (s.perf.value n) % 2 ^ Config.perfWidth
        else s.perf.value n

/-! ## Encoding of commands (spec/30_encoding.md) -/

/-- R101, R102, R61 to R63, R147: decoding the words of any command that has an encoding gives that command back, with every
field at every value, and leaves what follows it. -/
def Obligations.DecodeEncodeRoundTrip : Prop :=
  ∀ (i : Instr) (ws : List Word), encode i = some ws →
    ∀ rest : List Byte, decode (wordsBytes ws ++ rest) = .ok (i, rest)

/-- R110, R132: the decoder accepts nothing but encodings: bytes it reads as a command are that command's words and what
follows, so no reserved bit, reserved value or unlisted opcode passes. Of a command whose opcode word is lost (R134, R136 to
R145, R41; log entry 36, which says what is not shown of them) the parameters that R61, R62 and R140 lay out give their fields,
each at every value, and one with a reserved bit, or a format of 5 to 7, is refused. -/
def Obligations.DecodedBytesAreAnEncoding : Prop :=
  (∀ (bs rest : List Byte) (i : Instr), decode bs = .ok (i, rest) →
    ∃ ws, encode i = some ws ∧ bs = wordsBytes ws ++ rest) ∧
  ∀ (k : Nat) (p q : Word) (ws : List Word) (b : BaseParam) (f : FormatParam),
    decodeLost .inputBase k (encodeBase b) ws = .ok (.row (.inputBase k b)) ∧
    decodeLost .outputBase k (encodeBase b) ws = .ok (.row (.outputBase k b)) ∧
    decodeLost .condBufBase k (encodeBase b) ws = .ok (.extra (.condBufBase b)) ∧
    decodeLost .inputFormat k (encodeFormat f) ws = .ok (.extra (.inputFormat k f)) ∧
    decodeLost .outputFormat k (encodeFormat f) ws = .ok (.extra (.outputFormat k f)) ∧
    decodeLost .floatConstFmt k (encodeBase b) (encodeFormat f :: ws) = .ok (.row (.floatConstFmt b f)) ∧
    decodeLost .programData k (encodeBase b) (encodeFormat f :: ws) = .ok (.row (.programData b f)) ∧
    (∀ n : BitVec 13, decodeLost .sizeParameter k (n.setWidth 32) (encodeBase b :: ws) =
      .ok (.row (.sizeParameter ⟨n, b⟩))) ∧
    decodeLost .domain k p (q :: ws) = .ok (.row (.domainBounds ⟨p.extractLsb' 0 12, [p &&& 0xFFFFF000#32]⟩
      ⟨q.extractLsb' 0 12, (q &&& 0xFFFFF000#32) :: ws⟩)) ∧
    decodeLost .readPerfCounters k p ws = .ok (.row (.readPerfCounters p)) ∧
    decodeLost .programStart k p ws = .ok (.row .programStart) ∧
    decodeLost .perfStart k p ws = .ok (.row (.perfControl true p)) ∧
    decodeLost .perfStop k p ws = .ok (.row (.perfControl false p)) ∧
    decodeLost .perfEnable k p ws = .ok (.extra (.perfEnable (p :: ws))) ∧
    (p.extractLsb' 0 11 ≠ 0 →
      (∀ c ∈ [LostCommand.inputBase, .outputBase, .condBufBase], decodeLost c k p ws = .error .reservedNonzero) ∧
      (∀ c ∈ [LostCommand.floatConstFmt, .programData], decodeLost c k p (q :: ws) = .error .reservedNonzero) ∧
      ∀ n : BitVec 13, decodeLost .sizeParameter k (n.setWidth 32) (p :: ws) = .error .reservedNonzero) ∧
    (p.extractLsb' 13 19 ≠ 0 → decodeLost .sizeParameter k p (q :: ws) = .error .reservedNonzero) ∧
    ∀ e, (p.extractLsb' 0 2 ≠ 0 ∨ p.extractLsb' 13 3 ≠ 0 ∨ p.extractLsb' 18 6 ≠ 0 ∨ p.extractLsb' 27 5 ≠ 0) ∧
          e = DecodeError.reservedNonzero ∨
        (p.extractLsb' 0 2 = 0 ∧ p.extractLsb' 13 3 = 0 ∧ p.extractLsb' 18 6 = 0 ∧ p.extractLsb' 27 5 = 0) ∧
          5 ≤ (p.extractLsb' 24 3).toNat ∧ e = DecodeError.reservedValue →
      (∀ c ∈ [LostCommand.inputFormat, .outputFormat], decodeLost c k p ws = .error e) ∧
      ∀ c ∈ [LostCommand.floatConstFmt, .programData], decodeLost c k (encodeBase b) (p :: ws) = .error e

/-- V-CMD of 95_test_vectors.md: sample words decode to the commands they stand for. -/
def Obligations.SampleCommandWords : Prop :=
  decode (wordsBytes [0xC0010F00#32, 0x00012800#32, 0x04000100#32]) =
    .ok (.setConstiFmt ⟨0x25#21⟩ ⟨64#11, 0#2, .float32x4⟩, []) ∧
  decode [0x00, 0x1B, 0x00, 0xC0, 0x01, 0x00, 0x00, 0x00] = .ok (.setCondTest .less, []) ∧
  decode (wordsBytes [0xC0001B00#32, 0x00000002#32]) = .error .reservedValue ∧
  decode (wordsBytes [0xC0010F00#32, 0x00012801#32, 0x04000100#32]) = .error .reservedNonzero ∧
  decode (wordsBytes [0xC0010F00#32, 0x00012800#32, 0x05000100#32]) = .error .reservedValue

/-! ## Steps, launch and the end of an instance -/

/-- R101, R131 (log entry 36): when the bytes at the PE's pointer decode to a command and no program is running or waiting, a
step executes that command, moves the PE past its words, and adds the tick. Where a lost opcode word stands instead, the command
is the one it stands for, with as many parameters as that command always takes, read from the words after it: one for
read_perf_counters (R145), two for the float constants (R136), at least one for every command. -/
def Obligations.StepRunsTheDecodedCommand : Prop :=
  ∀ (s t : State) (id : Word), s.running = false → s.canLaunch = false →
    s.pe.current = some id → s.pe.ptr < s.pe.limit → s.pe.ptr % 4 = 0 →
    (∀ (i : Instr) (rest : List Byte), (∀ p ∈ s.pe.ops, p.addr = s.pe.ptr → s.opStands p = false) →
      decode (s.peBytes s.pe.ptr (min maxCommandBytes (s.pe.limit - s.pe.ptr))) = .ok (i, rest) →
      exec i s = .next t →
      step s = .next { t with
        pe := { t.pe with ptr := t.pe.ptr + ((encode i).elim 0 fun ws => 4 * ws.length) }
        tick := t.tick + 1
        perf := t.perf.step t.tick }) ∧
    (∀ (p : PlacedOp) (c : Command) (w : Word) (ws : List Word) (rest : List Byte),
      s.pe.ops.find? (fun q => q.addr == s.pe.ptr && s.opStands q) = some p →
      s.pe.ptr + 4 * (1 + p.cmd.params) ≤ s.pe.limit →
      takeWords p.cmd.params (s.peBytes (s.pe.ptr + 4) (4 * p.cmd.params)) = some (w :: ws, rest) →
      decodeLost p.cmd p.index w ws = .ok c → s.execCommand c = .next t →
      step s = .next { t with
        pe := { t.pe with ptr := t.pe.ptr + 4 * (1 + p.cmd.params) }
        tick := t.tick + 1
        perf := t.perf.step t.tick }) ∧
    LostCommand.readPerfCounters.params = 1 ∧ LostCommand.floatConstFmt.params = 2 ∧ ∀ c : LostCommand, 1 ≤ c.params

/-- R212, R25 (log entries 7, 8 for whose turn it is): when the move of the stream whose turn it is is to issue, a step is exec
of the program's instruction at that stream's pc, with that stream in front and the tick added. -/
def Obligations.StepIssuesTheInstructionAtThePc : Prop :=
  ∀ (s : State) (i : Instr), s.running = true → s.canLaunch = false → s.turn.finished = false →
    s.turn.pickMove = some .issue → s.program[s.turn.stream.pc]? = some i → i.isDpp = true → i.wf = true →
    step s =
      match exec i s.turn with
      | .next t => .next { t with tick := t.tick + 1, perf := t.perf.step t.tick }
      | .fault f => .fault f
      | .refused r => .refused r

/-- R25, R352 (log entry 42): a stream whose pc has passed the program without its last OUTPUT ending it faults when it would
issue; and the last OUTPUT is what ends it. -/
def Obligations.PcPastTheEndFaults : Prop :=
  (∀ s : State, s.running = true → s.canLaunch = false → s.turn.issuedAll = false →
    s.program.length ≤ s.turn.stream.pc → s.turn.stream.pending = [] → s.turn.stream.sem = .free →
    step s = .fault .pcPastEnd) ∧
  ∀ (i : Instr) (s t : State), s.stream.done = false → exec i s = .next t → t.stream.done = true →
    ∃ o, i = .output o ∧ s.stream.pc + 1 = s.program.length

/-- R143: while a program's instances are running or waiting, the PE reads no command and the control state is as the commands
before the start left it. -/
def Obligations.PeWaitsUntilAllProcessorsAreIdle : Prop :=
  ∀ s t : State, s.running = true ∨ s.waiting ≠ [] → step s = .next t → t.pe = s.pe ∧ t.ctl = s.ctl

/-- R151, R152 (log entry 37): a submitted command buffer joins the queue under an identifier of its own; the PE, when no
program runs or waits, takes the buffers in the order submitted, from their first byte to their last, and marks one consumed
when its pointer has reached its end; nothing else makes a buffer count as consumed. -/
def Obligations.CommandBuffersAreTakenAndConsumed : Prop :=
  ∀ s : State,
    (∀ addr size, s.submit addr size = ({ s with pe := { s.pe with
      queue := s.pe.queue ++ [{ id := s.pe.nextId, addr := addr, size := size }], nextId := s.pe.nextId + 1 } },
      s.pe.nextId)) ∧
    (s.running = false → s.canLaunch = false →
      (∀ b rest, s.pe.current = none → s.pe.queue = b :: rest → step s = .next { s with
        pe := { s.pe with current := some b.id, ptr := b.addr, limit := b.addr + b.size, queue := rest }
        tick := s.tick + 1
        perf := s.perf.step s.tick }) ∧
      (s.pe.current = none → s.pe.queue = [] → step s = .next { s with tick := s.tick + 1, perf := s.perf.step s.tick }) ∧
      (∀ id, s.pe.current = some id → s.pe.limit ≤ s.pe.ptr → ∃ t, step s = .next t ∧ t.bufferConsumed id = true ∧
        t = { s with
          pe := { s.pe with current := none, consumed := s.pe.consumed ++ [id] }
          tick := s.tick + 1
          perf := s.perf.step s.tick })) ∧
    ∀ (t : State) (id : Word), step s = .next t → t.bufferConsumed id = true →
      s.bufferConsumed id = true ∨
        (s.running = false ∧ s.waiting = [] ∧ s.pe.current = some id ∧ s.pe.limit ≤ s.pe.ptr)

/-- R341, R46, R40 (log entry 7): where index pairs wait and a group of processors is idle, as all are when no stream runs, a
step launches a group beside the streams that run, on no more processors than there are: it starts at pc 0 with the semaphore
free, nothing outstanding, the sequence at 0, the fifo empty, the stacks empty (log entry 15), every processor active and not
killed, on index pairs that were waiting and no longer are; and at least one is launched. Its temporaries are what entry_regs
gives its index pair (whatever registers it names: log entry 44) and otherwise unwritten: zero before any program start (log
entry 4), else free (log entry 5). -/
def Obligations.LaunchStartsInstances : Prop :=
  ∀ s : State, (s.running = false → s.waiting ≠ [] → s.canLaunch = true) ∧
    (s.canLaunch = true → ∃ t, step s = .next t ∧
      t.running = true ∧ t.stream.pc = 0 ∧ t.stream.sem = .free ∧ t.stream.pending = [] ∧ t.stream.seq = 0 ∧
      t.stream.done = false ∧ t.stream.fifoReserved = false ∧ t.stream.depth = 0 ∧ t.stream.loops.loopStack = [] ∧
      t.stream.loops.repStack = [] ∧ t.stream.callStack = [] ∧ t.stream.procs ≠ [] ∧
      (∀ p ∈ t.stream.procs, p.active = true ∧ p.killed = false ∧
        (∀ e, s.ctl.entryRegs.find? (fun e => e.xy == p.xy) = some e →
          (∀ pre d v post, e.regs = pre ++ (d, v) :: post → (∀ r ∈ post, r.1 ≠ d) → p.temp t.runNo d = v) ∧
          ∀ d, (∀ r ∈ e.regs, r.1 ≠ d) → p.temp t.runNo d = initialTemp s.runNo p.xy d) ∧
        ((∀ e ∈ s.ctl.entryRegs, e.xy ≠ p.xy) → ∀ d, p.temp t.runNo d = initialTemp s.runNo p.xy d)) ∧
      (∀ xy d, initialTemp 0 xy d = Quad.all 0 ∧ ∀ n, initialTemp (n + 1) xy d = Config.unwrittenTemp n xy d) ∧
      ((t.stream.procs.map Proc.xy) ++ t.waiting).Perm s.waiting ∧
      t.others = (if s.running then s.streams else []) ∧ t.busy ≤ Config.nproc)

/-- R236, R215, R352, with log entry 9 for the Killed ending (D10) and D16 for when a run is final: a stream that issues nothing
more has only the texture unit's moves; instances end only when their stream issues nothing more, nothing of it is outstanding
and its semaphore is free; their end is Killed exactly for the killed processors, whose writes are then unsaid; and the other
streams run on. That nothing runs from that moment on, so that the PE may go on, is log entry 42's (the model's). -/
def Obligations.InstancesEndWhenNothingIsOutstanding : Prop :=
  ∀ s t : State, s.running = true → s.canLaunch = false → step s = .next t →
    let st := s.turn.stream
    ((st.done = true ∨ ∀ p ∈ st.procs, p.killed = true) → Move.issue ∉ s.turn.moves) ∧
    (t.ended ≠ s.ended ∨ t.running = false →
      (st.done = true ∨ ∀ p ∈ st.procs, p.killed = true) ∧ st.pending = [] ∧ st.sem = .free) ∧
    ((st.done = true ∨ ∀ p ∈ st.procs, p.killed = true) → st.pending = [] → st.sem = .free →
      t.ended = s.ended ++ st.procs.map (fun p => (p.xy, if p.killed then EndKind.killed else EndKind.normal)) ∧
      t.running = !s.turn.others.isEmpty ∧ (t.running = true → t.streams = s.turn.others) ∧
      t.writes = s.writes.map fun w =>
        { w with unsaid := w.unsaid || (w.run == s.runNo && st.procs.any fun p => p.killed && p.xy == w.xy) })

/-- R46, with log entry 4 for what the rule does not fix: what reset leaves. No descriptor is set (D21). -/
def Obligations.ResetState : Prop :=
  State.reset.stream.pc = 0 ∧ State.reset.stream.sem = .free ∧ State.reset.stream.pending = [] ∧
  State.reset.stream.seq = 0 ∧ State.reset.stream.fifoReserved = false ∧
  (∀ p ∈ State.reset.stream.procs, p.killed = false ∧ p.active = true ∧
    ∀ d, p.temp State.reset.runNo d = Quad.all 0) ∧
  State.reset.others = [] ∧ State.reset.mem = [] ∧ State.reset.running = false ∧ State.reset.pe.current = none ∧
  State.reset.ctl.programDesc = none ∧ State.reset.ctl.floatConsts = none ∧ State.reset.ctl.consti = none ∧
  State.reset.ctl.condBuf = none ∧ State.reset.ctl.sizeBase = none ∧
  ∀ k, State.reset.inputDesc k = none ∧ State.reset.outDesc k = none

/-! ## Invariants and whole-machine rules -/

/-- R60: every step keeps memory in canonical form and within the address space. -/
def Obligations.StepsKeepMemoryCanonical : Prop :=
  ∀ s t : State, s.MemInv → step s = .next t → t.MemInv

/-- R212, R223, R229: every step keeps every stream's outstanding operations numbered in issue order, its semaphore held by an
issued operation if at all, and the destinations of its outstanding lookups distinct. -/
def Obligations.StepsKeepSemaphoreDiscipline : Prop :=
  ∀ s t : State, s.SemInv → step s = .next t → t.SemInv

/-- R61, R62, R41: every step keeps every descriptor's base 2K aligned and every pitch a multiple of 4 up to 8188: the
constants', the program's, the inputs', the outputs', the conditional output buffer's, and the base after the size parameter;
and so do the launch parameters, whatever they are. -/
def Obligations.StepsKeepDescriptorsAligned : Prop :=
  (∀ s t : State, s.DescInv → step s = .next t → t.DescInv) ∧
  ∀ (s : State) (p : LaunchParams), s.DescInv → (s.withLaunch p).DescInv

/-- R260, R264: every step keeps every stream within the mode's nesting, and the branch counters of its inactive processors
below its open branches (log entry 14). -/
def Obligations.StepsKeepBranchCountersInRange : Prop :=
  ∀ s t : State, s.BranchInv → step s = .next t → t.BranchInv

/-- The four invariants hold after reset. -/
def Obligations.ResetMeetsTheInvariants : Prop :=
  State.reset.MemInv ∧ State.reset.SemInv ∧ State.reset.DescInv ∧ State.reset.BranchInv

/-- R41, R317, R76: no instruction of the array changes control state, the PE, the program, another stream, the instances
waiting or ended, or the counters; and no command changes the instruction streams, the outputs or the CO's cache. That a program
start keeps that cache, whose contents R46 then calls unspecified, is log entry 4's choice (the model's). -/
def Obligations.InstructionsAndCommandsKeepApart : Prop :=
  ∀ (i : Instr) (s t : State), exec i s = .next t →
    t.program = s.program ∧ t.programAt = s.programAt ∧ t.int32Refs = s.int32Refs ∧ t.earlyExit = s.earlyExit ∧
    t.pe = s.pe ∧ t.ended = s.ended ∧ t.running = s.running ∧ t.others = s.others ∧
    (i.isDpp = true → t.ctl = s.ctl ∧ t.waiting = s.waiting ∧ t.runNo = s.runNo ∧ t.perf = s.perf ∧ s.reads <+: t.reads) ∧
    (i.isDpp = false → t.stream = s.stream ∧ t.outputs = s.outputs ∧ t.condCache = s.condCache)

/-- R60, R77, R79: no instruction or command but OUTPUT and read_perf_counters changes a byte of memory, and no instruction
records an output or a write but OUTPUT. -/
def Obligations.OnlyOutputsAndDumpsWriteMemory : Prop :=
  ∀ (i : Instr) (s t : State), exec i s = .next t →
    ((∀ o, i ≠ .output o) → (∀ a, i ≠ .readPerfCounters a) → t.mem = s.mem) ∧
    (i.isDpp = true → (∀ o, i ≠ .output o) →
      t.outputs = s.outputs ∧ t.condCache = s.condCache ∧ t.writes = (s.waited i.semWait).writes ∨ t = s)

/-- R215, R34: no instruction changes anything of a killed processor (decision D10 with log entry 9, the model's: the effect of
a kill is lost, N8), and none changes a register, a condition bit or the kill flag of an inactive one. -/
def Obligations.KilledAndInactiveProcessorsAreUntouched : Prop :=
  ∀ (i : Instr) (s t : State) (n : Nat) (p : Proc), exec i s = .next t → s.stream.procs[n]? = some p →
    (p.killed = true → t.stream.procs[n]? = some p) ∧
    (p.active = false → ∃ q, t.stream.procs[n]? = some q ∧
      q = { p with active := q.active, counter := q.counter })

/-- R31, R182 with log entry 20 (one predicate bit a channel, alu_result one a processor, and what they become): an ALU row
gives a predicate bit a new value, made of its engine's result on that channel, exactly where an output mask and the predication
let it (that predication limits them is log entry 19's, the model's); a bit outside stays. No row but an ALU row changes a
predicate bit, alu_result or what a cross-engine copy takes. -/
def Obligations.OnlyAluRowsChangeConditionBits : Prop :=
  (∀ (s : State) (c : AluCommon) (rgb : Option RgbHalf) (alpha : Option AlphaHalf) (p : Proc),
    (∀ ch, (p.enabled c.pred).get ch = false ∨ ((∀ h, rgb = some h → (rgbPmask h.part).get ch = false) ∧
        ∀ h, alpha = some h → (alphaPmask h.part).get ch = false) →
      (s.aluProc c rgb alpha p).pred.get ch = p.pred.get ch) ∧
    (∀ h ch, ch ≠ .a → rgb = some h → (rgbPmask h.part).get ch = true → (p.enabled c.pred).get ch = true →
      (s.aluProc c rgb alpha p).pred.get ch = Config.predicateBit s.tick p.xy ch ((s.rgbFinal c p alpha h).get ch)) ∧
    (∀ h, alpha = some h → h.part.pa = true → (p.enabled c.pred).a = true →
      (s.aluProc c rgb alpha p).pred.a = Config.predicateBit s.tick p.xy .a (s.alphaFinal c p rgb h)) ∧
    (s.aluProc c rgb alpha p).aluResult = Config.aluResultAfter s.tick p.xy p.aluResult) ∧
  ∀ (i : Instr) (s t : State) (n : Nat) (p : Proc), aluHalves i = none → exec i s = .next t →
    s.stream.procs[n]? = some p →
    ∃ q, t.stream.procs[n]? = some q ∧ q.pred = p.pred ∧ q.aluResult = p.aluResult ∧ q.last = p.last

/-- R343 to R347 with log entry 48: a file that is no 32-bit ELF object, or has no .text section with executable instructions,
is refused; so is one with a nonzero reserved word in its Program Information note (R347). Else its program is the contents of
that section, at the address given, where memory then holds its bytes, which are free (R342, log entry 40), and is otherwise as
it was (a record says which of them replace unsaid ones: log entry 9), and its int32 constant references are those of the Int32
Constants note (type 6, named ELF_NOTE_ATI; of several the first), wherever it stands among the notes, or none without it
(R346); that a note asks for an early exit is recorded. That nothing reads these references is the model's (log entry 48). -/
def Obligations.LoaderReadsTheFile : Prop :=
  ∀ (s : State) (f : ObjectFile) (b : BaseParam),
    (f.elfClass ≠ .class32 ∨ (∀ g ∈ f.segments, ∀ x ∈ g.sections, x.isText = false) →
      s.loadProgram f b = .error .notAnExecutable) ∧
    (∀ x, f.elfClass = .class32 → f.text = some x →
      ((∃ n ∈ f.notes, n.reservedSet = true) → s.loadProgram f b = .error .reservedNonzero) ∧
      ((∀ n ∈ f.notes, n.reservedSet = false) →
        let size := Config.instrBytes * x.contents.length
        let base := encodeBase b
        ∃ t, s.loadProgram f b = .ok t ∧
          t = { s with
            program := x.contents, programAt := some base, int32Refs := f.int32Refs
            earlyExit := f.notes.any Note.isEarlyExit
            mem := t.mem, writes := s.writes ++ s.replacing (programCells x.contents base) } ∧
          ∀ a, Memory.read t.mem a =
            ((List.range size).reverse.find? fun j => cellAddr base j == a).elim (Memory.read s.mem a) fun j =>
              some (Config.programByte x.contents base j))) ∧
    (∀ x, f.text = some x → x.name = [0x2E, 0x74, 0x65, 0x78, 0x74] ∧ x.type = .progbits ∧ x.alloc = true ∧
      x.execInstr = true ∧ ∃ g ∈ f.segments, x ∈ g.sections) ∧
    ((∀ n ∈ f.notes, n.int32Consts = none) → f.int32Refs = []) ∧
    (∀ pre n rest, f.notes = pre ++ n :: rest → (∀ m ∈ pre, m.int32Consts = none) → ∀ desc,
      n = .typed [0x06, 0x00, 0x00, 0x00] [0x41, 0x54, 0x49, 0x20, 0x44, 0x50, 0x50, 0x00] desc →
      f.int32Refs = wordsOf desc)
end

