-- ==== Sys2Proof/Laws/Decode.lean ====
section
/-! SUPPORT. The bits of the encoded words, and the decoders' fields read back from them. -/

namespace Sys2Proof

/-! ## Bytes of a word (spec/20_memory.md R65) -/

theorem byte_append_getLsbD (b0 b1 b2 b3 : Byte) (i : Nat) :
    (b3 ++ b2 ++ b1 ++ b0 : BitVec (8 + 8 + 8 + 8)).getLsbD i =
      if i < 8 then b0.getLsbD i else if i < 16 then b1.getLsbD (i - 8)
      else if i < 24 then b2.getLsbD (i - 16) else b3.getLsbD (i - 24) := by
  rw [BitVec.getLsbD_append, BitVec.getLsbD_append, BitVec.getLsbD_append]
  by_cases h0 : i < 8
  · simp [h0]
  · by_cases h1 : i < 16
    · simp [h0, h1, show i - 8 < 8 by omega]
    · by_cases h2 : i < 24
      · rw [if_neg h0, if_neg h0, if_neg (by omega), if_neg h1, if_pos (by omega), if_pos h2]
        congr 1
      · simp [h0, h1, h2, show ¬ i - 8 < 8 by omega, show ¬ i - 8 - 8 < 8 by omega, show i - 8 - 8 - 8 = i - 24 by omega]

/-- A word read back from its own bytes. -/
theorem takeWord_wordBytes (w : Word) (rest : List Byte) : takeWord (wordBytes w ++ rest) = some (w, rest) := by
  simp only [wordBytes, List.cons_append, List.nil_append, takeWord, Option.some.injEq, Prod.mk.injEq, and_true]
  apply BitVec.eq_of_getLsbD_eq
  intro i hi
  refine (byte_append_getLsbD _ _ _ _ i).trans ?_
  simp only [BitVec.getLsbD_extractLsb']
  by_cases h0 : i < 8
  · simp [h0]
  · by_cases h1 : i < 16
    · simp [h0, h1, show i - 8 < 8 by omega, show 8 + (i - 8) = i by omega]
    · by_cases h2 : i < 24
      · simp [h0, h1, h2, show i - 16 < 8 by omega, show 16 + (i - 16) = i by omega]
      · simp [h0, h1, h2, show i - 24 < 8 by omega, show 24 + (i - 24) = i by omega]

/-- Bytes from which a word can be read are that word's bytes and the rest. -/
theorem wordBytes_of_takeWord {bs rest : List Byte} {w : Word} (h : takeWord bs = some (w, rest)) :
    bs = wordBytes w ++ rest := by
  match bs, h with
  | b0 :: b1 :: b2 :: b3 :: tl, h =>
    simp only [takeWord, Option.some.injEq, Prod.mk.injEq] at h
    obtain ⟨rfl, rfl⟩ := h
    have bit : ∀ i, (show Word from b3 ++ b2 ++ b1 ++ b0).getLsbD i = _ := fun i => byte_append_getLsbD b0 b1 b2 b3 i
    simp only [wordBytes, List.cons_append, List.nil_append, List.cons.injEq, and_true]
    refine ⟨?_, ?_, ?_, ?_⟩ <;> apply BitVec.eq_of_getLsbD_eq <;> intro i hi <;>
      rw [BitVec.getLsbD_extractLsb'] <;> simp only [hi, decide_true, Bool.true_and] <;> rw [bit]
    · simp [hi]
    · simp [show ¬ 8 + i < 8 by omega, show 8 + i < 16 by omega]
    · simp [show ¬ 16 + i < 8 by omega, show 16 + i < 24 by omega]
    · simp [show ¬ 24 + i < 8 by omega, show ¬ 24 + i < 16 by omega]

theorem wordsBytes_length (ws : List Word) : (wordsBytes ws).length = 4 * ws.length := by
  induction ws with
  | nil => rfl
  | cons w ws ih => simp [wordsBytes, wordBytes, ih]; omega

/-! ## Parameters (R61, R62) -/

theorem encodeBase_getLsbD (b : BaseParam) (i : Nat) :
    (encodeBase b).getLsbD i = (decide (11 ≤ i) && b.addr.getLsbD (i - 11)) := by
  refine (BitVec.getLsbD_append (x := b.addr) (y := 0#11) (i := i)).trans ?_
  by_cases h : i < 11
  · simp [h, show ¬ 11 ≤ i by omega]
  · simp [h, show 11 ≤ i by omega]

theorem encodeFormat_getLsbD (f : FormatParam) (i : Nat) :
    (encodeFormat f).getLsbD i =
      if i < 2 then false else if i < 13 then f.pitch.getLsbD (i - 2) else if i < 16 then false
      else if i < 18 then f.tiling.getLsbD (i - 16) else if i < 24 then false
      else (encodeDataFormat f.format).getLsbD (i - 24) := by
  refine (BitVec.getLsbD_append (x := 0#5 ++ encodeDataFormat f.format ++ 0#6 ++ f.tiling ++ 0#3 ++ f.pitch) (y := 0#2)
    (i := i)).trans ?_
  by_cases h0 : i < 2
  · simp [h0]
  rw [if_neg h0, if_neg h0, BitVec.getLsbD_append]
  by_cases h1 : i < 13
  · simp [h1, show i - 2 < 11 by omega]
  rw [if_neg (by omega), if_neg h1, BitVec.getLsbD_append]
  by_cases h2 : i < 16
  · simp [h2, show i - 2 - 11 < 3 by omega]
  rw [if_neg (by omega), if_neg h2, BitVec.getLsbD_append]
  by_cases h3 : i < 18
  · rw [if_pos (by omega), if_pos h3]; congr 1
  rw [if_neg (by omega), if_neg h3, BitVec.getLsbD_append]
  by_cases h4 : i < 24
  · simp [h4, show i - 2 - 11 - 3 - 2 < 6 by omega]
  rw [if_neg (by omega), if_neg h4, BitVec.getLsbD_append]
  by_cases h5 : i < 27
  · rw [if_pos (by omega)]; congr 1
  · rw [if_neg (by omega), BitVec.getLsbD_of_ge _ (i - 24) (by omega)]; simp

/-- A base read back from its word. -/
theorem decodeBase_encodeBase (b : BaseParam) : decodeBase (encodeBase b) = .ok b := by
  have h0 : (encodeBase b).extractLsb' 0 11 = 0 := by
    apply BitVec.eq_of_getLsbD_eq
    intro i hi
    simp [encodeBase_getLsbD, hi]
  have h1 : (encodeBase b).extractLsb' 11 21 = b.addr := by
    apply BitVec.eq_of_getLsbD_eq
    intro i hi
    simp [encodeBase_getLsbD, hi]
  simp [decodeBase, h0, h1]

theorem decodeDataFormat_encodeDataFormat (d : DataFormat) : decodeDataFormat (encodeDataFormat d) = .ok d := by
  cases d <;> rfl

/-- A format read back from its word. -/
theorem decodeFormat_encodeFormat (f : FormatParam) : decodeFormat (encodeFormat f) = .ok f := by
  have h0 : (encodeFormat f).extractLsb' 0 2 = 0 := by
    apply BitVec.eq_of_getLsbD_eq
    intro i hi
    simp [encodeFormat_getLsbD, hi]
  have h1 : (encodeFormat f).extractLsb' 2 11 = f.pitch := by
    apply BitVec.eq_of_getLsbD_eq
    intro i hi
    simp [encodeFormat_getLsbD, hi, show ¬ 2 + i < 2 by omega, show 2 + i < 13 by omega]
  have h2 : (encodeFormat f).extractLsb' 13 3 = 0 := by
    apply BitVec.eq_of_getLsbD_eq
    intro i hi
    simp [encodeFormat_getLsbD, hi, show ¬ 13 + i < 2 by omega, show 13 + i < 16 by omega]
  have h3 : (encodeFormat f).extractLsb' 16 2 = f.tiling := by
    apply BitVec.eq_of_getLsbD_eq
    intro i hi
    simp [encodeFormat_getLsbD, hi, show ¬ 16 + i < 2 by omega, show ¬ 16 + i < 13 by omega, show 16 + i < 18 by omega]
  have h4 : (encodeFormat f).extractLsb' 18 6 = 0 := by
    apply BitVec.eq_of_getLsbD_eq
    intro i hi
    simp [encodeFormat_getLsbD, hi, show ¬ 18 + i < 2 by omega, show ¬ 18 + i < 13 by omega, show ¬ 18 + i < 16 by omega,
      show 18 + i < 24 by omega]
  have h5 : (encodeFormat f).extractLsb' 24 3 = encodeDataFormat f.format := by
    apply BitVec.eq_of_getLsbD_eq
    intro i hi
    simp [encodeFormat_getLsbD, hi, show ¬ 24 + i < 2 by omega, show ¬ 24 + i < 13 by omega, show ¬ 24 + i < 16 by omega,
      show ¬ 24 + i < 18 by omega]
  have h6 : (encodeFormat f).extractLsb' 27 5 = 0 := by
    apply BitVec.eq_of_getLsbD_eq
    intro i hi
    simp [encodeFormat_getLsbD, hi, show ¬ 27 + i < 2 by omega, show ¬ 27 + i < 13 by omega, show ¬ 27 + i < 16 by omega,
      show ¬ 27 + i < 18 by omega, show ¬ 27 + i < 24 by omega, show 27 + i - 24 = 3 + i by omega]
  simp only [decodeFormat, h0, h1, h2, h3, h4, h5, h6, decodeDataFormat_encodeDataFormat]
  simp

/-- Only the word of a base is decoded as a base. -/
theorem encodeBase_of_decodeBase {w : Word} {b : BaseParam} (h : decodeBase w = .ok b) : encodeBase b = w := by
  simp only [decodeBase] at h
  split at h
  · cases h
  · rename_i h0
    simp only [ne_eq, not_not] at h0
    simp only [Except.ok.injEq] at h
    subst h
    apply BitVec.eq_of_getLsbD_eq
    intro i hi
    rw [encodeBase_getLsbD]
    by_cases h1 : 11 ≤ i
    · simp [h1, show i - 11 < 21 by omega, show 11 + (i - 11) = i by omega]
    · have := congrArg (fun v => v.getLsbD i) h0
      simp only [BitVec.getLsbD_extractLsb', show i < 11 by omega, decide_true, Bool.true_and, Nat.zero_add] at this
      simp [h1, this]

theorem encodeDataFormat_of_decode {v : BitVec 3} {d : DataFormat} (h : decodeDataFormat v = .ok d) :
    encodeDataFormat d = v := by
  have all : ∀ v : BitVec 3, ∀ d ∈ [DataFormat.uint16x1, .uint8x4, .float32x1, .float32x2, .float32x4],
      decodeDataFormat v = .ok d → encodeDataFormat d = v := by decide
  exact all v d (by cases d <;> simp) h

/-- Only the word of a format is decoded as a format. -/
theorem encodeFormat_of_decodeFormat {w : Word} {f : FormatParam} (h : decodeFormat w = .ok f) : encodeFormat f = w := by
  simp only [decodeFormat] at h
  split at h
  · cases h
  · rename_i h0
    simp only [not_or, ne_eq, not_not] at h0
    obtain ⟨z0, z1, z2, z3⟩ := h0
    split at h
    · rename_i d hd
      simp only [Except.ok.injEq] at h
      subst h
      have hd := encodeDataFormat_of_decode hd
      have bit : ∀ (lo n : Nat), w.extractLsb' lo n = 0 → ∀ i, lo ≤ i → i < lo + n → w.getLsbD i = false := by
        intro lo n hz i h1 h2
        have := congrArg (fun v => v.getLsbD (i - lo)) hz
        simpa [BitVec.getLsbD_extractLsb', show i - lo < n by omega, show lo + (i - lo) = i by omega] using this
      apply BitVec.eq_of_getLsbD_eq
      intro i hi
      rw [encodeFormat_getLsbD]
      simp only [hd, BitVec.getLsbD_extractLsb']
      split
      · exact (bit 0 2 z0 i (by omega) (by omega)).symm
      split
      · simp [show i - 2 < 11 by omega, show 2 + (i - 2) = i by omega]
      split
      · exact (bit 13 3 z1 i (by omega) (by omega)).symm
      split
      · simp [show i - 16 < 2 by omega, show 16 + (i - 16) = i by omega]
      split
      · exact (bit 18 6 z2 i (by omega) (by omega)).symm
      · by_cases h27 : i < 27
        · simp [show i - 24 < 3 by omega, show 24 + (i - 24) = i by omega]
        · rw [bit 27 5 z3 i (by omega) (by omega)]
          simp [show ¬ i - 24 < 3 by omega]
    · cases h

/-- A condition read back from its word. -/
theorem decodeCondition_encodeCondition (c : Condition) : decodeCondition (encodeCondition c) = .ok c := by
  cases c <;> decide

/-- Only the word of a condition is decoded as a condition. -/
theorem encodeCondition_of_decodeCondition {w : Word} {c : Condition} (h : decodeCondition w = .ok c) :
    encodeCondition c = w := by
  simp only [decodeCondition] at h
  split at h
  · cases h
  · rename_i h0
    simp only [ne_eq, not_not] at h0
    have hw : w.toNat = (w.extractLsb' 0 3).toNat := by
      have := congrArg BitVec.toNat h0
      simp only [BitVec.extractLsb'_toNat, Nat.shiftRight_eq_div_pow] at this ⊢
      have hlt := w.isLt
      change w.toNat / 2 ^ 3 % 2 ^ 29 = 0 at this
      omega
    split at h
    · rename_i hv
      simp only [Except.ok.injEq] at h
      subst h
      exact (BitVec.eq_of_toNat_eq (by rw [hw, hv]; rfl)).symm
    · rename_i hv
      simp only [Except.ok.injEq] at h
      subst h
      exact (BitVec.eq_of_toNat_eq (by rw [hw, hv]; rfl)).symm
    · cases h

end Sys2Proof
end

