-- ==== Sys2Proof/Laws/Memory.lean ====
section
/-! SUPPORT. Keyed lists and memory: read after write, and the canonical form that every operation keeps. -/

namespace Sys2Proof.Machine

/-! ## Keyed lists -/

theorem assocGet_assocSet {α : Type} (l : List (Nat × α)) (k j : Nat) (v : α) :
    assocGet (assocSet l k v) j = if k = j then some v else assocGet l j := by
  induction l with
  | nil => simp [assocSet, assocGet]
  | cons e t ih =>
    obtain ⟨i, u⟩ := e
    simp only [assocSet]
    split
    · rename_i hki
      by_cases hkj : k = j
      · simp [assocGet, hkj]
      · simp [assocGet, hkj]
    · split
      · rename_i hki
        subst hki
        by_cases hkj : k = j
        · simp [assocGet, hkj]
        · simp [assocGet, hkj]
      · rename_i hlt hne
        simp only [assocGet, ih]
        by_cases hij : i = j
        · have : k ≠ j := by omega
          simp [hij, this]
        · simp [hij]

theorem mem_assocSet {α : Type} {l : List (Nat × α)} {k : Nat} {v : α} {e : Nat × α} (h : e ∈ assocSet l k v) :
    e = (k, v) ∨ e ∈ l := by
  induction l with
  | nil => simpa [assocSet] using h
  | cons d t ih =>
    obtain ⟨i, u⟩ := d
    simp only [assocSet] at h
    split at h
    · simpa using h
    · split at h
      · simp only [List.mem_cons] at h ⊢; tauto
      · simp only [List.mem_cons] at h ⊢
        rcases h with h | h
        · exact .inr (.inl h)
        · rcases ih h with h | h
          · exact .inl h
          · exact .inr (.inr h)

theorem rising_assocSet {α : Type} {l : List (Nat × α)} (k : Nat) (v : α) (h : Rising l) : Rising (assocSet l k v) := by
  induction l with
  | nil => simp [assocSet, Rising]
  | cons d t ih =>
    obtain ⟨i, u⟩ := d
    have ht : Rising t := by simp [Rising] at h ⊢; exact h.2
    have hi : ∀ e ∈ t, i < e.1 := by simp [Rising] at h; intro e he; exact h.1 _ e.2 (by simpa using he)
    simp only [assocSet]
    split
    · rename_i hki
      simp only [Rising, List.map_cons, List.pairwise_cons, List.mem_cons, List.mem_map] at h ⊢
      refine ⟨?_, h⟩
      rintro a (rfl | ⟨e, he, rfl⟩)
      · exact hki
      · exact Nat.lt_trans hki (hi e he)
    · split
      · rename_i hki
        subst hki
        simpa [Rising] using h
      · rename_i hlt hne
        simp only [Rising, List.map_cons, List.pairwise_cons, List.mem_map]
        refine ⟨?_, ih ht⟩
        rintro a ⟨e, he, rfl⟩
        rcases mem_assocSet he with rfl | he
        · simp only; omega
        · exact hi e he

theorem assocGet_mem {α : Type} {l : List (Nat × α)} {k : Nat} {v : α} (h : assocGet l k = some v) : (k, v) ∈ l := by
  induction l with
  | nil => simp [assocGet] at h
  | cons d t ih =>
    obtain ⟨i, u⟩ := d
    simp only [assocGet] at h
    split at h
    · rename_i hik
      simp at h
      simp [hik, h]
    · exact List.mem_cons_of_mem _ (ih h)

/-! ## Memory -/

@[simp] theorem Memory.read_nil (a : Nat) : Memory.read [] a = none := rfl

@[simp] theorem Memory.wf_nil : Memory.wf [] := by simp [Memory.wf, Rising]

theorem Memory.read_write (m : List Host.Cell) (a b : Nat) (v : Byte) :
    Memory.read (Memory.write m a v) b = if a = b then some v else Memory.read m b :=
  assocGet_assocSet m a b v

theorem Memory.rising_write {m : List Host.Cell} (a : Nat) (v : Byte) (h : Rising m) : Rising (Memory.write m a v) :=
  rising_assocSet a v h

theorem Memory.wf_write {m : List Host.Cell} {a : Nat} (v : Byte) (h : Memory.wf m) (ha : a < 2 ^ 32) :
    Memory.wf (Memory.write m a v) := by
  refine ⟨rising_assocSet a v h.1, fun c hc => ?_⟩
  rcases mem_assocSet hc with rfl | hc
  · exact ha
  · exact h.2 c hc

theorem Memory.wf_writeAll {m cs : List Host.Cell} (h : Memory.wf m) (hc : ∀ c ∈ cs, c.1 < 2 ^ 32) :
    Memory.wf (Memory.writeAll m cs) := by
  induction cs generalizing m with
  | nil => exact h
  | cons c cs ih =>
    exact ih (Memory.wf_write c.2 h (hc c (by simp))) fun d hd => hc d (by simp [hd])

theorem Memory.writeAll_append (m cs ds : List Host.Cell) :
    Memory.writeAll m (cs ++ ds) = Memory.writeAll (Memory.writeAll m cs) ds := by
  induction cs generalizing m with
  | nil => rfl
  | cons c cs ih => exact ih _

/-- A write leaves every address outside its cells alone. -/
theorem Memory.read_writeAll_of_not_mem {m cs : List Host.Cell} {a : Nat} (ha : ∀ c ∈ cs, c.1 ≠ a) :
    Memory.read (Memory.writeAll m cs) a = Memory.read m a := by
  induction cs generalizing m with
  | nil => rfl
  | cons c cs ih =>
    rw [Memory.writeAll, ih fun d hd => ha d (by simp [hd])]
    simp [Memory.read_write, ha c (by simp)]

theorem Memory.rising_writeAll {m : List Host.Cell} (cs : List Host.Cell) (h : Rising m) : Rising (Memory.writeAll m cs) := by
  induction cs generalizing m with
  | nil => exact h
  | cons c cs ih => exact ih (rising_assocSet _ _ h)

/-- The last cell written at an address is what it reads as. -/
theorem Memory.read_writeAll_append {m cs : List Host.Cell} {a : Nat} {v : Byte} (ds : List Host.Cell)
    (hd : ∀ c ∈ ds, c.1 ≠ a) : Memory.read (Memory.writeAll m (cs ++ (a, v) :: ds)) a = some v := by
  induction cs generalizing m with
  | nil =>
    rw [List.nil_append, Memory.writeAll, Memory.read_writeAll_of_not_mem hd]
    simp [Memory.read_write]
  | cons c cs ih => exact ih

theorem cellAddr_lt (base : Word) (off : Nat) : cellAddr base off < 2 ^ 32 := (base + BitVec.ofNat 32 off).isLt

theorem cellsFrom_lt {base : Word} {off : Nat} {bs : List Byte} {c : Host.Cell} (h : c ∈ cellsFrom base off bs) :
    c.1 < 2 ^ 32 := by
  simp only [cellsFrom, List.mem_map] at h
  obtain ⟨d, -, rfl⟩ := h
  exact cellAddr_lt _ _

/-- What memory holds after cells are written: at each address the last byte that was written there, or what it held. -/
theorem Memory.read_writeAll (m cs : List Host.Cell) (a : Nat) :
    Memory.read (Memory.writeAll m cs) a = (cs.reverse.find? fun c => c.1 == a).elim (Memory.read m a) fun c => some c.2 := by
  induction cs generalizing m with
  | nil => rfl
  | cons c cs ih =>
    rw [Memory.writeAll, ih, List.reverse_cons, List.find?_append]
    cases hf : cs.reverse.find? fun c => c.1 == a with
    | some d => rfl
    | none => by_cases h : c.1 = a <;> simp [Memory.read_write, h]

/-- The cells from an offset on, by the places of their bytes. -/
theorem cellsFrom_eq (base : Word) (off : Nat) (bs : List Byte) :
    cellsFrom base off bs = (List.range bs.length).map fun j => (cellAddr base (off + j), bs.getD j 0) := by
  refine List.ext_getElem? fun j => ?_
  simp only [cellsFrom, List.getElem?_map, List.getElem?_zipIdx]
  by_cases h : j < bs.length
  · simp [List.getElem?_range h, List.getElem?_eq_getElem h]
  · simp [h]

/-- What memory holds after bytes are written from an offset on: at each address the last of them that lies there, or what it
held. -/
theorem Memory.read_writeAll_cellsFrom (m : List Host.Cell) (base : Word) (off : Nat) (bs : List Byte) (a : Nat) :
    Memory.read (Memory.writeAll m (cellsFrom base off bs)) a =
      ((List.range bs.length).reverse.find? fun j => cellAddr base (off + j) == a).elim (Memory.read m a) fun j => bs[j]? := by
  rw [Memory.read_writeAll, cellsFrom_eq, ← List.map_reverse, List.find?_map]
  simp only [Function.comp_def]
  cases hf : (List.range bs.length).reverse.find? fun j => cellAddr base (off + j) == a with
  | none => rfl
  | some j =>
    have hj : j < bs.length := by simpa using List.mem_of_find?_eq_some hf
    simp [List.getElem?_eq_getElem hj]

theorem mem_writeAll {m cs : List Host.Cell} {c : Host.Cell} (h : c ∈ Memory.writeAll m cs) : c ∈ m ∨ c ∈ cs := by
  induction cs generalizing m with
  | nil => exact .inl h
  | cons d cs ih =>
    rcases ih h with h | h
    · rcases mem_assocSet h with rfl | h
      · exact .inr (by simp)
      · exact .inl h
    · exact .inr (by simp [h])

theorem outCells_lt {d : Desc} {xy : IndexPair} {vs : List Masked} {c : Host.Cell} (h : c ∈ outCells d xy vs) :
    c.1 < 2 ^ 32 := by
  rcases mem_writeAll h with h | h
  · simp at h
  · simp only [List.mem_flatMap] at h
    obtain ⟨e, -, he⟩ := h
    exact cellsFrom_lt he

theorem perfCells_lt {addr : Word} {p : Perf} {c : Host.Cell} (h : c ∈ perfCells addr p) : c.1 < 2 ^ 32 :=
  cellsFrom_lt h

/-- Forgetting a word keeps the canonical form, makes its four bytes unlisted, and leaves every other address alone. -/
theorem Memory.wf_forgetWord {m : List Host.Cell} (addr : Nat) (h : Memory.wf m) : Memory.wf (Memory.forgetWord m addr) := by
  refine ⟨?_, fun c hc => h.2 c (List.mem_of_mem_filter hc)⟩
  exact List.Pairwise.sublist (List.Sublist.map _ List.filter_sublist) h.1

theorem assocGet_filter {α : Type} (l : List (Nat × α)) (f : Nat → Bool) (k : Nat) :
    assocGet (l.filter fun e => f e.1) k = if f k then assocGet l k else none := by
  induction l with
  | nil => simp [assocGet]
  | cons e t ih =>
    obtain ⟨i, u⟩ := e
    simp only [List.filter_cons]
    by_cases hik : i = k
    · subst hik
      cases hf : f i <;> simp [assocGet, ih, hf]
    · cases hf : f i <;> simp [assocGet, ih, hik]

theorem Memory.read_forgetWord (m : List Host.Cell) (addr a : Nat) :
    Memory.read (Memory.forgetWord m addr) a = if a < addr ∨ addr + 4 ≤ a then Memory.read m a else none := by
  have := assocGet_filter m (fun x => decide (x < addr ∨ addr + 4 ≤ x)) a
  simpa [Memory.read, Memory.forgetWord] using this

/-- The host's bytes, and a program that the loader places, keep memory's canonical form. -/
theorem State.wf_hostWrite {s : State} {cells : List Host.Cell} (h : Memory.wf s.mem) (hc : ∀ c ∈ cells, c.1 < 2 ^ 32) :
    Memory.wf (s.hostWrite cells).mem :=
  Memory.wf_writeAll h hc

theorem State.wf_loadProgram {s t : State} {f : ObjectFile} {b : BaseParam} (h : Memory.wf s.mem)
    (ht : s.loadProgram f b = .ok t) : Memory.wf t.mem := by
  simp only [State.loadProgram] at ht
  split at ht
  · split at ht
    · cases ht
    · cases ht
      exact State.wf_hostWrite h fun _ hc => cellsFrom_lt hc
  · cases ht
  · cases ht

/-! ## Temporaries -/

/-- A register write reaches the register's masked components and no other register (spec/41_alu_output.md R182). -/
theorem Proc.temp_writeTemp (p : Proc) (run d : Nat) (mask : Mask) (v : Vec4) (e : Nat) :
    (p.writeTemp run d mask v).temp run e = if d = e then Quad.merge mask v (p.temp run d) else p.temp run e := by
  simp only [Proc.temp, Proc.writeTemp, assocGet_assocSet]
  split
  · rename_i hde; subst hde; rfl
  · rfl

theorem Proc.rising_writeTemp {p : Proc} (run d : Nat) (mask : Mask) (v : Vec4) (h : Rising p.temps) :
    Rising (p.writeTemp run d mask v).temps :=
  rising_assocSet _ _ h

end Sys2Proof.Machine
end

