-- ==== Sys2Proof/Laws/State.lean ====
section
/-! SUPPORT. What each state update leaves in each field: one lemma a field, all by unfolding. -/

namespace Sys2Proof.Machine

/-! ### Replacing the stream. -/

@[simp] theorem State.withStream_pe (s : State) (st : Stream) : (s.withStream st).pe = s.pe := rfl
@[simp] theorem State.withStream_ctl (s : State) (st : Stream) : (s.withStream st).ctl = s.ctl := rfl
@[simp] theorem State.withStream_program (s : State) (st : Stream) : (s.withStream st).program = s.program := rfl
@[simp] theorem State.withStream_programAt (s : State) (st : Stream) : (s.withStream st).programAt = s.programAt := rfl
@[simp] theorem State.withStream_int32Refs (s : State) (st : Stream) : (s.withStream st).int32Refs = s.int32Refs := rfl
@[simp] theorem State.withStream_earlyExit (s : State) (st : Stream) : (s.withStream st).earlyExit = s.earlyExit := rfl
@[simp] theorem State.withStream_running (s : State) (st : Stream) : (s.withStream st).running = s.running := rfl
@[simp] theorem State.withStream_waiting (s : State) (st : Stream) : (s.withStream st).waiting = s.waiting := rfl
@[simp] theorem State.withStream_stream (s : State) (st : Stream) : (s.withStream st).stream = st := rfl
@[simp] theorem State.withStream_others (s : State) (st : Stream) : (s.withStream st).others = s.others := rfl
@[simp] theorem State.withStream_runNo (s : State) (st : Stream) : (s.withStream st).runNo = s.runNo := rfl
@[simp] theorem State.withStream_mem (s : State) (st : Stream) : (s.withStream st).mem = s.mem := rfl
@[simp] theorem State.withStream_writes (s : State) (st : Stream) : (s.withStream st).writes = s.writes := rfl
@[simp] theorem State.withStream_reads (s : State) (st : Stream) : (s.withStream st).reads = s.reads := rfl
@[simp] theorem State.withStream_outputs (s : State) (st : Stream) : (s.withStream st).outputs = s.outputs := rfl
@[simp] theorem State.withStream_ended (s : State) (st : Stream) : (s.withStream st).ended = s.ended := rfl
@[simp] theorem State.withStream_condCache (s : State) (st : Stream) : (s.withStream st).condCache = s.condCache := rfl
@[simp] theorem State.withStream_perf (s : State) (st : Stream) : (s.withStream st).perf = s.perf := rfl
@[simp] theorem State.withStream_tick (s : State) (st : Stream) : (s.withStream st).tick = s.tick := rfl

/-! ### Setting control state. -/

@[simp] theorem State.withCtl_pe (s : State) (c : Control) : (s.withCtl c).pe = s.pe := rfl
@[simp] theorem State.withCtl_ctl (s : State) (c : Control) : (s.withCtl c).ctl = c := rfl
@[simp] theorem State.withCtl_program (s : State) (c : Control) : (s.withCtl c).program = s.program := rfl
@[simp] theorem State.withCtl_programAt (s : State) (c : Control) : (s.withCtl c).programAt = s.programAt := rfl
@[simp] theorem State.withCtl_int32Refs (s : State) (c : Control) : (s.withCtl c).int32Refs = s.int32Refs := rfl
@[simp] theorem State.withCtl_earlyExit (s : State) (c : Control) : (s.withCtl c).earlyExit = s.earlyExit := rfl
@[simp] theorem State.withCtl_running (s : State) (c : Control) : (s.withCtl c).running = s.running := rfl
@[simp] theorem State.withCtl_waiting (s : State) (c : Control) : (s.withCtl c).waiting = s.waiting := rfl
@[simp] theorem State.withCtl_stream (s : State) (c : Control) : (s.withCtl c).stream = s.stream := rfl
@[simp] theorem State.withCtl_others (s : State) (c : Control) : (s.withCtl c).others = s.others := rfl
@[simp] theorem State.withCtl_runNo (s : State) (c : Control) : (s.withCtl c).runNo = s.runNo := rfl
@[simp] theorem State.withCtl_mem (s : State) (c : Control) : (s.withCtl c).mem = s.mem := rfl
@[simp] theorem State.withCtl_writes (s : State) (c : Control) : (s.withCtl c).writes = s.writes := rfl
@[simp] theorem State.withCtl_reads (s : State) (c : Control) : (s.withCtl c).reads = s.reads := rfl
@[simp] theorem State.withCtl_outputs (s : State) (c : Control) : (s.withCtl c).outputs = s.outputs := rfl
@[simp] theorem State.withCtl_ended (s : State) (c : Control) : (s.withCtl c).ended = s.ended := rfl
@[simp] theorem State.withCtl_condCache (s : State) (c : Control) : (s.withCtl c).condCache = s.condCache := rfl
@[simp] theorem State.withCtl_perf (s : State) (c : Control) : (s.withCtl c).perf = s.perf := rfl
@[simp] theorem State.withCtl_tick (s : State) (c : Control) : (s.withCtl c).tick = s.tick := rfl

/-! ### Waiting on the semaphore. -/

@[simp] theorem State.syncWrites_pe (s : State) : (s.syncWrites).pe = s.pe := rfl
@[simp] theorem State.syncWrites_ctl (s : State) : (s.syncWrites).ctl = s.ctl := rfl
@[simp] theorem State.syncWrites_program (s : State) : (s.syncWrites).program = s.program := rfl
@[simp] theorem State.syncWrites_programAt (s : State) : (s.syncWrites).programAt = s.programAt := rfl
@[simp] theorem State.syncWrites_int32Refs (s : State) : (s.syncWrites).int32Refs = s.int32Refs := rfl
@[simp] theorem State.syncWrites_earlyExit (s : State) : (s.syncWrites).earlyExit = s.earlyExit := rfl
@[simp] theorem State.syncWrites_running (s : State) : (s.syncWrites).running = s.running := rfl
@[simp] theorem State.syncWrites_waiting (s : State) : (s.syncWrites).waiting = s.waiting := rfl
@[simp] theorem State.syncWrites_stream (s : State) : (s.syncWrites).stream = s.stream := rfl
@[simp] theorem State.syncWrites_others (s : State) : (s.syncWrites).others = s.others := rfl
@[simp] theorem State.syncWrites_runNo (s : State) : (s.syncWrites).runNo = s.runNo := rfl
@[simp] theorem State.syncWrites_mem (s : State) : (s.syncWrites).mem = s.mem := rfl
@[simp] theorem State.syncWrites_writes (s : State) :
    (s.syncWrites).writes = s.writes.map fun w => w.sync s.runNo s.stream := rfl
@[simp] theorem State.syncWrites_reads (s : State) : (s.syncWrites).reads = s.reads := rfl
@[simp] theorem State.syncWrites_outputs (s : State) : (s.syncWrites).outputs = s.outputs := rfl
@[simp] theorem State.syncWrites_ended (s : State) : (s.syncWrites).ended = s.ended := rfl
@[simp] theorem State.syncWrites_condCache (s : State) : (s.syncWrites).condCache = s.condCache := rfl
@[simp] theorem State.syncWrites_perf (s : State) : (s.syncWrites).perf = s.perf := rfl
@[simp] theorem State.syncWrites_tick (s : State) : (s.syncWrites).tick = s.tick := rfl

/-! ### Taking a sequence number. -/

@[simp] theorem State.bumpSeq_pe (s : State) : (s.bumpSeq).pe = s.pe := rfl
@[simp] theorem State.bumpSeq_ctl (s : State) : (s.bumpSeq).ctl = s.ctl := rfl
@[simp] theorem State.bumpSeq_program (s : State) : (s.bumpSeq).program = s.program := rfl
@[simp] theorem State.bumpSeq_programAt (s : State) : (s.bumpSeq).programAt = s.programAt := rfl
@[simp] theorem State.bumpSeq_int32Refs (s : State) : (s.bumpSeq).int32Refs = s.int32Refs := rfl
@[simp] theorem State.bumpSeq_earlyExit (s : State) : (s.bumpSeq).earlyExit = s.earlyExit := rfl
@[simp] theorem State.bumpSeq_running (s : State) : (s.bumpSeq).running = s.running := rfl
@[simp] theorem State.bumpSeq_waiting (s : State) : (s.bumpSeq).waiting = s.waiting := rfl
@[simp] theorem State.bumpSeq_stream (s : State) : (s.bumpSeq).stream = { s.stream with seq := s.stream.seq + 1 } := rfl
@[simp] theorem State.bumpSeq_others (s : State) : (s.bumpSeq).others = s.others := rfl
@[simp] theorem State.bumpSeq_runNo (s : State) : (s.bumpSeq).runNo = s.runNo := rfl
@[simp] theorem State.bumpSeq_mem (s : State) : (s.bumpSeq).mem = s.mem := rfl
@[simp] theorem State.bumpSeq_writes (s : State) : (s.bumpSeq).writes = s.writes := rfl
@[simp] theorem State.bumpSeq_reads (s : State) : (s.bumpSeq).reads = s.reads := rfl
@[simp] theorem State.bumpSeq_outputs (s : State) : (s.bumpSeq).outputs = s.outputs := rfl
@[simp] theorem State.bumpSeq_ended (s : State) : (s.bumpSeq).ended = s.ended := rfl
@[simp] theorem State.bumpSeq_condCache (s : State) : (s.bumpSeq).condCache = s.condCache := rfl
@[simp] theorem State.bumpSeq_perf (s : State) : (s.bumpSeq).perf = s.perf := rfl
@[simp] theorem State.bumpSeq_tick (s : State) : (s.bumpSeq).tick = s.tick := rfl

/-! ### Acquiring and moving on. -/

@[simp] theorem State.finishIssue_pe (s : State) (a : Bool) (k : Nat) : (s.finishIssue a k).pe = s.pe := rfl
@[simp] theorem State.finishIssue_ctl (s : State) (a : Bool) (k : Nat) : (s.finishIssue a k).ctl = s.ctl := rfl
@[simp] theorem State.finishIssue_program (s : State) (a : Bool) (k : Nat) : (s.finishIssue a k).program = s.program := rfl
@[simp] theorem State.finishIssue_programAt (s : State) (a : Bool) (k : Nat) :
    (s.finishIssue a k).programAt = s.programAt := rfl
@[simp] theorem State.finishIssue_int32Refs (s : State) (a : Bool) (k : Nat) :
    (s.finishIssue a k).int32Refs = s.int32Refs := rfl
@[simp] theorem State.finishIssue_earlyExit (s : State) (a : Bool) (k : Nat) :
    (s.finishIssue a k).earlyExit = s.earlyExit := rfl
@[simp] theorem State.finishIssue_running (s : State) (a : Bool) (k : Nat) : (s.finishIssue a k).running = s.running := rfl
@[simp] theorem State.finishIssue_waiting (s : State) (a : Bool) (k : Nat) : (s.finishIssue a k).waiting = s.waiting := rfl
@[simp] theorem State.finishIssue_stream (s : State) (a : Bool) (k : Nat) :
    (s.finishIssue a k).stream = { s.stream with
      sem := if a then .held k else s.stream.sem
      semDue := if a then s.deadline else s.stream.semDue
      pc := s.stream.pc + 1 } := rfl
@[simp] theorem State.finishIssue_others (s : State) (a : Bool) (k : Nat) : (s.finishIssue a k).others = s.others := rfl
@[simp] theorem State.finishIssue_runNo (s : State) (a : Bool) (k : Nat) : (s.finishIssue a k).runNo = s.runNo := rfl
@[simp] theorem State.finishIssue_mem (s : State) (a : Bool) (k : Nat) : (s.finishIssue a k).mem = s.mem := rfl
@[simp] theorem State.finishIssue_writes (s : State) (a : Bool) (k : Nat) : (s.finishIssue a k).writes = s.writes := rfl
@[simp] theorem State.finishIssue_reads (s : State) (a : Bool) (k : Nat) : (s.finishIssue a k).reads = s.reads := rfl
@[simp] theorem State.finishIssue_outputs (s : State) (a : Bool) (k : Nat) : (s.finishIssue a k).outputs = s.outputs := rfl
@[simp] theorem State.finishIssue_ended (s : State) (a : Bool) (k : Nat) : (s.finishIssue a k).ended = s.ended := rfl
@[simp] theorem State.finishIssue_condCache (s : State) (a : Bool) (k : Nat) :
    (s.finishIssue a k).condCache = s.condCache := rfl
@[simp] theorem State.finishIssue_perf (s : State) (a : Bool) (k : Nat) : (s.finishIssue a k).perf = s.perf := rfl
@[simp] theorem State.finishIssue_tick (s : State) (a : Bool) (k : Nat) : (s.finishIssue a k).tick = s.tick := rfl

/-! ### Recording reads. -/

@[simp] theorem State.noteReads_pe (s : State) (rs : List ReadRec) : (s.noteReads rs).pe = s.pe := rfl
@[simp] theorem State.noteReads_ctl (s : State) (rs : List ReadRec) : (s.noteReads rs).ctl = s.ctl := rfl
@[simp] theorem State.noteReads_program (s : State) (rs : List ReadRec) : (s.noteReads rs).program = s.program := rfl
@[simp] theorem State.noteReads_programAt (s : State) (rs : List ReadRec) : (s.noteReads rs).programAt = s.programAt := rfl
@[simp] theorem State.noteReads_int32Refs (s : State) (rs : List ReadRec) : (s.noteReads rs).int32Refs = s.int32Refs := rfl
@[simp] theorem State.noteReads_earlyExit (s : State) (rs : List ReadRec) : (s.noteReads rs).earlyExit = s.earlyExit := rfl
@[simp] theorem State.noteReads_running (s : State) (rs : List ReadRec) : (s.noteReads rs).running = s.running := rfl
@[simp] theorem State.noteReads_waiting (s : State) (rs : List ReadRec) : (s.noteReads rs).waiting = s.waiting := rfl
@[simp] theorem State.noteReads_stream (s : State) (rs : List ReadRec) : (s.noteReads rs).stream = s.stream := rfl
@[simp] theorem State.noteReads_others (s : State) (rs : List ReadRec) : (s.noteReads rs).others = s.others := rfl
@[simp] theorem State.noteReads_runNo (s : State) (rs : List ReadRec) : (s.noteReads rs).runNo = s.runNo := rfl
@[simp] theorem State.noteReads_mem (s : State) (rs : List ReadRec) : (s.noteReads rs).mem = s.mem := rfl
@[simp] theorem State.noteReads_writes (s : State) (rs : List ReadRec) : (s.noteReads rs).writes = s.writes := rfl
@[simp] theorem State.noteReads_reads (s : State) (rs : List ReadRec) : (s.noteReads rs).reads = s.reads ++ rs := rfl
@[simp] theorem State.noteReads_outputs (s : State) (rs : List ReadRec) : (s.noteReads rs).outputs = s.outputs := rfl
@[simp] theorem State.noteReads_ended (s : State) (rs : List ReadRec) : (s.noteReads rs).ended = s.ended := rfl
@[simp] theorem State.noteReads_condCache (s : State) (rs : List ReadRec) : (s.noteReads rs).condCache = s.condCache := rfl
@[simp] theorem State.noteReads_perf (s : State) (rs : List ReadRec) : (s.noteReads rs).perf = s.perf := rfl
@[simp] theorem State.noteReads_tick (s : State) (rs : List ReadRec) : (s.noteReads rs).tick = s.tick := rfl

/-! ### Adding an outstanding operation. -/

@[simp] theorem State.addPending_pe (s : State) (e : Pend) : (s.addPending e).pe = s.pe := rfl
@[simp] theorem State.addPending_ctl (s : State) (e : Pend) : (s.addPending e).ctl = s.ctl := rfl
@[simp] theorem State.addPending_program (s : State) (e : Pend) : (s.addPending e).program = s.program := rfl
@[simp] theorem State.addPending_programAt (s : State) (e : Pend) : (s.addPending e).programAt = s.programAt := rfl
@[simp] theorem State.addPending_int32Refs (s : State) (e : Pend) : (s.addPending e).int32Refs = s.int32Refs := rfl
@[simp] theorem State.addPending_earlyExit (s : State) (e : Pend) : (s.addPending e).earlyExit = s.earlyExit := rfl
@[simp] theorem State.addPending_running (s : State) (e : Pend) : (s.addPending e).running = s.running := rfl
@[simp] theorem State.addPending_waiting (s : State) (e : Pend) : (s.addPending e).waiting = s.waiting := rfl
@[simp] theorem State.addPending_stream (s : State) (e : Pend) :
    (s.addPending e).stream = { s.stream with pending := s.stream.pending ++ [e] } := rfl
@[simp] theorem State.addPending_others (s : State) (e : Pend) : (s.addPending e).others = s.others := rfl
@[simp] theorem State.addPending_runNo (s : State) (e : Pend) : (s.addPending e).runNo = s.runNo := rfl
@[simp] theorem State.addPending_mem (s : State) (e : Pend) : (s.addPending e).mem = s.mem := rfl
@[simp] theorem State.addPending_writes (s : State) (e : Pend) : (s.addPending e).writes = s.writes := rfl
@[simp] theorem State.addPending_reads (s : State) (e : Pend) : (s.addPending e).reads = s.reads := rfl
@[simp] theorem State.addPending_outputs (s : State) (e : Pend) : (s.addPending e).outputs = s.outputs := rfl
@[simp] theorem State.addPending_ended (s : State) (e : Pend) : (s.addPending e).ended = s.ended := rfl
@[simp] theorem State.addPending_condCache (s : State) (e : Pend) : (s.addPending e).condCache = s.condCache := rfl
@[simp] theorem State.addPending_perf (s : State) (e : Pend) : (s.addPending e).perf = s.perf := rfl
@[simp] theorem State.addPending_tick (s : State) (e : Pend) : (s.addPending e).tick = s.tick := rfl

/-! ### An effect on the live processors. -/

@[simp] theorem State.onLive_pe (s : State) (f : Proc → Proc) : (s.onLive f).pe = s.pe := rfl
@[simp] theorem State.onLive_ctl (s : State) (f : Proc → Proc) : (s.onLive f).ctl = s.ctl := rfl
@[simp] theorem State.onLive_program (s : State) (f : Proc → Proc) : (s.onLive f).program = s.program := rfl
@[simp] theorem State.onLive_programAt (s : State) (f : Proc → Proc) : (s.onLive f).programAt = s.programAt := rfl
@[simp] theorem State.onLive_int32Refs (s : State) (f : Proc → Proc) : (s.onLive f).int32Refs = s.int32Refs := rfl
@[simp] theorem State.onLive_earlyExit (s : State) (f : Proc → Proc) : (s.onLive f).earlyExit = s.earlyExit := rfl
@[simp] theorem State.onLive_running (s : State) (f : Proc → Proc) : (s.onLive f).running = s.running := rfl
@[simp] theorem State.onLive_waiting (s : State) (f : Proc → Proc) : (s.onLive f).waiting = s.waiting := rfl
@[simp] theorem State.onLive_stream (s : State) (f : Proc → Proc) :
    (s.onLive f).stream = { s.stream with procs := s.stream.procs.map fun p => if p.live then f p else p } := rfl
@[simp] theorem State.onLive_others (s : State) (f : Proc → Proc) : (s.onLive f).others = s.others := rfl
@[simp] theorem State.onLive_runNo (s : State) (f : Proc → Proc) : (s.onLive f).runNo = s.runNo := rfl
@[simp] theorem State.onLive_mem (s : State) (f : Proc → Proc) : (s.onLive f).mem = s.mem := rfl
@[simp] theorem State.onLive_writes (s : State) (f : Proc → Proc) : (s.onLive f).writes = s.writes := rfl
@[simp] theorem State.onLive_reads (s : State) (f : Proc → Proc) : (s.onLive f).reads = s.reads := rfl
@[simp] theorem State.onLive_outputs (s : State) (f : Proc → Proc) : (s.onLive f).outputs = s.outputs := rfl
@[simp] theorem State.onLive_ended (s : State) (f : Proc → Proc) : (s.onLive f).ended = s.ended := rfl
@[simp] theorem State.onLive_condCache (s : State) (f : Proc → Proc) : (s.onLive f).condCache = s.condCache := rfl
@[simp] theorem State.onLive_perf (s : State) (f : Proc → Proc) : (s.onLive f).perf = s.perf := rfl
@[simp] theorem State.onLive_tick (s : State) (f : Proc → Proc) : (s.onLive f).tick = s.tick := rfl

/-! ### Setting the loop state. -/

@[simp] theorem State.withLoops_pe (s : State) (l : LoopState) : (s.withLoops l).pe = s.pe := rfl
@[simp] theorem State.withLoops_ctl (s : State) (l : LoopState) : (s.withLoops l).ctl = s.ctl := rfl
@[simp] theorem State.withLoops_program (s : State) (l : LoopState) : (s.withLoops l).program = s.program := rfl
@[simp] theorem State.withLoops_programAt (s : State) (l : LoopState) : (s.withLoops l).programAt = s.programAt := rfl
@[simp] theorem State.withLoops_int32Refs (s : State) (l : LoopState) : (s.withLoops l).int32Refs = s.int32Refs := rfl
@[simp] theorem State.withLoops_earlyExit (s : State) (l : LoopState) : (s.withLoops l).earlyExit = s.earlyExit := rfl
@[simp] theorem State.withLoops_running (s : State) (l : LoopState) : (s.withLoops l).running = s.running := rfl
@[simp] theorem State.withLoops_waiting (s : State) (l : LoopState) : (s.withLoops l).waiting = s.waiting := rfl
@[simp] theorem State.withLoops_stream (s : State) (l : LoopState) :
    (s.withLoops l).stream = { s.stream with loops := l } := rfl
@[simp] theorem State.withLoops_others (s : State) (l : LoopState) : (s.withLoops l).others = s.others := rfl
@[simp] theorem State.withLoops_runNo (s : State) (l : LoopState) : (s.withLoops l).runNo = s.runNo := rfl
@[simp] theorem State.withLoops_mem (s : State) (l : LoopState) : (s.withLoops l).mem = s.mem := rfl
@[simp] theorem State.withLoops_writes (s : State) (l : LoopState) : (s.withLoops l).writes = s.writes := rfl
@[simp] theorem State.withLoops_reads (s : State) (l : LoopState) : (s.withLoops l).reads = s.reads := rfl
@[simp] theorem State.withLoops_outputs (s : State) (l : LoopState) : (s.withLoops l).outputs = s.outputs := rfl
@[simp] theorem State.withLoops_ended (s : State) (l : LoopState) : (s.withLoops l).ended = s.ended := rfl
@[simp] theorem State.withLoops_condCache (s : State) (l : LoopState) : (s.withLoops l).condCache = s.condCache := rfl
@[simp] theorem State.withLoops_perf (s : State) (l : LoopState) : (s.withLoops l).perf = s.perf := rfl
@[simp] theorem State.withLoops_tick (s : State) (l : LoopState) : (s.withLoops l).tick = s.tick := rfl

/-! ### A flow-control instruction's branch operation and pc. -/

@[simp] theorem State.branched_pe (s : State) (f : Flow) (b : Bool) : (s.branched f b).pe = s.pe := rfl
@[simp] theorem State.branched_ctl (s : State) (f : Flow) (b : Bool) : (s.branched f b).ctl = s.ctl := rfl
@[simp] theorem State.branched_program (s : State) (f : Flow) (b : Bool) : (s.branched f b).program = s.program := rfl
@[simp] theorem State.branched_programAt (s : State) (f : Flow) (b : Bool) : (s.branched f b).programAt = s.programAt := rfl
@[simp] theorem State.branched_int32Refs (s : State) (f : Flow) (b : Bool) : (s.branched f b).int32Refs = s.int32Refs := rfl
@[simp] theorem State.branched_earlyExit (s : State) (f : Flow) (b : Bool) : (s.branched f b).earlyExit = s.earlyExit := rfl
@[simp] theorem State.branched_running (s : State) (f : Flow) (b : Bool) : (s.branched f b).running = s.running := rfl
@[simp] theorem State.branched_waiting (s : State) (f : Flow) (b : Bool) : (s.branched f b).waiting = s.waiting := rfl
@[simp] theorem State.branched_others (s : State) (f : Flow) (b : Bool) : (s.branched f b).others = s.others := rfl
@[simp] theorem State.branched_runNo (s : State) (f : Flow) (b : Bool) : (s.branched f b).runNo = s.runNo := rfl
@[simp] theorem State.branched_mem (s : State) (f : Flow) (b : Bool) : (s.branched f b).mem = s.mem := rfl
@[simp] theorem State.branched_writes (s : State) (f : Flow) (b : Bool) : (s.branched f b).writes = s.writes := rfl
@[simp] theorem State.branched_reads (s : State) (f : Flow) (b : Bool) : (s.branched f b).reads = s.reads := rfl
@[simp] theorem State.branched_outputs (s : State) (f : Flow) (b : Bool) : (s.branched f b).outputs = s.outputs := rfl
@[simp] theorem State.branched_ended (s : State) (f : Flow) (b : Bool) : (s.branched f b).ended = s.ended := rfl
@[simp] theorem State.branched_condCache (s : State) (f : Flow) (b : Bool) : (s.branched f b).condCache = s.condCache := rfl
@[simp] theorem State.branched_perf (s : State) (f : Flow) (b : Bool) : (s.branched f b).perf = s.perf := rfl
@[simp] theorem State.branched_tick (s : State) (f : Flow) (b : Bool) : (s.branched f b).tick = s.tick := rfl

/-! ### Removing an outstanding operation. -/

@[simp] theorem State.dropPending_pe (s : State) (i : Nat) : (s.dropPending i).pe = s.pe := rfl
@[simp] theorem State.dropPending_ctl (s : State) (i : Nat) : (s.dropPending i).ctl = s.ctl := rfl
@[simp] theorem State.dropPending_program (s : State) (i : Nat) : (s.dropPending i).program = s.program := rfl
@[simp] theorem State.dropPending_programAt (s : State) (i : Nat) : (s.dropPending i).programAt = s.programAt := rfl
@[simp] theorem State.dropPending_int32Refs (s : State) (i : Nat) : (s.dropPending i).int32Refs = s.int32Refs := rfl
@[simp] theorem State.dropPending_earlyExit (s : State) (i : Nat) : (s.dropPending i).earlyExit = s.earlyExit := rfl
@[simp] theorem State.dropPending_running (s : State) (i : Nat) : (s.dropPending i).running = s.running := rfl
@[simp] theorem State.dropPending_waiting (s : State) (i : Nat) : (s.dropPending i).waiting = s.waiting := rfl
@[simp] theorem State.dropPending_stream (s : State) (i : Nat) :
    (s.dropPending i).stream = { s.stream with pending := s.stream.pending.eraseIdx i } := rfl
@[simp] theorem State.dropPending_others (s : State) (i : Nat) : (s.dropPending i).others = s.others := rfl
@[simp] theorem State.dropPending_runNo (s : State) (i : Nat) : (s.dropPending i).runNo = s.runNo := rfl
@[simp] theorem State.dropPending_mem (s : State) (i : Nat) : (s.dropPending i).mem = s.mem := rfl
@[simp] theorem State.dropPending_writes (s : State) (i : Nat) : (s.dropPending i).writes = s.writes := rfl
@[simp] theorem State.dropPending_reads (s : State) (i : Nat) : (s.dropPending i).reads = s.reads := rfl
@[simp] theorem State.dropPending_outputs (s : State) (i : Nat) : (s.dropPending i).outputs = s.outputs := rfl
@[simp] theorem State.dropPending_ended (s : State) (i : Nat) : (s.dropPending i).ended = s.ended := rfl
@[simp] theorem State.dropPending_condCache (s : State) (i : Nat) : (s.dropPending i).condCache = s.condCache := rfl
@[simp] theorem State.dropPending_perf (s : State) (i : Nat) : (s.dropPending i).perf = s.perf := rfl
@[simp] theorem State.dropPending_tick (s : State) (i : Nat) : (s.dropPending i).tick = s.tick := rfl

/-! ### Releasing the semaphore. -/

@[simp] theorem State.release_pe (s : State) : (s.release).pe = s.pe := rfl
@[simp] theorem State.release_ctl (s : State) : (s.release).ctl = s.ctl := rfl
@[simp] theorem State.release_program (s : State) : (s.release).program = s.program := rfl
@[simp] theorem State.release_programAt (s : State) : (s.release).programAt = s.programAt := rfl
@[simp] theorem State.release_int32Refs (s : State) : (s.release).int32Refs = s.int32Refs := rfl
@[simp] theorem State.release_earlyExit (s : State) : (s.release).earlyExit = s.earlyExit := rfl
@[simp] theorem State.release_running (s : State) : (s.release).running = s.running := rfl
@[simp] theorem State.release_waiting (s : State) : (s.release).waiting = s.waiting := rfl
@[simp] theorem State.release_stream (s : State) : (s.release).stream = { s.stream with sem := .free } := rfl
@[simp] theorem State.release_others (s : State) : (s.release).others = s.others := rfl
@[simp] theorem State.release_runNo (s : State) : (s.release).runNo = s.runNo := rfl
@[simp] theorem State.release_mem (s : State) : (s.release).mem = s.mem := rfl
@[simp] theorem State.release_writes (s : State) : (s.release).writes = s.writes := rfl
@[simp] theorem State.release_reads (s : State) : (s.release).reads = s.reads := rfl
@[simp] theorem State.release_outputs (s : State) : (s.release).outputs = s.outputs := rfl
@[simp] theorem State.release_ended (s : State) : (s.release).ended = s.ended := rfl
@[simp] theorem State.release_condCache (s : State) : (s.release).condCache = s.condCache := rfl
@[simp] theorem State.release_perf (s : State) : (s.release).perf = s.perf := rfl
@[simp] theorem State.release_tick (s : State) : (s.release).tick = s.tick := rfl

/-! ### Closing an OUTPUT. -/

@[simp] theorem State.closeOutput_pe (s : State) (o : OutputFields) (k : Nat) (ls : List Lane) :
    (s.closeOutput o k ls).pe = s.pe := rfl
@[simp] theorem State.closeOutput_ctl (s : State) (o : OutputFields) (k : Nat) (ls : List Lane) :
    (s.closeOutput o k ls).ctl = s.ctl := rfl
@[simp] theorem State.closeOutput_program (s : State) (o : OutputFields) (k : Nat) (ls : List Lane) :
    (s.closeOutput o k ls).program = s.program := rfl
@[simp] theorem State.closeOutput_programAt (s : State) (o : OutputFields) (k : Nat) (ls : List Lane) :
    (s.closeOutput o k ls).programAt = s.programAt := rfl
@[simp] theorem State.closeOutput_int32Refs (s : State) (o : OutputFields) (k : Nat) (ls : List Lane) :
    (s.closeOutput o k ls).int32Refs = s.int32Refs := rfl
@[simp] theorem State.closeOutput_earlyExit (s : State) (o : OutputFields) (k : Nat) (ls : List Lane) :
    (s.closeOutput o k ls).earlyExit = s.earlyExit := rfl
@[simp] theorem State.closeOutput_running (s : State) (o : OutputFields) (k : Nat) (ls : List Lane) :
    (s.closeOutput o k ls).running = s.running := rfl
@[simp] theorem State.closeOutput_waiting (s : State) (o : OutputFields) (k : Nat) (ls : List Lane) :
    (s.closeOutput o k ls).waiting = s.waiting := rfl
@[simp] theorem State.closeOutput_others (s : State) (o : OutputFields) (k : Nat) (ls : List Lane) :
    (s.closeOutput o k ls).others = s.others := rfl
@[simp] theorem State.closeOutput_runNo (s : State) (o : OutputFields) (k : Nat) (ls : List Lane) :
    (s.closeOutput o k ls).runNo = s.runNo := rfl
@[simp] theorem State.closeOutput_mem (s : State) (o : OutputFields) (k : Nat) (ls : List Lane) :
    (s.closeOutput o k ls).mem = s.mem := rfl
@[simp] theorem State.closeOutput_writes (s : State) (o : OutputFields) (k : Nat) (ls : List Lane) :
    (s.closeOutput o k ls).writes = s.writes := rfl
@[simp] theorem State.closeOutput_reads (s : State) (o : OutputFields) (k : Nat) (ls : List Lane) :
    (s.closeOutput o k ls).reads = s.reads := rfl
@[simp] theorem State.closeOutput_outputs (s : State) (o : OutputFields) (k : Nat) (ls : List Lane) :
    (s.closeOutput o k ls).outputs = s.outputs := rfl
@[simp] theorem State.closeOutput_ended (s : State) (o : OutputFields) (k : Nat) (ls : List Lane) :
    (s.closeOutput o k ls).ended = s.ended := rfl
@[simp] theorem State.closeOutput_condCache (s : State) (o : OutputFields) (k : Nat) (ls : List Lane) :
    (s.closeOutput o k ls).condCache = s.condCache := rfl
@[simp] theorem State.closeOutput_perf (s : State) (o : OutputFields) (k : Nat) (ls : List Lane) :
    (s.closeOutput o k ls).perf = s.perf := rfl
@[simp] theorem State.closeOutput_tick (s : State) (o : OutputFields) (k : Nat) (ls : List Lane) :
    (s.closeOutput o k ls).tick = s.tick := rfl

/-! ### Moving the PE on. -/

@[simp] theorem State.advancePe_pe (s : State) (n : Nat) : (s.advancePe n).pe = { s.pe with ptr := s.pe.ptr + 4 * n } := rfl
@[simp] theorem State.advancePe_ctl (s : State) (n : Nat) : (s.advancePe n).ctl = s.ctl := rfl
@[simp] theorem State.advancePe_program (s : State) (n : Nat) : (s.advancePe n).program = s.program := rfl
@[simp] theorem State.advancePe_programAt (s : State) (n : Nat) : (s.advancePe n).programAt = s.programAt := rfl
@[simp] theorem State.advancePe_int32Refs (s : State) (n : Nat) : (s.advancePe n).int32Refs = s.int32Refs := rfl
@[simp] theorem State.advancePe_earlyExit (s : State) (n : Nat) : (s.advancePe n).earlyExit = s.earlyExit := rfl
@[simp] theorem State.advancePe_running (s : State) (n : Nat) : (s.advancePe n).running = s.running := rfl
@[simp] theorem State.advancePe_waiting (s : State) (n : Nat) : (s.advancePe n).waiting = s.waiting := rfl
@[simp] theorem State.advancePe_stream (s : State) (n : Nat) : (s.advancePe n).stream = s.stream := rfl
@[simp] theorem State.advancePe_others (s : State) (n : Nat) : (s.advancePe n).others = s.others := rfl
@[simp] theorem State.advancePe_runNo (s : State) (n : Nat) : (s.advancePe n).runNo = s.runNo := rfl
@[simp] theorem State.advancePe_mem (s : State) (n : Nat) : (s.advancePe n).mem = s.mem := rfl
@[simp] theorem State.advancePe_writes (s : State) (n : Nat) : (s.advancePe n).writes = s.writes := rfl
@[simp] theorem State.advancePe_reads (s : State) (n : Nat) : (s.advancePe n).reads = s.reads := rfl
@[simp] theorem State.advancePe_outputs (s : State) (n : Nat) : (s.advancePe n).outputs = s.outputs := rfl
@[simp] theorem State.advancePe_ended (s : State) (n : Nat) : (s.advancePe n).ended = s.ended := rfl
@[simp] theorem State.advancePe_condCache (s : State) (n : Nat) : (s.advancePe n).condCache = s.condCache := rfl
@[simp] theorem State.advancePe_perf (s : State) (n : Nat) : (s.advancePe n).perf = s.perf := rfl
@[simp] theorem State.advancePe_tick (s : State) (n : Nat) : (s.advancePe n).tick = s.tick := rfl

/-! ### The PE ends a buffer. -/

@[simp] theorem State.consumeBuffer_pe (s : State) (id : Word) :
    (s.consumeBuffer id).pe = { s.pe with current := none, consumed := s.pe.consumed ++ [id] } := rfl
@[simp] theorem State.consumeBuffer_ctl (s : State) (id : Word) : (s.consumeBuffer id).ctl = s.ctl := rfl
@[simp] theorem State.consumeBuffer_program (s : State) (id : Word) : (s.consumeBuffer id).program = s.program := rfl
@[simp] theorem State.consumeBuffer_programAt (s : State) (id : Word) : (s.consumeBuffer id).programAt = s.programAt := rfl
@[simp] theorem State.consumeBuffer_int32Refs (s : State) (id : Word) : (s.consumeBuffer id).int32Refs = s.int32Refs := rfl
@[simp] theorem State.consumeBuffer_earlyExit (s : State) (id : Word) : (s.consumeBuffer id).earlyExit = s.earlyExit := rfl
@[simp] theorem State.consumeBuffer_running (s : State) (id : Word) : (s.consumeBuffer id).running = s.running := rfl
@[simp] theorem State.consumeBuffer_waiting (s : State) (id : Word) : (s.consumeBuffer id).waiting = s.waiting := rfl
@[simp] theorem State.consumeBuffer_stream (s : State) (id : Word) : (s.consumeBuffer id).stream = s.stream := rfl
@[simp] theorem State.consumeBuffer_others (s : State) (id : Word) : (s.consumeBuffer id).others = s.others := rfl
@[simp] theorem State.consumeBuffer_runNo (s : State) (id : Word) : (s.consumeBuffer id).runNo = s.runNo := rfl
@[simp] theorem State.consumeBuffer_mem (s : State) (id : Word) : (s.consumeBuffer id).mem = s.mem := rfl
@[simp] theorem State.consumeBuffer_writes (s : State) (id : Word) : (s.consumeBuffer id).writes = s.writes := rfl
@[simp] theorem State.consumeBuffer_reads (s : State) (id : Word) : (s.consumeBuffer id).reads = s.reads := rfl
@[simp] theorem State.consumeBuffer_outputs (s : State) (id : Word) : (s.consumeBuffer id).outputs = s.outputs := rfl
@[simp] theorem State.consumeBuffer_ended (s : State) (id : Word) : (s.consumeBuffer id).ended = s.ended := rfl
@[simp] theorem State.consumeBuffer_condCache (s : State) (id : Word) : (s.consumeBuffer id).condCache = s.condCache := rfl
@[simp] theorem State.consumeBuffer_perf (s : State) (id : Word) : (s.consumeBuffer id).perf = s.perf := rfl
@[simp] theorem State.consumeBuffer_tick (s : State) (id : Word) : (s.consumeBuffer id).tick = s.tick := rfl

/-! ### What every step adds. -/

@[simp] theorem State.endStep_pe (s : State) : (s.endStep).pe = s.pe := rfl
@[simp] theorem State.endStep_ctl (s : State) : (s.endStep).ctl = s.ctl := rfl
@[simp] theorem State.endStep_program (s : State) : (s.endStep).program = s.program := rfl
@[simp] theorem State.endStep_programAt (s : State) : (s.endStep).programAt = s.programAt := rfl
@[simp] theorem State.endStep_int32Refs (s : State) : (s.endStep).int32Refs = s.int32Refs := rfl
@[simp] theorem State.endStep_earlyExit (s : State) : (s.endStep).earlyExit = s.earlyExit := rfl
@[simp] theorem State.endStep_running (s : State) : (s.endStep).running = s.running := rfl
@[simp] theorem State.endStep_waiting (s : State) : (s.endStep).waiting = s.waiting := rfl
@[simp] theorem State.endStep_stream (s : State) : (s.endStep).stream = s.stream := rfl
@[simp] theorem State.endStep_others (s : State) : (s.endStep).others = s.others := rfl
@[simp] theorem State.endStep_runNo (s : State) : (s.endStep).runNo = s.runNo := rfl
@[simp] theorem State.endStep_mem (s : State) : (s.endStep).mem = s.mem := rfl
@[simp] theorem State.endStep_writes (s : State) : (s.endStep).writes = s.writes := rfl
@[simp] theorem State.endStep_reads (s : State) : (s.endStep).reads = s.reads := rfl
@[simp] theorem State.endStep_outputs (s : State) : (s.endStep).outputs = s.outputs := rfl
@[simp] theorem State.endStep_ended (s : State) : (s.endStep).ended = s.ended := rfl
@[simp] theorem State.endStep_condCache (s : State) : (s.endStep).condCache = s.condCache := rfl
@[simp] theorem State.endStep_perf (s : State) : (s.endStep).perf = s.perf.step s.tick := rfl
@[simp] theorem State.endStep_tick (s : State) : (s.endStep).tick = s.tick + 1 := rfl

/-! ### The end of a stream. -/

@[simp] theorem State.retire_pe (s : State) : (s.retire).pe = s.pe := rfl
@[simp] theorem State.retire_ctl (s : State) : (s.retire).ctl = s.ctl := rfl
@[simp] theorem State.retire_program (s : State) : (s.retire).program = s.program := rfl
@[simp] theorem State.retire_programAt (s : State) : (s.retire).programAt = s.programAt := rfl
@[simp] theorem State.retire_int32Refs (s : State) : (s.retire).int32Refs = s.int32Refs := rfl
@[simp] theorem State.retire_earlyExit (s : State) : (s.retire).earlyExit = s.earlyExit := rfl
@[simp] theorem State.retire_running (s : State) : (s.retire).running = !s.others.isEmpty := rfl
@[simp] theorem State.retire_waiting (s : State) : (s.retire).waiting = s.waiting := rfl
@[simp] theorem State.retire_stream (s : State) : (s.retire).stream = s.others.headD s.stream := rfl
@[simp] theorem State.retire_others (s : State) : (s.retire).others = s.others.tail := rfl
@[simp] theorem State.retire_runNo (s : State) : (s.retire).runNo = s.runNo := rfl
@[simp] theorem State.retire_mem (s : State) : (s.retire).mem = s.mem := rfl
@[simp] theorem State.retire_writes (s : State) : (s.retire).writes = s.writes.map fun w => w.after s.runNo s.stream := rfl
@[simp] theorem State.retire_reads (s : State) : (s.retire).reads = s.reads := rfl
@[simp] theorem State.retire_outputs (s : State) : (s.retire).outputs = s.outputs := rfl
@[simp] theorem State.retire_ended (s : State) :
    (s.retire).ended = s.ended ++ s.stream.procs.map fun p => (p.xy, endKind p) := rfl
@[simp] theorem State.retire_condCache (s : State) : (s.retire).condCache = s.condCache := rfl
@[simp] theorem State.retire_perf (s : State) : (s.retire).perf = s.perf := rfl
@[simp] theorem State.retire_tick (s : State) : (s.retire).tick = s.tick := rfl

/-! ### Launching a group. -/

@[simp] theorem State.launchGroup_pe (s : State) : (s.launchGroup).pe = s.pe := rfl
@[simp] theorem State.launchGroup_ctl (s : State) : (s.launchGroup).ctl = s.ctl := rfl
@[simp] theorem State.launchGroup_program (s : State) : (s.launchGroup).program = s.program := rfl
@[simp] theorem State.launchGroup_programAt (s : State) : (s.launchGroup).programAt = s.programAt := rfl
@[simp] theorem State.launchGroup_int32Refs (s : State) : (s.launchGroup).int32Refs = s.int32Refs := rfl
@[simp] theorem State.launchGroup_earlyExit (s : State) : (s.launchGroup).earlyExit = s.earlyExit := rfl
@[simp] theorem State.launchGroup_running (s : State) : (s.launchGroup).running = true := rfl
@[simp] theorem State.launchGroup_waiting (s : State) :
    (s.launchGroup).waiting = (drawGroup s.tick Config.group s.waiting).2 := rfl
@[simp] theorem State.launchGroup_stream (s : State) :
    (s.launchGroup).stream = s.launchStream (drawGroup s.tick Config.group s.waiting).1 := rfl
@[simp] theorem State.launchGroup_others (s : State) : (s.launchGroup).others = if s.running then s.streams else [] := rfl
@[simp] theorem State.launchGroup_runNo (s : State) : (s.launchGroup).runNo = s.runNo := rfl
@[simp] theorem State.launchGroup_mem (s : State) : (s.launchGroup).mem = s.mem := rfl
@[simp] theorem State.launchGroup_writes (s : State) : (s.launchGroup).writes = s.writes := rfl
@[simp] theorem State.launchGroup_reads (s : State) : (s.launchGroup).reads = s.reads := rfl
@[simp] theorem State.launchGroup_outputs (s : State) : (s.launchGroup).outputs = s.outputs := rfl
@[simp] theorem State.launchGroup_ended (s : State) : (s.launchGroup).ended = s.ended := rfl
@[simp] theorem State.launchGroup_condCache (s : State) : (s.launchGroup).condCache = s.condCache := rfl
@[simp] theorem State.launchGroup_perf (s : State) : (s.launchGroup).perf = s.perf := rfl
@[simp] theorem State.launchGroup_tick (s : State) : (s.launchGroup).tick = s.tick := rfl

/-! ### Starting a program. -/

@[simp] theorem State.startProgram_pe (s : State) : (s.startProgram).pe = s.pe := rfl
@[simp] theorem State.startProgram_ctl (s : State) : (s.startProgram).ctl = { s.ctl with pipeFlushed := false } := rfl
@[simp] theorem State.startProgram_program (s : State) : (s.startProgram).program = s.program := rfl
@[simp] theorem State.startProgram_programAt (s : State) : (s.startProgram).programAt = s.programAt := rfl
@[simp] theorem State.startProgram_int32Refs (s : State) : (s.startProgram).int32Refs = s.int32Refs := rfl
@[simp] theorem State.startProgram_earlyExit (s : State) : (s.startProgram).earlyExit = s.earlyExit := rfl
@[simp] theorem State.startProgram_running (s : State) : (s.startProgram).running = s.running := rfl
@[simp] theorem State.startProgram_waiting (s : State) : (s.startProgram).waiting = s.ctl.domain.dedup := rfl
@[simp] theorem State.startProgram_stream (s : State) : (s.startProgram).stream = s.stream := rfl
@[simp] theorem State.startProgram_others (s : State) : (s.startProgram).others = s.others := rfl
@[simp] theorem State.startProgram_runNo (s : State) : (s.startProgram).runNo = s.runNo + 1 := rfl
@[simp] theorem State.startProgram_mem (s : State) : (s.startProgram).mem = s.mem := rfl
@[simp] theorem State.startProgram_writes (s : State) : (s.startProgram).writes = s.writesKept := rfl
@[simp] theorem State.startProgram_reads (s : State) : (s.startProgram).reads = [] := rfl
@[simp] theorem State.startProgram_outputs (s : State) : (s.startProgram).outputs = s.outputs := rfl
@[simp] theorem State.startProgram_ended (s : State) : (s.startProgram).ended = s.ended := rfl
@[simp] theorem State.startProgram_condCache (s : State) : (s.startProgram).condCache = s.condCache := rfl
@[simp] theorem State.startProgram_perf (s : State) : (s.startProgram).perf = s.perf := rfl
@[simp] theorem State.startProgram_tick (s : State) : (s.startProgram).tick = s.tick := rfl

/-! ### Filling the conditional output cache. -/

@[simp] theorem State.condFill_pe (s : State) (base : Word) (xy : IndexPair) (b : Word) :
    (s.condFill base xy b).pe = s.pe := rfl
@[simp] theorem State.condFill_ctl (s : State) (base : Word) (xy : IndexPair) (b : Word) :
    (s.condFill base xy b).ctl = s.ctl := rfl
@[simp] theorem State.condFill_program (s : State) (base : Word) (xy : IndexPair) (b : Word) :
    (s.condFill base xy b).program = s.program := rfl
@[simp] theorem State.condFill_programAt (s : State) (base : Word) (xy : IndexPair) (b : Word) :
    (s.condFill base xy b).programAt = s.programAt := rfl
@[simp] theorem State.condFill_int32Refs (s : State) (base : Word) (xy : IndexPair) (b : Word) :
    (s.condFill base xy b).int32Refs = s.int32Refs := rfl
@[simp] theorem State.condFill_earlyExit (s : State) (base : Word) (xy : IndexPair) (b : Word) :
    (s.condFill base xy b).earlyExit = s.earlyExit := rfl
@[simp] theorem State.condFill_running (s : State) (base : Word) (xy : IndexPair) (b : Word) :
    (s.condFill base xy b).running = s.running := rfl
@[simp] theorem State.condFill_waiting (s : State) (base : Word) (xy : IndexPair) (b : Word) :
    (s.condFill base xy b).waiting = s.waiting := rfl
@[simp] theorem State.condFill_stream (s : State) (base : Word) (xy : IndexPair) (b : Word) :
    (s.condFill base xy b).stream = s.stream := rfl
@[simp] theorem State.condFill_others (s : State) (base : Word) (xy : IndexPair) (b : Word) :
    (s.condFill base xy b).others = s.others := rfl
@[simp] theorem State.condFill_runNo (s : State) (base : Word) (xy : IndexPair) (b : Word) :
    (s.condFill base xy b).runNo = s.runNo := rfl
@[simp] theorem State.condFill_mem (s : State) (base : Word) (xy : IndexPair) (b : Word) :
    (s.condFill base xy b).mem = s.mem := rfl
@[simp] theorem State.condFill_writes (s : State) (base : Word) (xy : IndexPair) (b : Word) :
    (s.condFill base xy b).writes = s.writes := rfl
@[simp] theorem State.condFill_reads (s : State) (base : Word) (xy : IndexPair) (b : Word) :
    (s.condFill base xy b).reads = s.reads := rfl
@[simp] theorem State.condFill_outputs (s : State) (base : Word) (xy : IndexPair) (b : Word) :
    (s.condFill base xy b).outputs = s.outputs := rfl
@[simp] theorem State.condFill_ended (s : State) (base : Word) (xy : IndexPair) (b : Word) :
    (s.condFill base xy b).ended = s.ended := rfl
@[simp] theorem State.condFill_perf (s : State) (base : Word) (xy : IndexPair) (b : Word) :
    (s.condFill base xy b).perf = s.perf := rfl
@[simp] theorem State.condFill_tick (s : State) (base : Word) (xy : IndexPair) (b : Word) :
    (s.condFill base xy b).tick = s.tick := rfl

/-! ### Recording an output. -/

@[simp] theorem State.recordOutput_pe (s : State) (o : OutputFields) (xy : IndexPair) (vs : List Masked) (b : Bool) (cs : List Host.Cell) :
    (s.recordOutput o xy vs b cs).pe = s.pe := rfl
@[simp] theorem State.recordOutput_ctl (s : State) (o : OutputFields) (xy : IndexPair) (vs : List Masked) (b : Bool) (cs : List Host.Cell) :
    (s.recordOutput o xy vs b cs).ctl = s.ctl := rfl
@[simp] theorem State.recordOutput_program (s : State) (o : OutputFields) (xy : IndexPair) (vs : List Masked) (b : Bool) (cs : List Host.Cell) :
    (s.recordOutput o xy vs b cs).program = s.program := rfl
@[simp] theorem State.recordOutput_programAt (s : State) (o : OutputFields) (xy : IndexPair) (vs : List Masked) (b : Bool) (cs : List Host.Cell) :
    (s.recordOutput o xy vs b cs).programAt = s.programAt := rfl
@[simp] theorem State.recordOutput_int32Refs (s : State) (o : OutputFields) (xy : IndexPair) (vs : List Masked) (b : Bool) (cs : List Host.Cell) :
    (s.recordOutput o xy vs b cs).int32Refs = s.int32Refs := rfl
@[simp] theorem State.recordOutput_earlyExit (s : State) (o : OutputFields) (xy : IndexPair) (vs : List Masked) (b : Bool) (cs : List Host.Cell) :
    (s.recordOutput o xy vs b cs).earlyExit = s.earlyExit := rfl
@[simp] theorem State.recordOutput_running (s : State) (o : OutputFields) (xy : IndexPair) (vs : List Masked) (b : Bool) (cs : List Host.Cell) :
    (s.recordOutput o xy vs b cs).running = s.running := rfl
@[simp] theorem State.recordOutput_waiting (s : State) (o : OutputFields) (xy : IndexPair) (vs : List Masked) (b : Bool) (cs : List Host.Cell) :
    (s.recordOutput o xy vs b cs).waiting = s.waiting := rfl
@[simp] theorem State.recordOutput_stream (s : State) (o : OutputFields) (xy : IndexPair) (vs : List Masked) (b : Bool) (cs : List Host.Cell) :
    (s.recordOutput o xy vs b cs).stream = s.stream := rfl
@[simp] theorem State.recordOutput_others (s : State) (o : OutputFields) (xy : IndexPair) (vs : List Masked) (b : Bool) (cs : List Host.Cell) :
    (s.recordOutput o xy vs b cs).others = s.others := rfl
@[simp] theorem State.recordOutput_runNo (s : State) (o : OutputFields) (xy : IndexPair) (vs : List Masked) (b : Bool) (cs : List Host.Cell) :
    (s.recordOutput o xy vs b cs).runNo = s.runNo := rfl
@[simp] theorem State.recordOutput_mem (s : State) (o : OutputFields) (xy : IndexPair) (vs : List Masked) (b : Bool) (cs : List Host.Cell) :
    (s.recordOutput o xy vs b cs).mem = if o.uncached then s.mem else Memory.writeAll s.mem cs := rfl
@[simp] theorem State.recordOutput_reads (s : State) (o : OutputFields) (xy : IndexPair) (vs : List Masked) (b : Bool) (cs : List Host.Cell) :
    (s.recordOutput o xy vs b cs).reads = s.reads := rfl
@[simp] theorem State.recordOutput_ended (s : State) (o : OutputFields) (xy : IndexPair) (vs : List Masked) (b : Bool) (cs : List Host.Cell) :
    (s.recordOutput o xy vs b cs).ended = s.ended := rfl
@[simp] theorem State.recordOutput_condCache (s : State) (o : OutputFields) (xy : IndexPair) (vs : List Masked) (b : Bool) (cs : List Host.Cell) :
    (s.recordOutput o xy vs b cs).condCache = s.condCache := rfl
@[simp] theorem State.recordOutput_perf (s : State) (o : OutputFields) (xy : IndexPair) (vs : List Masked) (b : Bool) (cs : List Host.Cell) :
    (s.recordOutput o xy vs b cs).perf = s.perf := rfl
@[simp] theorem State.recordOutput_tick (s : State) (o : OutputFields) (xy : IndexPair) (vs : List Masked) (b : Bool) (cs : List Host.Cell) :
    (s.recordOutput o xy vs b cs).tick = s.tick := rfl

/-! ### Bringing a stream to the front. -/

@[simp] theorem State.focus_pe (s : State) (i : Nat) : (s.focus i).pe = s.pe := by
  cases i with
  | zero => rfl
  | succ i => simp only [State.focus]; split <;> rfl
@[simp] theorem State.turn_pe (s : State) : s.turn.pe = s.pe := State.focus_pe _ _
@[simp] theorem State.focus_ctl (s : State) (i : Nat) : (s.focus i).ctl = s.ctl := by
  cases i with
  | zero => rfl
  | succ i => simp only [State.focus]; split <;> rfl
@[simp] theorem State.turn_ctl (s : State) : s.turn.ctl = s.ctl := State.focus_ctl _ _
@[simp] theorem State.focus_program (s : State) (i : Nat) : (s.focus i).program = s.program := by
  cases i with
  | zero => rfl
  | succ i => simp only [State.focus]; split <;> rfl
@[simp] theorem State.turn_program (s : State) : s.turn.program = s.program := State.focus_program _ _
@[simp] theorem State.focus_programAt (s : State) (i : Nat) : (s.focus i).programAt = s.programAt := by
  cases i with
  | zero => rfl
  | succ i => simp only [State.focus]; split <;> rfl
@[simp] theorem State.turn_programAt (s : State) : s.turn.programAt = s.programAt := State.focus_programAt _ _
@[simp] theorem State.focus_int32Refs (s : State) (i : Nat) : (s.focus i).int32Refs = s.int32Refs := by
  cases i with
  | zero => rfl
  | succ i => simp only [State.focus]; split <;> rfl
@[simp] theorem State.turn_int32Refs (s : State) : s.turn.int32Refs = s.int32Refs := State.focus_int32Refs _ _
@[simp] theorem State.focus_earlyExit (s : State) (i : Nat) : (s.focus i).earlyExit = s.earlyExit := by
  cases i with
  | zero => rfl
  | succ i => simp only [State.focus]; split <;> rfl
@[simp] theorem State.turn_earlyExit (s : State) : s.turn.earlyExit = s.earlyExit := State.focus_earlyExit _ _
@[simp] theorem State.focus_running (s : State) (i : Nat) : (s.focus i).running = s.running := by
  cases i with
  | zero => rfl
  | succ i => simp only [State.focus]; split <;> rfl
@[simp] theorem State.turn_running (s : State) : s.turn.running = s.running := State.focus_running _ _
@[simp] theorem State.focus_waiting (s : State) (i : Nat) : (s.focus i).waiting = s.waiting := by
  cases i with
  | zero => rfl
  | succ i => simp only [State.focus]; split <;> rfl
@[simp] theorem State.turn_waiting (s : State) : s.turn.waiting = s.waiting := State.focus_waiting _ _
@[simp] theorem State.focus_runNo (s : State) (i : Nat) : (s.focus i).runNo = s.runNo := by
  cases i with
  | zero => rfl
  | succ i => simp only [State.focus]; split <;> rfl
@[simp] theorem State.turn_runNo (s : State) : s.turn.runNo = s.runNo := State.focus_runNo _ _
@[simp] theorem State.focus_mem (s : State) (i : Nat) : (s.focus i).mem = s.mem := by
  cases i with
  | zero => rfl
  | succ i => simp only [State.focus]; split <;> rfl
@[simp] theorem State.turn_mem (s : State) : s.turn.mem = s.mem := State.focus_mem _ _
@[simp] theorem State.focus_writes (s : State) (i : Nat) : (s.focus i).writes = s.writes := by
  cases i with
  | zero => rfl
  | succ i => simp only [State.focus]; split <;> rfl
@[simp] theorem State.turn_writes (s : State) : s.turn.writes = s.writes := State.focus_writes _ _
@[simp] theorem State.focus_reads (s : State) (i : Nat) : (s.focus i).reads = s.reads := by
  cases i with
  | zero => rfl
  | succ i => simp only [State.focus]; split <;> rfl
@[simp] theorem State.turn_reads (s : State) : s.turn.reads = s.reads := State.focus_reads _ _
@[simp] theorem State.focus_outputs (s : State) (i : Nat) : (s.focus i).outputs = s.outputs := by
  cases i with
  | zero => rfl
  | succ i => simp only [State.focus]; split <;> rfl
@[simp] theorem State.turn_outputs (s : State) : s.turn.outputs = s.outputs := State.focus_outputs _ _
@[simp] theorem State.focus_ended (s : State) (i : Nat) : (s.focus i).ended = s.ended := by
  cases i with
  | zero => rfl
  | succ i => simp only [State.focus]; split <;> rfl
@[simp] theorem State.turn_ended (s : State) : s.turn.ended = s.ended := State.focus_ended _ _
@[simp] theorem State.focus_condCache (s : State) (i : Nat) : (s.focus i).condCache = s.condCache := by
  cases i with
  | zero => rfl
  | succ i => simp only [State.focus]; split <;> rfl
@[simp] theorem State.turn_condCache (s : State) : s.turn.condCache = s.condCache := State.focus_condCache _ _
@[simp] theorem State.focus_perf (s : State) (i : Nat) : (s.focus i).perf = s.perf := by
  cases i with
  | zero => rfl
  | succ i => simp only [State.focus]; split <;> rfl
@[simp] theorem State.turn_perf (s : State) : s.turn.perf = s.perf := State.focus_perf _ _
@[simp] theorem State.focus_tick (s : State) (i : Nat) : (s.focus i).tick = s.tick := by
  cases i with
  | zero => rfl
  | succ i => simp only [State.focus]; split <;> rfl
@[simp] theorem State.turn_tick (s : State) : s.turn.tick = s.tick := State.focus_tick _ _

end Sys2Proof.Machine
end

