-- ==== Sys2Proof/Laws/Ops.lean ====
section
/-! SUPPORT. What the shared operations can do: one lemma each, cited instead of unfolding them. -/

namespace Sys2Proof.Machine

/-! ## Register checks -/

/-- checkRegs answers what its continuation answers, or one of the two ownership faults. -/
theorem checkRegs_next {s t : State} {rs ws : List Nat} {k : Result} (h : checkRegs s rs ws k = .next t) :
    rs.any s.stream.owned = false ∧ ws.any s.stream.owned = false ∧ k = .next t := by
  simp only [checkRegs] at h
  split at h
  · cases h
  · split at h
    · cases h
    · simp_all

theorem checkRegs_free {s : State} {rs ws : List Nat} {k : Result} (hr : rs.any s.stream.owned = false)
    (hw : ws.any s.stream.owned = false) : checkRegs s rs ws k = k := by
  simp [checkRegs, hr, hw]

/-! ## Reads of memory -/

/-- takeReads refuses where another instance wrote, and else records the reads. -/
theorem takeReads_next {s t u : State} {rs : List ReadRec} (h : takeReads s rs t = .next u) :
    s.readsRace rs = false ∧ u = t.noteReads rs := by
  simp only [takeReads] at h
  split at h
  · cases h
  · rename_i hr
    exact ⟨by simpa using hr, by simpa using h.symm⟩

theorem takeReads_free {s t : State} {rs : List ReadRec} (h : s.readsRace rs = false) :
    takeReads s rs t = .next (t.noteReads rs) := by
  simp [takeReads, h]

theorem takeReads_race {s t : State} {rs : List ReadRec} (h : s.readsRace rs = true) :
    takeReads s rs t = .refused .outputRace := by
  simp [takeReads, h]

/-- No read races. -/
@[simp] theorem State.readsRace_nil (s : State) : s.readsRace [] = false := rfl

theorem State.readsRace_append (s : State) (rs qs : List ReadRec) :
    s.readsRace (rs ++ qs) = (s.readsRace rs || s.readsRace qs) := List.any_append

@[simp] theorem State.noteReads_nil (s : State) : s.noteReads [] = s := by
  simp [State.noteReads]

/-- Only the writes and the run's number decide a race. -/
theorem State.readsRace_congr {s t : State} (hw : t.writes = s.writes) (hr : t.runNo = s.runNo) (rs : List ReadRec) :
    t.readsRace rs = s.readsRace rs := by
  have h : ∀ xy, t.writtenByOther xy = s.writtenByOther xy := fun xy => funext fun a => by
    simp only [State.writtenByOther, hw, hr]
  simp only [State.readsRace, h]

/-! ## Waiting -/

theorem State.waited_eq (s : State) (wait : Bool) :
    s.waited wait = { s with writes := if wait then s.writes.map fun w => w.sync s.runNo s.stream else s.writes } := by
  cases wait <;> rfl

@[simp] theorem State.waited_stream (s : State) (w : Bool) : (s.waited w).stream = s.stream := by cases w <;> rfl
@[simp] theorem State.waited_mem (s : State) (w : Bool) : (s.waited w).mem = s.mem := by cases w <;> rfl
@[simp] theorem State.waited_ctl (s : State) (w : Bool) : (s.waited w).ctl = s.ctl := by cases w <;> rfl
@[simp] theorem State.waited_pe (s : State) (w : Bool) : (s.waited w).pe = s.pe := by cases w <;> rfl
@[simp] theorem State.waited_program (s : State) (w : Bool) : (s.waited w).program = s.program := by cases w <;> rfl
@[simp] theorem State.waited_runNo (s : State) (w : Bool) : (s.waited w).runNo = s.runNo := by cases w <;> rfl
@[simp] theorem State.waited_tick (s : State) (w : Bool) : (s.waited w).tick = s.tick := by cases w <;> rfl
@[simp] theorem State.waited_running (s : State) (w : Bool) : (s.waited w).running = s.running := by cases w <;> rfl
@[simp] theorem State.waited_waiting (s : State) (w : Bool) : (s.waited w).waiting = s.waiting := by cases w <;> rfl
@[simp] theorem State.waited_outputs (s : State) (w : Bool) : (s.waited w).outputs = s.outputs := by cases w <;> rfl
@[simp] theorem State.waited_ended (s : State) (w : Bool) : (s.waited w).ended = s.ended := by cases w <;> rfl
@[simp] theorem State.waited_condCache (s : State) (w : Bool) : (s.waited w).condCache = s.condCache := by cases w <;> rfl
@[simp] theorem State.waited_perf (s : State) (w : Bool) : (s.waited w).perf = s.perf := by cases w <;> rfl
@[simp] theorem State.waited_int32Refs (s : State) (w : Bool) : (s.waited w).int32Refs = s.int32Refs := by cases w <;> rfl

@[simp] theorem State.waited_others (s : State) (w : Bool) : (s.waited w).others = s.others := by cases w <;> rfl
@[simp] theorem State.waited_reads (s : State) (w : Bool) : (s.waited w).reads = s.reads := by cases w <;> rfl
@[simp] theorem State.waited_programAt (s : State) (w : Bool) : (s.waited w).programAt = s.programAt := by cases w <;> rfl
@[simp] theorem State.waited_earlyExit (s : State) (w : Bool) : (s.waited w).earlyExit = s.earlyExit := by cases w <;> rfl

theorem gate_hold {s : State} {w : Bool} {k : State → Result} (h : s.holds w = true) : gate w s k = .next s := by
  simp [gate, h]

theorem gate_pass {s : State} {w : Bool} {k : State → Result} (h : s.holds w = false) : gate w s k = k (s.waited w) := by
  simp [gate, h]

/-- A gate that answers a next state held, or went on from the waited state. -/
theorem gate_next {s t : State} {w : Bool} {k : State → Result} (h : gate w s k = .next t) :
    (s.holds w = true ∧ t = s) ∨ (s.holds w = false ∧ k (s.waited w) = .next t) := by
  cases hw : s.holds w with
  | true => rw [gate_hold hw] at h; exact .inl ⟨rfl, by simpa using h.symm⟩
  | false => rw [gate_pass hw] at h; exact .inr ⟨rfl, h⟩

/-! ## The common issue procedure -/

theorem issue_pass {s : State} {w a q : Bool} {e : State → Nat → Result} (hw : a = true → w = true)
    (hh : s.holds w = false) :
    issue w a q s e = issueBody a e (s.ready w q) := by
  have : (a && !w) = false := by cases a <;> cases w <;> simp_all
  simp [issue, this, hh]

theorem issue_hold {s : State} {w a q : Bool} {e : State → Nat → Result} (h : s.holds w = true) :
    issue w a q s e = .next s := by
  have hw : w = true := by cases w <;> simp_all [State.holds]
  simp [issue, hw, hw ▸ h]

/-- A body that answers a next state: its effect did, and the stream moved on. -/
theorem issueBody_next {s t : State} {a : Bool} {e : State → Nat → Result} (h : issueBody a e s = .next t) :
    ∃ u, e s s.stream.seq = .next u ∧ t = u.finishIssue a s.stream.seq := by
  simp only [issueBody] at h
  split at h
  · rename_i u hu; exact ⟨u, hu, by simpa using h.symm⟩
  · cases h
  · cases h

/-- An issue that answers a next state held, or its effect answered and the stream moved on. -/
theorem issue_next {s t : State} {w a q : Bool} {e : State → Nat → Result} (h : issue w a q s e = .next t) :
    (a = true → w = true) ∧
    ((s.holds w = true ∧ t = s) ∨
      (s.holds w = false ∧ ∃ u, e (s.ready w q) (s.ready w q).stream.seq = .next u ∧
        t = u.finishIssue a (s.ready w q).stream.seq)) := by
  have ha : a = true → w = true := by
    intro ha
    cases w with
    | true => rfl
    | false => simp [issue, ha] at h
  refine ⟨ha, ?_⟩
  cases hh : s.holds w with
  | true => rw [issue_hold hh] at h; exact .inl ⟨rfl, by simpa using h.symm⟩
  | false =>
    refine .inr ⟨rfl, ?_⟩
    rw [issue_pass ha hh] at h
    exact issueBody_next h

theorem State.ready_eq (s : State) (w q : Bool) :
    s.ready w q = { s with
      stream := { s.stream with seq := if q then s.stream.seq + 1 else s.stream.seq }
      writes := if w then s.writes.map fun r => r.sync s.runNo s.stream else s.writes } := by
  cases w <;> cases q <;> rfl

/-! ## Reads of written data -/

theorem WriteRec.sync_covers (w : WriteRec) (n a : Nat) (st : Stream) : (w.sync n st).covers a = w.covers a := rfl

/-- Waiting on the semaphore hides or shows no write from a cached read. -/
theorem State.writesAt_syncWrites (s : State) (a : Nat) :
    s.syncWrites.writesAt a = (s.writesAt a).map fun w => w.sync s.runNo s.stream := by
  simp only [State.writesAt, State.syncWrites_writes, List.filter_map]
  rfl

end Sys2Proof.Machine
end

