-- ==== Sys2Proof/Laws/Ready.lean ====
section
/-! SUPPORT. What an effect sees does not depend on whether its instruction waited or took a number: every function of the state
that effects use has the same value in the ready state. -/

namespace Sys2Proof.Machine

theorem State.ready_false (s : State) (w : Bool) : s.ready w false = s.waited w := rfl

@[simp] theorem State.ready_mem (s : State) (w q : Bool) : (s.ready w q).mem = s.mem := by simp [State.ready_eq]
@[simp] theorem State.ready_ctl (s : State) (w q : Bool) : (s.ready w q).ctl = s.ctl := by simp [State.ready_eq]
@[simp] theorem State.ready_pe (s : State) (w q : Bool) : (s.ready w q).pe = s.pe := by simp [State.ready_eq]
@[simp] theorem State.ready_program (s : State) (w q : Bool) : (s.ready w q).program = s.program := by simp [State.ready_eq]
@[simp] theorem State.ready_runNo (s : State) (w q : Bool) : (s.ready w q).runNo = s.runNo := by simp [State.ready_eq]
@[simp] theorem State.ready_tick (s : State) (w q : Bool) : (s.ready w q).tick = s.tick := by simp [State.ready_eq]
@[simp] theorem State.ready_running (s : State) (w q : Bool) : (s.ready w q).running = s.running := by simp [State.ready_eq]
@[simp] theorem State.ready_waiting (s : State) (w q : Bool) : (s.ready w q).waiting = s.waiting := by simp [State.ready_eq]
@[simp] theorem State.ready_outputs (s : State) (w q : Bool) : (s.ready w q).outputs = s.outputs := by simp [State.ready_eq]
@[simp] theorem State.ready_ended (s : State) (w q : Bool) : (s.ready w q).ended = s.ended := by simp [State.ready_eq]
@[simp] theorem State.ready_perf (s : State) (w q : Bool) : (s.ready w q).perf = s.perf := by simp [State.ready_eq]
@[simp] theorem State.ready_condCache (s : State) (w q : Bool) : (s.ready w q).condCache = s.condCache := by
  simp [State.ready_eq]

@[simp] theorem State.ready_others (s : State) (w q : Bool) : (s.ready w q).others = s.others := by simp [State.ready_eq]
@[simp] theorem State.ready_reads (s : State) (w q : Bool) : (s.ready w q).reads = s.reads := by simp [State.ready_eq]
@[simp] theorem State.ready_programAt (s : State) (w q : Bool) : (s.ready w q).programAt = s.programAt := by
  simp [State.ready_eq]
@[simp] theorem State.ready_deadline (s : State) (w q : Bool) : (s.ready w q).deadline = s.deadline := by
  simp [State.deadline]

theorem State.ready_writes (s : State) (w q : Bool) : (s.ready w q).writes = (s.waited w).writes := by
  cases w <;> cases q <;> rfl

@[simp] theorem State.ready_procs (s : State) (w q : Bool) : (s.ready w q).stream.procs = s.stream.procs := by
  simp [State.ready_eq]
@[simp] theorem State.ready_pending (s : State) (w q : Bool) : (s.ready w q).stream.pending = s.stream.pending := by
  simp [State.ready_eq]
@[simp] theorem State.ready_loops (s : State) (w q : Bool) : (s.ready w q).stream.loops = s.stream.loops := by
  simp [State.ready_eq]
@[simp] theorem State.ready_sem (s : State) (w q : Bool) : (s.ready w q).stream.sem = s.stream.sem := by
  simp [State.ready_eq]
@[simp] theorem State.ready_pc (s : State) (w q : Bool) : (s.ready w q).stream.pc = s.stream.pc := by
  simp [State.ready_eq]
@[simp] theorem State.ready_done (s : State) (w q : Bool) : (s.ready w q).stream.done = s.stream.done := by
  simp [State.ready_eq]
@[simp] theorem State.ready_depth (s : State) (w q : Bool) : (s.ready w q).stream.depth = s.stream.depth := by
  simp [State.ready_eq]
@[simp] theorem State.ready_semDue (s : State) (w q : Bool) : (s.ready w q).stream.semDue = s.stream.semDue := by
  simp [State.ready_eq]
theorem State.ready_seq (s : State) (w q : Bool) :
    (s.ready w q).stream.seq = if q then s.stream.seq + 1 else s.stream.seq := by
  simp [State.ready_eq]

/-! ## What is written where -/

theorem State.covers_ready (s : State) (w q : Bool) (a : Nat) :
    (s.ready w q).writesAt a = if w then (s.writesAt a).map fun r => r.sync s.runNo s.stream else s.writesAt a := by
  cases w with
  | false => cases q <;> rfl
  | true => cases q <;> exact s.writesAt_syncWrites a

@[simp] theorem State.cachedByte_ready (s : State) (w q : Bool) (xy : IndexPair) (e j a : Nat) :
    (s.ready w q).cachedByte xy e j a = s.cachedByte xy e j a := by
  simp only [State.cachedByte, State.covers_ready, State.ready_mem, State.ready_tick]
  cases w <;> cases s.writesAt a <;> rfl

@[simp] theorem State.cachedElem_ready (s : State) (w q : Bool) (xy : IndexPair) (b : Word) (o n : Nat) :
    (s.ready w q).cachedElem xy b o n = s.cachedElem xy b o n := by
  simp [State.cachedElem]

@[simp] theorem State.constElem_ready (s : State) (w q : Bool) (xy : IndexPair) (b : ConstBuf) (n : Nat) :
    (s.ready w q).constElem xy b n = s.constElem xy b n := by
  simp [State.constElem]

@[simp] theorem State.writtenByOther_ready (s : State) (w q : Bool) (xy : IndexPair) (a : Nat) :
    (s.ready w q).writtenByOther xy a = s.writtenByOther xy a := by
  simp only [State.writtenByOther, State.ready_runNo, State.ready_writes]
  cases w with
  | false => rfl
  | true =>
    show (s.writes.map fun r => r.sync s.runNo s.stream).any _ = _
    rw [List.any_map]
    rfl

@[simp] theorem State.readsRace_ready (s : State) (w q : Bool) (rs : List ReadRec) :
    (s.ready w q).readsRace rs = s.readsRace rs := by
  have h : ∀ xy, (s.ready w q).writtenByOther xy = s.writtenByOther xy := fun xy => funext fun a => by simp
  simp only [State.readsRace, h]

@[simp] theorem State.readByOther_ready (s : State) (w q : Bool) (xy : IndexPair) (a : Nat) :
    (s.ready w q).readByOther xy a = s.readByOther xy a := by
  simp [State.readByOther]

@[simp] theorem State.sharedWithOther_ready (s : State) (w q : Bool) (xy : IndexPair) (a : Nat) :
    (s.ready w q).sharedWithOther xy a = s.sharedWithOther xy a := by
  simp [State.sharedWithOther]

@[simp] theorem State.inProgram_ready (s : State) (w q : Bool) (a : Nat) :
    (s.ready w q).inProgram a = s.inProgram a := by
  simp [State.inProgram]

/-! ## Operands -/

@[simp] theorem State.regOf_ready (s : State) (w q : Bool) (a : TempAddr) : (s.ready w q).regOf a = s.regOf a := by
  simp [State.regOf]

@[simp] theorem State.owned_ready (s : State) (w q : Bool) : (s.ready w q).stream.owned = s.stream.owned := by
  funext d
  simp [Stream.owned]

@[simp] theorem State.anyLive_ready (s : State) (w q : Bool) : (s.ready w q).anyLive = s.anyLive := by
  simp [State.anyLive]

@[simp] theorem State.intConst_ready (s : State) (w q : Bool) (n : Nat) : (s.ready w q).intConst n = s.intConst n := by
  simp [State.intConst]

@[simp] theorem State.srcValue_ready (s : State) (w q : Bool) (p : Proc) (a : SrcAddr) :
    (s.ready w q).srcValue p a = s.srcValue p a := by
  cases a <;> simp [State.srcValue, State.floatConst]

@[simp] theorem State.srcReg_ready (s : State) (w q : Bool) (a : SrcAddr) : (s.ready w q).srcReg a = s.srcReg a := by
  cases a <;> simp [State.srcReg]

/-! ## Texture lanes, ALU results, outputs, jumps -/

@[simp] theorem lookupLane_ready (s : State) (w q : Bool) (t : TexFields) :
    lookupLane (s.ready w q) t = lookupLane s t := by
  funext p
  simp [lookupLane]

@[simp] theorem killLane_ready (s : State) (w q : Bool) (t : TexFields) : killLane (s.ready w q) t = killLane s t := by
  funext p
  simp [killLane]

@[simp] theorem State.aluReads_ready (s : State) (w q : Bool) (c : AluCommon) (rgb : Option RgbHalf)
    (alpha : Option AlphaHalf) : (s.ready w q).aluReads c rgb alpha = s.aluReads c rgb alpha := by
  simp [State.aluReads]

@[simp] theorem State.aluWrites_ready (s : State) (w q : Bool) (rgb : Option RgbHalf) (alpha : Option AlphaHalf) :
    (s.ready w q).aluWrites rgb alpha = s.aluWrites rgb alpha := by
  simp [State.aluWrites]

@[simp] theorem State.rgbOperand_ready (s : State) (w q : Bool) (c : AluCommon) (p : Proc) (o : RgbOperand) (ch : Comp) :
    (s.ready w q).rgbOperand c p o ch = s.rgbOperand c p o ch := by
  cases ch <;> simp [State.rgbOperand]

@[simp] theorem State.alphaOperand_ready (s : State) (w q : Bool) (c : AluCommon) (p : Proc) (o : AlphaOperand) :
    (s.ready w q).alphaOperand c p o = s.alphaOperand c p o := by
  simp [State.alphaOperand]

@[simp] theorem State.rgbRaw_ready (s : State) (w q : Bool) (c : AluCommon) (p : Proc) (alpha : Option AlphaHalf)
    (h : RgbHalf) (ch : Comp) : (s.ready w q).rgbRaw c p alpha h ch = s.rgbRaw c p alpha h ch := by
  cases alpha <;> simp [State.rgbRaw, State.copySourceAlpha, State.rgbOwn, State.alphaOwn]

@[simp] theorem State.alphaRaw_ready (s : State) (w q : Bool) (c : AluCommon) (p : Proc) (rgb : Option RgbHalf)
    (h : AlphaHalf) : (s.ready w q).alphaRaw c p rgb h = s.alphaRaw c p rgb h := by
  cases rgb <;> simp [State.alphaRaw, State.copySourceRgb, State.rgbOwn, State.alphaOwn]

@[simp] theorem State.aluProc_ready (s : State) (w q : Bool) (c : AluCommon) (rgb : Option RgbHalf)
    (alpha : Option AlphaHalf) : (s.ready w q).aluProc c rgb alpha = s.aluProc c rgb alpha := by
  funext p
  simp [State.aluProc, State.writeRgb, State.writeAlpha, State.rgbFinal, State.alphaFinal, State.lastAfter, writeResult]

@[simp] theorem State.outVals_ready (s : State) (w q : Bool) (o : OutputFields) (p : Proc) :
    (s.ready w q).outVals o p = s.outVals o p := by
  simp [State.outVals]

@[simp] theorem State.sentValue_ready (s : State) (w q : Bool) (o : OutputFields) (xy : IndexPair) (vs : List Masked) :
    (s.ready w q).sentValue o xy vs = s.sentValue o xy vs := by
  simp [State.sentValue]

@[simp] theorem State.outRequest_ready (s : State) (w q : Bool) (o : OutputFields) (xy : IndexPair) (vs : List Masked)
    (b : Bool) : (s.ready w q).outRequest o xy vs b = s.outRequest o xy vs b := by
  have h1 : (s.ready w q).inProgram = s.inProgram := funext fun a => by simp
  have h2 : (s.ready w q).sharedWithOther xy = s.sharedWithOther xy := funext fun a => by simp
  simp only [State.outRequest, State.outDesc, State.ready_ctl, h1, h2]

@[simp] theorem State.inputUnset_ready (s : State) (w q : Bool) (k : Nat) :
    (s.ready w q).inputUnset k = s.inputUnset k := by
  simp [State.inputUnset, State.inputDesc]

@[simp] theorem State.constsUnset_ready (s : State) (w q : Bool) (c : AluCommon) (rgb : Option RgbHalf)
    (alpha : Option AlphaHalf) : (s.ready w q).constsUnset c rgb alpha = s.constsUnset c rgb alpha := by
  simp [State.constsUnset]

@[simp] theorem State.condCached_ready (s : State) (w q : Bool) (b : Word) (xy : IndexPair) :
    (s.ready w q).condCached b xy = s.condCached b xy := by
  simp [State.condCached]

@[simp] theorem State.condFresh_ready (s : State) (w q : Bool) (b : Word) (xy : IndexPair) :
    (s.ready w q).condFresh b xy = s.condFresh b xy := by
  simp [State.condFresh]

@[simp] theorem State.condReads_ready (s : State) (w q : Bool) (b : Word) (xy : IndexPair) :
    (s.ready w q).condReads b xy = s.condReads b xy := by
  simp [State.condReads]

@[simp] theorem State.condRead_ready_fst (s : State) (w q : Bool) (b : Word) (xy : IndexPair) :
    ((s.ready w q).condRead b xy).1 = (s.condRead b xy).1 := by
  simp only [State.condRead, State.condCached_ready, State.condFresh_ready]
  split <;> rfl

@[simp] theorem State.condRead_ready_cache (s : State) (w q : Bool) (b : Word) (xy : IndexPair) :
    ((s.ready w q).condRead b xy).2.condCache = (s.condRead b xy).2.condCache := by
  simp only [State.condRead, State.condCached_ready, State.condFresh_ready]
  split <;> simp [State.condFill, State.noteReads]

@[simp] theorem State.constReads_ready (s : State) (w q : Bool) (c : AluCommon) (rgb : Option RgbHalf)
    (alpha : Option AlphaHalf) : (s.ready w q).constReads c rgb alpha = s.constReads c rgb alpha := by
  simp [State.constReads]

@[simp] theorem State.jumpCond_ready (s : State) (w q : Bool) (f : Flow) : (s.ready w q).jumpCond f = s.jumpCond f := by
  funext p
  simp [State.jumpCond]

@[simp] theorem State.jumps_ready (s : State) (w q : Bool) (f : Flow) : (s.ready w q).jumps f = s.jumps f := by
  simp [State.jumps]

@[simp] theorem State.tooDeep_ready (s : State) (w q : Bool) (op : BranchOp) :
    (s.ready w q).tooDeep op = s.tooDeep op := by
  simp [State.tooDeep]

@[simp] theorem State.branchedProc_ready (s : State) (w q : Bool) (f : Flow) (b : Bool) :
    (s.ready w q).branchedProc f b = s.branchedProc f b := by
  funext p
  simp [State.branchedProc]

@[simp] theorem State.constiUnset_ready (s : State) (w q : Bool) (f : Flow) :
    (s.ready w q).constiUnset f = s.constiUnset f := by
  simp [State.constiUnset]

@[simp] theorem State.constiReads_ready (s : State) (w q : Bool) (f : Flow) (k : Nat) :
    (s.ready w q).constiReads f k = s.constiReads f k := by
  simp [State.constiReads]

@[simp] theorem State.skipsLoop_ready (s : State) (w q : Bool) (f : Flow) (c : IntConst) :
    (s.ready w q).skipsLoop f c = s.skipsLoop f c := by
  simp [State.skipsLoop]

@[simp] theorem State.loopsFull_ready (s : State) (w q : Bool) (n : Nat) :
    (s.ready w q).loopsFull n = s.loopsFull n := by
  simp [State.loopsFull]

end Sys2Proof.Machine
end

