-- ==== Sys2Proof/Laws/Exec.lean ====
section
/-! SUPPORT. Everything each family of instructions can do when it answers a next state: one lemma per family, cited instead of
unfolding the meanings. -/

namespace Sys2Proof.Machine

/-! ## Texture instructions -/

/-- A texture NOP that answers held or moved on. -/
theorem execTexNop_next {t : TexFields} {s u : State} (h : execTexNop t s = .next u) :
    u = s ∨ (s.holds t.wait = false ∧ u = (s.ready t.wait true).finishIssue t.acquire (s.stream.seq + 1)) := by
  obtain ⟨-, ⟨-, rfl⟩ | ⟨hh, v, hv, rfl⟩⟩ := issue_next h
  · exact .inl rfl
  · simp only [nopEffect, Host.Outcome.next.injEq] at hv
    subst hv
    exact .inr ⟨hh, by simp [State.ready_seq]⟩

/-- A choice between a refusal and a next state that answers a next state. -/
theorem refuse_next {b : Bool} {r : Refusal} {t u : State} (h : (if b then (.refused r : Result) else .next t) = .next u) :
    b = false ∧ t = u := by
  cases b <;> simp_all

/-- A lookup that answers held, or recorded itself as outstanding and moved on; its destination was not owned. -/
theorem lookup_next {o : LookupOp} {t : TexFields} {s u : State}
    (h : issue t.wait t.acquire true s (lookupEffect o t) = .next u) :
    u = s ∨ (s.holds t.wait = false ∧ s.stream.owned (s.regOf t.dst) = false ∧
      u = ((s.ready t.wait true).addPending (lookupPend o t (s.ready t.wait true) (s.stream.seq + 1))).finishIssue t.acquire
        (s.stream.seq + 1)) := by
  obtain ⟨-, ⟨-, rfl⟩ | ⟨hh, v, hv, rfl⟩⟩ := issue_next h
  · exact .inl rfl
  · obtain ⟨-, hw, hk⟩ := checkRegs_next hv
    obtain ⟨-, hk⟩ := refuse_next hk
    simp only [State.ready_seq, if_true] at hk
    subst hk
    exact .inr ⟨hh, by simpa using hw, by simp [State.ready_seq]⟩

/-- A kill that answers held, or recorded itself as outstanding and moved on. -/
theorem kill_next {t : TexFields} {s u : State} (h : execTexKillLtZero t s = .next u) :
    u = s ∨ (s.holds t.wait = false ∧
      u = ((s.ready t.wait true).addPending (killPend t (s.ready t.wait true) (s.stream.seq + 1))).finishIssue t.acquire
        (s.stream.seq + 1)) := by
  obtain ⟨-, ⟨-, rfl⟩ | ⟨hh, v, hv, rfl⟩⟩ := issue_next h
  · exact .inl rfl
  · obtain ⟨-, -, hk⟩ := checkRegs_next hv
    simp only [Host.Outcome.next.injEq, State.ready_seq, if_true] at hk
    subst hk
    exact .inr ⟨hh, by simp [State.ready_seq]⟩

/-! ## ALU instructions -/

/-- Every ALU row is issueAlu of its halves. -/
theorem exec_alu {i : Instr} {rgb : Option RgbHalf} {alpha : Option AlphaHalf} {c : AluCommon}
    (h : aluHalves i = some (rgb, alpha, c)) (s : State) : exec i s = issueAlu c rgb alpha s := by
  cases i <;> simp only [aluHalves, reduceCtorEq] at h
  case aluUnnamed x d =>
    cases x <;> simp only [Option.some.injEq, Prod.mk.injEq] at h <;> obtain ⟨rfl, rfl, rfl⟩ := h <;> rfl
  case aluCrossEngineCopy x d =>
    cases x <;> simp only [Option.some.injEq, Prod.mk.injEq] at h <;> obtain ⟨rfl, rfl, rfl⟩ := h <;> rfl
  all_goals
    simp only [Option.some.injEq, Prod.mk.injEq] at h
    obtain ⟨rfl, rfl, rfl⟩ := h
    rfl

/-- An ALU instruction that answers held, or acted on the live processors, recorded the constants it read, and moved on. -/
theorem issueAlu_next {c : AluCommon} {rgb : Option RgbHalf} {alpha : Option AlphaHalf} {s u : State}
    (h : issueAlu c rgb alpha s = .next u) :
    u = s ∨ (s.holds c.wait = false ∧
      u = (((s.waited c.wait).onLive (s.aluProc c rgb alpha)).noteReads (s.constReads c rgb alpha)).finishIssue false
        s.stream.seq) := by
  obtain ⟨-, ⟨-, rfl⟩ | ⟨hh, v, hv, rfl⟩⟩ := issue_next h
  · exact .inl rfl
  · obtain ⟨-, -, hk⟩ := checkRegs_next hv
    split at hk
    · cases hk
    · obtain ⟨-, rfl⟩ := takeReads_next hk
      refine .inr ⟨hh, ?_⟩
      simp only [State.aluProc_ready, State.constReads_ready]
      simp [State.ready_false]

/-! ## OUTPUT -/

/-- The CO's test changes nothing but its cache and the record of reads. -/
theorem State.coTest_ok {s t : State} {o : OutputFields} {xy : IndexPair} {vs : List Masked} {b : Bool}
    (h : s.coTest o xy vs = .ok (b, t)) :
    ∃ rs, t = { s with condCache := t.condCache, reads := s.reads ++ rs } ∧
      (s.ctl.cond = .never ∨ s.ctl.condBuf = none → rs = []) := by
  simp only [State.coTest] at h
  split at h
  · cases h; exact ⟨[], by simp, fun _ => rfl⟩
  · split at h
    · cases h
    · cases h; exact ⟨[], by simp, fun _ => rfl⟩
  · rename_i base hl hb
    split at h
    · cases h
    · cases h
      refine ⟨s.condReads base xy, ?_, fun h => by simp_all⟩
      simp only [State.condRead, State.condReads]
      split <;> simp [State.noteReads, State.condFill]

/-- What a request stores: nothing, or the cells of a set output. -/
theorem State.outRequest_ok {s : State} {o : OutputFields} {xy : IndexPair} {vs : List Masked} {b : Bool}
    {cs : List Host.Cell} (h : s.outRequest o xy vs b = .ok cs) :
    cs = [] ∨ ∃ d, s.outDesc o.out = some d ∧ cs = outCells d xy vs := by
  simp only [State.outRequest] at h
  split at h
  · cases h; exact .inl rfl
  · split at h
    · cases h
    · rename_i d hd
      split at h
      · cases h
      · split at h
        · cases h
        · cases h; exact .inr ⟨d, hd, rfl⟩

/-- The tests change nothing but the CO's cache and the record of reads, and there is one for each processor. -/
theorem testAll_ok {o : OutputFields} {ps : List Proc} {s t : State} {bs : List Bool}
    (h : testAll o ps s = .ok (bs, t)) :
    (∃ rs, t = { s with condCache := t.condCache, reads := s.reads ++ rs } ∧
      (s.ctl.cond = .never ∨ s.ctl.condBuf = none → rs = [])) ∧ bs.length = ps.length := by
  induction ps generalizing s t bs with
  | nil =>
    simp only [testAll, Except.ok.injEq, Prod.mk.injEq] at h
    obtain ⟨rfl, rfl⟩ := h
    exact ⟨⟨[], by simp, fun _ => rfl⟩, rfl⟩
  | cons p ps ih =>
    simp only [testAll] at h
    split at h
    · cases h
    · rename_i b u hu
      split at h
      · cases h
      · rename_i cs v hv
        simp only [Except.ok.injEq, Prod.mk.injEq] at h
        obtain ⟨rfl, rfl⟩ := h
        obtain ⟨⟨rs, e, n⟩, l⟩ := ih hv
        obtain ⟨qs, e1, n1⟩ := State.coTest_ok hu
        refine ⟨⟨qs ++ rs, ?_, fun hc => ?_⟩, by simp [l]⟩
        · rw [e, e1]
          simp
        · rw [n1 hc, n (by rw [e1]; exact hc)]
          rfl

/-- One processor's output changes memory and the records of outputs and writes; memory only in its cells. -/
theorem outputOne_ok {o : OutputFields} {p : Proc} {b : Bool} {s t : State} {l : Lane}
    (h : outputOne o p b s = .ok (t, l)) :
    t = { s with
      mem := if o.uncached then s.mem else Memory.writeAll s.mem l.cells, outputs := t.outputs, writes := t.writes } ∧
    (l.cells = [] ∨ ∃ d, s.outDesc o.out = some d ∧ l.cells = outCells d p.xy (s.outVals o p)) := by
  simp only [outputOne] at h
  split at h
  · cases h
  · rename_i cs hc
    simp only [Except.ok.injEq, Prod.mk.injEq] at h
    obtain ⟨rfl, rfl⟩ := h
    exact ⟨rfl, State.outRequest_ok hc⟩

/-- The fields an output does not touch, so that what later processors send does not depend on earlier ones. -/
theorem outputOne_outVals {o : OutputFields} {p q : Proc} {b : Bool} {s t : State} {l : Lane}
    (h : outputOne o p b s = .ok (t, l)) : t.outVals o q = s.outVals o q ∧ t.outDesc o.out = s.outDesc o.out := by
  rw [(outputOne_ok h).1]
  exact ⟨rfl, rfl⟩

/-- The outputs of several processors: memory changes only in the cells of their lanes, each lane's cells being its processor's
request or nothing. -/
theorem outputAll_ok {o : OutputFields} {es : List (Proc × Bool)} {s t : State} {ls : List Lane}
    (h : outputAll o es s = .ok (t, ls)) :
    t = { s with mem := t.mem, outputs := t.outputs, writes := t.writes } ∧
    t.mem = (if o.uncached then s.mem else Memory.writeAll s.mem (ls.flatMap Lane.cells)) ∧
    ∀ l ∈ ls, ∃ e ∈ es, l.cells = [] ∨ ∃ d, s.outDesc o.out = some d ∧ l.cells = outCells d e.1.xy (s.outVals o e.1) := by
  induction es generalizing s t ls with
  | nil =>
    simp only [outputAll, Except.ok.injEq, Prod.mk.injEq] at h
    obtain ⟨rfl, rfl⟩ := h
    refine ⟨rfl, ?_, by simp⟩
    split <;> rfl
  | cons e es ih =>
    simp only [outputAll] at h
    split at h
    · cases h
    · rename_i s1 l h1
      split at h
      · cases h
      · rename_i s2 ls2 h2
        simp only [Except.ok.injEq, Prod.mk.injEq] at h
        obtain ⟨rfl, rfl⟩ := h
        obtain ⟨e1, c1⟩ := outputOne_ok h1
        obtain ⟨e2, m2, c2⟩ := ih h2
        have hmem : s1.mem = if o.uncached then s.mem else Memory.writeAll s.mem l.cells := congrArg State.mem e1
        refine ⟨?_, ?_, ?_⟩
        · rw [e2, e1]
        · rw [m2, hmem]
          cases o.uncached with
          | true => rfl
          | false => exact (Memory.writeAll_append _ _ _).symm
        · intro x hx
          rcases List.mem_cons.1 hx with rfl | hx
          · exact ⟨e, by simp, c1⟩
          · obtain ⟨q, hq, hc⟩ := c2 x hx
            obtain ⟨hv, hd⟩ := outputOne_outVals (q := q.1) h1
            rw [hv, hd] at hc
            exact ⟨q, by simp [hq], hc⟩

/-- The outputs of a stream's live processors: what changes, and whose requests the lanes hold. -/
theorem sendOutputs_ok {o : OutputFields} {s t : State} {ls : List Lane} (h : s.sendOutputs o = .ok (t, ls)) :
    (∃ rs, t = { s with
        mem := t.mem, outputs := t.outputs, writes := t.writes, condCache := t.condCache, reads := s.reads ++ rs } ∧
      (s.ctl.cond = .never ∨ s.ctl.condBuf = none → rs = [])) ∧
    t.mem = (if o.uncached then s.mem else Memory.writeAll s.mem (ls.flatMap Lane.cells)) ∧
    ∀ l ∈ ls, ∃ p ∈ s.stream.procs, p.live = true ∧
      (l.cells = [] ∨ ∃ d, s.outDesc o.out = some d ∧ l.cells = outCells d p.xy (s.outVals o p)) := by
  simp only [State.sendOutputs] at h
  split at h
  · cases h
  · rename_i bs u hu
    obtain ⟨⟨rs, eu, nu⟩, -⟩ := testAll_ok hu
    obtain ⟨et, hm, hl⟩ := outputAll_ok h
    refine ⟨⟨rs, by rw [et, eu], nu⟩, by rw [hm, eu], fun l hll => ?_⟩
    obtain ⟨e, he, hc⟩ := hl l hll
    have hp := (List.mem_filter.1 (List.of_mem_zip he).1)
    refine ⟨e.1, hp.1, hp.2, ?_⟩
    rw [eu] at hc
    exact hc

/-- An OUTPUT that answers held, or sent the live processors' outputs, closed and moved on. -/
theorem output_next {o : OutputFields} {s u : State} (h : execOutput o s = .next u) :
    u = s ∨ (s.holds o.wait = false ∧ ∃ v lanes,
      (s.ready o.wait o.uncached).sendOutputs o = .ok (v, lanes) ∧
      u = (v.closeOutput o (s.ready o.wait o.uncached).stream.seq lanes).finishIssue (o.acquire && o.uncached)
        (s.ready o.wait o.uncached).stream.seq) := by
  obtain ⟨-, ⟨-, rfl⟩ | ⟨hh, v, hv, rfl⟩⟩ := issue_next h
  · exact .inl rfl
  · obtain ⟨-, -, hk⟩ := checkRegs_next hv
    split at hk
    · cases hk
    · rename_i v1 lanes h1
      simp only [Host.Outcome.next.injEq] at hk
      subst hk
      exact .inr ⟨hh, v1, lanes, h1, rfl⟩

/-! ## Flow control -/

theorem flowGo_next {f : Flow} {taken : Bool} {s u : State} (h : flowGo f taken s = .next u) :
    s.tooDeep (branchOpOf f taken) = false ∧ u = s.branched f taken := by
  simp only [flowGo] at h
  split at h
  · cases h
  · rename_i hd
    exact ⟨by simpa using hd, by simpa using h.symm⟩

/-- The jump fields of a flow-control instruction. -/
def flowFields : Instr → Option Flow
  | .fcJump f | .fcLoop f _ | .fcEndloop f | .fcRep f _ | .fcEndrep f | .fcContinue f => some f
  | .texNop _ | .texLookup _ | .texKillLtZero _ | .texLookupProj _ | .texLookupUncached _ | .output _ => none
  | .opRgbMax _ _ _ | .opRgbCnd _ _ _ | .opRgbCmp _ _ _ | .opRgbFrc _ _ _ => none
  | .opAlphaMax _ _ _ | .opAlphaCnd _ _ _ | .opAlphaCmp _ _ _ | .opAlphaFrc _ _ _ => none
  | .aluUnnamed _ _ | .aluCrossEngineCopy _ _ => none
  | .setConstiFmt _ _ | .setCondTest _ | .readPerfCounters _ | .floatConstFmt _ _ | .inputBase _ _ => none
  | .outputBase _ _ | .programData _ _ | .sizeParameter _ | .domainBounds _ _ | .programStart | .perfControl _ _ => none

/-- A LOOP or REP that answers has read its constant and gone on with it. -/
theorem withIntConst_next {f : Flow} {k : Nat} {s u : State} {body : IntConst → State → Result}
    (h : withIntConst f k s body = .next u) : body (s.intConst k) (s.noteReads (s.constiReads f k)) = .next u := by
  simp only [withIntConst] at h
  split at h
  · cases h
  · split at h
    · cases h
    · exact h

/-- A flow-control instruction that answers held, or recorded what it read, set the loop state, applied its branch operation to
every processor and set the pc to JUMP_ADDR or the next instruction. -/
theorem flow_next {i : Instr} {f : Flow} {s u : State} (hf : flowFields i = some f) (h : exec i s = .next u) :
    u = s ∨ (s.holds f.wait = false ∧ ∃ taken loops rs, s.tooDeep (branchOpOf f taken) = false ∧
      u = (((s.waited f.wait).noteReads rs).withLoops loops).branched f taken) := by
  have key : ∀ {e : State → Result}, (∀ {t}, e (s.waited f.wait) = .next t →
      ∃ taken loops rs, flowGo f taken (((s.waited f.wait).noteReads rs).withLoops loops) = .next t) →
      gate f.wait s e = .next u →
      u = s ∨ (s.holds f.wait = false ∧ ∃ taken loops rs, s.tooDeep (branchOpOf f taken) = false ∧
        u = (((s.waited f.wait).noteReads rs).withLoops loops).branched f taken) := by
    intro e he hg
    obtain ⟨-, rfl⟩ | ⟨hh, hk⟩ := gate_next hg
    · exact .inl rfl
    · obtain ⟨taken, loops, rs, hgo⟩ := he hk
      obtain ⟨hd, rfl⟩ := flowGo_next hgo
      refine .inr ⟨hh, taken, loops, rs, ?_, rfl⟩
      simpa [State.tooDeep, State.withLoops, State.withStream] using hd
  have self : ∀ t : State, t = t.withLoops t.stream.loops := fun t => rfl
  have plain : ∀ {b : Bool} {l : LoopState} {t : State}, flowGo f b ((s.waited f.wait).withLoops l) = .next t →
      ∃ taken loops rs, flowGo f taken (((s.waited f.wait).noteReads rs).withLoops loops) = .next t :=
    fun {b l t} ht => ⟨b, l, [], by rw [State.noteReads_nil]; exact ht⟩
  cases i <;> simp only [flowFields, reduceCtorEq, Option.some.injEq] at hf <;> subst hf
  case fcJump => exact key (fun ht => plain ((self (s.waited _)) ▸ ht)) h
  case fcLoop =>
    refine key (fun ht => ?_) h
    have hb := withIntConst_next ht
    simp only [loopBody] at hb
    split at hb
    · exact ⟨_, _, _, (self ((s.waited _).noteReads _)) ▸ hb⟩
    · split at hb
      · cases hb
      · exact ⟨_, _, _, hb⟩
  case fcRep =>
    refine key (fun ht => ?_) h
    have hb := withIntConst_next ht
    simp only [repBody] at hb
    split at hb
    · exact ⟨_, _, _, (self ((s.waited _).noteReads _)) ▸ hb⟩
    · split at hb
      · cases hb
      · exact ⟨_, _, _, hb⟩
  case fcEndloop =>
    refine key (fun ht => ?_) h
    simp only [endloopEffect] at ht
    split at ht
    · cases ht
    · split at ht <;> exact plain ht
  case fcEndrep =>
    refine key (fun ht => ?_) h
    simp only [endrepEffect] at ht
    split at ht
    · cases ht
    · split at ht <;> exact plain ht
  case fcContinue f =>
    exact key (e := fun t => flowGo f (t.jumps f) (t.withLoops (continuedLoops t.stream.loops))) (fun ht => plain ht) h

end Sys2Proof.Machine
end

