-- ==== Sys2Proof/Laws/Float.lean ====
section
/-! SUPPORT. The fields of a single-precision pattern, its value and its order. -/

namespace Sys2Proof.Machine

theorem floatExp_eq (w : Word) : floatExp w = w.toNat / 2 ^ 23 % 256 := by
  simp [floatExp, BitVec.extractLsb'_toNat, Nat.shiftRight_eq_div_pow]

theorem floatFrac_eq (w : Word) : floatFrac w = w.toNat % 2 ^ 23 := by
  simp [floatFrac, BitVec.extractLsb'_toNat]

theorem floatMag_eq (w : Word) : floatMag w = w.toNat % 2 ^ 31 := by
  simp [floatMag, BitVec.extractLsb'_toNat]

theorem msb_eq (w : Word) : w.msb = decide (2 ^ 31 ≤ w.toNat) := BitVec.msb_eq_decide w

theorem floatExp_lt (w : Word) : floatExp w < 256 := by rw [floatExp_eq]; omega

theorem floatFrac_lt (w : Word) : floatFrac w < 2 ^ 23 := by rw [floatFrac_eq]; omega

/-- The magnitude is the exponent and fraction fields. -/
theorem floatMag_fields (w : Word) : floatMag w = floatExp w * 2 ^ 23 + floatFrac w := by
  rw [floatMag_eq, floatExp_eq, floatFrac_eq]
  have := w.isLt
  omega

/-- A pattern is its sign and magnitude. -/
theorem toNat_fields (w : Word) : w.toNat = (if w.msb then 2 ^ 31 else 0) + floatMag w := by
  rw [floatMag_eq, msb_eq]
  have := w.isLt
  by_cases h : 2 ^ 31 ≤ w.toNat
  · simp only [h, decide_true, if_true]; omega
  · simp only [h, decide_false, Bool.false_eq_true, if_false]; omega

theorem eq_of_fields {v w : Word} (hs : v.msb = w.msb) (hm : floatMag v = floatMag w) : v = w := by
  apply BitVec.eq_of_toNat_eq
  rw [toNat_fields v, toNat_fields w, hs, hm]

/-- The size of a pattern's value times 2^149. -/
def floatSize (w : Word) : Nat :=
  if floatExp w = 0 then floatFrac w else (2 ^ 23 + floatFrac w) * 2 ^ (floatExp w - 1)

theorem floatScaled_eq (w : Word) : floatScaled w = if w.msb then -(floatSize w : Int) else (floatSize w : Int) := rfl

/-- Sizes rise with magnitudes. -/
theorem floatSize_lt {v w : Word} (h : floatMag v < floatMag w) : floatSize v < floatSize w := by
  rw [floatMag_fields, floatMag_fields] at h
  have fv := floatFrac_lt v
  have fw := floatFrac_lt w
  simp only [floatSize]
  by_cases hw : floatExp w = 0
  · have hv : floatExp v = 0 := by omega
    simp only [hv, hw, if_true]
    omega
  · rw [if_neg hw]
    have pw : 1 ≤ 2 ^ (floatExp w - 1) := Nat.one_le_two_pow
    by_cases hv : floatExp v = 0
    · rw [if_pos hv]
      calc floatFrac v < 2 ^ 23 + floatFrac w := by omega
        _ ≤ (2 ^ 23 + floatFrac w) * 2 ^ (floatExp w - 1) := Nat.le_mul_of_pos_right _ (by omega)
    · rw [if_neg hv]
      rcases Nat.lt_or_ge (floatExp v) (floatExp w) with he | he
      · calc (2 ^ 23 + floatFrac v) * 2 ^ (floatExp v - 1) < 2 ^ 24 * 2 ^ (floatExp v - 1) :=
              Nat.mul_lt_mul_of_pos_right (by omega) (Nat.two_pow_pos _)
          _ = 2 ^ 23 * 2 ^ (floatExp v - 1 + 1) := by rw [Nat.pow_succ]; ring
          _ ≤ 2 ^ 23 * 2 ^ (floatExp w - 1) :=
              Nat.mul_le_mul_left _ (Nat.pow_le_pow_right (by omega) (by omega))
          _ ≤ (2 ^ 23 + floatFrac w) * 2 ^ (floatExp w - 1) := Nat.mul_le_mul_right _ (by omega)
      · have : floatExp v = floatExp w := by omega
        rw [this]
        exact Nat.mul_lt_mul_of_pos_right (by omega) (by omega)

theorem floatSize_le {v w : Word} (h : floatMag v ≤ floatMag w) : floatSize v ≤ floatSize w := by
  rcases Nat.lt_or_ge (floatMag v) (floatMag w) with h1 | h1
  · exact Nat.le_of_lt (floatSize_lt h1)
  · have e : floatMag v = floatMag w := by omega
    have hx : floatExp v = floatExp w ∧ floatFrac v = floatFrac w := by
      rw [floatMag_fields, floatMag_fields] at e
      have := floatFrac_lt v
      have := floatFrac_lt w
      omega
    simp [floatSize, hx.1, hx.2]

/-- The order of keys is the order of values. -/
theorem floatKey_lt_of_floatScaled_lt {v w : Word} (h : floatScaled v < floatScaled w) : floatKey v < floatKey w := by
  by_contra hk
  simp only [floatScaled_eq, floatKey] at h hk
  cases hv : v.msb <;> cases hw : w.msb <;> simp only [hv, hw, if_true, Bool.false_eq_true, if_false] at h hk
  · have := floatSize_le (v := w) (w := v) (by omega)
    omega
  · omega
  · have m : floatMag v = 0 ∧ floatMag w = 0 := by omega
    have a := floatSize_le (v := v) (w := w) (by omega)
    have b := floatSize_le (v := w) (w := v) (by omega)
    have z : floatSize w = 0 := by
      have := m.2
      rw [floatMag_fields] at this
      simp [floatSize, show floatExp w = 0 by omega, show floatFrac w = 0 by omega]
    omega
  · have := floatSize_le (v := v) (w := w) (by omega)
    omega

/-! ## Rounding -/

/-- The pattern l * 2^23 + q, with q of 24 bits unless l is 0, is that of q * 2^l times 2^-149; q may be 2^24. -/
theorem floatSize_of_toNat {w : Word} {l q : Nat} (hw : w.toNat = l * 2 ^ 23 + q) (hl : l ≤ 252) (hq : q ≤ 2 ^ 24)
    (h : l = 0 ∨ 2 ^ 23 ≤ q) : w.msb = false ∧ floatExp w < 255 ∧ floatSize w = q * 2 ^ l := by
  refine ⟨by rw [msb_eq]; simp; omega, by rw [floatExp_eq]; omega, ?_⟩
  simp only [floatSize, floatExp_eq, floatFrac_eq]
  rcases Nat.lt_or_ge q (2 ^ 23) with h1 | h1
  · obtain rfl : l = 0 := by omega
    rw [if_pos (by omega), Nat.pow_zero]
    omega
  · rcases Nat.lt_or_ge q (2 ^ 24) with h2 | h2
    · rw [if_neg (by omega), show w.toNat / 2 ^ 23 % 256 - 1 = l by omega, show w.toNat % 2 ^ 23 = q - 2 ^ 23 by omega,
        show 2 ^ 23 + (q - 2 ^ 23) = q by omega]
    · obtain rfl : q = 2 ^ 24 := by omega
      rw [if_neg (by omega), show w.toNat / 2 ^ 23 % 256 - 1 = l + 1 by omega, show w.toNat % 2 ^ 23 = 0 by omega,
        Nat.pow_succ 2 l]
      ring

/-- The leading bits of n are 24, or n is below 2^23. -/
theorem leadingBits (n : Nat) : n / 2 ^ lowestBit n < 2 ^ 24 ∧ (lowestBit n = 0 ∨ 2 ^ 23 ≤ n / 2 ^ lowestBit n) := by
  unfold lowestBit
  by_cases hn : n = 0
  · subst hn; decide
  have hb := (Nat.log2_eq_iff hn).1 rfl
  have hp := Nat.two_pow_pos (n.log2 - 23)
  rcases Nat.lt_or_ge n.log2 23 with h | h
  · rw [show n.log2 - 23 = 0 by omega]
    refine ⟨?_, .inl rfl⟩
    have := Nat.pow_le_pow_right (show 0 < 2 by omega) (show n.log2 + 1 ≤ 24 by omega)
    rw [Nat.pow_zero, Nat.div_one]
    omega
  · obtain ⟨k, hk⟩ : ∃ k, n.log2 = 23 + k := ⟨n.log2 - 23, by omega⟩
    rw [hk] at hb hp
    rw [hk, show 23 + k - 23 = k by omega]
    rw [show 23 + k - 23 = k by omega] at hp
    rw [Nat.div_lt_iff_lt_mul hp, Nat.le_div_iff_mul_le hp, ← Nat.pow_add, ← Nat.pow_add]
    exact ⟨by rw [show 24 + k = 23 + k + 1 by omega]; exact hb.2, .inr hb.1⟩

theorem lowestBit_lt {n k : Nat} (h : n < 2 ^ (k + 24)) : lowestBit n ≤ k := by
  unfold lowestBit
  by_cases hn : n = 0
  · subst hn; simp
  have := (Nat.log2_lt hn).2 h
  omega

theorem lowestBit_small {n : Nat} (h : n < 2 ^ 23) : lowestBit n = 0 := by
  have := lowestBit_lt (n := n) (k := 0) (by omega)
  omega

theorem floatDown_toNat {n : Nat} (h : n < 2 ^ 150) :
    (floatDown n).toNat = lowestBit n * 2 ^ 23 + n / 2 ^ lowestBit n := by
  have hl := lowestBit_lt (n := n) (k := 126) h
  have hb := leadingBits n
  unfold floatDown
  by_cases hs : n < 2 ^ 23
  · rw [if_pos hs, lowestBit_small hs, BitVec.toNat_ofNat]
    simp; omega
  · rw [if_neg hs, BitVec.toNat_ofNat]
    have : 2 ^ 23 ≤ n / 2 ^ lowestBit n := by
      rcases hb.2 with h0 | h0
      · rw [h0, Nat.pow_zero, Nat.div_one]; omega
      · exact h0
    omega

/-- Rounding down keeps the leading bits. -/
theorem floatDown_size {n : Nat} (h : n < 2 ^ 150) : (floatDown n).msb = false ∧ floatExp (floatDown n) < 255 ∧
    floatSize (floatDown n) = n / 2 ^ lowestBit n * 2 ^ lowestBit n :=
  floatSize_of_toNat (floatDown_toNat h) (Nat.le_trans (lowestBit_lt (k := 126) h) (by omega))
    (Nat.le_of_lt (leadingBits n).1) (leadingBits n).2

/-- The next pattern is the next number. -/
theorem floatDown_succ_size {n : Nat} (h : n < 2 ^ 150) : (floatDown n + 1).msb = false ∧ floatExp (floatDown n + 1) < 255 ∧
    floatSize (floatDown n + 1) = (n / 2 ^ lowestBit n + 1) * 2 ^ lowestBit n := by
  have hl := lowestBit_lt (n := n) (k := 126) h
  have hb := leadingBits n
  refine floatSize_of_toNat ?_ (by omega) (by omega) (by omega)
  rw [BitVec.toNat_add, floatDown_toNat h, show (1 : Word).toNat = 1 from rfl, ← Nat.add_assoc]
  exact Nat.mod_eq_of_lt (by omega)

/-- A positive number needs no rounding. -/
theorem floatDown_floatSize {w : Word} (hs : w.msb = false) :
    floatDown (floatSize w) = w ∧ floatSize w % 2 ^ lowestBit (floatSize w) = 0 := by
  have hf := floatFrac_lt w
  have hx := floatExp_lt w
  have hw : w.toNat = floatExp w * 2 ^ 23 + floatFrac w := by rw [toNat_fields w, hs, floatMag_fields]; simp
  by_cases h0 : floatExp w = 0
  · have hn : floatSize w = floatFrac w := by simp [floatSize, h0]
    rw [hn, lowestBit_small hf]
    refine ⟨BitVec.eq_of_toNat_eq ?_, by omega⟩
    rw [floatDown_toNat (by omega), lowestBit_small hf, hw, h0]
    simp
  · obtain ⟨e, hee⟩ : ∃ e, floatExp w = e + 1 := ⟨floatExp w - 1, by omega⟩
    have hp : 0 < 2 ^ e := Nat.two_pow_pos e
    have hn : floatSize w = (2 ^ 23 + floatFrac w) * 2 ^ e := by simp [floatSize, hee]
    have hlow : lowestBit (floatSize w) = e := by
      have : Nat.log2 (floatSize w) = 23 + e := by
        rw [hn, Nat.log2_eq_iff (by positivity)]
        constructor
        · rw [Nat.pow_add]
          exact Nat.mul_le_mul_right _ (by omega)
        · rw [show 23 + e + 1 = 24 + e by omega, Nat.pow_add]
          exact Nat.mul_lt_mul_of_pos_right (by omega) hp
      simp [lowestBit, this]
    have hge : 2 ^ 23 ≤ floatSize w := by
      rw [hn]
      calc 2 ^ 23 ≤ 2 ^ 23 + floatFrac w := by omega
        _ ≤ (2 ^ 23 + floatFrac w) * 2 ^ e := Nat.le_mul_of_pos_right _ hp
    refine ⟨BitVec.eq_of_toNat_eq ?_, by rw [hlow, hn]; exact Nat.mul_mod_left _ _⟩
    rw [floatDown, if_neg (by omega), hlow, hn, Nat.mul_div_cancel _ hp, BitVec.toNat_ofNat, hw, hee]
    omega

/-- Rounding a positive number, either way, gives that number. -/
theorem floatRound_floatSize {w : Word} (hs : w.msb = false) (up : Bool) :
    floatRound up (floatSize w) = w := by
  simp [floatRound, floatDown_floatSize hs]

end Sys2Proof.Machine
end

