-- ==== Sys2Proof/Laws/Launch.lean ====
section
/-! SUPPORT. Free picks from a list, and the groups that a launch draws. -/

namespace Sys2Proof.Machine

/-- A pick from a list that is not empty is one of its places. -/
theorem pickIndex_lt {α : Type} (tick n : Nat) {l : List α} (h : l ≠ []) : pickIndex tick n l < l.length := by
  match l, h with
  | [_], _ => simp [pickIndex]
  | _ :: _ :: _, _ => exact Nat.mod_lt _ (by simp)

/-- A group and what it leaves are together what there was. -/
theorem drawGroup_perm (tick g : Nat) (l : List IndexPair) :
    ((drawGroup tick g l).1 ++ (drawGroup tick g l).2).Perm l := by
  induction g generalizing l with
  | zero => simp [drawGroup]
  | succ g ih =>
    simp only [drawGroup]
    split
    · simp
    · rename_i xy h
      refine (List.Perm.cons _ (ih _)).trans ?_
      obtain ⟨hlt, rfl⟩ := List.getElem?_eq_some_iff.1 h
      exact List.getElem_cons_eraseIdx_perm hlt

/-- Of index pairs that wait, a group takes at least one. -/
theorem drawGroup_ne_nil (tick g : Nat) {l : List IndexPair} (h : l ≠ []) : (drawGroup tick (g + 1) l).1 ≠ [] := by
  simp [drawGroup, List.getElem?_eq_getElem (pickIndex_lt tick g h)]

/-- The moves to choose from are enabled moves. -/
theorem openMoves_subset {s : State} {m : Move} (h : m ∈ s.openMoves) : m ∈ s.moves := by
  simp only [State.openMoves] at h
  split at h
  · exact h
  · rename_i d ds hd
    exact List.mem_of_mem_filter (hd ▸ h : m ∈ s.moves.filter (s.stream.isDue s.tick))

/-- Where a move is enabled there is one to choose. -/
theorem openMoves_ne_nil {s : State} (h : s.moves ≠ []) : s.openMoves ≠ [] := by
  simp only [State.openMoves]
  split
  · exact h
  · simp

/-- The move that is picked is one of those to choose from. -/
theorem pickMove_mem_open {s : State} {m : Move} (h : s.pickMove = some m) : m ∈ s.openMoves :=
  List.mem_of_getElem? h

/-- The move that is picked is one of the enabled ones. -/
theorem pickMove_mem {s : State} {m : Move} (h : s.pickMove = some m) : m ∈ s.moves :=
  openMoves_subset (pickMove_mem_open h)

/-- A stream with an enabled move picks one. -/
theorem pickMove_isSome {s : State} (h : s.moves ≠ []) : ∃ m, s.pickMove = some m :=
  ⟨_, List.getElem?_eq_getElem (pickIndex_lt s.tick 0 (openMoves_ne_nil h))⟩

/-- While a move is due, only moves that are due are picked. -/
theorem pickMove_due {s : State} {m d : Move} (hd : d ∈ s.moves) (hdue : s.stream.isDue s.tick d = true)
    (h : s.pickMove = some m) : s.stream.isDue s.tick m = true := by
  have hm := pickMove_mem_open h
  simp only [State.openMoves] at hm
  split at hm
  · rename_i hn
    exact absurd hdue (by simpa using List.filter_eq_nil_iff.1 hn d hd)
  · rename_i x xs hx
    exact (List.mem_filter.1 (hx ▸ hm : m ∈ s.moves.filter (s.stream.isDue s.tick))).2

/-! ## Streams -/

/-- Bringing a stream to the front only reorders the streams. -/
theorem focus_streams (s : State) (i : Nat) : (s.focus i).streams.Perm s.streams := by
  cases i with
  | zero => exact .refl _
  | succ i =>
    simp only [State.focus]
    split
    · exact .refl _
    · rename_i st h
      obtain ⟨hlt, rfl⟩ := List.getElem?_eq_some_iff.1 h
      simp only [State.streams]
      have h1 : (s.others.set i s.stream).Perm (s.stream :: s.others.eraseIdx i) := by
        have := List.set_perm_cons_eraseIdx hlt s.stream
        exact this
      refine (List.Perm.cons _ h1).trans ((List.Perm.swap _ _ _).trans (List.Perm.cons _ ?_))
      exact List.getElem_cons_eraseIdx_perm hlt

theorem turn_streams (s : State) : s.turn.streams.Perm s.streams := focus_streams _ _

/-- A property of all streams holds whichever is in front. -/
theorem turn_forall {s : State} {P : Stream → Prop} : (∀ st ∈ s.turn.streams, P st) ↔ ∀ st ∈ s.streams, P st :=
  ⟨fun h st hs => h st ((turn_streams s).mem_iff.2 hs), fun h st hs => h st ((turn_streams s).mem_iff.1 hs)⟩

/-- With one stream there is no other to bring to the front. -/
theorem turn_alone {s : State} (h : s.others = []) : s.turn = s := by
  simp only [State.turn]
  generalize (s.turnPlaces[pickIndex s.tick 1 s.turnPlaces]?).getD 0 = i
  cases i with
  | zero => rfl
  | succ i => simp [State.focus, h]

/-- No index pair waits, so none can be launched. -/
theorem canLaunch_nil {s : State} (h : s.waiting = []) : s.canLaunch = false := by
  simp [State.canLaunch, h]

/-- With all processors idle there is room for a group. -/
theorem canLaunch_idle {s : State} (hr : s.running = false) (hw : s.waiting ≠ []) : s.canLaunch = true := by
  simp [State.canLaunch, State.busy, hr, hw, Config.nproc]

end Sys2Proof.Machine
end

