-- ==== Sys2Proof/Laws/Output.lean ====
section
/-! SUPPORT. What the tests and the requests of an OUTPUT's processors do together, whichever of them comes first. -/

namespace Sys2Proof.Machine

/-- The CO's cache after the request of one processor. -/
def State.cacheAfter (s : State) (base : Word) (xy : IndexPair) : List ((Word × IndexPair) × Word) :=
  (s.condRead base xy).2.condCache

theorem State.condRead_state (s : State) (base : Word) (xy : IndexPair) :
    (s.condRead base xy).2 =
      { s with condCache := s.cacheAfter base xy, reads := s.reads ++ s.condReads base xy } := by
  simp only [State.cacheAfter, State.condRead, State.condReads]
  split <;> simp [State.condFill, State.noteReads]

/-- The request of one index pair does not change what is cached for another one. -/
theorem State.condCached_cacheAfter (s : State) (base : Word) (rs : List ReadRec) {xy other : IndexPair} (h : other ≠ xy) :
    { s with condCache := s.cacheAfter base xy, reads := rs }.condCached base other = s.condCached base other := by
  simp only [State.condCached]
  split
  · rfl
  · congr 1
    simp only [State.cacheAfter, State.condRead]
    split
    · rfl
    · simp only [State.condFill, State.noteReads, List.find?_append, List.find?_filter]
      have hp : ∀ e : (Word × IndexPair) × Word,
          decide ((e.1 != (base, xy)) = true ∧ (e.1 == (base, other)) = true) = (e.1 == (base, other)) := by
        intro e
        by_cases he : e.1 = (base, other) <;> simp [he, h]
      have hn : ((base, xy) == (base, other)) = false := by simp [Ne.symm h]
      simp only [hp, List.find?_cons, hn, List.find?_nil]
      cases List.find? (fun e => e.1 == (base, other)) s.condCache <;> rfl

/-- The request of one index pair does not change what another one reads. -/
theorem State.condRead_cacheAfter (s : State) (base : Word) (rs : List ReadRec) {xy other : IndexPair} (h : other ≠ xy) :
    ({ s with condCache := s.cacheAfter base xy, reads := rs }.condRead base other).1 = (s.condRead base other).1 := by
  simp only [State.condRead, s.condCached_cacheAfter base rs h]
  cases s.condCached base other <;> rfl

theorem State.condReads_cacheAfter (s : State) (base : Word) (rs : List ReadRec) {xy other : IndexPair} (h : other ≠ xy) :
    { s with condCache := s.cacheAfter base xy, reads := rs }.condReads base other = s.condReads base other := by
  simp only [State.condReads, s.condCached_cacheAfter base rs h]

/-- The cache after a request holds the value that was read. -/
theorem State.mem_cacheAfter (s : State) (base : Word) (xy : IndexPair) :
    ((base, xy), (s.condRead base xy).1) ∈ s.cacheAfter base xy := by
  simp only [State.cacheAfter, State.condRead]
  split
  · rename_i b hb
    simp only [State.condCached] at hb
    split at hb
    · cases hb
    · obtain ⟨e, he, rfl⟩ := Option.map_eq_some_iff.1 hb
      have hk := List.find?_some he
      simp only [beq_iff_eq] at hk
      rw [← hk]
      exact List.mem_of_find?_eq_some he
  · simp [State.condFill, State.noteReads]

/-- The cache keeps every other request's value. -/
theorem State.mem_cacheAfter_other (s : State) (base : Word) (xy : IndexPair) {key : Word × IndexPair} {b : Word}
    (h : key ≠ (base, xy)) : (key, b) ∈ s.cacheAfter base xy ↔ (key, b) ∈ s.condCache := by
  simp only [State.cacheAfter, State.condRead]
  split
  · rfl
  · simp [State.condFill, State.noteReads, h]

/-- Whether a request is dispatched depends on the cache only through the value read. -/
theorem State.passes_condCache (s : State) (cache : List ((Word × IndexPair) × Word)) (rs : List ReadRec) (o : OutputFields)
    (p : Proc) (h : ∀ base, s.ctl.condBuf = some base →
      ({ s with condCache := cache, reads := rs }.condRead base p.xy).1 = (s.condRead base p.xy).1) :
    { s with condCache := cache, reads := rs }.passes o p = s.passes o p := by
  simp only [State.passes]
  cases hc : s.ctl.cond with
  | never => rfl
  | less =>
    cases hb : s.ctl.condBuf with
    | none => rfl
    | some base =>
      simp only
      rw [h base hb]
      rfl

/-- What a test reads of memory, where it reads the buffer. -/
theorem State.testReads_less (s : State) {base : Word} (hl : s.ctl.cond = .less) (hb : s.ctl.condBuf = some base) (p : Proc) :
    s.testReads p = s.condReads base p.xy := by
  simp [State.testReads, hl, hb]

theorem State.testReads_untested (s : State) (h : ¬(s.ctl.cond = .less ∧ s.ctl.condBuf ≠ none)) (p : Proc) :
    s.testReads p = [] := by
  simp only [State.testReads]
  cases hc : s.ctl.cond with
  | never => rfl
  | less =>
    cases hb : s.ctl.condBuf with
    | none => rfl
    | some base => exact absurd ⟨hc, by simp [hb]⟩ h

/-- A test that does not read the buffer changes nothing, and is refused only for want of it. -/
theorem State.coTest_untested (s : State) {o : OutputFields} {p : Proc} (h : ¬(s.ctl.cond = .less ∧ s.ctl.condBuf ≠ none))
    (hb : o.conditional = true → s.ctl.cond = .less → s.ctl.condBuf ≠ none) :
    s.coTest o p.xy (s.outVals o p) = .ok (s.passes o p, s) := by
  simp only [State.coTest, State.passes]
  cases hc : s.ctl.cond with
  | never => rfl
  | less =>
    cases hn : s.ctl.condBuf with
    | some base => exact absurd ⟨hc, by simp [hn]⟩ h
    | none =>
      cases hcc : o.conditional with
      | true => exact absurd hn (hb hcc hc)
      | false => simp

/-- What the tests of some processors leave in the CO's cache: the values that they read, and all else that it held. -/
structure CacheOf (s : State) (ps : List Proc) (cache : List ((Word × IndexPair) × Word)) : Prop where
  untested : s.ctl.cond = .never ∨ s.ctl.condBuf = none → cache = s.condCache
  tested : ∀ base, s.ctl.cond = .less → s.ctl.condBuf = some base →
    (∀ p ∈ ps, ((base, p.xy), (s.condRead base p.xy).1) ∈ cache) ∧
    ∀ key, (∀ p ∈ ps, key ≠ (base, p.xy)) → ∀ b, (key, b) ∈ cache ↔ (key, b) ∈ s.condCache

/-- The tests of processors with different index pairs, whose buffer is set and of which none reads what another instance wrote:
each answers as it would alone. -/
theorem testAll_eq (o : OutputFields) (ps : List Proc) (s : State) (hn : (ps.map Proc.xy).Nodup)
    (hb : ps ≠ [] → o.conditional = true → s.ctl.cond = .less → s.ctl.condBuf ≠ none)
    (hr : ∀ p ∈ ps, s.readsRace (s.testReads p) = false) :
    ∃ cache, testAll o ps s = .ok (ps.map (s.passes o),
        { s with condCache := cache, reads := s.reads ++ ps.flatMap s.testReads }) ∧ CacheOf s ps cache := by
  induction ps generalizing s with
  | nil => exact ⟨s.condCache, by simp [testAll], ⟨fun _ => rfl, fun _ _ _ => ⟨by simp, by simp⟩⟩⟩
  | cons p ps ih =>
    simp only [List.map_cons, List.nodup_cons, List.mem_map, not_exists, not_and] at hn
    by_cases hc : s.ctl.cond = .less ∧ s.ctl.condBuf ≠ none
    · obtain ⟨hl, hset⟩ := hc
      obtain ⟨base, hbase⟩ := Option.ne_none_iff_exists'.1 hset
      have ht := s.testReads_less hl hbase
      have hrace : s.readsRace (s.condReads base p.xy) = false := by rw [← ht p]; exact hr p (by simp)
      have h1 : s.coTest o p.xy (s.outVals o p) = .ok (s.passes o p,
          { s with condCache := s.cacheAfter base p.xy, reads := s.reads ++ s.condReads base p.xy }) := by
        simp [State.coTest, hl, hbase, hrace, State.condRead_state, State.passes]
      have ht1 : ∀ q ∈ ps,
          { s with condCache := s.cacheAfter base p.xy, reads := s.reads ++ s.condReads base p.xy }.testReads q =
            s.testReads q := fun q hq => by
        rw [ht q]
        refine Eq.trans ?_ (State.condReads_cacheAfter s base (s.reads ++ s.condReads base p.xy) (hn.1 q hq))
        exact State.testReads_less
          { s with condCache := s.cacheAfter base p.xy, reads := s.reads ++ s.condReads base p.xy } hl hbase q
      obtain ⟨cache, h2, h3⟩ := ih
        { s with condCache := s.cacheAfter base p.xy, reads := s.reads ++ s.condReads base p.xy } hn.2 (fun _ _ _ => hset)
        (fun q hq => by
          rw [ht1 q hq]
          exact (State.readsRace_congr rfl rfl _).trans (hr q (by simp [hq])))
      refine ⟨cache, ?_, fun h => ?_, fun b _ hb' => ?_⟩
      · simp only [testAll, h1, h2, List.map_cons, List.flatMap_cons, Except.ok.injEq, Prod.mk.injEq, List.cons.injEq,
          true_and]
        refine ⟨List.map_congr_left fun q hq => State.passes_condCache _ _ _ _ _ fun b hb' => ?_, ?_⟩
        · rw [hbase] at hb'
          cases hb'
          exact State.condRead_cacheAfter _ _ _ (hn.1 q hq)
        · rw [List.flatMap_congr ht1, ht p, List.append_assoc]
      · rcases h with h | h
        · rw [hl] at h; cases h
        · exact absurd h hset
      · rw [hbase] at hb'
        cases hb'
        obtain ⟨r1, r2⟩ := h3.tested base hl hbase
        refine ⟨fun q hq => ?_, fun key hk b => ?_⟩
        · rcases List.mem_cons.1 hq with rfl | hq
          · rw [r2 _ fun x hx he => hn.1 x hx (by simpa using he.symm)]
            exact State.mem_cacheAfter _ _ _
          · have h4 := r1 q hq
            rwa [State.condRead_cacheAfter _ _ _ (hn.1 q hq)] at h4
        · rw [r2 key fun x hx => hk x (by simp [hx])]
          exact State.mem_cacheAfter_other _ _ _ (hk p (by simp))
    · have h1 := s.coTest_untested (p := p) hc (hb (by simp))
      obtain ⟨cache, h2, h3⟩ := ih s hn.2 (fun _ => hb (by simp)) (fun q hq => hr q (by simp [hq]))
      exact ⟨cache, by simp [testAll, h1, h2, s.testReads_untested hc p], h3.untested,
        fun b h4 h5 => absurd ⟨h4, by simp [h5]⟩ hc⟩

/-- A request leaves no other one with more to read of memory. -/
theorem State.condReads_cacheAfter_subset (s : State) (base : Word) (xy other : IndexPair) (rs : List ReadRec) :
    { s with condCache := s.cacheAfter base xy, reads := rs }.condReads base other ⊆ s.condReads base other := by
  by_cases h : other = xy
  · subst h
    intro r hr
    cases hc : s.condCached base other with
    | none =>
      simp only [State.condReads, hc] at hr ⊢
      split at hr
      · cases hr
      · exact hr
    | some b =>
      have e : s.cacheAfter base other = s.condCache := by simp [State.cacheAfter, State.condRead, hc]
      rw [e] at hr
      exact hr
  · rw [s.condReads_cacheAfter base rs h]
    exact fun _ hr => hr

/-- What a test leaves for the others to read. -/
theorem State.coTest_testReads {s t : State} {o : OutputFields} {p : Proc} {b : Bool}
    (h : s.coTest o p.xy (s.outVals o p) = .ok (b, t)) :
    t.reads = s.reads ++ s.testReads p ∧ ∀ q, t.testReads q ⊆ s.testReads q := by
  by_cases hc : s.ctl.cond = .less ∧ s.ctl.condBuf ≠ none
  · obtain ⟨hl, hset⟩ := hc
    obtain ⟨base, hb⟩ := Option.ne_none_iff_exists'.1 hset
    simp only [State.coTest, hl, hb] at h
    split at h
    · cases h
    · cases h
      rw [State.condRead_state, s.testReads_less hl hb]
      refine ⟨rfl, fun q => ?_⟩
      rw [s.testReads_less hl hb]
      refine fun r hr => s.condReads_cacheAfter_subset base p.xy q.xy (s.reads ++ s.condReads base p.xy) ?_
      rwa [State.testReads_less { s with condCache := s.cacheAfter base p.xy, reads := s.reads ++ s.condReads base p.xy }
        hl hb q] at hr
  · have ht : t = s := by
      simp only [State.coTest] at h
      split at h
      · cases h; rfl
      · split at h
        · cases h
        · cases h; rfl
      · rename_i base hl hb
        exact absurd ⟨hl, by simp [hb]⟩ hc
    subst ht
    exact ⟨by simp [t.testReads_untested hc], fun _ _ hr => hr⟩

/-- What is recorded as read by the tests is what the processors' tests read. -/
theorem testAll_reads {o : OutputFields} {ps : List Proc} {s t : State} {bs : List Bool}
    (h : testAll o ps s = .ok (bs, t)) :
    ∃ rs, t.reads = s.reads ++ rs ∧ ∀ r ∈ rs, ∃ p ∈ ps, r ∈ s.testReads p := by
  induction ps generalizing s bs with
  | nil =>
    simp only [testAll, Except.ok.injEq, Prod.mk.injEq] at h
    exact ⟨[], by simp [h.2], by simp⟩
  | cons p ps ih =>
    simp only [testAll] at h
    split at h
    · cases h
    · rename_i b u hu
      split at h
      · cases h
      · rename_i cs v hv
        simp only [Except.ok.injEq, Prod.mk.injEq] at h
        obtain ⟨-, rfl⟩ := h
        obtain ⟨rs, e, hrs⟩ := ih hv
        obtain ⟨e1, hsub⟩ := State.coTest_testReads hu
        refine ⟨s.testReads p ++ rs, by rw [e, e1, List.append_assoc], fun r hr => ?_⟩
        rcases List.mem_append.1 hr with hr | hr
        · exact ⟨p, by simp, hr⟩
        · obtain ⟨q, hq, hm⟩ := hrs r hr
          exact ⟨q, by simp [hq], hsub q hm⟩

/-- Byte j of element e of an output write request (spec/20_memory.md R63, R65): of a FLOAT32 element, byte j mod 4 of its component
j / 4, the lowest first. -/
def outElemByte (d : Desc) (xy : IndexPair) (vals : List Masked) (e j : Nat) : Byte :=
  match d.layout.format with
  | .uint16x1 => Config.outByte d xy vals e j
  | .uint8x4 => Config.outByte d xy vals e j
  | .float32x1 => (Config.outWord d xy vals e (j / 4)).extractLsb' (8 * (j % 4)) 8
  | .float32x2 => (Config.outWord d xy vals e (j / 4)).extractLsb' (8 * (j % 4)) 8
  | .float32x4 => (Config.outWord d xy vals e (j / 4)).extractLsb' (8 * (j % 4)) 8

/-- The bytes of an element are as many as its format has, each at its place. -/
theorem outElemBytes_eq (d : Desc) (xy : IndexPair) (vals : List Masked) (e : Nat) :
    outElemBytes d xy vals e = (List.range (elemSize d.layout.format)).map (outElemByte d xy vals e) := by
  cases hf : d.layout.format <;> simp only [outElemBytes, hf, elemSize, List.range_succ, List.range_zero] <;>
    simp [outElemByte, hf, wordBytes]

/-- A write to no byte of an address does not cover it. -/
theorem read_none_of_not_mem {cs : List Host.Cell} {a : Nat} (h : ∀ c ∈ cs, c.1 ≠ a) : Memory.read cs a = none := by
  cases hr : Memory.read cs a with
  | none => rfl
  | some v => exact absurd rfl (h _ (assocGet_mem hr))

/-- The requests of processors with different index pairs that disturb neither the program nor another instance, nor each
other: every one is recorded, and those that pass are dispatched. -/
theorem outputAll_eq (o : OutputFields) (pass : Proc → Bool) (cells : Proc → List Host.Cell) (ps : List Proc) (s : State)
    (hn : (ps.map Proc.xy).Nodup)
    (hcells : ∀ p ∈ ps, cells p =
      if pass p then (s.outDesc o.out).elim [] fun d => outCells d p.xy (s.outVals o p) else [])
    (hset : ∀ p ∈ ps, pass p = true → s.outDesc o.out ≠ none)
    (hfree : ∀ p ∈ ps, ∀ c ∈ cells p, s.inProgram c.1 = false ∧ s.sharedWithOther p.xy c.1 = false)
    (hapart : ∀ p ∈ ps, ∀ q ∈ ps, p.xy ≠ q.xy → ∀ c ∈ cells p, ∀ d ∈ cells q, c.1 ≠ d.1) :
    outputAll o (ps.zip (ps.map pass)) s = .ok ({ s with
        outputs := s.outputs ++ ps.map fun p =>
          { run := s.runNo, xy := p.xy, out := o.out, uncached := o.uncached, vals := s.outVals o p, written := pass p }
        writes := s.writes ++ (ps.filter pass).map fun p =>
          { run := s.runNo, xy := p.xy, issued := s.tick, acquired := o.acquire && o.uncached, synced := none
            unsaid := false, cells := cells p }
        mem := if o.uncached then s.mem else Memory.writeAll s.mem (ps.flatMap cells) },
      ps.map fun p => { xy := p.xy, coords := Quad.all 0, mask := Quad.all false, cells := cells p }) := by
  induction ps generalizing s with
  | nil => simp [outputAll, Memory.writeAll]
  | cons p ps ih =>
    simp only [List.map_cons, List.nodup_cons, List.mem_map, not_exists, not_and] at hn
    have hreq : s.outRequest o p.xy (s.outVals o p) (pass p) = .ok (cells p) := by
      have hc := hcells p (by simp)
      have hk := hfree p (by simp)
      simp only [State.outRequest]
      cases hp : pass p with
      | false => rw [hp] at hc; simp_all
      | true =>
        rw [hp] at hc
        obtain ⟨d, hd⟩ := Option.ne_none_iff_exists'.1 (hset p (by simp) hp)
        simp only [hd, Option.elim_some, if_true] at hc
        rw [hc] at hk
        simp only [hd, Bool.not_true, Bool.false_eq_true, if_false]
        rw [if_neg, if_neg, hc]
        · simp only [List.any_eq_true, not_exists, not_and]
          intro c h; simp [(hk c h).2]
        · simp only [List.any_eq_true, not_exists, not_and]
          intro c h; simp [(hk c h).1]
    have hone : outputOne o p (pass p) s = .ok (s.recordOutput o p.xy (s.outVals o p) (pass p) (cells p),
        { xy := p.xy, coords := Quad.all 0, mask := Quad.all false, cells := cells p }) := by
      simp [outputOne, hreq]
    have hrest := ih (s.recordOutput o p.xy (s.outVals o p) (pass p) (cells p)) hn.2
      (fun q hq => hcells q (by simp [hq])) (fun q hq => hset q (by simp [hq]))
      (fun q hq c hc => by
        obtain ⟨k1, k2⟩ := hfree q (by simp [hq]) c hc
        refine ⟨k1, ?_⟩
        have hcov : Memory.read (cells p) c.1 = none := read_none_of_not_mem fun d hd =>
          hapart p (by simp) q (by simp [hq]) (fun h => hn.1 q hq h.symm) d hd c hc
        simp only [State.sharedWithOther, State.writtenByOther, State.readByOther, Bool.or_eq_false_iff] at k2 ⊢
        refine ⟨?_, k2.2⟩
        simp only [State.recordOutput]
        cases pass p
        · exact k2.1
        · simp only [if_true, List.any_append, Bool.or_eq_false_iff]
          exact ⟨k2.1, by simp [WriteRec.covers, hcov]⟩)
      (fun a ha b hb => hapart a (by simp [ha]) b (by simp [hb]))
    have hv : ∀ q, (s.recordOutput o p.xy (s.outVals o p) (pass p) (cells p)).outVals o q = s.outVals o q := fun _ => rfl
    simp only [List.map_cons, List.zip_cons_cons, outputAll, hone, hrest, hv]
    congr 2
    simp only [State.recordOutput]
    congr 1
    · cases o.uncached <;> simp [Memory.writeAll_append]
    · cases hp : pass p <;> simp [hp]
    · simp

end Sys2Proof.Machine
end

