-- ==== Sys2Proof/Laws/PerInstr.lean ====
section
/-! SUPPORT. A law for each instruction: which terms have words, and what their opcode words look like
(spec/30_encoding.md R100 to R102, R108). -/

namespace Sys2Proof.Laws.EncodingShape

/-- An instruction of the array has no words; a command that has them has an opcode word and one or two parameters, and the
opcode word's top bits, parameter count and low byte are as in both visible ones (R102). -/
def Statement (i : Instr) : Prop :=
  (i.isDpp = true → encode i = none) ∧
  ∀ ws, encode i = some ws → ∃ op ps, ws = op :: ps ∧ 1 ≤ ps.length ∧ ps.length ≤ 2 ∧
    op.extractLsb' 30 2 = 3 ∧ (op.extractLsb' 16 14).toNat + 1 = ps.length ∧ op.extractLsb' 0 8 = 0

/-- A term without words meets the statement. -/
theorem of_none {i : Instr} (h : encode i = none) : Statement i :=
  ⟨fun _ => h, fun ws hw => by rw [h] at hw; cases hw⟩

theorem texNop (t : TexFields) : Statement (.texNop t) := of_none rfl

theorem texLookup (t : TexFields) : Statement (.texLookup t) := of_none rfl

theorem texKillLtZero (t : TexFields) : Statement (.texKillLtZero t) := of_none rfl

theorem texLookupProj (t : TexFields) : Statement (.texLookupProj t) := of_none rfl

theorem texLookupUncached (t : TexFields) : Statement (.texLookupUncached t) := of_none rfl

theorem opRgbMax (p : RgbPart) (co : Option AlphaHalf) (c : AluCommon) : Statement (.opRgbMax p co c) := of_none rfl

theorem opRgbCnd (p : RgbPart) (co : Option AlphaHalf) (c : AluCommon) : Statement (.opRgbCnd p co c) := of_none rfl

theorem opRgbCmp (p : RgbPart) (co : Option AlphaHalf) (c : AluCommon) : Statement (.opRgbCmp p co c) := of_none rfl

theorem opRgbFrc (p : RgbPart) (co : Option AlphaHalf) (c : AluCommon) : Statement (.opRgbFrc p co c) := of_none rfl

theorem opAlphaMax (p : AlphaPart) (co : Option RgbHalf) (c : AluCommon) : Statement (.opAlphaMax p co c) := of_none rfl

theorem opAlphaCnd (p : AlphaPart) (co : Option RgbHalf) (c : AluCommon) : Statement (.opAlphaCnd p co c) := of_none rfl

theorem opAlphaCmp (p : AlphaPart) (co : Option RgbHalf) (c : AluCommon) : Statement (.opAlphaCmp p co c) := of_none rfl

theorem opAlphaFrc (p : AlphaPart) (co : Option RgbHalf) (c : AluCommon) : Statement (.opAlphaFrc p co c) := of_none rfl

theorem aluUnnamed (h : UnnamedHalf) (c : AluCommon) : Statement (.aluUnnamed h c) := of_none rfl

theorem aluCrossEngineCopy (h : CopyHalf) (c : AluCommon) : Statement (.aluCrossEngineCopy h c) := of_none rfl

theorem output (o : OutputFields) : Statement (.output o) := of_none rfl

theorem fcJump (f : Flow) : Statement (.fcJump f) := of_none rfl

theorem fcLoop (f : Flow) (k : Nat) : Statement (.fcLoop f k) := of_none rfl

theorem fcEndloop (f : Flow) : Statement (.fcEndloop f) := of_none rfl

theorem fcRep (f : Flow) (k : Nat) : Statement (.fcRep f k) := of_none rfl

theorem fcEndrep (f : Flow) : Statement (.fcEndrep f) := of_none rfl

theorem fcContinue (f : Flow) : Statement (.fcContinue f) := of_none rfl

theorem setConstiFmt (b : BaseParam) (f : FormatParam) : Statement (.setConstiFmt b f) := by
  refine ⟨fun h => (by cases h), fun ws hw => ?_⟩
  simp only [encode, Option.some.injEq] at hw
  exact ⟨_, _, hw.symm, by simp, by simp, by decide, rfl, by decide⟩

theorem setCondTest (c : Condition) : Statement (.setCondTest c) := by
  refine ⟨fun h => (by cases h), fun ws hw => ?_⟩
  simp only [encode, Option.some.injEq] at hw
  exact ⟨_, _, hw.symm, by simp, by simp, by decide, rfl, by decide⟩

theorem readPerfCounters (addr : Word) : Statement (.readPerfCounters addr) := of_none rfl

theorem floatConstFmt (b : BaseParam) (f : FormatParam) : Statement (.floatConstFmt b f) := of_none rfl

theorem inputBase (k : Nat) (b : BaseParam) : Statement (.inputBase k b) := of_none rfl

theorem outputBase (k : Nat) (b : BaseParam) : Statement (.outputBase k b) := of_none rfl

theorem programData (b : BaseParam) (f : FormatParam) : Statement (.programData b f) := of_none rfl

theorem sizeParameter (v : SizeParam) : Statement (.sizeParameter v) := of_none rfl

theorem domainBounds (i0 j0 : DomainBound) : Statement (.domainBounds i0 j0) := of_none rfl

theorem programStart : Statement (.programStart) := of_none rfl

theorem perfControl (start : Bool) (param : Word) : Statement (.perfControl start param) := of_none rfl

end Sys2Proof.Laws.EncodingShape
end

