-- ==== Sys2Proof/Laws/Writes.lean ====
section
/-! SUPPORT. What a performed kill records of its processors' outputs, and what a flush keeps of recorded writes. -/

namespace Sys2Proof.Machine

/-! ## What a flush keeps -/

/-- A write without the bytes replaced since. -/
theorem WriteRec.read_besides (w : WriteRec) (later : List WriteRec) (a : Nat) :
    Memory.read (w.besides later).cells a =
      if later.any fun v => !v.unsaid && v.covers a then none else Memory.read w.cells a := by
  have h := assocGet_filter w.cells (fun a => !later.any fun v => !v.unsaid && v.covers a) a
  simp only [WriteRec.besides, Memory.read, h]
  cases later.any fun v => !v.unsaid && v.covers a <;> rfl

theorem mem_unsaidLeft {ws : List WriteRec} {v : WriteRec} :
    v ∈ unsaidLeft ws ↔ ∃ pre w post, ws = pre ++ w :: post ∧ w.unsaid = true ∧ v = w.besides post := by
  induction ws with
  | nil => simp [unsaidLeft]
  | cons x xs ih =>
    have hx : v ∈ unsaidLeft (x :: xs) ↔ (x.unsaid = true ∧ v = x.besides xs) ∨ v ∈ unsaidLeft xs := by
      simp only [unsaidLeft]
      split <;> rename_i h <;> simp [h]
    rw [hx, ih]
    constructor
    · rintro (h | ⟨pre, w, post, rfl, h⟩)
      · exact ⟨[], x, xs, rfl, h⟩
      · exact ⟨x :: pre, w, post, rfl, h⟩
    · rintro ⟨pre, w, post, h, hw⟩
      cases pre with
      | nil => cases h; exact .inl hw
      | cons y pre => cases h; exact .inr ⟨pre, w, post, rfl, hw⟩

/-! ## What a kill records -/

theorem killTest_eq_any (mask : Mask) (v : Vec4) :
    killTest mask v = [Comp.r, .g, .b, .a].any fun c => mask.get c && ltZero (v.get c) := by
  simp [killTest, Quad.get, Bool.or_assoc]

theorem outputFields_eq_some {i : Instr} {o : OutputFields} : outputFields i = some o ↔ i = .output o := by
  cases i <;> simp [outputFields]

theorem State.mem_killedOutputs {s : State} {e : Pend} {w : WriteRec} :
    w ∈ s.killedOutputs e ↔ ∃ p ∈ s.stream.procs, p.killed = false ∧ e.kills p = true ∧ ∃ o, Instr.output o ∈ s.program ∧
      w = { run := s.runNo, xy := p.xy, issued := s.tick, acquired := false, synced := none, unsaid := true
            cells := s.unsaidCells p.xy o } := by
  simp only [State.killedOutputs, List.mem_flatMap, List.mem_filter, List.mem_map, List.mem_filterMap,
    outputFields_eq_some, Bool.and_eq_true, Bool.not_eq_true']
  constructor
  · rintro ⟨p, ⟨hp, hk, he⟩, o, ⟨i, hi, rfl⟩, rfl⟩
    exact ⟨p, hp, hk, he, o, hi, rfl⟩
  · rintro ⟨p, hp, hk, he, o, ho, rfl⟩
    exact ⟨p, ⟨hp, hk, he⟩, o, ⟨_, ho, rfl⟩, rfl⟩

theorem assocGet_isSome {α : Type} (l : List (Nat × α)) (k : Nat) : (assocGet l k).isSome = true ↔ k ∈ l.map Prod.fst := by
  induction l with
  | nil => simp [assocGet]
  | cons e t ih =>
    obtain ⟨j, v⟩ := e
    by_cases h : j = k
    · simp [assocGet, h]
    · simp [assocGet, h, ih, Ne.symm h]

theorem Memory.mem_writeAll_keys (m cs : List Host.Cell) (a : Nat) :
    a ∈ (Memory.writeAll m cs).map Prod.fst ↔ a ∈ m.map Prod.fst ∨ a ∈ cs.map Prod.fst := by
  induction cs generalizing m with
  | nil => simp [Memory.writeAll]
  | cons c cs ih =>
    have h1 : a ∈ (Memory.write m c.1 c.2).map Prod.fst ↔ a = c.1 ∨ a ∈ m.map Prod.fst := by
      rw [← assocGet_isSome, ← assocGet_isSome]
      simp only [Memory.write, assocGet_assocSet]
      by_cases h : a = c.1 <;> simp [h, Ne.symm]
    simp only [Memory.writeAll, ih, h1, List.map_cons, List.mem_cons]
    tauto

theorem outElemBytes_length (d : Desc) (xy : IndexPair) (vals vals' : List Masked) (e : Nat) :
    (outElemBytes d xy vals e).length = (outElemBytes d xy vals' e).length := by
  cases h : d.layout.format <;> simp [outElemBytes, h, List.length_flatMap, wordBytes]

/-- Where a request's bytes lie does not depend on the values it stores. -/
theorem outCells_keys (d : Desc) (xy : IndexPair) {vals vals' : List Masked} (h : vals.length = vals'.length) (a : Nat) :
    a ∈ (outCells d xy vals).map Prod.fst ↔ a ∈ (outCells d xy vals').map Prod.fst := by
  have hk : ∀ (off : Nat) (bs bs' : List Byte), bs.length = bs'.length →
      (cellsFrom d.base off bs).map Prod.fst = (cellsFrom d.base off bs').map Prod.fst := by
    intro off bs bs' hl
    apply List.ext_getElem <;> simp [cellsFrom, hl]
  simp only [outCells, Memory.mem_writeAll_keys, List.map_flatMap, h]
  simp only [hk _ _ _ (outElemBytes_length d xy vals vals' _)]

/-- The bytes of which an OUTPUT of a killed processor leaves unsaid whether they are written: those its request would take up. -/
theorem State.unsaidCells_covers (s : State) (xy : IndexPair) (o : OutputFields) {vals : List Masked}
    (h : vals.length = o.srcs.length) (a : Nat) :
    (Memory.read (s.unsaidCells xy o) a).isSome = true ↔ s.ctl.cond ≠ .never ∧
      ∃ d, s.outDesc o.out = some d ∧ ∃ c ∈ outCells d xy vals, c.1 = a := by
  rw [Memory.read, assocGet_isSome]
  simp only [State.unsaidCells]
  by_cases hc : s.ctl.cond = .never
  · simp [hc]
  · rw [if_neg (by simpa using hc)]
    cases hd : s.outDesc o.out with
    | none => simp
    | some d =>
      have := outCells_keys d xy (vals := o.srcs.map fun _ => Quad.all none) (vals' := vals) (by simp [h]) a
      simpa [hc, Function.comp_def] using this

end Sys2Proof.Machine
end

