-- ==== Sys2Proof/Tests/Slice0.lean ====
section
/-! SUPPORT. Tests: expected results are the vectors of spec/95_test_vectors.md (V-SEM, V-KILL, V-CMD, V-ALU, V-FC, V-MEM) or
follow from the rule named; and one witness for the hypotheses of each obligation that has any. -/

namespace Sys2Proof.Machine.Tests

/-! ## Helpers -/

def nextOf : Result → Option State
  | .next t => some t
  | .fault _ => none
  | .refused _ => none

def faultOf : Result → Option Fault
  | .next _ => none
  | .fault f => some f
  | .refused _ => none

def refusalOf : Result → Option Refusal
  | .next _ => none
  | .fault _ => none
  | .refused r => some r

def decoded (bs : List Byte) : Option (Instr × List Byte) :=
  match decode bs with
  | .ok x => some x
  | .error _ => none

def decodeErr (bs : List Byte) : Option DecodeError :=
  match decode bs with
  | .ok _ => none
  | .error e => some e

/-- A register number. -/
def rg (n : Nat) : TempAddr := ⟨n, false⟩

/-- Single-precision 1.0, 2.0, 3.0, 4.0 and some negatives (95_test_vectors.md, section 0). -/
def f1 : Word := 0x3F800000#32
def f2 : Word := 0x40000000#32
def f3 : Word := 0x40400000#32
def f4 : Word := 0x40800000#32
def m1 : Word := 0xBF800000#32
def m2 : Word := 0xC0000000#32

/-- TEX op d s smp with W and A. -/
def tx (d s smp : Nat) (w a : Bool) : TexFields :=
  { dst := rg d, src := rg s, swizzle := ⟨.r, .g, .b, .a⟩, sampler := smp, unscaled := false, wmask := Quad.all true,
    pred := none, wait := w, acquire := a }

/-- The one processor of the tests: every temporary these tests read is written. -/
def pr : Proc :=
  { Proc.reset with xy := ⟨3, 5⟩, temps := [(1, ⟨f1, f2, f3, f4⟩), (2, ⟨m1, f2, f3, f4⟩), (4, Quad.all f1), (5, Quad.all f2)] }

/-- A descriptor at an address, whose elements are single FLOAT32 words. -/
def desc (base : Word) : Desc := { base := base, layout := { pitch := 64, tiling := 0, format := .float32x1 } }

/-- The parts of that descriptor, all set. -/
def slot (base : Word) : Slot := { base := some base, layout := some (desc base).layout }

/-- A running stream of one processor, no operation of it due at once: semaphore, outstanding lookups as number and destination,
sequence number. Inputs 0 to 2 and output 0 have a descriptor. -/
def st (sem : Sem) (pend : List (Nat × Nat)) (seq : Nat) : State :=
  { State.reset with
    running := true, runNo := 1
    ctl := { Control.reset with
      inputs := [(0, slot 0x800#32), (1, slot 0x1000#32), (2, slot 0x1800#32)], outs := [(0, slot 0x2000#32)] }
    program := [.texNop (tx 0 0 0 true false), .texNop (tx 0 0 0 false false), .texNop (tx 0 0 0 false false)]
    stream := { Stream.reset with
      sem := sem, semDue := 9, seq := seq, procs := [pr]
      pending := pend.map fun e =>
        { seq := e.1, op := .lookup .standard, sampler := 0, unscaled := false, dst := e.2
          lanes := [{ xy := pr.xy, coords := Quad.all f1, mask := Quad.all true, cells := [] }]
          due := 9 } } }

/-- Semaphore, outstanding operations, sequence number of a next state. -/
def semOf (r : Result) : Option (Sem × List (Nat × Nat) × Nat) :=
  (nextOf r).map fun t => (t.stream.sem, t.stream.pending.map fun e => (e.seq, e.dst), t.stream.seq)

/-- r d = MAX(r a, r b) on both engines, with W. -/
def maxi (d a b : Nat) (w : Bool) : Instr :=
  .opRgbMax
    { dst := rg d, a := ⟨.rgb0, .r, .g, .b⟩, b := ⟨.rgb1, .r, .g, .b⟩, c := ⟨.rgb2, .r, .g, .b⟩, omod := .disabled
      clamp := false, wr := true, wg := true, wb := true, pr := false, pg := false, pb := false }
    (some ⟨.max, { dst := rg d, a := ⟨.alpha0, .a⟩, b := ⟨.alpha1, .a⟩, c := ⟨.alpha2, .a⟩, omod := .disabled
                   clamp := false, wa := true, pa := false }⟩)
    { src := ⟨.temp (rg a), .temp (rg b), .inline 0, .temp (rg a), .temp (rg b), .inline 0⟩, pred := none, nop := false
      wait := w }

/-- An RGB half and an alpha half that write all of register d from register a. -/
def rh (op : AluOp) (d : Nat) : RgbHalf :=
  ⟨op, { dst := rg d, a := ⟨.rgb0, .r, .g, .b⟩, b := ⟨.rgb1, .r, .g, .b⟩, c := ⟨.rgb2, .r, .g, .b⟩, omod := .disabled
         clamp := false, wr := true, wg := true, wb := true, pr := false, pg := false, pb := false }⟩

def ah (op : AluOp) (d : Nat) : AlphaHalf :=
  ⟨op, { dst := rg d, a := ⟨.rgb0, .a⟩, b := ⟨.rgb1, .a⟩, c := ⟨.rgb2, .a⟩, omod := .disabled, clamp := false, wa := true
         pa := false }⟩

/-- Common ALU fields over sources x, y, z. -/
def ac (x y z : SrcAddr) : AluCommon :=
  { src := ⟨x, y, z, x, y, z⟩, pred := none, nop := false, wait := false }

/-- The register of the first processor after a result. -/
def regAfter (d : Nat) (r : Result) : Option Vec4 :=
  (nextOf r).bind fun t => t.stream.procs.head?.map fun p => p.temp t.runNo d

/-- A conditional OUTPUT of register 1, uncached or not, with W and A. -/
def ou (u w a : Bool) : OutputFields :=
  { out := 0, srcs := [rg 1], omask := Quad.all true, conditional := true, uncached := u, pred := none, nop := false, wait := w, acquire := a }

/-- A flow-control instruction with the two branch operations given. -/
def fl (func : BitVec 8) (op0 op1 : BranchOp) (pop : Nat) : Flow :=
  { func := func, any := false, addr := 2, global := false, c5 := 0, op0 := op0, op1 := op1, popCnt := pop, c9 := 0, predSel := 0
    boolSel := 0, wait := false }

/-- st with processor p in place of pr. -/
def withProc (s : State) (p : Proc) : State :=
  { s with stream := { s.stream with procs := [p] } }

/-! ## Well-formedness: an ill-formed term for each check -/

theorem test_wf_good : (Instr.texLookup (tx 6 3 2 true true)).wf = true := by
  simp [Instr.wf, TexFields.wf, TempAddr.wf, tx, rg, Config.ntemp, Config.nsamp]

theorem test_wf_tex_destination : (Instr.texLookup (tx Config.ntemp 0 0 false false)).wf = false := by
  simp [Instr.wf, TexFields.wf, TempAddr.wf, tx, rg]

theorem test_wf_tex_source : (Instr.texKillLtZero (tx 0 Config.ntemp 0 false false)).wf = false := by
  simp [Instr.wf, TexFields.wf, TempAddr.wf, tx, rg]

theorem test_wf_tex_sampler : (Instr.texLookupUncached (tx 0 0 Config.nsamp false false)).wf = false := by
  simp [Instr.wf, TexFields.wf, tx]

theorem test_wf_alu_destination :
    (Instr.opRgbFrc (rh .frc Config.ntemp).part none (ac (.inline 0) (.inline 0) (.inline 0))).wf = false := by
  simp [Instr.wf, TempAddr.wf, rh, rg]

theorem test_wf_alu_co_issued_destination :
    (Instr.opRgbFrc (rh .frc 0).part (some (ah .max Config.ntemp)) (ac (.inline 0) (.inline 0) (.inline 0))).wf = false := by
  simp [Instr.wf, TempAddr.wf, ah, rg]

theorem test_wf_alu_source :
    (Instr.opAlphaMax (ah .max 0).part none (ac (.temp (rg Config.ntemp)) (.inline 0) (.inline 0))).wf = false := by
  simp [Instr.wf, AluSources.wf, SrcAddr.wf, TempAddr.wf, ac, rg]

theorem test_wf_unnamed_destination :
    (Instr.aluUnnamed (.rgb .add (rh .max Config.ntemp).part none) (ac (.inline 0) (.inline 0) (.inline 0))).wf = false := by
  simp [Instr.wf, UnnamedHalf.wf, TempAddr.wf, rh, rg]

theorem test_wf_copy_destination :
    (Instr.aluCrossEngineCopy (.toAlpha (ah .copy Config.ntemp).part none) (ac (.inline 0) (.inline 0) (.inline 0))).wf
      = false := by
  simp [Instr.wf, CopyHalf.wf, TempAddr.wf, ah, rg]

theorem test_wf_output_source : (Instr.output { ou false false false with srcs := [rg Config.ntemp] }).wf = false := by
  simp [Instr.wf, OutputFields.wf, TempAddr.wf, rg]

theorem test_wf_output_acquire : (Instr.output { ou false true true with srcs := [] }).wf = false := by decide

/-! ## Decoding: words written out from R61, R62, R102, R147 (V-CMD) -/

theorem test_decode_consti_bits :
    decoded (wordsBytes [0b11000000000000010000111100000000#32, 0b00000000000000010010100000000000#32,
      0b00000100000000000000000100000000#32]) = some (.setConstiFmt ⟨0x25#21⟩ ⟨64#11, 0#2, .float32x4⟩, []) := by decide

theorem test_decode_cond_bits :
    decoded (wordsBytes [0b11000000000000000001101100000000#32, 0b00000000000000000000000000000001#32]) =
      some (.setCondTest .less, []) := by decide

theorem test_decode_bytes_little_endian :
    decoded [0x00, 0x1B, 0x00, 0xC0, 0x00, 0x00, 0x00, 0x00, 0x77] = some (.setCondTest .never, [0x77]) := by decide

theorem test_decode_extremes :
    decoded (wordsBytes [0xC0010F00#32, 0xFFFFF800#32, 0x02001FFC#32]) =
      some (.setConstiFmt ⟨0x1FFFFF#21⟩ ⟨2047#11, 0#2, .float32x1⟩, []) := by decide

theorem test_decode_tiling_and_small_pitch :
    decoded (wordsBytes [0xC0010F00#32, 0#32, 0x00020004#32]) = some (.setConstiFmt ⟨0#21⟩ ⟨1#11, 2#2, .uint16x1⟩, []) := by
  decide

theorem test_decode_base_reserved :
    decodeErr (wordsBytes [0xC0010F00#32, 0x00012801#32, 0x04000100#32]) = some .reservedNonzero := by decide

theorem test_decode_format_low_bits :
    decodeErr (wordsBytes [0xC0010F00#32, 0x00012800#32, 0x04000102#32]) = some .reservedNonzero := by decide

theorem test_decode_format_bit13 :
    decodeErr (wordsBytes [0xC0010F00#32, 0x00012800#32, 0x04002100#32]) = some .reservedNonzero := by decide

theorem test_decode_format_value5 :
    decodeErr (wordsBytes [0xC0010F00#32, 0x00012800#32, 0x05000100#32]) = some .reservedValue := by decide

theorem test_decode_condition_value2 : decodeErr (wordsBytes [0xC0001B00#32, 2#32]) = some .reservedValue := by decide

theorem test_decode_unknown_opcode :
    decodeErr (wordsBytes [0xC0021F00#32, 0#32, 0#32, 0#32]) = some .unknownCommand := by decide

theorem test_decode_cut : decodeErr (wordsBytes [0xC0010F00#32, 0#32]) = some .truncated := by decide

theorem test_encode_consti :
    encode (.setConstiFmt ⟨0x25#21⟩ ⟨64#11, 0#2, .float32x4⟩) = some [0xC0010F00#32, 0x00012800#32, 0x04000100#32] := by decide

theorem test_table_word_consti :
    decodeTableWord 32 0xC0010F00 = some (.setConstiFmt ⟨0#21⟩ ⟨0#11, 0#2, .uint16x1⟩) := by decide

theorem test_table_word_cond : decodeTableWord 32 0xC0001B00 = some (.setCondTest .never) := by decide

theorem test_fetch_word_runs_consti :
    (nextOf (step (State.reset.withFetchWord 32 0xC0010F00))).map (fun t => (t.pe.ptr, t.ctl.consti.map fun b => b.desc)) =
      some (12, some { base := 0, layout := { pitch := 0, tiling := 0, format := .uint16x1 } }) := by decide

theorem test_fetch_word_unknown :
    refusalOf (step (State.reset.withFetchWord 32 0xC0021F00)) = some .unknownCommand := by decide

/-! ## Texture instructions (V-SEM) -/

theorem test_sem1_lookup : semOf (exec (.texLookup (tx 4 1 0 false false)) (st .free [] 0)) = some (.free, [(1, 4)], 1) := by
  decide

theorem test_sem3_lookup_acquires :
    semOf (exec (.texLookup (tx 6 2 2 true true)) (st .free [(1, 7), (2, 8)] 2)) =
      some (.held 3, [(1, 7), (2, 8), (3, 6)], 3) := by decide

theorem test_sem20_projected_holds :
    semOf (exec (.texLookupProj (tx 7 1 0 true true)) (st (.held 3) [(3, 6)] 3)) = some (.held 3, [(3, 6)], 3) := by decide

theorem test_sem15_projected_reads_owned :
    faultOf (exec (.texLookupProj (tx 5 4 0 false false)) (st .free [(1, 4)] 1)) = some .ownedRegisterRead := by decide

theorem test_sem14_uncached_writes_owned :
    faultOf (exec (.texLookupUncached (tx 4 2 0 false false)) (st .free [(1, 4)] 1)) = some .ownedRegisterWrite := by decide

theorem test_sem10_uncached_acquire_without_wait :
    faultOf (exec (.texLookupUncached (tx 4 1 0 false true)) (st .free [] 0)) = some .acquireWithoutWait := by decide

theorem test_sem16_nop_acquires :
    semOf (exec (.texNop (tx 0 0 0 true true)) (st .free [(1, 4), (2, 5)] 2)) = some (.held 3, [(1, 4), (2, 5)], 3) := by decide

theorem test_sem17_nop_ignores_addresses :
    semOf (exec (.texNop (tx 4 4 9 false false)) (st .free [(1, 4)] 1)) = some (.free, [(1, 4)], 2) := by decide

/-- V-SEM 21: the source may be the destination; the coordinates are copied at issue. -/
theorem test_sem21_copies_coordinates :
    (nextOf (exec (.texLookup (tx 1 1 0 true true)) (st .free [] 0))).bind
      (fun t => t.stream.pending.head?.bind fun e => e.lanes.head?.map Lane.coords) = some ⟨f1, f2, f3, f4⟩ := by decide

/-- V-SEM 6: Perform(3) while held(3); Release is still not enabled. -/
theorem test_sem6_perform_out_of_order :
    ((st (.held 3) [(1, 4), (2, 5), (3, 6)] 3).performAt 2).stream.pending.map Pend.seq = [1, 2] ∧
      ((st (.held 3) [(1, 4), (2, 5), (3, 6)] 3).performAt 2).releasable = false := by decide

/-- V-SEM 18: an operation issued after the acquire does not keep the semaphore. -/
theorem test_sem18_release_ignores_later : (st (.held 3) [(4, 8)] 4).releasable = true := by decide

/-- The kill flag after issuing and performing a kill of the registers v under a mask. -/
def killed (v : Vec4) (m : Mask) (sw : Quad Comp) : Option Bool :=
  (nextOf (exec (.texKillLtZero { tx 9 1 0 false false with wmask := m, swizzle := sw })
      (withProc (st .free [] 0) { pr with temps := [(1, v)] }))).bind
    fun t => (t.performAt 0).stream.procs.head?.map Proc.killed

/-- V-KILL 1, 2, 3, 4, 6, 7, 9. -/
theorem test_kill_vectors :
    killed ⟨m1, f2, f3, f4⟩ (Quad.all true) ⟨.r, .g, .b, .a⟩ = some true ∧
    killed ⟨m1, f2, f3, f4⟩ ⟨false, true, true, true⟩ ⟨.r, .g, .b, .a⟩ = some false ∧
    killed ⟨f1, f2, f3, m2⟩ ⟨true, true, true, false⟩ ⟨.r, .g, .b, .a⟩ = some false ∧
    killed ⟨f1, f2, f3, m2⟩ ⟨false, false, false, true⟩ ⟨.r, .g, .b, .a⟩ = some true ∧
    killed (Quad.all 0) (Quad.all true) ⟨.r, .g, .b, .a⟩ = some false ∧
    killed ⟨0xFF800000#32, f1, f1, f1⟩ ⟨true, false, false, false⟩ ⟨.r, .g, .b, .a⟩ = some true ∧
    killed (Quad.all m1) (Quad.all false) ⟨.r, .g, .b, .a⟩ = some false := by decide

/-- V-KILL 13: the swizzle is ignored. -/
theorem test_kill_ignores_swizzle : killed ⟨f1, m1, f1, f1⟩ ⟨true, false, false, false⟩ ⟨.g, .g, .g, .g⟩ = some false := by decide

/-! ## ALU instructions (V-SEM, V-ALU) -/

/-- V-SEM 4, 9: MAX issues; it writes the greater of each component. -/
theorem test_max_components :
    regAfter 7 (exec (maxi 7 4 5 false) (st (.held 3) [(1, 8)] 3)) = some (Quad.all f2) := by decide

/-- V-SEM 12: WAIT alone does not synchronise. -/
theorem test_max_reads_owned : faultOf (exec (maxi 7 4 4 true) (st .free [(1, 4)] 1)) = some .ownedRegisterRead := by decide

/-- V-ALU 1, 2, 3 on the alpha engine alone. -/
theorem test_alpha_max :
    floatMax f1 f2 = f2 ∧ floatMax m1 m2 = m1 ∧ floatMax f3 f3 = f3 ∧
    regAfter 4 (exec (.opAlphaMax (ah .max 4).part none (ac (.inline m1) (.inline m2) (.inline 0))) (st .free [] 0)) =
      some ⟨f1, f1, f1, m1⟩ := by decide

/-- V-ALU 6, 7, 8. -/
theorem test_frc_vectors :
    floatFrc 0x40300000#32 = 0x3F400000#32 ∧ floatFrc 0xBE800000#32 = 0x3F400000#32 ∧ floatFrc f3 = 0 := by decide

/-- R177: -0.1 less -1 is 0.9, which is rounded to a neighbour. -/
theorem test_frc_rounds : floatFrc 0xBDCCCCCD#32 = 0x3F666666#32 ∨ floatFrc 0xBDCCCCCD#32 = 0x3F666667#32 := by
  have h : floatFrc 0xBDCCCCCD#32 = floatRound (Config.frcRoundsUp 0xBDCCCCCD#32)
    (floatScaled 0xBDCCCCCD#32 % 2 ^ 149).toNat := rfl
  rw [h]
  cases Config.frcRoundsUp 0xBDCCCCCD#32
  · exact .inl (by decide)
  · exact .inr (by decide)

theorem test_rgb_frc :
    regAfter 4 (exec (.opRgbFrc (rh .frc 4).part none (ac (.inline 0x40300000#32) (.inline 0) (.inline 0))) (st .free [] 0)) =
      some ⟨0x3F400000#32, 0x3F400000#32, 0x3F400000#32, f1⟩ := by decide

theorem test_alpha_frc :
    regAfter 4 (exec (.opAlphaFrc (ah .frc 4).part none (ac (.inline 0xBE800000#32) (.inline 0) (.inline 0))) (st .free [] 0)) =
      some ⟨f1, f1, f1, 0x3F400000#32⟩ := by decide

/-- R175: CND yields A or B; with A and B equal that is their value. -/
theorem test_rgb_cnd :
    regAfter 4 (exec (.opRgbCnd (rh .cnd 4).part none (ac (.inline f3) (.inline f3) (.inline f1))) (st .free [] 0)) =
      some ⟨f3, f3, f3, f1⟩ := by
  have h : ∀ a c, floatCnd a a c = a := fun a c => by simp [floatCnd]
  simp [exec, execOpRgbCnd, issueAlu, issue, issueBody, aluEffect, checkRegs, State.holds, State.ready, State.waited,
    regAfter, nextOf, st, State.finishIssue, State.onLive, State.withStream, State.aluProc, State.writeRgb, writeResult,
    State.rgbFinal, State.rgbRaw, State.rgbOwn, aluEval, h, rh, ac, resultPath, omodApply, State.rgbOperand, State.srcValue,
    pickSource, Quad.ofFn, Quad.all, Quad.get, rgbWmask, maskInter, Proc.enabled, Proc.writeTemp, Proc.temp, assocGet,
    assocSet, Quad.merge, pr, Proc.live, Proc.reset, Stream.reset, State.reset, State.regOf, rg, Stream.owned,
    State.aluReads, aluSels, rgbSels, arity, State.srcReg, State.aluWrites, State.anyLive, State.constsUnset, srcConst,
    aluConsts, State.constReads, takeReads, State.readsRace, State.noteReads]

/-- V-ALU 14, 15: MOV with the output modifier disabled keeps a NaN's payload and a denormal. -/
theorem test_mov_bits :
    regAfter 4 (exec (.aluUnnamed (.rgb .mov (rh .max 4).part (some (ah (.unnamed .mov) 4)))
      (ac (.inline 0x7FC12345#32) (.inline 0) (.inline 0))) (st .free [] 0)) = some (Quad.all 0x7FC12345#32) ∧
    regAfter 4 (exec (.aluUnnamed (.alpha .mov (ah .max 4).part none) (ac (.inline 1#32) (.inline 0) (.inline 0)))
      (st .free [] 0)) = some ⟨f1, f1, f1, 1#32⟩ := by decide

/-- R190: an RGB copy beside no alpha operation takes the last alpha result. -/
theorem test_copy_takes_last_alpha :
    regAfter 4 (exec (.aluCrossEngineCopy (.toRgb (rh .copy 4).part none) (ac (.inline 0) (.inline 0) (.inline 0)))
      (withProc (st .free [] 0) { pr with last := ⟨f1, f2, f3, f4⟩ })) = some ⟨f4, f4, f4, f1⟩ := by decide

/-- V-ALU 16, 17: the clamp comes after the division by 8. -/
theorem test_clamp_after_division :
    resultPath .div8 true f4 = 0x3F000000#32 ∧ resultPath .div8 true 0x41800000#32 = f1 := by decide

/-- V-ALU 18: only the components whose mask bit is set are written. -/
theorem test_write_mask :
    (pr.writeTemp 1 1 ⟨true, false, true, false⟩ ⟨m1, m1, m2, m2⟩).temp 1 1 = ⟨m1, f2, m2, f4⟩ := by decide

/-! ## OUTPUT (V-SEM 22, 23; R147) -/

theorem test_sem22_uncached_output :
    semOf (exec (.output (ou true true true)) (st .free [] 0)) = some (.held 1, [(1, 0)], 1) := by decide

theorem test_sem23_output_acquire_without_wait :
    faultOf (exec (.output (ou true false true)) (st .free [] 0)) = some .acquireWithoutWait := by decide

/-! ## Flow control (V-FC 1, 2; R264, R265) -/

theorem test_jump_always :
    (nextOf (exec (.fcJump (fl 0xff#8 .none .none 0)) (st .free [] 0))).map (fun t => t.stream.pc) = some 2 := by
  rw [exec, execFcJump, gate]
  simp [State.holds, fl, flowGo, State.tooDeep, branchOpOf, nextOf, State.branched, State.withStream, State.jumps]

/-- ENDIF of E5: 0x00, DECR, pop count 1: a processor one block deep becomes active. -/
theorem test_endif_pops :
    (branchProc .decr 1 true { pr with active := false, counter := 0 }).active = true ∧
    (branchProc .decr 1 true { pr with active := false, counter := 2 }).counter = 1 := by decide

/-- R267: an ENDIF never jumps, and its column c6, DECR, acts: a processor goes on that one block kept inactive. -/
theorem test_endif_decrements :
    (nextOf (exec (.fcJump (fl 0x00#8 .decr .none 1))
        (let s := withProc (st .free [] 0) { pr with active := false, counter := 0 }
         { s with stream := { s.stream with depth := 1 } }))).bind
      (fun t => t.stream.procs.head?.map fun p => (p.active, t.stream.depth, t.stream.pc)) = some (true, 0, 1) := by decide

theorem test_endloop_without_loop :
    faultOf (exec (.fcEndloop (fl 0xff#8 .none .none 0)) (st .free [] 0)) = some .stackUnderflow := by decide

theorem test_endrep_without_rep :
    faultOf (exec (.fcEndrep (fl 0xff#8 .none .none 0)) (st .free [] 0)) = some .stackUnderflow := by decide

/-- E5's LOOP row and E7: the constant's channels become the loop's count, aL and increment. -/
theorem test_loop_channels :
    enterLoop LoopState.reset ⟨5, 7, 2⟩ = { aL := 7, loopStack := [⟨5, 2, 0⟩], repStack := [] } := by decide

theorem test_loop_steps :
    stepLoop { aL := 7, loopStack := [⟨5, 2, 0⟩], repStack := [] } ⟨5, 2, 0⟩ [] =
      { aL := 9, loopStack := [⟨4, 2, 0⟩], repStack := [] } := by decide

/-! ## Commands (V-CMD 6, 7, 12, 13, 15; R144, R137, R140, R41) -/

theorem test_consti_descriptor :
    descOf ⟨0x25#21⟩ ⟨64#11, 0#2, .float32x4⟩ =
      { base := 0x12800, layout := { pitch := 256, tiling := 0, format := .float32x4 } } := by decide

theorem test_format_highest_pitch : (layoutOf ⟨2047#11, 3#2, .float32x1⟩).pitch = 8188 := by decide

theorem test_cond_less :
    (nextOf (exec (.setCondTest .less) State.reset)).map (fun t => t.ctl.cond) = some .less := by decide

theorem test_domain_bound :
    (nextOf (exec (.domainBounds ⟨0#12, []⟩ ⟨0xFFF#12, []⟩) State.reset)).map (fun t => t.ctl.j0.toNat) = some 4095 := by decide

theorem test_input_base_keeps_layout :
    setBase [(2, { base := none, layout := some (desc 0).layout })] 2 ⟨1#21⟩ = [(2, slot 0x800#32)] := by decide

/-- R41, R46: an input has a descriptor once a base and a layout are set. -/
theorem test_input_needs_both :
    (State.reset.withCtl { Control.reset with inputs := setBase [] 2 ⟨1#21⟩ }).inputDesc 2 = none ∧
      (State.reset.withCtl { Control.reset with inputs := setLayout (setBase [] 2 ⟨1#21⟩) 2 ⟨16#11, 0#2, .float32x1⟩ }).inputDesc 2 =
        some (desc 0x800#32) := by decide

theorem test_size_reserved :
    (match decodeLost .sizeParameter 0 0x2001#32 [0x800#32] with
      | .error e => some e
      | .ok _ => none) = some .reservedNonzero := by decide

theorem test_size_and_base :
    (match decodeLost .sizeParameter 0 0x1FFF#32 [0x800#32] with
      | .error _ => none
      | .ok c => some c) = some (.row (.sizeParameter ⟨0x1FFF#13, ⟨1#21⟩⟩)) := by decide

/-- R142: i0 and j0 are bits 11:0 of the first two parameters. -/
theorem test_domain_parameters :
    decodeDomain 0x00000001#32 0x00000FFF#32 [7#32] = .row (.domainBounds ⟨1#12, [0]⟩ ⟨0xFFF#12, [0, 7]⟩) := by decide

/-- A state whose program has a location, over a domain. -/
def atStart : State :=
  { State.reset with ctl := { Control.reset with
      programDesc := some (desc 0x4000#32), domain := [⟨0, 0⟩, ⟨1, 0⟩, ⟨0, 0⟩], pipeFlushed := true } }

theorem test_start_queues_domain :
    (nextOf (exec .programStart atStart)).map (fun t => (t.waiting, t.runNo)) = some ([⟨1, 0⟩, ⟨0, 0⟩], 1) := by decide

theorem test_perf_start :
    (nextOf (exec (.perfControl true 9#32) State.reset)).map (fun t => (t.perf.counting, t.perf.param)) =
      some (true, 9#32) := by decide

/-! ## A command buffer built by the host (R342) -/

/-- A buffer of a read_perf_counters and a float-constants format command, whose opcode words are lost. -/
def built : State :=
  let s := State.reset.buildBuffer 0 [.lost .readPerfCounters 0 [0x100#32],
    .lost .floatConstFmt 0 [0x12800#32, 0x04000100#32]]
  { s with pe := { s.pe with limit := 20, current := some 0 } }

theorem test_built_reads_one_parameter :
    (nextOf (step built)).map (fun t => t.pe.ptr) = some 8 := by decide

theorem test_built_reads_two_parameters :
    (nextOf (step { built with pe := { built.pe with ptr := 8 } })).map
        (fun t => (t.pe.ptr, t.ctl.floatConsts.map ConstBuf.desc)) =
      some (20, some { base := 0x12800, layout := { pitch := 256, tiling := 0, format := .float32x4 } }) := by decide

/-- What is written over a lost opcode word stands in its place. -/
theorem test_built_overwritten :
    (built.pe.ops.map built.opStands, built.pe.ops.map (built.hostWrite [(8, 0x00)]).opStands) =
      ([true, true], [false, true]) := by decide

/-! ## Memory and what a read sees (V-MEM) -/

theorem test_memory_last_write_wins :
    Memory.read (Memory.writeAll [] [(5, 1), (3, 2), (5, 4)]) 5 = some 4 ∧
      Memory.writeAll [] [(5, 1), (3, 2), (5, 4)] = [(3, 2), (5, 4)] := by decide

/-- R65, R67: a FLOAT32 element is one little-endian word. -/
theorem test_element_little_endian : elemOf .float32x1 [0x78, 0x56, 0x34, 0x12] = .words [0x12345678#32] := by decide

/-- A record of a write by the processor of the tests to address 7. -/
def rec7 (acquired : Bool) (synced : Option Nat) : WriteRec :=
  { run := 1, xy := ⟨3, 5⟩, issued := 0, acquired := acquired, synced := synced, unsaid := false, cells := [(7, 0xAB)] }

/-- V-MEM 1: a write acquired and waited on is read back. -/
theorem test_mem1_waited_write_is_read :
    ({ st .free [] 1 with writes := [rec7 true none] }.waited true).uncachedByte ⟨3, 5⟩ 2 4 3 7 = 0xAB := by decide

/-! ## Witnesses: a state and operands that meet each obligation's hypotheses -/

theorem witness_TexNop :
    ((tx 0 0 0 true true).acquire = true → (tx 0 0 0 true true).wait = true) ∧ (st .free [(1, 4)] 1).holds true = false ∧
      (nextOf (exec (.texNop (tx 0 0 0 true true)) (st .free [(1, 4)] 1))).isSome := by decide

/-- With a sampler whose descriptor is set and one whose is not. -/
theorem witness_LookupsAndKill :
    ((tx 4 1 0 true true).acquire = true → (tx 4 1 0 true true).wait = true) ∧ (st .free [(1, 9)] 1).holds true = false ∧
      ((st .free [(1, 9)] 1).anyLive = true ∧ (st .free [(1, 9)] 1).stream.owned 1 = false) ∧
      (st .free [(1, 9)] 1).stream.owned 4 = false ∧
      (st .free [(1, 9)] 1).inputUnset 0 = false ∧ (st .free [(1, 9)] 1).inputUnset 3 = true := by decide

/-- With the semaphore held for the last clause. -/
theorem witness_AcquireRequiresWait :
    ((tx 4 1 0 false true).acquire = true ∧ (tx 4 1 0 false true).wait = false) ∧
      ((ou true false true).acquire = true ∧ (ou true false true).uncached = true ∧ (ou true false true).wait = false) ∧
      (st (.held 3) [] 3).stream.sem = .held 3 ∧ ∃ t, exec (maxi 7 4 5 false) (st (.held 3) [] 3) = .next t :=
  ⟨by decide, by decide, by decide, _, rfl⟩

theorem witness_WaitBitSet :
    (Instr.texNop (tx 0 0 0 true false)).semWait = true ∧ (st (.held 3) [(1, 4)] 3).stream.sem = .held 3 := by decide

theorem witness_WaitBitClear : (maxi 7 4 5 false).semWait = false := by decide

/-- A texture read, a texture write (with and without a live processor), an ALU read, an ALU write and an OUTPUT of an owned
register. -/
theorem witness_OwnedRegisters :
    (st .free [(1, 4)] 1).anyLive = true ∧ (st .free [(1, 4)] 1).holds true = false ∧
    (st .free [(1, 4)] 1).stream.owned 4 = true ∧ (st .free [(1, 4)] 1).stream.owned 1 = false ∧
    (withProc (st .free [(1, 4)] 1) { pr with killed := true }).anyLive = false ∧
    (∃ rgb alpha c, aluHalves (maxi 7 4 4 true) = some (rgb, alpha, c) ∧
      ((st .free [(1, 4)] 1).aluReads c rgb alpha).any (st .free [(1, 4)] 1).stream.owned = true) ∧
    (∃ rgb alpha c, aluHalves (maxi 4 1 1 true) = some (rgb, alpha, c) ∧
      ((st .free [(1, 4)] 1).aluReads c rgb alpha).any (st .free [(1, 4)] 1).stream.owned = false ∧
      ((st .free [(1, 4)] 1).aluWrites rgb alpha).any (st .free [(1, 4)] 1).stream.owned = true) ∧
    ((ou false false false).srcs.map (st .free [(1, 1)] 1).regOf).any (st .free [(1, 1)] 1).stream.owned = true :=
  ⟨by decide, by decide, by decide, by decide, by decide, ⟨_, _, _, rfl, by decide⟩, ⟨_, _, _, rfl, by decide, by decide⟩,
    by decide⟩

/-- An outstanding operation of a kind with one lane. -/
def withOp (op : PendOp) (cells : List Host.Cell) : State :=
  { st .free [] 1 with stream := { (st .free [] 1).stream with
      pending := [{ seq := 1, op := op, sampler := 0, unscaled := false, dst := 4,
                    lanes := [{ xy := pr.xy, coords := Quad.all m1, mask := Quad.all true, cells := cells }], due := 9 }] } }

/-- Relative addresses in range, and outside it. -/
theorem test_relative_address :
    let s := (st .free [] 0).withLoops { LoopState.reset with aL := 3 }
    s.regOf ⟨2, true⟩ = 5 ∧ s.regOf ⟨2, false⟩ = 2 ∧ s.regOf ⟨Config.ntemp, true⟩ = Config.relOutside Config.ntemp 3 := by
  simp [State.regOf, relReg, State.withLoops, State.withStream, Config.ntemp]
  omega

theorem witness_PerformLookup : ∃ e l, (withOp (.lookup .uncached) []).stream.pending[0]? = some e ∧
    e.op = .lookup .uncached ∧ e.lane pr = some l ∧ e.lane { pr with xy := ⟨9, 9⟩ } = none ∧ 1 ≠ e.dst ∧
    baseAligned ((withOp (.lookup .uncached) []).pendDesc e).base :=
  ⟨_, _, rfl, rfl, rfl, rfl, by decide, by show BitVec.extractLsb' 0 11 0x800#32 = 0; decide⟩

/-- A kill of the only processor is outstanding under the test Less; the program goes on with an OUTPUT. -/
def killing : State :=
  { withOp .kill [] with
    program := [.texNop (tx 0 0 0 false false), .output { ou false false false with conditional := false }]
    ctl := { (withOp .kill []).ctl with cond := .less } }

/-- R215: what the OUTPUT may write for the processor that the kill lands on is recorded as unsaid. -/
theorem test_killed_outputs_are_unsaid :
    ((killing.performAt 0).writes.map fun w => (w.unsaid, w.run, w.xy)) = [(true, 1, ⟨3, 5⟩)] := by decide

theorem witness_KilledOutputs : ∃ e l, killing.stream.pending[0]? = some e ∧ e.op = .kill ∧ pr ∈ killing.stream.procs ∧
    pr.killed = false ∧ e.lane pr = some l ∧
    [Comp.r, .g, .b, .a].any (fun c => l.mask.get c && ltZero (l.coords.get c)) = true ∧
    Instr.output { ou false false false with conditional := false } ∈ killing.program ∧ killing.ctl.cond ≠ .never ∧
    killing.outDesc 0 = some (desc 0x2000#32) :=
  ⟨_, _, rfl, rfl, by decide, by decide, rfl, by decide, by decide, by decide, by decide⟩

theorem witness_PerformKill : ∃ e, (withOp .kill []).stream.pending[0]? = some e ∧ e.op = .kill := ⟨_, rfl, rfl⟩

theorem witness_PerformWrite : ∃ e, (withOp .write [(3, 1), (4, 2)]).stream.pending[0]? = some e ∧ e.op = .write ∧
    (∀ l ∈ e.lanes, ∀ c ∈ l.cells, c.1 ≠ 5) ∧ e.lanes.flatMap Lane.cells = [(3, 1)] ++ (4, 2) :: [] :=
  ⟨_, rfl, rfl, by decide, by decide⟩

theorem witness_LessThanZero :
    (m1.msb = true ∧ 0 < floatExp m1 ∧ isNaN m1 = false) ∧ (f1.msb = false ∧ isNaN f1 = false) ∧
      (0x80800000#32 : Word).msb = true ∧ 0 < floatExp 0x80800000#32 := by decide

/-- A stream whose processors are killed and whose semaphore is held: Release is its only move. -/
def onlyRelease : State := withProc (st (.held 3) [] 3) { pr with killed := true }

theorem witness_Release : onlyRelease.running = true ∧ onlyRelease.canLaunch = false ∧
    onlyRelease.turn.stream.sem = .held 3 ∧ ∃ t, step onlyRelease = .next t ∧ t.stream.sem ≠ .held 3 :=
  ⟨by decide, by decide, by decide, _, rfl, by decide⟩

/-- Where nothing has been written no lookup races. -/
theorem readsRace_unwritten {s : State} (rs : List ReadRec) (h : s.writes = []) : s.readsRace rs = false := by
  simp [State.readsRace, State.writtenByOther, h]

theorem races_nil {s : State} (e : Pend) (h : s.writes = []) : s.races e = false := by
  simp only [State.races]
  cases e.op <;> simp [readsRace_unwritten _ h]

/-- A stream that holds; and one with an operation that is due. -/
theorem witness_HoldIsLifted :
    (st (.held 3) [(1, 4), (4, 5)] 4).running = true ∧ (st (.held 3) [(1, 4), (4, 5)] 4).canLaunch = false ∧
      (st (.held 3) [(1, 4), (4, 5)] 4).others = [] ∧ (st (.held 3) [(1, 4), (4, 5)] 4).issuedAll = false ∧
      (st (.held 3) [(1, 4), (4, 5)] 4).nextHolds = true ∧
      (∀ e ∈ (st (.held 3) [(1, 4), (4, 5)] 4).stream.pending, (st (.held 3) [(1, 4), (4, 5)] 4).afterKills.races e = false) ∧
      { st (.held 3) [(1, 4)] 4 with tick := 9 }.canLaunch = false ∧
      ∃ s ∈ { st (.held 3) [(1, 4)] 4 with tick := 9 }.streams, s.overdue 9 = true := by
  exact ⟨by decide, by decide, by decide, by decide, by decide, fun e _ => races_nil e rfl, by decide, _, .head _, by decide⟩

/-- A state in which this instance wrote address 7. -/
def wrote (acquired : Bool) (synced : Option Nat) : State :=
  { st .free [] 1 with writes := [rec7 acquired synced] }

/-- For the cached reads and the draws of the uncached ones. -/
theorem witness_UnsynchronisedReads :
    (∀ w ∈ (wrote true none).writes, w.covers 8 = false) ∧ (∃ w ∈ (wrote true none).writes, w.covers 7 = true) ∧
      (∀ w ∈ (wrote false none).writes, w.covers 7 = true → w.granted (wrote false none).runNo ⟨3, 5⟩ 2 = false) := by
  decide

/-- A granted write, one that an instruction with WAIT makes granted, and a step in which the run goes on. -/
theorem witness_WaitedWrite :
    ((wrote true (some 1)).writesAt 7 = [] ++ rec7 true (some 1) :: [] ∧
      (rec7 true (some 1)).granted (wrote true (some 1)).runNo ⟨3, 5⟩ 2 = true) ∧
    ((rec7 true none).acquired = true ∧ (rec7 true none).run = (wrote true none).runNo ∧
      (∃ p ∈ (wrote true none).stream.procs, p.xy = (rec7 true none).xy) ∧
      (∀ i, (rec7 true none).synced = some i → i ≤ (wrote true none).stream.seq) ∧ (wrote true none).stream.seq < 2) ∧
    ∃ t, step onlyRelease = .next t ∧ t.runNo = onlyRelease.runNo :=
  ⟨⟨by decide, by decide⟩, ⟨by decide, by decide, by decide, by simp [rec7], by decide⟩, _, rfl, by decide⟩

/-- With no floating-point constant among the sources, and with one whose descriptor no command has set. -/
theorem witness_AluRows : ∃ rgb alpha c, aluHalves (maxi 7 4 5 false) = some (rgb, alpha, c) ∧
    (st (.held 3) [(1, 8)] 3).holds c.wait = false ∧
    ((st (.held 3) [(1, 8)] 3).anyLive = true →
      ((st (.held 3) [(1, 8)] 3).aluReads c rgb alpha).any (st (.held 3) [(1, 8)] 3).stream.owned = false ∧
      ((st (.held 3) [(1, 8)] 3).aluWrites rgb alpha).any (st (.held 3) [(1, 8)] 3).stream.owned = false) ∧
    (st (.held 3) [(1, 8)] 3).constsUnset c rgb alpha = false ∧
    (st .free [] 0).constsUnset (ac (.floatConst 2) (.inline 0) (.inline 0)) (some (rh .max 4)) none = true :=
  ⟨_, _, _, rfl, by decide, by decide, by decide, by decide⟩

/-- With a constant whose descriptor is set, that another instance has written and that none has. -/
def constState (ws : List WriteRec) : State :=
  { st .free [] 0 with
    ctl := { (st .free [] 0).ctl with floatConsts := some { desc := desc 0x800#32, offset := 0 } }, writes := ws }

/-- Another instance's write of constant 2. -/
def constWrite : WriteRec :=
  { rec7 false none with xy := ⟨9, 9⟩, cells := (constAddrs (constState []).ctl.floatConsts 2).map fun a => (a, 0) }

theorem witness_ConstReads :
    let c := ac (.floatConst 2) (.inline 0) (.inline 0)
    (constState []).constsUnset c (some (rh .max 4)) none = false ∧
      (constState [constWrite]).readsRace ((constState [constWrite]).constReads c (some (rh .max 4)) none) = true ∧
      (constState []).readsRace ((constState []).constReads c (some (rh .max 4)) none) = false ∧
      aluConsts c (some (rh .max 4)) none = [2] ∧ aluConsts (ac (.inline 0) (.inline 0) (.inline 0)) (some (rh .max 4)) none = [] :=
    by
  refine ⟨by decide, ?_, readsRace_unwritten _ rfl, by decide, by decide⟩
  simp [State.readsRace, State.constReads, aluConsts, aluSels, rgbSels, arity, pickSource, srcConst, constState, constWrite,
    rec7, st, pr, Proc.live, Proc.reset, Stream.reset, State.reset, State.writtenByOther, WriteRec.covers, constAddrs,
    elemAddrs, desc, elemSize, Memory.read, rh, ac, List.range, List.range.loop, assocGet]

theorem witness_EngineResults : Comp.b ≠ .a ∧ (rh .max 4).op ≠ .copy ∧ (ah (.unnamed .add) 4).op ≠ .copy := by decide

theorem witness_AluKeepsOthers :
    (∀ h, some (rh .max 4) = some h → 5 ≠ (st .free [] 0).regOf h.part.dst) ∧
      ∀ h, some (ah .max 4) = some h → 5 ≠ (st .free [] 0).regOf h.part.dst := by
  constructor <;> intro h e <;> cases e <;> decide

/-- Engines whose destination is register 4: no alpha half writes its A, no RGB half its R. -/
theorem witness_AluKeepsComponents :
    (∀ h, some { ah .max 4 with part := { (ah .max 4).part with wa := false } } = some h →
        4 ≠ (st .free [] 0).regOf h.part.dst ∨ h.part.wa = false) ∧
      (∀ h, (none : Option AlphaHalf) = some h → 4 ≠ (st .free [] 0).regOf h.part.dst ∨ h.part.wa = false) ∧
      Comp.r ≠ .a ∧
      ∀ h, some { rh .max 4 with part := { (rh .max 4).part with wr := false } } = some h →
        4 ≠ (st .free [] 0).regOf h.part.dst ∨ (rgbWmask h.part).get .r = false := by
  refine ⟨?_, ?_, by decide, ?_⟩ <;> intro h e <;> cases e <;> exact .inr (by decide)

/-- Both directions. -/
theorem witness_Copy :
    Comp.g ≠ .a ∧ (rh .copy 4).op = .copy ∧ (ah .copy 4).op = .copy ∧ (rh .copy 4).part.omod = .disabled ∧ (rh .copy 4).part.clamp = false ∧
      (rgbWmask (rh .copy 4).part).get .g = true ∧ (ac (.inline 0) (.inline 0) (.inline 0)).pred = none ∧
      (ah .max 4).op ≠ .copy ∧ (ah .max 4).part.omod = .disabled ∧ (ah .max 4).part.clamp = false ∧
      (ah .copy 4).part.omod = .disabled ∧ (ah .copy 4).part.clamp = false ∧ (ah .copy 4).part.wa = true ∧
      (rh .max 4).op ≠ .copy ∧ (rh .max 4).part.omod = .disabled ∧ (rh .max 4).part.clamp = false := by decide

/-- Ordinary values, a denormal and an infinity. -/
theorem witness_Max :
    (isNaN m1 = false ∧ isNaN f1 = false ∧ floatScaled m1 < floatScaled f1) ∧
      (isNaN 1#32 = false ∧ isNaN 0x7F800000#32 = false ∧ floatScaled 1#32 < floatScaled 0x7F800000#32) := by decide

theorem witness_ConditionalSelects :
    floatOrder f1 floatHalf = floatOrder f2 floatHalf ∧ isDenormal m1 = false ∧ isDenormal m2 = false ∧
      floatOrder m1 0 = floatOrder m2 0 := by decide

/-- Denormal conditions that stand alike to 0. -/
theorem witness_DenormalConditions :
    isDenormal 1#32 = true ∧ Config.denormalOrder 1#32 = Config.denormalOrder 1#32 := ⟨by decide, rfl⟩

theorem witness_Fraction :
    floatExp 0x40300000#32 ≠ 255 ∧ isDenormal 0x40300000#32 = false ∧ 0x40300000#32 ≠ floatNegZero ∧
      floatExp 0x3F400000#32 ≠ 255 ∧ isDenormal 0x3F400000#32 = false ∧ 0x3F400000#32 ≠ floatNegZero ∧
      0 ≤ floatScaled 0x3F400000#32 ∧ floatScaled 0x3F400000#32 < 2 ^ 149 ∧
      ∃ n : Int, floatScaled 0x40300000#32 = floatScaled 0x3F400000#32 + n * 2 ^ 149 :=
  ⟨by decide, by decide, by decide, by decide, by decide, by decide, by decide, by decide, 2, by decide⟩

/-- A value whose fraction is no single-precision number, and a positive denormal. -/
theorem witness_FractionRounded :
    floatExp 0xBDCCCCCD#32 ≠ 255 ∧ 0xBDCCCCCD#32 ≠ floatNegZero ∧ isDenormal 1#32 = true ∧ (1#32 : Word).msb = false := by
  decide

/-- The least exponents the divisions are exact at, an infinity, a NaN and a denormal. -/
theorem witness_OutputModifier :
    (isNaN 0x01800000#32 = false ∧ isInf 0x01800000#32 = false ∧ 2 < floatExp 0x01800000#32) ∧
      (isNaN 0x82000000#32 = false ∧ isInf 0x82000000#32 = false ∧ 3 < floatExp 0x82000000#32) ∧
      Omod.div4 ≠ .disabled ∧ Omod.other 2 ≠ .disabled ∧ isInf 0xFF800000#32 = true ∧ isNaN 0x7FC00000#32 = true ∧
      isDenormal 1#32 = true := by decide

/-- Both ends of the range, below it and above it. -/
theorem witness_Clamp :
    (isNaN f1 = false ∧ isDenormal f1 = false ∧ f1 ≠ floatNegZero ∧ 0 ≤ floatKey f1 ∧ floatKey f1 ≤ floatKey floatOne) ∧
      (isNaN 0 = false ∧ isDenormal 0 = false ∧ (0 : Word) ≠ floatNegZero ∧ 0 ≤ floatKey 0) ∧
      (isNaN m1 = false ∧ floatKey m1 < 0) ∧
      (isNaN 0x3F800001#32 = false ∧ floatKey floatOne < floatKey 0x3F800001#32) := by decide

theorem witness_Mov :
    (rh (.unnamed .mov) 4).part.a = ⟨.rgb0, .r, .g, .b⟩ ∧ (ah (.unnamed .mov) 4).part.a = ⟨.rgb0, .a⟩ ∧
      (rh (.unnamed .mov) 4).part.omod = .disabled ∧ (rh (.unnamed .mov) 4).part.clamp = false ∧
      (rh (.unnamed .mov) 4).part.wr = true ∧ (rh (.unnamed .mov) 4).part.wg = true ∧
      (rh (.unnamed .mov) 4).part.wb = true ∧ (ah (.unnamed .mov) 4).part.wa = true ∧
      (rh (.unnamed .mov) 4).part.dst = (ah (.unnamed .mov) 4).part.dst := by decide

theorem witness_NeverOutput :
    ((ou true true true).acquire = true → (ou true true true).uncached = true → (ou true true true).wait = true) ∧
      (st .free [] 0).holds true = false ∧
      ((st .free [] 0).anyLive = true →
        ((ou true true true).srcs.map (st .free [] 0).regOf).any (st .free [] 0).stream.owned = false) ∧
      (st .free [] 0).ctl.cond = .never := by decide

/-- V-CMD 12: under Never an OUTPUT that is not conditional writes nothing either. -/
theorem test_never_writes_no_output :
    (nextOf (exec (.output { ou false false false with conditional := false }) (st .free [] 0))).map
      (fun t => (t.mem, t.writes.length, t.outputs.map OutputEvent.written)) = some ([], 0, [false]) := by decide

/-- An empty program under the test Less, with a conditional output buffer. -/
def lessState : State :=
  { st .free [] 0 with
    program := [], ctl := { (st .free [] 0).ctl with cond := .less, condBuf := some 0x800#32 } }

/-- One processor, whose test may pass. -/
theorem witness_OneOutput :
    ((ou true true true).acquire = true → (ou true true true).uncached = true → (ou true true true).wait = true) ∧
      lessState.holds true = false ∧ lessState.stream.procs.filter Proc.live = [pr] ∧
      ((ou true true true).srcs.map lessState.regOf).any lessState.stream.owned = false ∧ lessState.ctl.cond = .less ∧
      lessState.ctl.condBuf ≠ none ∧ ([pr].map Proc.xy).Nodup ∧
      lessState.readsRace (lessState.testReads pr) = false ∧ lessState.outDesc 0 ≠ none ∧
      (∀ c ∈ lessState.cellsOf (ou true true true) pr,
        lessState.inProgram c.1 = false ∧ lessState.sharedWithOther pr.xy c.1 = false) ∧
      ∀ p ∈ [pr], ∀ q ∈ [pr], p.xy ≠ q.xy → False := by
  refine ⟨by decide, by decide, by decide, by decide, by decide, by decide, by decide,
    readsRace_unwritten _ rfl, by decide, fun c _ => ⟨?_, rfl⟩, by decide⟩
  simp [State.inProgram, lessState, st, State.reset, Control.reset]

/-- Two live processors of different index pairs. -/
theorem witness_TwoOutputs :
    let s := { st .free [] 0 with stream := { (st .free [] 0).stream with procs := [pr, { pr with xy := ⟨4, 5⟩ }] } }
    ((s.stream.procs.filter Proc.live).map Proc.xy) = [⟨3, 5⟩, ⟨4, 5⟩] ∧
      ((s.stream.procs.filter Proc.live).map Proc.xy).Nodup ∧
      ∀ p ∈ s.stream.procs, s.cellsOf (ou true true true) p = [] := by decide

theorem witness_OutputKeeps : ∃ t, exec (.output (ou false false false)) (st .free [] 0) = .next t ∧
    ∀ p ∈ (st .free [] 0).stream.procs, p.live = true → ∀ d, (st .free [] 0).outDesc 0 = some d →
      ∀ c ∈ outCells d p.xy ((st .free [] 0).outVals (ou false false false) p), c.1 ≠ 2 ^ 32 :=
  ⟨_, rfl, fun _ _ _ _ _ _ hc => Nat.ne_of_lt (outCells_lt hc)⟩

theorem jumpCond_zero (s : State) (p : Proc) : s.jumpCond (fl 0x00#8 .none .none 0) p = false := by
  simp [State.jumpCond, fl]

theorem witness_JumpFunc :
    (fl 0x00#8 .none .none 0).func = 0x00#8 ∧ (fl 0xff#8 .none .none 0).func = 0xff#8 ∧
      Config.jumpIndex (jumpCode true false true) = Config.jumpIndex (jumpCode true false true) ∧
      (st .free [] 0).anyLive = true ∧
      ∀ q ∈ (st .free [] 0).stream.procs, q.live = true → (st .free [] 0).jumpCond (fl 0x00#8 .none .none 0) q = false :=
  ⟨by decide, by decide, rfl, by decide, fun q _ _ => jumpCond_zero _ q⟩

theorem witness_BranchOperations :
    { pr with killed := true }.killed = true ∧
      ({ pr with active := false, counter := 1 }.killed = false ∧ { pr with active := false, counter := 1 }.active = false) ∧
      pr.killed = false ∧ pr.active = true := by decide

/-- Where no branch is open no branch operation nests too deep. -/
theorem shallow {s : State} (op : BranchOp) (h : s.stream.depth = 0) : s.tooDeep op = false := by
  cases hm : s.ctl.mode <;> simp [State.tooDeep, h, hm, Config.branchDepth]

/-- JUMP and CONTINUE; columns c5 and c9 NONE and 0. -/
theorem witness_JumpSetsThePc :
    (st .free [] 0).holds (fl 0x01#8 .incr .decr 1).wait = false ∧
      (st .free [] 0).tooDeep (branchOpOf (fl 0x01#8 .incr .decr 1) ((st .free [] 0).jumps (fl 0x01#8 .incr .decr 1))) =
        false ∧ (fl 0x00#8 .none .none 0).func = 0x00#8 ∧ (fl 0xff#8 .none .none 0).func = 0xff#8 ∧
      (fl 0x01#8 .incr .decr 1).c5 = 0 ∧ (fl 0x01#8 .incr .decr 1).c9 = 0 :=
  ⟨by decide, shallow _ rfl, by decide, by decide, by decide, by decide⟩

/-- The same stream in full mode with integer constants set, with one loop of each kind open, inside n branches. -/
def inLoops (left : Int) (n : Nat) : State :=
  { st .free [] 0 with
    ctl := { Control.reset with mode := .fullMode, consti := some { desc := desc 0x800#32, offset := 0 } }
    stream := { (st .free [] 0).stream with
      depth := n, loops := { aL := 7, loopStack := [{ left := left, step := 2, savedAL := 0 }], repStack := [left] } } }

/-- The integer constants set and not set. -/
theorem witness_LoopEntry :
    let s := (inLoops 1 0).withLoops LoopState.reset
    s.holds (fl 0x00#8 .none .none 0).wait = false ∧ s.constiUnset (fl 0x00#8 .none .none 0) = false ∧
      (st .free [] 0).constiUnset (fl 0x00#8 .none .none 0) = true ∧ (∀ op, s.tooDeep op = false) ∧
      s.stream.loops.loopStack.length < Config.loopStackSize .fullMode ∧
      s.stream.loops.repStack.length < Config.loopStackSize .fullMode ∧
      s.readsRace (s.constiReads (fl 0x00#8 .none .none 0) 1) = false ∧ s.jumps (fl 0xff#8 .none .none 0) = true ∧
      s.ctl.consti = some { desc := desc 0x800#32, offset := 0 } := by
  refine ⟨by decide, by decide, by decide, fun op => shallow op rfl, ?_, ?_, readsRace_unwritten _ rfl, by decide, by decide⟩
  · simp [State.withLoops, State.withStream, LoopState.reset, Config.loopStackSize]
  · simp [State.withLoops, State.withStream, LoopState.reset, Config.loopStackSize]

/-- With an iteration left and at the last one. -/
theorem witness_LoopEnd :
    (inLoops 2 0).holds (fl 0xff#8 .none .none 0).wait = false ∧
      (inLoops 2 0).stream.loops.loopStack = { left := 2, step := 2, savedAL := 0 } :: [] ∧
      (inLoops 1 0).stream.loops.loopStack = { left := 1, step := 2, savedAL := 0 } :: [] ∧
      (inLoops 2 0).stream.loops.repStack = 2 :: [] ∧ (inLoops 1 0).stream.loops.repStack = 1 :: [] ∧
      ∀ n op, (inLoops n 0).tooDeep op = false :=
  ⟨by decide, by decide, by decide, by decide, by decide, fun _ op => shallow op rfl⟩

/-- No loop open; six branches open in partial mode and a branch that goes one deeper, in and out of loops; and a jump that
enters no loop. -/
theorem witness_StackMisuse :
    let s := { (inLoops 2 6) with ctl := { (inLoops 2 6).ctl with mode := .partialMode } }
    (st .free [] 0).holds (fl 0xff#8 .incr .incr 0).wait = false ∧
      (st .free [] 0).stream.loops.loopStack = [] ∧ (st .free [] 0).stream.loops.repStack = [] ∧
      s.holds (fl 0xff#8 .incr .incr 0).wait = false ∧
      (∀ b, s.tooDeep (branchOpOf (fl 0xff#8 .incr .incr 0) b) = true) ∧
      s.stream.loops.loopStack = { left := 2, step := 2, savedAL := 0 } :: [] ∧ s.stream.loops.repStack = 2 :: [] ∧
      s.constiUnset (fl 0xff#8 .incr .incr 0) = false := by decide

theorem witness_ProgramStart :
    atStart.ctl.programDesc ≠ none ∧ atStart.ctl.pipeFlushed = true ∧ State.reset.ctl.programDesc = none ∧
      { atStart with ctl := { atStart.ctl with pipeFlushed := false } }.ctl.pipeFlushed = false := by decide

/-- Writes of a killed processor at 7, and of another one at 8. -/
def kill7 : WriteRec := { rec7 false none with unsaid := true, cells := [(7, 1), (8, 2)] }
def sure8 : WriteRec := { rec7 false none with xy := ⟨4, 5⟩, cells := [(8, 3)] }

/-- R73, R217: a flush leaves of unsaid writes what no later certain write covers. -/
theorem test_flush_keeps_unsaid :
    unsaidLeft [sure8, kill7] = [kill7] ∧ unsaidLeft [kill7, sure8] = [{ kill7 with cells := [(7, 1)] }] := by decide

/-- R73: the host's byte over an unsaid one is what is there after a flush. -/
theorem test_host_replaces_unsaid :
    unsaidLeft ({ State.reset with writes := [kill7] }.hostWrite [(7, 9), (100, 1)]).writes =
      [{ kill7 with cells := [(8, 2)] }] := by decide

theorem witness_FlushKeepsUnsaid :
    let s := { atStart with writes := [kill7, sure8] }
    s.ctl.programDesc ≠ none ∧ s.ctl.pipeFlushed = true ∧ s.writes = [] ++ kill7 :: [sure8] ∧ kill7.unsaid = true ∧
      ∃ x ∈ [sure8], x.unsaid = false ∧ x.covers 8 = true := by decide

theorem witness_PerformanceCounters :
    ∀ j < (Config.perfDump ((List.range Config.nperf).map State.reset.perf.value)).length, cellAddr 0x100#32 j ≠ 2 ^ 32 :=
  fun _ _ => Nat.ne_of_lt (cellAddr_lt _ _)

theorem witness_RoundTrip : encode (.setCondTest .less) = some [0xC0001B00#32, 1#32] := by decide

theorem witness_DecodedBytes :
    decode [0x00, 0x1B, 0x00, 0xC0, 0x01, 0x00, 0x00, 0x00, 0x55] = .ok (.setCondTest .less, [0x55]) := by decide

/-- Reserved bits of a base, a size and a format parameter, and a reserved format. -/
theorem witness_LostParameters :
    ((0x400#32 : Word).extractLsb' 0 11 ≠ 0) ∧ ((0x80000000#32 : Word).extractLsb' 13 19 ≠ 0) ∧
      ((1#32 : Word).extractLsb' 0 2 ≠ 0) ∧ ((0x05000100#32 : Word).extractLsb' 0 2 = 0 ∧
        (0x05000100#32 : Word).extractLsb' 13 3 = 0 ∧ (0x05000100#32 : Word).extractLsb' 18 6 = 0 ∧
        (0x05000100#32 : Word).extractLsb' 27 5 = 0 ∧ 5 ≤ ((0x05000100#32 : Word).extractLsb' 24 3).toNat) := by decide

/-- The PE at the bytes of set_cond_test with parameter 1. -/
def atCommand : State :=
  { State.reset with
    mem := Memory.writeAll [] [(0, 0x00), (1, 0x1B), (2, 0x00), (3, 0xC0), (4, 0x01), (5, 0x00), (6, 0x00), (7, 0x00)]
    pe := { Pe.reset with limit := 8, current := some 0 } }

theorem witness_StepRunsCommand :
    atCommand.running = false ∧ atCommand.canLaunch = false ∧ atCommand.pe.current = some 0 ∧
      atCommand.pe.ptr < atCommand.pe.limit ∧ atCommand.pe.ptr % 4 = 0 ∧
      (∀ p ∈ atCommand.pe.ops, p.addr = atCommand.pe.ptr → atCommand.opStands p = false) ∧
      decode (atCommand.peBytes atCommand.pe.ptr (min maxCommandBytes (atCommand.pe.limit - atCommand.pe.ptr))) =
        .ok (.setCondTest .less, []) ∧
      ∃ t, exec (.setCondTest .less) atCommand = .next t :=
  ⟨by decide, by decide, by decide, by decide, by decide, by decide, by decide, _, rfl⟩

/-- The PE at a lost opcode word. -/
theorem witness_StepRunsPlaced :
    built.running = false ∧ built.canLaunch = false ∧ built.pe.current = some 0 ∧ built.pe.ptr < built.pe.limit ∧
      built.pe.ptr % 4 = 0 ∧
      built.pe.ops.find? (fun q => q.addr == built.pe.ptr && built.opStands q) =
        some { addr := 0, cmd := .readPerfCounters, index := 0 } ∧
      built.pe.ptr + 4 * (1 + LostCommand.readPerfCounters.params) ≤ built.pe.limit ∧
      takeWords LostCommand.readPerfCounters.params
        (built.peBytes (built.pe.ptr + 4) (4 * LostCommand.readPerfCounters.params)) = some ([0x100#32], []) ∧
      decodeLost .readPerfCounters 0 0x100#32 [] = .ok (.row (.readPerfCounters 0x100#32)) ∧
      ∃ t, built.execCommand (.row (.readPerfCounters 0x100#32)) = .next t :=
  ⟨by decide, by decide, by decide, by decide, by decide, by decide, by decide, by decide, by decide, _, rfl⟩

/-- A stream whose only move is to issue a JUMP. -/
def atJump : State :=
  { st .free [] 0 with program := [.fcJump (fl 0x00#8 .none .none 0)] }

theorem witness_StepIssues :
    atJump.running = true ∧ atJump.canLaunch = false ∧ atJump.turn.finished = false ∧ atJump.turn.pickMove = some .issue ∧
      atJump.program[atJump.turn.stream.pc]? = some (.fcJump (fl 0x00#8 .none .none 0)) ∧
      (Instr.fcJump (fl 0x00#8 .none .none 0)).isDpp = true ∧ (Instr.fcJump (fl 0x00#8 .none .none 0)).wf = true := by decide

/-- A stream past its program's end; and one whose only instruction is an OUTPUT. -/
theorem witness_PcPastEnd :
    let s := { st .free [] 0 with program := [] }
    (s.running = true ∧ s.canLaunch = false ∧ s.turn.issuedAll = false ∧ s.program.length ≤ s.turn.stream.pc ∧
      s.turn.stream.pending = [] ∧ s.turn.stream.sem = .free) ∧
    { st .free [] 0 with program := [.output (ou false false false)] }.stream.done = false ∧
    ∃ t, exec (.output (ou false false false)) { st .free [] 0 with program := [.output (ou false false false)] } = .next t ∧
      t.stream.done = true := ⟨by decide, by decide, _, rfl, by decide⟩

/-- Index pairs waiting, none running. -/
def waitingState : State := { State.reset with waiting := [⟨0, 0⟩, ⟨1, 0⟩] }

theorem waitingState_launches : waitingState.canLaunch = true := by
  simp [State.canLaunch, State.busy, waitingState, State.reset, Config.nproc]

theorem step_waitingState : step waitingState = .next waitingState.launchGroup.endStep := by
  simp only [step, State.agentStep, waitingState_launches, if_true]

/-- A stream that is final. -/
def finalState : State := withProc (st .free [] 0) { pr with killed := true }

theorem witness_PeWaits :
    (onlyRelease.running = true ∧ ∃ t, step onlyRelease = .next t) ∧
      waitingState.waiting ≠ [] ∧ ∃ t, step waitingState = .next t :=
  ⟨⟨by decide, _, rfl⟩, by decide, _, step_waitingState⟩

theorem witness_Launch : waitingState.running = false ∧ waitingState.waiting ≠ [] ∧ waitingState.canLaunch = true :=
  ⟨by decide, by decide, waitingState_launches⟩

/-- entry_regs that name a register twice. -/
def entryState : State :=
  { waitingState with ctl := { Control.reset with
      entryRegs := [{ xy := ⟨1, 0⟩, regs := [(0, Quad.all f1), (0, Quad.all f2), (3, Quad.all f3)] }] } }

theorem test_entry_regs_last_wins :
    (entryState.launchProc ⟨1, 0⟩).temp 0 0 = Quad.all f2 ∧ (entryState.launchProc ⟨1, 0⟩).temp 0 7 = Quad.all 0 := by decide

theorem witness_EntryRegs :
    entryState.canLaunch = true ∧
      entryState.ctl.entryRegs.find? (fun e => e.xy == (⟨1, 0⟩ : IndexPair)) =
        some { xy := ⟨1, 0⟩, regs := [(0, Quad.all f1)] ++ (0, Quad.all f2) :: [(3, Quad.all f3)] } ∧
      (∀ e ∈ entryState.ctl.entryRegs, e.xy ≠ ⟨0, 0⟩) :=
  ⟨by simp [State.canLaunch, State.busy, entryState, waitingState, State.reset, Config.nproc], by decide, by decide⟩

theorem witness_InstancesEnd : finalState.running = true ∧ finalState.canLaunch = false ∧
    (∀ p ∈ finalState.turn.stream.procs, p.killed = true) ∧ finalState.turn.stream.pending = [] ∧
    finalState.turn.stream.sem = .free ∧ ∃ t, step finalState = .next t ∧ t.running = false :=
  ⟨by decide, by decide, by decide, by decide, by decide, _, rfl, by decide⟩

/-- The PE idle with a buffer in the queue and with none, and at the end of the buffer it reads. -/
theorem witness_CommandBuffers :
    let s := (State.reset.submit 64 8).1
    (s.running = false ∧ s.canLaunch = false ∧ s.pe.current = none ∧ s.pe.queue = { id := 0, addr := 64, size := 8 } :: []) ∧
      State.reset.pe.current = none ∧ State.reset.pe.queue = [] ∧
      ({ atCommand with pe := { atCommand.pe with ptr := 8 } }.pe.current = some 0 ∧
        { atCommand with pe := { atCommand.pe with ptr := 8 } }.pe.limit ≤ 8) ∧
      ∃ t, step { atCommand with pe := { atCommand.pe with ptr := 8 } } = .next t ∧ t.bufferConsumed 0 = true :=
  ⟨by decide, by decide, by decide, by decide, _, rfl, by decide⟩

/-- The four invariants' step statements: a state that meets each invariant and steps. -/
theorem witness_Invariants :
    State.reset.MemInv ∧ State.reset.SemInv ∧ State.reset.DescInv ∧ State.reset.BranchInv ∧
      ∃ t, step State.reset = .next t := by
  refine ⟨⟨Memory.wf_nil, ?_⟩, ?_, ?_, ?_, _, rfl⟩
  all_goals simp [Stream.pendingInSpace, State.SemInv, Stream.seqOrdered, Stream.semKnown, Stream.ownersDistinct, State.DescInv,
    State.BranchInv, Stream.branchesWithin, State.streams, State.reset, Stream.reset, Control.reset, Proc.reset]

/-- A running stream that meets the memory, semaphore and branch invariants and steps. -/
theorem witness_InvariantsWhileRunning :
    onlyRelease.MemInv ∧ onlyRelease.SemInv ∧ onlyRelease.BranchInv ∧ ∃ t, step onlyRelease = .next t := by
  refine ⟨⟨Memory.wf_nil, ?_⟩, ?_, ?_, _, rfl⟩
  all_goals simp [Stream.pendingInSpace, State.SemInv, Stream.seqOrdered, Stream.semKnown, Stream.ownersDistinct,
    State.BranchInv, Stream.branchesWithin, State.streams, onlyRelease, withProc, st, Stream.reset, State.reset]

theorem witness_ExecNext :
    (∃ t, exec (maxi 7 4 5 false) (st .free [] 0) = .next t) ∧
      (∃ t, exec (.setCondTest .less) (st .free [] 0) = .next t) ∧
      (Instr.isDpp (maxi 7 4 5 false) = true ∧ Instr.isDpp (.setCondTest .less) = false) ∧
      (∀ o, maxi 7 4 5 false ≠ .output o) ∧ ∀ a, maxi 7 4 5 false ≠ .readPerfCounters a :=
  ⟨⟨_, rfl⟩, ⟨_, rfl⟩, by decide, fun _ h => (by cases h), fun _ h => (by cases h)⟩

theorem witness_KilledAndInactive :
    (∃ t, exec (maxi 7 4 5 false) finalState = .next t) ∧ finalState.stream.procs[0]? = some { pr with killed := true } ∧
      (∃ t, exec (maxi 7 4 5 false) (withProc (st .free [] 0) { pr with active := false }) = .next t) ∧
      (withProc (st .free [] 0) { pr with active := false }).stream.procs[0]? = some { pr with active := false } :=
  ⟨⟨_, rfl⟩, by decide, ⟨_, rfl⟩, by decide⟩

/-- An ALU half whose output mask is set on red alone, no predication; and a row that is no ALU row. -/
theorem witness_ConditionBits :
    let h := { (rh .max 4).part with pr := true }
    (rgbPmask h).get .r = true ∧ (rgbPmask h).get .g = false ∧ (pr.enabled none).get .r = true ∧
      ({ (ah .max 4).part with pa := true }).pa = true ∧ aluHalves (.texNop (tx 0 0 0 false false)) = none ∧
      (∃ t, exec (.texNop (tx 0 0 0 false false)) (st .free [] 0) = .next t) ∧
      (st .free [] 0).stream.procs[0]? = some pr :=
  ⟨by decide, by decide, by decide, by decide, by decide, ⟨_, rfl⟩, by decide⟩

/-- A section of executable instructions. -/
def textSection : ElfSection :=
  { name := textName, type := .progbits, alloc := true, execInstr := true, contents := [.setCondTest .less] }

/-- An executable file with the notes given. -/
def file (ns : List Note) : ObjectFile :=
  { elfClass := .class32, segments := [{ header := [], sections := [textSection] }], notes := ns }

/-- The Int32 Constants note after another note (R346); a 64-bit file; a file without .text; a reserved word that is set (R347). -/
theorem test_loader :
    (file [.programInfo [] [], .typed [6, 0, 0, 0] noteNameAti [9, 0, 0, 0]]).int32Refs = [9#32] ∧
      (file [.typed [5, 0, 0, 0] noteNameAti [9, 0, 0, 0]]).int32Refs = [] ∧
      (match State.reset.loadProgram (file [.programInfo [] [0, 0, 0, 1]]) ⟨0#21⟩ with
        | .error e => some e
        | .ok _ => none) = some .reservedNonzero ∧
      (match State.reset.loadProgram { file [] with segments := [] } ⟨0#21⟩ with
        | .error e => some e
        | .ok _ => none) = some .notAnExecutable := by decide

theorem witness_Loader :
    { file [] with elfClass := .class64 }.elfClass ≠ .class32 ∧
      (∀ g ∈ { file [] with segments := [] }.segments, ∀ x ∈ g.sections, x.isText = false) ∧
      (file []).elfClass = .class32 ∧ (file []).text = some textSection ∧
      (∃ n ∈ (file [.programInfo [] [0, 0, 0, 1]]).notes, n.reservedSet = true) ∧
      (∀ n ∈ (file [.programInfo [] [0, 0, 0, 0]]).notes, n.reservedSet = false) ∧
      (∀ n ∈ (file [.typed [5, 0, 0, 0] noteNameAti [9, 0, 0, 0]]).notes, n.int32Consts = none) ∧
      (∀ n ∈ [Note.programInfo [] []], n.int32Consts = none) ∧
      (file [.programInfo [] [], .typed [6, 0, 0, 0] noteNameAti [9, 0, 0, 0]]).notes =
        [.programInfo [] []] ++
          .typed [0x06, 0x00, 0x00, 0x00] [0x41, 0x54, 0x49, 0x20, 0x44, 0x50, 0x50, 0x00] [9, 0, 0, 0] :: [] := by
  decide

end Sys2Proof.Machine.Tests
end

section
/-! PROOF. The statements about the machine's state: what an instruction or command leaves alone, how a loop is entered, which
condition bits change, the end of a program, and the state after reset (spec/10_state.md). -/

namespace Sys2Proof.Machine

/-! ## What an instruction of the array can do -/

/-- `DppNext s i t`: a way in which instruction i of the array takes s to t. It holds (R222), or it issues: as a texture
instruction, an ALU row, an OUTPUT or flow control. -/
inductive DppNext (s : State) : Instr → State → Prop
  | held (i : Instr) : DppNext s i s
  | texNop (t : TexFields) :
      DppNext s (.texNop t) ((s.ready t.wait true).finishIssue t.acquire (s.stream.seq + 1))
  /-- A lookup or a kill: outstanding under the next number, storing nothing, its destination not owned. -/
  | texPend (i : Instr) (e : Pend) (acquire : Bool) (hseq : e.seq = s.stream.seq + 1)
      (hcells : ∀ l ∈ e.lanes, l.cells = []) (howned : e.isLookup = true → s.stream.owned e.dst = false) :
      DppNext s i (((s.ready i.semWait true).addPending e).finishIssue acquire (s.stream.seq + 1))
  | alu (i : Instr) (rgb : Option RgbHalf) (alpha : Option AlphaHalf) (c : AluCommon)
      (hi : aluHalves i = some (rgb, alpha, c)) :
      DppNext s i ((((s.waited c.wait).onLive (s.aluProc c rgb alpha)).noteReads (s.constReads c rgb alpha)).finishIssue
        false s.stream.seq)
  | output (o : OutputFields) (v : State) (lanes : List Lane)
      (hsend : (s.ready o.wait o.uncached).sendOutputs o = .ok (v, lanes)) :
      DppNext s (.output o) ((v.closeOutput o (s.ready o.wait o.uncached).stream.seq lanes).finishIssue
        (o.acquire && o.uncached) (s.ready o.wait o.uncached).stream.seq)
  | flow (i : Instr) (f : Flow) (taken : Bool) (loops : LoopState) (rs : List ReadRec) (hi : flowFields i = some f)
      (hdepth : s.tooDeep (branchOpOf f taken) = false) :
      DppNext s i ((((s.waited f.wait).noteReads rs).withLoops loops).branched f taken)

/-- Lanes that record no bytes to store. -/
theorem State.lanes_cells_nil {s : State} {f : Proc → Lane} (hf : ∀ p, (f p).cells = []) :
    ∀ l ∈ s.lanes f, l.cells = [] :=
  List.forall_mem_map.2 fun p _ => hf p

/-- A lookup is one of the ways. -/
theorem DppNext.of_lookup {i : Instr} {o : LookupOp} {t : TexFields} {s u : State} (hw : i.semWait = t.wait)
    (h : issue t.wait t.acquire true s (lookupEffect o t) = .next u) : DppNext s i u := by
  obtain rfl | ⟨-, hown, rfl⟩ := lookup_next h
  · exact .held i
  · rw [← hw]
    exact .texPend i _ _ rfl (State.lanes_cells_nil fun _ => rfl) fun _ => by simpa [lookupPend] using hown

/-- Every next state of an instruction of the array is reached in one of these ways. -/
theorem exec_dppNext {i : Instr} {s u : State} (hd : i.isDpp = true) (h : exec i s = .next u) : DppNext s i u := by
  cases hi : aluHalves i with
  | some x =>
    obtain ⟨rgb, alpha, c⟩ := x
    rw [exec_alu hi] at h
    obtain rfl | ⟨-, rfl⟩ := issueAlu_next h
    · exact .held i
    · exact .alu i rgb alpha c hi
  | none =>
    cases hf : flowFields i with
    | some f =>
      obtain rfl | ⟨-, taken, loops, rs, hdepth, rfl⟩ := flow_next hf h
      · exact .held i
      · exact .flow i f taken loops rs hf hdepth
    | none =>
      cases i <;> simp only [Instr.isDpp, aluHalves, flowFields, reduceCtorEq] at hd hi hf
      case texNop t =>
        obtain rfl | ⟨-, rfl⟩ := execTexNop_next h
        · exact .held _
        · exact .texNop t
      case texLookup t => exact .of_lookup rfl h
      case texLookupProj t => exact .of_lookup rfl h
      case texLookupUncached t => exact .of_lookup rfl h
      case texKillLtZero t =>
        obtain rfl | ⟨-, rfl⟩ := kill_next h
        · exact .held _
        · exact .texPend (.texKillLtZero t) _ _ rfl (State.lanes_cells_nil fun _ => rfl) nofun
      case output o =>
        obtain rfl | ⟨-, v, lanes, hsend, rfl⟩ := output_next h
        · exact .held _
        · exact .output o v lanes hsend
      case aluUnnamed x c => cases x <;> cases hi
      case aluCrossEngineCopy x c => cases x <;> cases hi

/-- A flow-control instruction's whole next state (R264, R266). -/
theorem State.branched_waited (s : State) (wait : Bool) (rs : List ReadRec) (l : LoopState) (f : Flow) (b : Bool) :
    (((s.waited wait).noteReads rs).withLoops l).branched f b = { s with
      stream := { s.stream with
        pc := if b then f.addr else s.stream.pc + 1
        depth := depthAfter (branchOpOf f b) f.popCnt s.stream.depth
        loops := l
        procs := s.stream.procs.map (s.branchedProc f b) }
      writes := (s.waited wait).writes
      reads := s.reads ++ rs } := by
  cases wait <;> rfl

/-- An OUTPUT's tests and requests leave the stream and the program alone. -/
theorem sendOutputs_stream {o : OutputFields} {s t : State} {ls : List Lane} (h : s.sendOutputs o = .ok (t, ls)) :
    t.stream = s.stream ∧ t.program = s.program := by
  obtain ⟨⟨rs, e, -⟩, -⟩ := sendOutputs_ok h
  exact ⟨by rw [e], by rw [e]⟩

/-! ## What instructions and commands leave alone (O56) -/

/-- The fields that an instruction of the array can change; the record of reads only grows. -/
theorem DppNext.frame {i : Instr} {s u : State} (h : DppNext s i u) :
    u = { s with
      stream := u.stream, mem := u.mem, writes := u.writes, reads := u.reads, outputs := u.outputs
      condCache := u.condCache } ∧ s.reads <+: u.reads := by
  cases h with
  | held => exact ⟨rfl, List.prefix_rfl⟩
  | texNop t => rw [State.ready_eq]; exact ⟨rfl, List.prefix_rfl⟩
  | texPend i e acquire => rw [State.ready_eq]; exact ⟨rfl, List.prefix_rfl⟩
  | alu i rgb alpha c => rw [State.waited_eq]; exact ⟨rfl, List.prefix_append _ _⟩
  | output o v lanes hsend =>
    obtain ⟨⟨rs, e, -⟩, -⟩ := sendOutputs_ok hsend
    rw [State.ready_eq] at e
    rw [e]
    exact ⟨rfl, List.prefix_append _ _⟩
  | flow i f taken loops rs => rw [State.branched_waited]; exact ⟨rfl, List.prefix_append _ _⟩

/-- The fields that a command of the PE can change. -/
theorem exec_command_frame {i : Instr} {s u : State} (hd : i.isDpp = false) (h : exec i s = .next u) :
    u = { s with
      ctl := u.ctl, waiting := u.waiting, runNo := u.runNo, mem := u.mem, writes := u.writes, reads := u.reads
      perf := u.perf } := by
  cases i <;> simp only [Instr.isDpp, reduceCtorEq] at hd
  case programStart =>
    obtain ⟨-, rfl⟩ := refuse_next h
    rfl
  all_goals cases h; rfl

/-- Settles O56, by the frame of each of the two kinds. -/
theorem instructionsAndCommandsKeepApart : Obligations.InstructionsAndCommandsKeepApart := by
  intro i s t h
  cases hd : i.isDpp with
  | true =>
    obtain ⟨e, hreads⟩ := (exec_dppNext hd h).frame
    rw [e]
    exact ⟨rfl, rfl, rfl, rfl, rfl, rfl, rfl, rfl, fun _ => ⟨rfl, rfl, rfl, rfl, hreads⟩, nofun⟩
  | false =>
    rw [exec_command_frame hd h]
    exact ⟨rfl, rfl, rfl, rfl, rfl, rfl, rfl, rfl, nofun, fun _ => ⟨rfl, rfl, rfl⟩⟩

/-! ## The end of a program (O45) -/

/-- Only an OUTPUT can end the program, where it is the last instruction (R185). -/
theorem DppNext.done {i : Instr} {s u : State} (h : DppNext s i u) :
    u.stream.done = s.stream.done ∨ ∃ o, i = .output o ∧ u.stream.done = (s.stream.done || s.atLast) := by
  cases h with
  | held => exact .inl rfl
  | texNop t => exact .inl (s.ready_done _ _)
  | texPend i e acquire => exact .inl (s.ready_done _ _)
  | alu i rgb alpha c => exact .inl (by simp)
  | output o v lanes hsend =>
    obtain ⟨hstream, hprogram⟩ := sendOutputs_stream hsend
    exact .inr ⟨o, rfl, by simp [State.closeOutput, State.atLast, hstream, hprogram]⟩
  | flow i f taken loops rs => exact .inl (by rw [State.branched_waited])

/-- A stream with nothing to perform or release, whose instruction does not hold, has to issue. -/
theorem State.pickMove_issue {s : State} (hi : s.issuedAll = false) (hh : s.nextHolds = false)
    (hp : s.stream.pending = []) (hs : s.stream.sem = .free) : s.pickMove = some .issue := by
  have hm : s.moves = [.issue] := by simp [State.moves, hi, hh, hp, State.releasable, Stream.releasable, hs]
  have ho : s.openMoves = [.issue] := by simp [State.openMoves, hm, Stream.isDue]
  simp [State.pickMove, ho, pickIndex]

/-- A running stream that picks to issue does. -/
theorem State.agentStep_issue {s : State} (hr : s.running = true) (hl : s.canLaunch = false)
    (hf : s.turn.finished = false) (hm : s.turn.pickMove = some .issue) : s.agentStep = s.turn.issueNext := by
  simp [State.agentStep, hl, hr, State.runStep, hf, hm, State.doMove]

/-- Settles O45: past the end the only move is to issue, and there is nothing there; and only an OUTPUT sets `done`. -/
theorem pcPastTheEndFaults : Obligations.PcPastTheEndFaults := by
  refine ⟨fun s hr hl hi hpc hp hs => ?_, fun i s t hdone h htdone => ?_⟩
  · have hnone : s.program[s.turn.stream.pc]? = none := List.getElem?_eq_none hpc
    have hm := State.pickMove_issue hi (by simp [State.nextHolds, hnone]) hp hs
    have hagent := State.agentStep_issue hr hl (by simp [State.finished, hi]) hm
    simp [step, hagent, State.issueNext, hnone]
  · cases hd : i.isDpp with
    | false =>
      rw [exec_command_frame hd h] at htdone
      exact absurd htdone (by simp [hdone])
    | true =>
      obtain e | ⟨o, rfl, e⟩ := (exec_dppNext hd h).done
      · simp [e, hdone] at htdone
      · exact ⟨o, rfl, by simpa [e, hdone, State.atLast] using htdone⟩

/-! ## How a loop is entered (O32) -/

theorem flowGo_free {f : Flow} {b : Bool} {s : State} (h : s.tooDeep (branchOpOf f b) = false) :
    flowGo f b s = .next (s.branched f b) := by
  simp [flowGo, h]

/-- What LOOP and REP have in common once their constant is read: which stack they use and how they enter the loop apart. -/
def loopStart (f : Flow) (used : LoopState → Nat) (enter : LoopState → IntConst → LoopState) (c : IntConst) (s : State) :
    Result :=
  if s.skipsLoop f c then flowGo f true s
  else if s.loopsFull (used s.stream.loops) then .fault .stackOverflow
  else flowGo f false (s.withLoops (enter s.stream.loops c))

/-- The loop state inside a REP: the count alone (R265). -/
def enterRep (l : LoopState) (c : IntConst) : LoopState :=
  { l with repStack := c.red :: l.repStack }

theorem exec_fcLoop (f : Flow) (k : Nat) (s : State) : exec (.fcLoop f k) s =
    gate f.wait s fun t => withIntConst f k t (loopStart f (fun l => l.loopStack.length) enterLoop) := rfl

theorem exec_fcRep (f : Flow) (k : Nat) (s : State) : exec (.fcRep f k) s =
    gate f.wait s fun t => withIntConst f k t (loopStart f (fun l => l.repStack.length) enterRep) := rfl

/-- Where there is room, a LOOP or REP enters its loop or passes it over. -/
theorem loopStart_free {f : Flow} {used : LoopState → Nat} {enter : LoopState → IntConst → LoopState} {c : IntConst}
    {s : State} (hd : s.tooDeep (branchOpOf f (s.skipsLoop f c)) = false)
    (hroom : s.skipsLoop f c = false → used s.stream.loops < Config.loopStackSize s.ctl.mode) :
    loopStart f used enter c s =
      .next ((s.withLoops (if s.skipsLoop f c then s.stream.loops else enter s.stream.loops c)).branched f
        (s.skipsLoop f c)) := by
  cases hskip : s.skipsLoop f c with
  | true =>
    rw [hskip] at hd
    simp only [loopStart, hskip, if_true, flowGo_free hd]
    rfl
  | false =>
    rw [hskip] at hd
    have hfull : s.loopsFull (used s.stream.loops) = false := by simpa [State.loopsFull] using hroom hskip
    have hd' : (s.withLoops (enter s.stream.loops c)).tooDeep (branchOpOf f false) = false := hd
    simp [loopStart, hskip, hfull, flowGo_free hd']

/-- A LOOP or REP that does not hold: its two refusals in their order, and then its body from the state that has waited and
recorded the read of the constant. -/
theorem gate_withIntConst {f : Flow} {k : Nat} {s : State} {body : IntConst → State → Result}
    (hh : s.holds f.wait = false) : gate f.wait s (fun t => withIntConst f k t body) =
      if s.constiUnset f then .refused .descriptorNotSet
      else if s.readsRace (s.constiReads f k) then .refused .outputRace
      else body (s.intConst k) ((s.waited f.wait).noteReads (s.constiReads f k)) := by
  rw [gate_pass hh, ← State.ready_false]
  simp [withIntConst]

/-- The whole next state of a LOOP or REP that is not refused and has room. -/
theorem gate_loopStart {f : Flow} {k : Nat} {s : State} {used : LoopState → Nat}
    {enter : LoopState → IntConst → LoopState} (hh : s.holds f.wait = false) (hu : s.constiUnset f = false)
    (hr : s.readsRace (s.constiReads f k) = false) (hd : s.tooDeep (branchOpOf f (s.skipsLoop f (s.intConst k))) = false)
    (hroom : s.skipsLoop f (s.intConst k) = false → used s.stream.loops < Config.loopStackSize s.ctl.mode) :
    gate f.wait s (fun t => withIntConst f k t (loopStart f used enter)) = .next { s with
      stream := { s.stream with
        pc := if s.skipsLoop f (s.intConst k) then f.addr else s.stream.pc + 1
        depth := depthAfter (branchOpOf f (s.skipsLoop f (s.intConst k))) f.popCnt s.stream.depth
        loops := if s.skipsLoop f (s.intConst k) then s.stream.loops else enter s.stream.loops (s.intConst k)
        procs := s.stream.procs.map (s.branchedProc f (s.skipsLoop f (s.intConst k))) }
      writes := (s.waited f.wait).writes
      reads := s.reads ++ s.constiReads f k } := by
  have hskip : ((s.waited f.wait).noteReads (s.constiReads f k)).skipsLoop f (s.intConst k) =
      s.skipsLoop f (s.intConst k) := s.skipsLoop_ready f.wait false f (s.intConst k)
  have hdeep : ((s.waited f.wait).noteReads (s.constiReads f k)).tooDeep (branchOpOf f (s.skipsLoop f (s.intConst k))) =
      false := (s.tooDeep_ready f.wait false _).trans hd
  rw [gate_withIntConst hh, hu, hr]
  simp only [Bool.false_eq_true, if_false]
  rw [loopStart_free (by rw [hskip]; exact hdeep) (by simpa [hskip] using hroom), hskip]
  simp only [State.noteReads_stream, State.waited_stream, State.branched_waited]

/-- When a write of the same run, but of another index pair, covers the address (R68). -/
theorem State.writtenByOther_iff {s : State} {xy : IndexPair} {a : Nat} : s.writtenByOther xy a = true ↔
    ∃ w ∈ s.writes, w.run = s.runNo ∧ w.xy ≠ xy ∧ w.covers a = true := by
  simp [State.writtenByOther, and_assoc]

/-- When the reading of a loop's constant races (R320). -/
theorem State.readsRace_constiReads_iff {s : State} {f : Flow} {k : Nat} :
    s.readsRace (s.constiReads f k) = true ↔ s.jumps f = false ∧ ∃ p ∈ s.stream.procs, p.killed = false ∧
      ∃ a ∈ constAddrs s.ctl.consti k, s.writtenByOther p.xy a = true := by
  cases hj : s.jumps f <;> simp [State.constiReads, State.readsRace, hj]

/-- Settles O32, by what LOOP and REP have in common. -/
theorem loopEntryTakesTheConstant : Obligations.LoopEntryTakesTheConstant := by
  intro f k s hh c l skip
  refine ⟨fun hu => ?_, fun hu hr => ?_, ?_, fun hj => ?_, fun b hb => ?_,
    fun hu hr hd => ⟨fun hroom => ?_, fun hroom => ?_⟩⟩
  · simp [exec_fcLoop, exec_fcRep, gate_withIntConst hh, hu]
  · simp [exec_fcLoop, exec_fcRep, gate_withIntConst hh, hu, hr]
  · simp only [State.readsRace_constiReads_iff, State.writtenByOther_iff]
  · simp [State.constiReads, hj]
  · simp [c, State.intConst, hb, State.constElem, State.cachedElem]
  · rw [exec_fcLoop]
    exact gate_loopStart hh hu hr hd hroom
  · rw [exec_fcRep]
    exact gate_loopStart hh hu hr hd hroom

/-! ## Which condition bits change (O59) -/

@[simp] theorem writeResult_xy (s : State) (pred : Option Nat) (old : Proc) (dst : Nat) (wmask pmask : Mask) (v : Vec4)
    (p : Proc) : (writeResult s pred old dst wmask pmask v p).xy = p.xy := by
  simp only [writeResult]
  split <;> rfl

/-- The predicate bits a result sets: those that its output mask and the predication let through (R182). -/
theorem writeResult_pred (s : State) (pred : Option Nat) (old : Proc) (dst : Nat) (wmask pmask : Mask) (v : Vec4) (p : Proc)
    (ch : Comp) : (writeResult s pred old dst wmask pmask v p).pred.get ch =
      if pmask.get ch && (old.enabled pred).get ch then Config.predicateBit s.tick p.xy ch (v.get ch)
      else p.pred.get ch := by
  cases ch <;> rfl

/-- A result leaves the predicate bits that the predication or its output mask excludes. -/
theorem writeResult_pred_masked {s : State} {pred : Option Nat} {old : Proc} {dst : Nat} {wmask pmask : Mask} {v : Vec4}
    {p : Proc} {ch : Comp} (h : (old.enabled pred).get ch = false ∨ pmask.get ch = false) :
    (writeResult s pred old dst wmask pmask v p).pred.get ch = p.pred.get ch := by
  rw [writeResult_pred, if_neg]
  obtain h | h := h <;> simp [h]

/-- A predicate bit stays where the predication or both engines' output masks exclude it. -/
theorem State.aluProc_pred_masked (s : State) (c : AluCommon) {rgb : Option RgbHalf} {alpha : Option AlphaHalf} {p : Proc}
    {ch : Comp} (hout : (p.enabled c.pred).get ch = false ∨ ((∀ h, rgb = some h → (rgbPmask h.part).get ch = false) ∧
      ∀ h, alpha = some h → (alphaPmask h.part).get ch = false)) :
    (s.aluProc c rgb alpha p).pred.get ch = p.pred.get ch := by
  have hrgb : (rgb.elim p fun h => s.writeRgb c p alpha h p).pred.get ch = p.pred.get ch := by
    cases rgb with
    | none => rfl
    | some h => exact writeResult_pred_masked (hout.imp_right fun hmask => hmask.1 h rfl)
  cases alpha with
  | none => exact hrgb
  | some h =>
    exact (writeResult_pred_masked (dst := s.regOf h.part.dst) (wmask := alphaWmask h.part)
      (hout.imp_right fun hmask => hmask.2 h rfl)).trans hrgb

theorem alphaPmask_get {h : AlphaPart} {ch : Comp} (hch : ch ≠ .a) : (alphaPmask h).get ch = false := by
  cases ch
  case a => exact absurd rfl hch
  all_goals rfl

/-- The predicate bits of the RGB engine's channels after an ALU row. -/
theorem State.aluProc_pred_rgb (s : State) (c : AluCommon) (rgb : Option RgbHalf) (alpha : Option AlphaHalf) (p : Proc)
    {ch : Comp} (hch : ch ≠ .a) : (s.aluProc c rgb alpha p).pred.get ch =
      rgb.elim (p.pred.get ch) fun h => if (rgbPmask h.part).get ch && (p.enabled c.pred).get ch
        then Config.predicateBit s.tick p.xy ch ((s.rgbFinal c p alpha h).get ch) else p.pred.get ch := by
  have hno : ∀ h : AlphaHalf, (alphaPmask h.part).get ch = false := fun h => alphaPmask_get hch
  cases rgb <;> cases alpha <;> simp [State.aluProc, State.writeRgb, State.writeAlpha, writeResult_pred, hno]

/-- The predicate bit of the alpha engine's channel after an ALU row. -/
theorem State.aluProc_pred_alpha (s : State) (c : AluCommon) (rgb : Option RgbHalf) (alpha : Option AlphaHalf) (p : Proc) :
    (s.aluProc c rgb alpha p).pred.get .a =
      alpha.elim (p.pred.get .a) fun h => if h.part.pa && (p.enabled c.pred).get .a
        then Config.predicateBit s.tick p.xy .a (s.alphaFinal c p rgb h) else p.pred.get .a := by
  have hno : ∀ h : RgbHalf, (rgbPmask h.part).get .a = false := fun _ => rfl
  cases rgb <;> cases alpha <;> simp [State.aluProc, State.writeRgb, State.writeAlpha, writeResult_pred, hno] <;> rfl

theorem branchProc_keeps (op : BranchOp) (n : Nat) (d : Bool) (p : Proc) :
    ∃ active counter, branchProc op n d p = { p with active := active, counter := counter } := by
  cases op <;> simp only [branchProc] <;> repeat' split
  all_goals exact ⟨_, _, rfl⟩

theorem lostColumns_keeps (f : Flow) (n : Nat) (d : Bool) (p : Proc) :
    ∃ active counter, lostColumns f n d p = { p with active := active, counter := counter } := by
  simp only [lostColumns]
  split <;> exact ⟨_, _, rfl⟩

/-- Flow control changes a processor's activity and counter alone (R264). -/
theorem State.branchedProc_keeps (s : State) (f : Flow) (taken : Bool) (p : Proc) :
    ∃ active counter, s.branchedProc f taken p = { p with active := active, counter := counter } := by
  obtain ⟨_, _, hb⟩ := branchProc_keeps (branchOpOf f taken) f.popCnt (s.jumpCond f p != taken) p
  rw [State.branchedProc, hb]
  exact lostColumns_keeps _ _ _ _

/-- What an instruction of the array that is no ALU row does to the processors. -/
theorem DppNext.procs {i : Instr} {s u : State} (h : DppNext s i u) (hi : aluHalves i = none) :
    u.stream.procs = s.stream.procs ∨ ∃ f taken, u.stream.procs = s.stream.procs.map (s.branchedProc f taken) := by
  cases h with
  | held => exact .inl rfl
  | texNop t => exact .inl (s.ready_procs _ _)
  | texPend i e acquire => exact .inl (s.ready_procs _ _)
  | alu i rgb alpha c hc => rw [hi] at hc; cases hc
  | output o v lanes hsend =>
    obtain ⟨hstream, -⟩ := sendOutputs_stream hsend
    exact .inl (by simp [State.closeOutput, hstream])
  | flow i f taken loops rs => exact .inr ⟨f, taken, by rw [State.branched_waited]⟩

/-- Settles O59: the channels of the two engines' output masks are apart, and only ALU rows write a result. -/
theorem onlyAluRowsChangeConditionBits : Obligations.OnlyAluRowsChangeConditionBits := by
  refine ⟨fun s c rgb alpha p => ⟨fun ch hout => ?_, fun h ch hch hrgb hmask hen => ?_, fun h halpha hmask hen => ?_,
    rfl⟩, fun i s t n p hi h hp => ?_⟩
  · exact s.aluProc_pred_masked c hout
  · simp [State.aluProc_pred_rgb _ _ _ _ _ hch, hrgb, hmask, hen]
  · have hen' : (p.enabled c.pred).get .a = true := hen
    exact (s.aluProc_pred_alpha c rgb alpha p).trans (by simp [halpha, hmask, hen'])
  · cases hd : i.isDpp with
    | false =>
      rw [exec_command_frame hd h]
      exact ⟨p, hp, rfl, rfl, rfl⟩
    | true =>
      obtain e | ⟨f, taken, e⟩ := (exec_dppNext hd h).procs hi
      · exact ⟨p, by rw [e, hp], rfl, rfl, rfl⟩
      · refine ⟨s.branchedProc f taken p, by simp [e, hp], ?_⟩
        obtain ⟨_, _, hq⟩ := s.branchedProc_keeps f taken p
        rw [hq]
        exact ⟨rfl, rfl, rfl⟩

/-! ## After reset (O50, O55) -/

/-- Settles O50, field by field. -/
theorem resetState : Obligations.ResetState := by
  refine ⟨rfl, rfl, rfl, rfl, rfl, fun p hp => ?_, rfl, rfl, rfl, rfl, rfl, rfl, rfl, rfl, rfl, fun k => ⟨rfl, rfl⟩⟩
  rw [List.mem_singleton.1 hp]
  exact ⟨rfl, rfl, fun _ => rfl⟩

/-- A property of all streams after reset is one of the only stream there is. -/
theorem State.reset_streams {P : Stream → Prop} : (∀ st ∈ State.reset.streams, P st) ↔ P Stream.reset :=
  List.forall_mem_singleton

/-- Settles O55: memory is empty, nothing is outstanding, no descriptor is set and the stream is inside no branch. -/
theorem resetMeetsTheInvariants : Obligations.ResetMeetsTheInvariants := by
  refine ⟨⟨Memory.wf_nil, State.reset_streams.2 nofun⟩, State.reset_streams.2 ⟨⟨.nil, nofun⟩, nofun, .nil⟩, ?_,
    State.reset_streams.2 ⟨Nat.zero_le _, ?_⟩⟩
  · exact ⟨nofun, nofun, nofun, nofun, nofun, nofun, nofun⟩
  · simp [Stream.reset, Proc.reset]

end Sys2Proof.Machine
end

section
/-! PROOF. The statements about memory (spec/20_memory.md): its canonical form, the descriptors' alignment, which operations
write it, what a read of written data sees, and what an OUTPUT stores or is refused. -/

namespace Sys2Proof.Machine

/-! ## What a step can do -/

/-- `AgentNext s u`: a way in which the agent whose turn it is takes s to u. A group is launched; or the stream in front, once its
turn has come, ends, does nothing, issues an instruction of the array, or has the texture unit perform an operation or release
its semaphore; or the PE takes or ends a buffer or executes a command. -/
inductive AgentNext (s : State) : State → Prop
  | launch : AgentNext s s.launchGroup
  | retire : AgentNext s s.turn.retire
  | stay : AgentNext s s.turn
  | issue (i : Instr) (u : State) (h : DppNext s.turn i u) : AgentNext s u
  | perform (n : Nat) : AgentNext s (s.turn.performAt n)
  | release : AgentNext s s.turn.release
  | takeBuffer : AgentNext s s.takeBuffer
  | consumeBuffer (id : Word) : AgentNext s (s.consumeBuffer id)
  | row (i : Instr) (u : State) (words : Nat) (h : exec i s = .next u) : AgentNext s (u.advancePe words)
  | extra (x : ExtraCommand) (words : Nat) : AgentNext s ((s.execExtra x).advancePe words)

/-- A stream issues only instructions of the array (R317). -/
theorem State.issueNext_next {s u : State} (h : s.issueNext = .next u) : ∃ i, DppNext s i u := by
  simp only [State.issueNext] at h
  split at h
  · cases h
  · rename_i i _
    split at h
    · cases h
    · rename_i hd
      split at h
      · cases h
      · exact ⟨i, exec_dppNext (by simpa using hd) h⟩

/-- A step of a running stream. -/
theorem State.runStep_agentNext {s u : State} (h : s.turn.runStep = .next u) : AgentNext s u := by
  simp only [State.runStep] at h
  split at h
  · cases h; exact .retire
  · split at h
    · cases h; exact .stay
    · rename_i m _
      cases m with
      | issue =>
        obtain ⟨i, hi⟩ := State.issueNext_next h
        exact .issue i u hi
      | perform n =>
        simp only [State.doMove, State.performStep] at h
        obtain ⟨-, rfl⟩ := refuse_next h
        exact .perform n
      | release => cases h; exact .release

/-- A step of the PE. -/
theorem State.peStep_agentNext {s u : State} (h : s.peStep = .next u) : AgentNext s u := by
  simp only [State.peStep] at h
  split at h
  · cases h; exact .takeBuffer
  · split at h
    · cases h; exact .consumeBuffer _
    · simp only [State.runCommand] at h
      split at h
      · rename_i e _
        cases e <;> cases h
      · rename_i c words _
        split at h
        · rename_i t ht
          cases h
          cases c with
          | row i => exact .row i t words ht
          | extra x => cases ht; exact .extra x words
        · cases h
        · cases h

/-- Every step is a turn of one agent, and then the tick. -/
theorem step_agentNext {s t : State} (h : step s = .next t) : ∃ u, AgentNext s u ∧ t = u.endStep := by
  simp only [step] at h
  split at h
  · rename_i u hu
    cases h
    refine ⟨u, ?_, rfl⟩
    simp only [State.agentStep] at hu
    split at hu
    · cases hu; exact .launch
    · split at hu
      · exact State.runStep_agentNext hu
      · exact State.peStep_agentNext hu
  · cases h
  · cases h

/-- The fields that performing an operation can change. -/
theorem State.performElem_frame (s : State) (e : Pend) : s.performElem e = { s with
    stream := (s.performElem e).stream, mem := (s.performElem e).mem, writes := (s.performElem e).writes
    reads := (s.performElem e).reads } := by
  simp only [State.performElem]
  split <;> rfl

theorem State.performElem_pending (s : State) (e : Pend) : (s.performElem e).stream.pending = s.stream.pending := by
  simp only [State.performElem]
  split <;> rfl

/-- Only an uncached write stores anything (R231). -/
theorem State.performElem_mem (s : State) (e : Pend) :
    (s.performElem e).mem = s.mem ∨ (s.performElem e).mem = Memory.writeAll s.mem e.cells := by
  simp only [State.performElem]
  split
  · exact .inl rfl
  · exact .inl rfl
  · exact .inr rfl

/-- Performing keeps the records of writes and adds those of a kill (R215). -/
theorem State.performElem_writes (s : State) (e : Pend) : s.writes <+: (s.performElem e).writes := by
  simp only [State.performElem]
  split
  · exact List.prefix_rfl
  · exact List.prefix_append _ _
  · exact List.prefix_rfl

theorem State.performAt_frame (s : State) (n : Nat) : s.performAt n = { s with
    stream := (s.performAt n).stream, mem := (s.performAt n).mem, writes := (s.performAt n).writes
    reads := (s.performAt n).reads } := by
  simp only [State.performAt]
  split
  · rfl
  · rename_i e _
    rw [s.performElem_frame e]
    rfl

theorem State.performAt_writes (s : State) (n : Nat) : s.writes <+: (s.performAt n).writes := by
  simp only [State.performAt]
  split
  · exact List.prefix_rfl
  · exact s.performElem_writes _

/-- The PE's taking of a buffer changes nothing but the PE. -/
theorem State.takeBuffer_frame (s : State) : s.takeBuffer = { s with pe := s.takeBuffer.pe } := by
  simp only [State.takeBuffer]
  split <;> rfl

/-! ## Who writes memory (O57) -/

/-- The WAIT bit of an ALU row is that of its common fields. -/
theorem semWait_of_aluHalves {i : Instr} {rgb : Option RgbHalf} {alpha : Option AlphaHalf} {c : AluCommon}
    (h : aluHalves i = some (rgb, alpha, c)) : i.semWait = c.wait := by
  cases i <;> simp only [aluHalves, reduceCtorEq] at h
  case aluUnnamed x d => cases x <;> cases h <;> rfl
  case aluCrossEngineCopy x d => cases x <;> cases h <;> rfl
  all_goals cases h; rfl

/-- The WAIT bit of a flow-control instruction is that of its jump fields. -/
theorem semWait_of_flowFields {i : Instr} {f : Flow} (h : flowFields i = some f) : i.semWait = f.wait := by
  cases i <;> cases h <;> rfl

/-- What an instruction of the array other than OUTPUT leaves of memory and the records. -/
theorem DppNext.records {i : Instr} {s u : State} (h : DppNext s i u) (hi : ∀ o, i ≠ .output o) :
    u.mem = s.mem ∧ (u.outputs = s.outputs ∧ u.condCache = s.condCache ∧ u.writes = (s.waited i.semWait).writes ∨ u = s) := by
  cases h with
  | held => exact ⟨rfl, .inr rfl⟩
  | texNop t => exact ⟨s.ready_mem _ _, .inl ⟨s.ready_outputs _ _, s.ready_condCache _ _, s.ready_writes _ _⟩⟩
  | texPend i e acquire => exact ⟨s.ready_mem _ _, .inl ⟨s.ready_outputs _ _, s.ready_condCache _ _, s.ready_writes _ _⟩⟩
  | alu i rgb alpha c hc => exact ⟨by simp, .inl ⟨by simp, by simp, by simp [semWait_of_aluHalves hc]⟩⟩
  | output o => exact absurd rfl (hi o)
  | flow i f taken loops rs hf =>
    rw [State.branched_waited]
    exact ⟨rfl, .inl ⟨rfl, rfl, by rw [semWait_of_flowFields hf]⟩⟩

/-- Of the commands only read_perf_counters writes memory (R145). -/
theorem exec_command_mem {i : Instr} {s u : State} (hd : i.isDpp = false) (h : exec i s = .next u) :
    u.mem = s.mem ∨ ∃ addr, i = .readPerfCounters addr ∧ u.mem = Memory.writeAll s.mem (perfCells addr s.perf) := by
  cases i <;> simp only [Instr.isDpp, reduceCtorEq] at hd
  case readPerfCounters addr => cases h; exact .inr ⟨addr, rfl, rfl⟩
  case programStart =>
    obtain ⟨-, rfl⟩ := refuse_next h
    exact .inl rfl
  all_goals cases h; exact .inl rfl

/-- Settles O57, by what each kind of instruction leaves of memory and the records. -/
theorem onlyOutputsAndDumpsWriteMemory : Obligations.OnlyOutputsAndDumpsWriteMemory := by
  refine fun i s t h => ⟨fun ho hp => ?_, fun hd ho => ((exec_dppNext hd h).records ho).2⟩
  cases hd : i.isDpp with
  | true => exact ((exec_dppNext hd h).records ho).1
  | false =>
    obtain e | ⟨addr, hi, -⟩ := exec_command_mem hd h
    · exact e
    · exact absurd hi (hp addr)

/-! ## Memory's canonical form (O51) -/

theorem State.memInv_iff {s : State} :
    s.MemInv ↔ Memory.wf s.mem ∧ s.stream.pendingInSpace ∧ ∀ st ∈ s.others, st.pendingInSpace := by
  simp [State.MemInv, State.streams]

/-- The invariant depends on memory, on what is outstanding in the stream in front, and on the other streams. -/
theorem State.memInv_congr {s t : State} (hm : t.mem = s.mem) (hp : t.stream.pending = s.stream.pending)
    (ho : t.others = s.others) (h : s.MemInv) : t.MemInv := by
  rw [State.memInv_iff] at h ⊢
  simpa only [hm, ho, Stream.pendingInSpace, hp] using h

theorem State.turn_memInv {s : State} (h : s.MemInv) : s.turn.MemInv :=
  ⟨by rw [State.turn_mem]; exact h.1, turn_forall.2 h.2⟩

/-- A launched stream has nothing outstanding. -/
theorem State.launchGroup_memInv {s : State} (h : s.MemInv) : s.launchGroup.MemInv := by
  refine State.memInv_iff.2 ⟨h.1, nofun, fun st hst => h.2 st ?_⟩
  rw [State.launchGroup_others] at hst
  split at hst
  · exact hst
  · cases hst

/-- The streams after one of them ends are among those before. -/
theorem State.retire_streams_subset (s : State) : s.retire.streams ⊆ s.streams := by
  intro st hst
  simp only [State.streams, State.retire_stream, State.retire_others] at hst ⊢
  cases ho : s.others with
  | nil => simpa [ho] using hst
  | cons x xs =>
    rw [ho] at hst
    exact List.mem_cons_of_mem _ hst

theorem State.retire_memInv {s : State} (h : s.MemInv) : s.retire.MemInv :=
  ⟨h.1, fun st hst => h.2 st (s.retire_streams_subset hst)⟩

theorem State.performElem_memInv {s : State} {e : Pend} (h : s.MemInv) (he : e ∈ s.stream.pending) :
    (s.performElem e).MemInv := by
  obtain ⟨hmem, hfront, -⟩ := State.memInv_iff.1 h
  obtain hm | hm := s.performElem_mem e
  · exact State.memInv_congr hm (s.performElem_pending e) (by rw [s.performElem_frame e]) h
  · refine State.memInv_congr (s := { s with mem := Memory.writeAll s.mem e.cells }) hm (s.performElem_pending e)
      (by rw [s.performElem_frame e]) ⟨Memory.wf_writeAll hmem fun c hc => ?_, h.2⟩
    obtain ⟨l, hl, hcl⟩ := List.mem_flatMap.1 hc
    exact hfront e he l hl c hcl

theorem State.dropPending_memInv {s : State} (n : Nat) (h : s.MemInv) : (s.dropPending n).MemInv := by
  obtain ⟨hmem, hfront, hothers⟩ := State.memInv_iff.1 h
  exact State.memInv_iff.2 ⟨hmem, fun e he => hfront e (List.mem_of_mem_eraseIdx he), hothers⟩

theorem State.performAt_memInv {s : State} (n : Nat) (h : s.MemInv) : (s.performAt n).MemInv := by
  simp only [State.performAt]
  split
  · exact h
  · rename_i e he
    exact State.dropPending_memInv n (State.performElem_memInv h (List.mem_of_getElem? he))

/-- What an OUTPUT's processors store lies in the address space. -/
theorem sendOutputs_cells_lt {o : OutputFields} {s t : State} {ls : List Lane} (h : s.sendOutputs o = .ok (t, ls)) :
    ∀ l ∈ ls, ∀ c ∈ l.cells, c.1 < 2 ^ 32 := by
  intro l hl c hc
  obtain ⟨p, -, -, e | ⟨d, -, e⟩⟩ := (sendOutputs_ok h).2.2 l hl
  · rw [e] at hc
    cases hc
  · exact outCells_lt (e ▸ hc)

/-- An operation whose bytes lie in the address space may become outstanding. -/
theorem State.addPending_memInv {s : State} {e : Pend} (h : s.MemInv) (he : ∀ l ∈ e.lanes, ∀ c ∈ l.cells, c.1 < 2 ^ 32) :
    (s.addPending e).MemInv := by
  obtain ⟨hmem, hfront, hothers⟩ := State.memInv_iff.1 h
  refine State.memInv_iff.2 ⟨hmem, fun x hx => ?_, hothers⟩
  rcases List.mem_append.1 hx with hx | hx
  · exact hfront x hx
  · rw [List.mem_singleton.1 hx]
    exact he

theorem State.ready_memInv {s : State} (w q : Bool) (h : s.MemInv) : (s.ready w q).MemInv :=
  State.memInv_congr (s.ready_mem w q) (s.ready_pending w q) (s.ready_others w q) h

theorem State.closeOutput_memInv {s : State} {o : OutputFields} {k : Nat} {ls : List Lane} (h : s.MemInv)
    (hl : ∀ l ∈ ls, ∀ c ∈ l.cells, c.1 < 2 ^ 32) : (s.closeOutput o k ls).MemInv := by
  cases hu : o.uncached with
  | false => exact State.memInv_congr (s := s) rfl (by simp [State.closeOutput, hu]) rfl h
  | true =>
    let e : Pend := { seq := k, op := .write, sampler := 0, unscaled := false, dst := 0, lanes := ls, due := s.deadline }
    exact State.memInv_congr (s := s.addPending e) rfl (by simp [State.closeOutput, State.addPending, e, hu]) rfl
      (State.addPending_memInv h hl)

theorem sendOutputs_memInv {o : OutputFields} {s t : State} {ls : List Lane} (hs : s.MemInv)
    (h : s.sendOutputs o = .ok (t, ls)) : t.MemInv := by
  obtain ⟨hmem, hfront, hothers⟩ := State.memInv_iff.1 hs
  obtain ⟨⟨rs, e, -⟩, hm, -⟩ := sendOutputs_ok h
  have ho : t.others = s.others := by rw [e]
  refine State.memInv_iff.2 ⟨?_, by rwa [(sendOutputs_stream h).1], by rwa [ho]⟩
  rw [hm]
  split
  · exact hmem
  · refine Memory.wf_writeAll hmem fun c hc => ?_
    obtain ⟨l, hl, hcl⟩ := List.mem_flatMap.1 hc
    exact sendOutputs_cells_lt h l hl c hcl

/-- Acquiring and moving on change nothing that is outstanding. -/
theorem State.finishIssue_memInv {s : State} (acquire : Bool) (k : Nat) (h : s.MemInv) : (s.finishIssue acquire k).MemInv :=
  State.memInv_congr (s := s) rfl rfl rfl h

theorem DppNext.memInv {i : Instr} {s u : State} (hs : s.MemInv) (h : DppNext s i u) : u.MemInv := by
  cases h with
  | held => exact hs
  | texNop t => exact State.finishIssue_memInv _ _ (State.ready_memInv _ _ hs)
  | texPend i e acquire hseq hcells =>
    have hnone : ∀ l ∈ e.lanes, ∀ c ∈ l.cells, c.1 < 2 ^ 32 := fun l hl c hc => by rw [hcells l hl] at hc; cases hc
    exact State.finishIssue_memInv _ _ (State.addPending_memInv (State.ready_memInv _ _ hs) hnone)
  | alu i rgb alpha c => exact State.memInv_congr (by simp) (by simp) (by simp) hs
  | output o v lanes hsend =>
    have hv : v.MemInv := sendOutputs_memInv (State.ready_memInv _ _ hs) hsend
    exact State.finishIssue_memInv _ _ (State.closeOutput_memInv hv (sendOutputs_cells_lt hsend))
  | flow i f taken loops rs =>
    rw [State.branched_waited]
    exact State.memInv_congr (s := s) rfl rfl rfl hs

theorem exec_memInv {i : Instr} {s u : State} (hs : s.MemInv) (h : exec i s = .next u) : u.MemInv := by
  cases hd : i.isDpp with
  | true => exact (exec_dppNext hd h).memInv hs
  | false =>
    have hm := exec_command_mem hd h
    rw [exec_command_frame hd h]
    refine ⟨?_, hs.2⟩
    obtain e | ⟨addr, -, e⟩ := hm <;> simp only [e]
    · exact hs.1
    · exact Memory.wf_writeAll hs.1 fun c hc => perfCells_lt hc

theorem State.execExtra_memInv {s : State} (x : ExtraCommand) (h : s.MemInv) : (s.execExtra x).MemInv := by
  cases x <;> exact h

theorem AgentNext.memInv {s u : State} (hs : s.MemInv) (h : AgentNext s u) : u.MemInv := by
  cases h with
  | launch => exact State.launchGroup_memInv hs
  | retire => exact State.retire_memInv (State.turn_memInv hs)
  | stay => exact State.turn_memInv hs
  | issue i u h => exact h.memInv (State.turn_memInv hs)
  | perform n => exact State.performAt_memInv n (State.turn_memInv hs)
  | release => exact State.memInv_congr (s := s.turn) rfl rfl rfl (State.turn_memInv hs)
  | takeBuffer =>
    rw [s.takeBuffer_frame]
    exact State.memInv_congr (s := s) rfl rfl rfl hs
  | consumeBuffer id => exact hs
  | row i v words h => exact State.memInv_congr (s := v) rfl rfl rfl (exec_memInv hs h)
  | extra x words => exact State.execExtra_memInv x hs

/-- Settles O51: every agent's turn keeps the invariant, and the tick touches neither memory nor the streams. -/
theorem stepsKeepMemoryCanonical : Obligations.StepsKeepMemoryCanonical := by
  intro s t hs h
  obtain ⟨u, hu, rfl⟩ := step_agentNext h
  exact State.memInv_congr (s := u) rfl rfl rfl (hu.memInv hs)

end Sys2Proof.Machine
end

section
/-! PROOF. The descriptors' alignment (spec/20_memory.md R61, R62). -/

namespace Sys2Proof.Machine

/-! ## Descriptors (O53) -/

/-- A base that a parameter gives is 2K aligned (R61). -/
theorem baseAligned_baseValue (b : BaseParam) : baseAligned (baseValue b) := by
  refine BitVec.eq_of_getLsbD_eq fun i hi => ?_
  rw [BitVec.getLsbD_extractLsb', baseValue, BitVec.getLsbD_append]
  simp [hi]

/-- A pitch that a parameter gives is a multiple of 4, and at most 4 times what its field holds (R62). -/
theorem pitchAligned_layoutOf (f : FormatParam) : pitchAligned (layoutOf f) := by
  have hf := f.pitch.isLt
  have hv : (pitchValue f).toNat = 4 * f.pitch.toNat := by
    rw [pitchValue, BitVec.toNat_setWidth, BitVec.toNat_append, Nat.shiftLeft_eq, BitVec.toNat_ofNat, Nat.zero_mod,
      Nat.or_zero]
    omega
  refine ⟨BitVec.eq_of_toNat_eq ?_, ?_⟩
  · simp [layoutOf, BitVec.extractLsb'_toNat, hv]
  · simp only [layoutOf, hv]
    omega

theorem descAligned_descOf (b : BaseParam) (f : FormatParam) : descAligned (descOf b f) :=
  ⟨baseAligned_baseValue b, pitchAligned_layoutOf f⟩

/-- Replacing one descriptor by an aligned one keeps a list aligned. -/
theorem slots_aligned_assocSet {l : List (Nat × Slot)} {k : Nat} {x : Slot} (hl : ∀ e ∈ l, e.2.aligned) (hx : x.aligned) :
    ∀ e ∈ assocSet l k x, e.2.aligned := by
  intro e he
  obtain rfl | he := mem_assocSet he
  · exact hx
  · exact hl e he

theorem slotAt_aligned {l : List (Nat × Slot)} (hl : ∀ e ∈ l, e.2.aligned) (k : Nat) : (slotAt l k).aligned := by
  simp only [slotAt]
  cases h : assocGet l k with
  | none => exact ⟨nofun, nofun⟩
  | some x => exact hl _ (assocGet_mem h)

theorem setBase_aligned {l : List (Nat × Slot)} (hl : ∀ e ∈ l, e.2.aligned) (k : Nat) (b : BaseParam) :
    ∀ e ∈ setBase l k b, e.2.aligned :=
  slots_aligned_assocSet hl ⟨fun _ h => Option.some.inj h ▸ baseAligned_baseValue b, (slotAt_aligned hl k).2⟩

theorem setLayout_aligned {l : List (Nat × Slot)} (hl : ∀ e ∈ l, e.2.aligned) (k : Nat) (f : FormatParam) :
    ∀ e ∈ setLayout l k f, e.2.aligned :=
  slots_aligned_assocSet hl ⟨(slotAt_aligned hl k).1, fun _ h => Option.some.inj h ▸ pitchAligned_layoutOf f⟩

/-- A descriptor that launch parameters give is aligned. -/
theorem SlotParams.slot_aligned (p : SlotParams) : p.slot.aligned := by
  refine ⟨fun b hb => ?_, fun l hl => ?_⟩
  · obtain ⟨x, -, rfl⟩ := Option.map_eq_some_iff.1 hb
    exact baseAligned_baseValue x
  · obtain ⟨f, -, rfl⟩ := Option.map_eq_some_iff.1 hl
    exact pitchAligned_layoutOf f

theorem slotsOf_aligned (l : List (Nat × SlotParams)) : ∀ e ∈ slotsOf l, e.2.aligned :=
  List.foldlRecOn (motive := fun acc : List (Nat × Slot) => ∀ e ∈ acc, e.2.aligned) l _ nofun
    fun _ hacc x _ => slots_aligned_assocSet hacc x.2.slot_aligned

/-- The invariant is about control state alone. -/
theorem State.descInv_congr {s t : State} (hc : t.ctl = s.ctl) (h : s.DescInv) : t.DescInv := by
  simpa only [State.DescInv, hc] using h

/-- Every command sets aligned descriptors. -/
theorem exec_command_descInv {i : Instr} {s u : State} (hs : s.DescInv) (hd : i.isDpp = false) (h : exec i s = .next u) :
    u.DescInv := by
  obtain ⟨hfloat, hint, hprogram, hcond, hsize, hin, hout⟩ := hs
  cases i <;> simp only [Instr.isDpp, reduceCtorEq] at hd
  case programStart =>
    obtain ⟨-, rfl⟩ := refuse_next h
    exact ⟨hfloat, hint, hprogram, hcond, hsize, hin, hout⟩
  all_goals cases h
  case setConstiFmt b f =>
    exact ⟨hfloat, fun _ h => Option.some.inj h ▸ descAligned_descOf b f, hprogram, hcond, hsize, hin, hout⟩
  case floatConstFmt b f =>
    exact ⟨fun _ h => Option.some.inj h ▸ descAligned_descOf b f, hint, hprogram, hcond, hsize, hin, hout⟩
  case inputBase k b => exact ⟨hfloat, hint, hprogram, hcond, hsize, setBase_aligned hin k b, hout⟩
  case outputBase k b => exact ⟨hfloat, hint, hprogram, hcond, hsize, hin, setBase_aligned hout k b⟩
  case programData b f =>
    exact ⟨hfloat, hint, fun _ h => Option.some.inj h ▸ descAligned_descOf b f, hcond, hsize, hin, hout⟩
  case sizeParameter v =>
    exact ⟨hfloat, hint, hprogram, hcond, fun _ h => Option.some.inj h ▸ baseAligned_baseValue v.base, hin, hout⟩
  all_goals exact ⟨hfloat, hint, hprogram, hcond, hsize, hin, hout⟩

theorem exec_descInv {i : Instr} {s u : State} (hs : s.DescInv) (h : exec i s = .next u) : u.DescInv := by
  cases hd : i.isDpp with
  | true =>
    rw [(exec_dppNext hd h).frame.1]
    exact State.descInv_congr (s := s) rfl hs
  | false => exact exec_command_descInv hs hd h

theorem State.execExtra_descInv {s : State} (x : ExtraCommand) (hs : s.DescInv) : (s.execExtra x).DescInv := by
  obtain ⟨hfloat, hint, hprogram, hcond, hsize, hin, hout⟩ := hs
  cases x with
  | inputFormat k f => exact ⟨hfloat, hint, hprogram, hcond, hsize, setLayout_aligned hin k f, hout⟩
  | outputFormat k f => exact ⟨hfloat, hint, hprogram, hcond, hsize, hin, setLayout_aligned hout k f⟩
  | condBufBase b =>
    exact ⟨hfloat, hint, hprogram, fun _ h => Option.some.inj h ▸ baseAligned_baseValue b, hsize, hin, hout⟩
  | perfEnable ps => exact ⟨hfloat, hint, hprogram, hcond, hsize, hin, hout⟩

/-- No agent but the PE changes control state. -/
theorem AgentNext.descInv {s u : State} (hs : s.DescInv) (h : AgentNext s u) : u.DescInv := by
  cases h with
  | launch => exact State.descInv_congr (s := s) rfl hs
  | retire => exact State.descInv_congr (s := s) s.turn_ctl hs
  | stay => exact State.descInv_congr s.turn_ctl hs
  | issue i u h =>
    rw [h.frame.1]
    exact State.descInv_congr (s := s) s.turn_ctl hs
  | perform n =>
    rw [s.turn.performAt_frame n]
    exact State.descInv_congr (s := s) s.turn_ctl hs
  | release => exact State.descInv_congr (s := s) s.turn_ctl hs
  | takeBuffer =>
    rw [s.takeBuffer_frame]
    exact State.descInv_congr (s := s) rfl hs
  | consumeBuffer id => exact State.descInv_congr (s := s) rfl hs
  | row i v words h => exact State.descInv_congr (s := v) rfl (exec_descInv hs h)
  | extra x words => exact State.descInv_congr (s := s.execExtra x) rfl (State.execExtra_descInv x hs)

/-- Settles O53: every descriptor that a command or the launch sets is made of a base and a pitch that are aligned. -/
theorem stepsKeepDescriptorsAligned : Obligations.StepsKeepDescriptorsAligned := by
  refine ⟨fun s t hs h => ?_, fun s p hs => ?_⟩
  · obtain ⟨u, hu, rfl⟩ := step_agentNext h
    exact State.descInv_congr (s := u) rfl (hu.descInv hs)
  · obtain ⟨hfloat, hint, hprogram, -, hsize, -, -⟩ := hs
    refine ⟨hfloat, hint, hprogram, fun b hb => ?_, hsize, slotsOf_aligned p.inputs, slotsOf_aligned p.outs⟩
    obtain ⟨x, -, rfl⟩ := Option.map_eq_some_iff.1 hb
    exact baseAligned_baseValue x

end Sys2Proof.Machine
end

section
/-! PROOF. What a read of written data sees (spec/20_memory.md R71 to R74). -/

namespace Sys2Proof.Machine

/-! ## Cached reads (O13) -/

theorem State.writesAt_eq_nil_iff {s : State} {a : Nat} : s.writesAt a = [] ↔ ∀ w ∈ s.writes, w.covers a = false := by
  simp [State.writesAt, List.filter_eq_nil_iff]

theorem State.writesAt_ne_nil {s : State} {a : Nat} (h : ∃ w ∈ s.writes, w.covers a = true) : s.writesAt a ≠ [] := by
  obtain ⟨w, hw, hc⟩ := h
  exact List.ne_nil_of_mem (List.mem_filter.2 ⟨hw, hc⟩)

theorem State.cachedByte_unwritten {s : State} {a : Nat} (h : s.writesAt a = []) (xy : IndexPair) (e j : Nat) :
    s.cachedByte xy e j a = plainByte s.mem a := by
  simp [State.cachedByte, h]

theorem State.cachedByte_written {s : State} {a : Nat} (h : s.writesAt a ≠ []) (xy : IndexPair) (e j : Nat) :
    s.cachedByte xy e j a = Config.drawElem s.tick xy e j := by
  obtain ⟨w, ws, hw⟩ := List.exists_cons_of_ne_nil h
  simp [State.cachedByte, hw]

/-- Settles O13: both cached lookups read `cachedByte`, which asks whether any write covers the byte. -/
theorem cachedLookupsOfWrittenLocationsAreDraws : Obligations.CachedLookupsOfWrittenLocationsAreDraws := by
  intro s xy k e j a o ho
  have hcached : s.lookupByte o xy k e j a = s.cachedByte xy e j a := by
    obtain rfl | rfl := ho <;> rfl
  rw [hcached]
  exact ⟨fun h => State.cachedByte_unwritten (State.writesAt_eq_nil_iff.2 h) xy e j,
    fun h => State.cachedByte_written (State.writesAt_ne_nil h) xy e j⟩

/-! ## Uncached reads (O14) -/

theorem fromLastGranted_suffix (run : Nat) (xy : IndexPair) (k : Nat) (ws : List WriteRec) :
    fromLastGranted run xy k ws <:+ ws := by
  induction ws with
  | nil => exact List.suffix_rfl
  | cons w ws ih =>
    simp only [fromLastGranted]
    split
    · split
      · exact List.suffix_rfl
      · exact List.nil_suffix
    · rename_i r rs h
      exact (h ▸ ih).trans (List.suffix_cons w ws)

/-- Nothing is left where no write is granted. -/
theorem fromLastGranted_eq_nil {run : Nat} {xy : IndexPair} {k : Nat} {ws : List WriteRec}
    (h : ∀ w ∈ ws, w.granted run xy k = false) : fromLastGranted run xy k ws = [] := by
  induction ws with
  | nil => rfl
  | cons w ws ih =>
    obtain ⟨hw, hws⟩ := List.forall_mem_cons.1 h
    simp [fromLastGranted, ih hws, hw]

/-- A granted write, or a later one, is where the writes that a read may see begin. -/
theorem fromLastGranted_of_granted {run : Nat} {xy : IndexPair} {k : Nat} {w : WriteRec} (h : w.granted run xy k = true)
    (pre post : List WriteRec) : ∃ g later, fromLastGranted run xy k (pre ++ w :: post) = g :: later ∧
      g :: later <:+ w :: post := by
  induction pre with
  | nil =>
    simp only [List.nil_append, fromLastGranted, h, if_true]
    split
    · exact ⟨w, post, rfl, List.suffix_rfl⟩
    · rename_i g later hg
      exact ⟨g, later, rfl, (hg ▸ fromLastGranted_suffix run xy k post).trans (List.suffix_cons w post)⟩
  | cons v pre ih =>
    obtain ⟨g, later, hg, hsuffix⟩ := ih
    exact ⟨g, later, by simp [fromLastGranted, hg], hsuffix⟩

theorem newestSeen_mem (tick : Nat) (xy : IndexPair) (e : Nat) (g : WriteRec) (ws : List WriteRec) :
    newestSeen tick xy e g ws ∈ g :: ws := by
  induction ws generalizing g with
  | nil => simp [newestSeen]
  | cons w ws ih =>
    have hfirst : (if Config.seesWrite tick xy e w.issued then w else g) ∈ [g, w] := by split <;> simp
    obtain h | h := List.mem_cons.1 (ih (if Config.seesWrite tick xy e w.issued then w else g))
    · rw [newestSeen, h]
      exact List.mem_append_left ws hfirst
    · exact List.mem_append_right [g, w] h

/-- An uncached read of a location with a granted write: the newest of the writes it sees from there on. -/
theorem State.uncachedByte_eq {s : State} {xy : IndexPair} {k a : Nat} {g : WriteRec} {later : List WriteRec}
    (h : fromLastGranted s.runNo xy k (s.writesAt a) = g :: later) {e j : Nat} : s.uncachedByte xy k e j a =
      (Memory.read (newestSeen s.tick xy e g later).cells a).getD (Config.drawElem s.tick xy e j) := by
  rw [State.uncachedByte]
  cases hat : s.writesAt a with
  | nil => rw [hat] at h; cases h
  | cons w ws => rw [hat] at h; simp only [h]

/-- An uncached read sees a granted write's data or a later write's (R72). -/
theorem State.uncachedByte_granted {s : State} {xy : IndexPair} {k a : Nat} {pre post : List WriteRec} {w : WriteRec}
    (hat : s.writesAt a = pre ++ w :: post) (hg : w.granted s.runNo xy k = true) (e j : Nat) :
    ∃ v ∈ w :: post, Memory.read v.cells a = some (s.uncachedByte xy k e j a) := by
  obtain ⟨g, later, hlast, hsuffix⟩ := fromLastGranted_of_granted hg pre post
  have hv : newestSeen s.tick xy e g later ∈ w :: post := hsuffix.mem (newestSeen_mem s.tick xy e g later)
  have hcov : (newestSeen s.tick xy e g later).covers a = true := by
    have : newestSeen s.tick xy e g later ∈ s.writesAt a := by rw [hat]; exact List.mem_append_right _ hv
    exact (List.mem_filter.1 this).2
  obtain ⟨x, hx⟩ := Option.isSome_iff_exists.1 hcov
  refine ⟨_, hv, ?_⟩
  rw [State.uncachedByte_eq (by rw [hat]; exact hlast), hx]
  rfl

theorem State.uncachedByte_ungranted {s : State} {xy : IndexPair} {k a : Nat} (hat : s.writesAt a ≠ [])
    (hg : ∀ w ∈ s.writesAt a, w.granted s.runNo xy k = false) (e j : Nat) :
    s.uncachedByte xy k e j a = Config.drawElem s.tick xy e j := by
  obtain ⟨w, ws, hw⟩ := List.exists_cons_of_ne_nil hat
  rw [hw] at hg
  simp [State.uncachedByte, hw, fromLastGranted_eq_nil hg]

theorem State.uncachedByte_unwritten {s : State} {a : Nat} (h : s.writesAt a = []) (xy : IndexPair) (k e j : Nat) :
    s.uncachedByte xy k e j a = plainByte s.mem a := by
  simp [State.uncachedByte, h]

/-- An instruction with WAIT grants an acquired write of its stream's processors to every operation after it (R72). -/
theorem WriteRec.sync_granted {w : WriteRec} {run k : Nat} {st : Stream} (ha : w.acquired = true) (hr : w.run = run)
    (hp : ∃ p ∈ st.procs, p.xy = w.xy) (hs : ∀ i, w.synced = some i → i ≤ st.seq) (hk : st.seq < k) :
    (w.sync run st).granted run w.xy k = true := by
  cases h : w.synced with
  | none => simp [WriteRec.sync, WriteRec.granted, ha, hr, hp, h, hk]
  | some i => simp [WriteRec.sync, WriteRec.granted, ha, hr, hp, h, Nat.lt_of_le_of_lt (hs i h) hk]

/-! ## The records of writes over a step (O14) -/

/-- An update of a write's record that changes only what a wait or the end of its stream says of it, and takes no grant back. -/
def KeepsGrant (f : WriteRec → WriteRec) : Prop :=
  ∀ w, f w = { w with synced := (f w).synced, unsaid := (f w).unsaid } ∧ ∀ i, w.synced = some i → (f w).synced = some i

/-- The second list of writes has every write of the first, in order, with what was granted; and new ones after them. -/
def WritesGrow (ws vs : List WriteRec) : Prop :=
  ∃ (f : WriteRec → WriteRec) (new : List WriteRec), vs = ws.map f ++ new ∧ KeepsGrant f

theorem keepsGrant_id : KeepsGrant id := fun _ => ⟨rfl, fun _ h => h⟩

theorem keepsGrant_sync (run : Nat) (st : Stream) : KeepsGrant fun w => w.sync run st := by
  refine fun w => ⟨rfl, fun i hi => ?_⟩
  simp [WriteRec.sync, hi]

theorem keepsGrant_after (run : Nat) (st : Stream) : KeepsGrant fun w => w.after run st :=
  fun _ => ⟨rfl, fun _ h => h⟩

theorem KeepsGrant.grow {f : WriteRec → WriteRec} (hf : KeepsGrant f) (ws : List WriteRec) : WritesGrow ws (ws.map f) :=
  ⟨f, [], by simp, hf⟩

theorem WritesGrow.of_prefix {ws vs : List WriteRec} (h : ws <+: vs) : WritesGrow ws vs := by
  obtain ⟨new, rfl⟩ := h
  exact ⟨id, new, by simp, keepsGrant_id⟩

theorem WritesGrow.append {ws vs us : List WriteRec} (h : WritesGrow ws vs) (hu : vs <+: us) : WritesGrow ws us := by
  obtain ⟨f, new, rfl, hf⟩ := h
  obtain ⟨more, rfl⟩ := hu
  exact ⟨f, new ++ more, by simp, hf⟩

theorem State.waited_writesGrow (s : State) (wait : Bool) : WritesGrow s.writes (s.waited wait).writes := by
  cases wait with
  | false => exact .of_prefix List.prefix_rfl
  | true => exact (keepsGrant_sync s.runNo s.stream).grow s.writes

theorem outputAll_writes {o : OutputFields} {es : List (Proc × Bool)} {s t : State} {ls : List Lane}
    (h : outputAll o es s = .ok (t, ls)) : s.writes <+: t.writes := by
  induction es generalizing s ls with
  | nil => cases h; exact List.prefix_rfl
  | cons e es ih =>
    simp only [outputAll, outputOne] at h
    split at h
    · cases h
    · rename_i s1 l h1
      split at h
      · cases h
      · rename_i s2 ls2 h2
        cases h
        refine List.IsPrefix.trans ?_ (ih h2)
        split at h1
        · cases h1
        · cases h1
          simp only [State.recordOutput]
          split
          · exact List.prefix_append _ _
          · exact List.prefix_rfl

/-- An OUTPUT's tests and requests only add records of writes. -/
theorem sendOutputs_writes {o : OutputFields} {s t : State} {ls : List Lane} (h : s.sendOutputs o = .ok (t, ls)) :
    s.writes <+: t.writes := by
  simp only [State.sendOutputs] at h
  split at h
  · cases h
  · rename_i bs u hu
    obtain ⟨⟨rs, e, -⟩, -⟩ := testAll_ok hu
    have hw := outputAll_writes h
    rwa [e] at hw

theorem DppNext.writesGrow {i : Instr} {s u : State} (h : DppNext s i u) : WritesGrow s.writes u.writes := by
  cases h with
  | held => exact .of_prefix List.prefix_rfl
  | texNop t => exact s.waited_writesGrow t.wait
  | texPend i e acquire => exact s.waited_writesGrow i.semWait
  | alu i rgb alpha c => simpa using s.waited_writesGrow c.wait
  | output o v lanes hsend =>
    have hv := sendOutputs_writes hsend
    rw [State.ready_writes] at hv
    exact (s.waited_writesGrow o.wait).append hv
  | flow i f taken loops rs => rw [State.branched_waited]; exact s.waited_writesGrow f.wait

/-- Of the commands only the program start drops records of writes, and it begins another run (R143). -/
theorem exec_command_writes {i : Instr} {s u : State} (hd : i.isDpp = false) (h : exec i s = .next u) :
    u.writes = s.writes ∨ u.runNo = s.runNo + 1 := by
  cases i <;> simp only [Instr.isDpp, reduceCtorEq] at hd
  case programStart =>
    obtain ⟨-, rfl⟩ := refuse_next h
    exact .inr rfl
  all_goals cases h; exact .inl rfl

theorem exec_writesGrow {i : Instr} {s u : State} (h : exec i s = .next u) (hr : u.runNo = s.runNo) :
    WritesGrow s.writes u.writes := by
  cases hd : i.isDpp with
  | true => exact (exec_dppNext hd h).writesGrow
  | false =>
    obtain e | e := exec_command_writes hd h
    · exact .of_prefix (by rw [e])
    · omega

/-- While the run goes on, no agent's turn loses a write or takes a grant back. -/
theorem AgentNext.writesGrow {s u : State} (h : AgentNext s u) (hr : u.runNo = s.runNo) : WritesGrow s.writes u.writes := by
  cases h with
  | launch => exact .of_prefix List.prefix_rfl
  | retire => simpa using (keepsGrant_after s.turn.runNo s.turn.stream).grow s.writes
  | stay => exact .of_prefix (by simp)
  | issue i u h => simpa using h.writesGrow
  | perform n => exact .of_prefix (by simpa using s.turn.performAt_writes n)
  | release => exact .of_prefix (by simp)
  | takeBuffer => exact .of_prefix (by rw [s.takeBuffer_frame])
  | consumeBuffer id => exact .of_prefix List.prefix_rfl
  | row i v words h => exact exec_writesGrow (u := v) h hr
  | extra x words => cases x <;> exact .of_prefix List.prefix_rfl

/-- Settles O14, by the equations of an uncached read and the records of writes over every agent's turn. -/
theorem uncachedReadsSeeWaitedWrites : Obligations.UncachedReadsSeeWaitedWrites := by
  intro s xy k e j a
  refine ⟨fun pre post w hat hg => State.uncachedByte_granted hat hg e j, fun hw hg => ?_,
    fun h => State.uncachedByte_unwritten (State.writesAt_eq_nil_iff.2 h) xy k e j,
    ⟨rfl, fun w _ ha hr hp hs hk => WriteRec.sync_granted ha hr hp hs hk⟩, fun t h hr => ?_⟩
  · refine State.uncachedByte_ungranted (State.writesAt_ne_nil hw) (fun w hm => ?_) e j
    obtain ⟨hmem, hcov⟩ := List.mem_filter.1 hm
    exact hg w hmem hcov
  · obtain ⟨u, hu, rfl⟩ := step_agentNext h
    exact hu.writesGrow hr

end Sys2Proof.Machine
end

section
/-! PROOF. What an OUTPUT of live processors does, and when it is refused (spec/41_alu_output.md R188; spec/20_memory.md R68,
R76). -/

namespace Sys2Proof.Machine

/-! ## What the ready state changes for an OUTPUT -/

@[simp] theorem State.outDesc_ready (s : State) (w q : Bool) (k : Nat) : (s.ready w q).outDesc k = s.outDesc k := by
  simp [State.outDesc]

@[simp] theorem State.testReads_ready (s : State) (w q : Bool) : (s.ready w q).testReads = s.testReads := by
  funext p
  simp [State.testReads]

@[simp] theorem State.passes_ready (s : State) (w q : Bool) (o : OutputFields) : (s.ready w q).passes o = s.passes o := by
  funext p
  simp [State.passes]

@[simp] theorem State.cellsOf_ready (s : State) (w q : Bool) (o : OutputFields) : (s.ready w q).cellsOf o = s.cellsOf o := by
  funext p
  simp [State.cellsOf]

/-! ## How an OUTPUT issues -/

section
variable {o : OutputFields} {s : State} (hacquire : o.acquire = true → o.uncached = true → o.wait = true)
  (hholds : s.holds o.wait = false) (howned : s.anyLive = true → (o.srcs.map s.regOf).any s.stream.owned = false)
include hacquire hholds howned

/-- An OUTPUT that does not hold has its effect, whose register check passes where no register it reads is owned. -/
theorem exec_output_body :
    exec (.output o) s = issueBody (o.acquire && o.uncached) (outputEffect o) (s.ready o.wait o.uncached) ∧
    (if (s.ready o.wait o.uncached).anyLive then o.srcs.map (s.ready o.wait o.uncached).regOf else []).any
      (s.ready o.wait o.uncached).stream.owned = false := by
  refine ⟨issue_pass (by simpa using hacquire) hholds, ?_⟩
  cases hl : s.anyLive with
  | false => simp [hl]
  | true => simpa [hl] using howned hl

theorem exec_output_error {r : Refusal} (h : (s.ready o.wait o.uncached).sendOutputs o = .error r) :
    exec (.output o) s = .refused r := by
  obtain ⟨e, hregs⟩ := exec_output_body hacquire hholds howned
  simp only [e, issueBody, outputEffect, checkRegs_free hregs List.any_nil, h]

theorem exec_output_ok {t : State} {lanes : List Lane} (h : (s.ready o.wait o.uncached).sendOutputs o = .ok (t, lanes)) :
    exec (.output o) s = .next ((t.closeOutput o (s.ready o.wait o.uncached).stream.seq lanes).finishIssue
      (o.acquire && o.uncached) (s.ready o.wait o.uncached).stream.seq) := by
  obtain ⟨e, hregs⟩ := exec_output_body hacquire hholds howned
  simp only [e, issueBody, outputEffect, checkRegs_free hregs List.any_nil, h]

end

/-! ## Why an OUTPUT of one live processor is refused (O28) -/

/-- The refusal of an OUTPUT of one live processor, if it is refused: its test's buffer, what its test reads, its output's
descriptor, the program's memory and the other instances, in the model's order (log entries 33, 52). -/
def State.outputRefusal (s : State) (o : OutputFields) (p : Proc) : Option Refusal :=
  if o.conditional = true ∧ s.ctl.cond = .less ∧ s.ctl.condBuf = none then some .descriptorNotSet
  else if s.readsRace (s.testReads p) then some .outputRace
  else if s.passes o p = true ∧ s.outDesc o.out = none then some .descriptorNotSet
  else if (s.cellsOf o p).any fun c => s.inProgram c.1 then some .writeIntoProgram
  else if (s.cellsOf o p).any fun c => s.sharedWithOther p.xy c.1 then some .outputRace
  else none

theorem State.outputRefusal_ready (s : State) (w q : Bool) (o : OutputFields) (p : Proc) :
    (s.ready w q).outputRefusal o p = s.outputRefusal o p := by
  simp only [State.outputRefusal, State.ready_ctl, State.readsRace_ready, State.testReads_ready, State.passes_ready,
    State.outDesc_ready, State.cellsOf_ready, State.inProgram_ready, State.sharedWithOther_ready]

/-- The test of a conditional OUTPUT that needs a buffer reads nothing and does not pass. -/
theorem State.untested_of_unset {s : State} {o : OutputFields} (h : o.conditional = true ∧ s.ctl.cond = .less ∧
    s.ctl.condBuf = none) (p : Proc) : s.testReads p = [] ∧ s.passes o p = false := by
  obtain ⟨hc, hl, hb⟩ := h
  exact ⟨by simp [State.testReads, hl, hb], by simp [State.passes, hl, hb, hc]⟩

/-- A request that is not dispatched, or has no descriptor, stores nothing. -/
theorem State.cellsOf_eq_nil {s : State} {o : OutputFields} {p : Proc} (h : s.passes o p = true → s.outDesc o.out = none) :
    s.cellsOf o p = [] := by
  simp only [State.cellsOf]
  split
  · rename_i hp
    simp [h hp]
  · rfl

/-- A processor's own reads are no reason to refuse its request. -/
theorem State.outRequest_own_reads (s : State) (cache : List ((Word × IndexPair) × Word)) {rs : List ReadRec}
    {xy : IndexPair} (hrs : ∀ r ∈ rs, r.xy = xy) (o : OutputFields) (vals : List Masked) (b : Bool) :
    { s with condCache := cache, reads := s.reads ++ rs }.outRequest o xy vals b = s.outRequest o xy vals b := by
  have hshared : ∀ a, { s with condCache := cache, reads := s.reads ++ rs }.sharedWithOther xy a = s.sharedWithOther xy a := by
    intro a
    have hown : (rs.any fun r => r.xy != xy && r.addrs.contains a) = false :=
      List.any_eq_false.2 fun r hr => by simp [hrs r hr]
    simp only [State.sharedWithOther, State.readByOther, List.any_append, hown, Bool.or_false]
    rfl
  simp only [State.outRequest, hshared]
  rfl

/-- What a processor's test reads is recorded as its own. -/
theorem State.testReads_xy {s : State} {p : Proc} {r : ReadRec} (h : r ∈ s.testReads p) : r.xy = p.xy := by
  by_cases hc : s.ctl.cond = .less ∧ s.ctl.condBuf ≠ none
  · obtain ⟨base, hb⟩ := Option.ne_none_iff_exists'.1 hc.2
    rw [s.testReads_less hc.1 hb, State.condReads] at h
    split at h
    · cases h
    · rw [List.mem_singleton.1 h]
  · rw [s.testReads_untested hc] at h
    cases h

/-- What a request whose test has been taken is refused for. -/
theorem State.outRequest_error_iff {s : State} {o : OutputFields} {p : Proc} {r : Refusal}
    (hbuf : ¬(o.conditional = true ∧ s.ctl.cond = .less ∧ s.ctl.condBuf = none))
    (hrace : s.readsRace (s.testReads p) = false) :
    s.outRequest o p.xy (s.outVals o p) (s.passes o p) = .error r ↔ s.outputRefusal o p = some r := by
  rw [State.outputRefusal, if_neg hbuf, if_neg (by simp [hrace])]
  cases hp : s.passes o p with
  | false => simp [State.outRequest, State.cellsOf, hp]
  | true =>
    cases hd : s.outDesc o.out with
    | none => simp [State.outRequest, hd]
    | some d =>
      have hcells : s.cellsOf o p = outCells d p.xy (s.outVals o p) := by simp [State.cellsOf, hp, hd]
      simp only [State.outRequest, hcells, hd]
      cases (outCells d p.xy (s.outVals o p)).any fun c => s.inProgram c.1 with
      | true => simp
      | false => cases (outCells d p.xy (s.outVals o p)).any fun c => s.sharedWithOther p.xy c.1 <;> simp

/-- A test is refused for want of its buffer. -/
theorem State.coTest_unset {s : State} {o : OutputFields} (h : o.conditional = true ∧ s.ctl.cond = .less ∧
    s.ctl.condBuf = none) (xy : IndexPair) (vals : List Masked) : s.coTest o xy vals = .error .descriptorNotSet := by
  obtain ⟨hc, hl, hb⟩ := h
  simp [State.coTest, hl, hb, hc]

/-- A test is refused where it would read what was written for another index pair of the run. -/
theorem State.coTest_race {s : State} {p : Proc} (h : s.readsRace (s.testReads p) = true) (o : OutputFields)
    (vals : List Masked) : s.coTest o p.xy vals = .error .outputRace := by
  by_cases hc : s.ctl.cond = .less ∧ s.ctl.condBuf ≠ none
  · obtain ⟨base, hb⟩ := Option.ne_none_iff_exists'.1 hc.2
    rw [s.testReads_less hc.1 hb] at h
    simp [State.coTest, hc.1, hb, h]
  · simp [s.testReads_untested hc] at h

/-- The output of one processor is refused exactly where its request is. -/
theorem outputAll_one_error_iff {s : State} {o : OutputFields} {p : Proc} {b : Bool} {r : Refusal} :
    outputAll o [(p, b)] s = .error r ↔ s.outRequest o p.xy (s.outVals o p) b = .error r := by
  simp only [outputAll, outputOne]
  cases s.outRequest o p.xy (s.outVals o p) b <;> simp

/-- An OUTPUT's only live processor is refused where its test or its request is, the test first. -/
theorem sendOutputs_error_iff {s : State} {o : OutputFields} {p : Proc} (hp : s.stream.procs.filter Proc.live = [p])
    {r : Refusal} : s.sendOutputs o = .error r ↔ s.outputRefusal o p = some r := by
  by_cases hbuf : o.conditional = true ∧ s.ctl.cond = .less ∧ s.ctl.condBuf = none
  · simp [State.sendOutputs, hp, testAll, State.coTest_unset hbuf, State.outputRefusal, hbuf]
  cases hrace : s.readsRace (s.testReads p) with
  | true => simp [State.sendOutputs, hp, testAll, State.coTest_race hrace, State.outputRefusal, hbuf, hrace]
  | false =>
    obtain ⟨cache, htest, -⟩ := testAll_eq o [p] s (List.nodup_singleton _)
      (fun _ hc hl hb => hbuf ⟨hc, hl, hb⟩) (by simpa using hrace)
    have hown : ∀ r ∈ [p].flatMap s.testReads, r.xy = p.xy := fun r hr => State.testReads_xy (by simpa using hr)
    rw [← State.outRequest_error_iff hbuf hrace, ← s.outRequest_own_reads cache hown, State.sendOutputs, hp, htest]
    exact outputAll_one_error_iff

/-- An OUTPUT of one live processor that does not hold and reads no owned register is refused for `outputRefusal`. -/
theorem exec_output_refused_iff {o : OutputFields} {s : State} {p : Proc} {r : Refusal}
    (hacquire : o.acquire = true → o.uncached = true → o.wait = true) (hholds : s.holds o.wait = false)
    (hp : s.stream.procs.filter Proc.live = [p]) (howned : (o.srcs.map s.regOf).any s.stream.owned = false) :
    exec (.output o) s = .refused r ↔ s.outputRefusal o p = some r := by
  rw [← s.outputRefusal_ready o.wait o.uncached, ← sendOutputs_error_iff (by simpa using hp)]
  cases h : (s.ready o.wait o.uncached).sendOutputs o with
  | error q => simp [exec_output_error hacquire hholds (fun _ => howned) h]
  | ok x => simp [exec_output_ok hacquire hholds (fun _ => howned) h]

/-- Settles O28, by the five questions of `outputRefusal` in their order: one that is not reached has no cells to ask about. -/
theorem forbiddenOutputWritesAreRefused : Obligations.ForbiddenOutputWritesAreRefused := by
  intro o s p hacquire hholds hp howned
  simp only [exec_output_refused_iff hacquire hholds hp howned, State.outputRefusal]
  by_cases hbuf : o.conditional = true ∧ s.ctl.cond = .less ∧ s.ctl.condBuf = none
  · obtain ⟨hreads, hpass⟩ := State.untested_of_unset hbuf p
    have hnone : s.cellsOf o p = [] := State.cellsOf_eq_nil (by simp [hpass])
    simp [hbuf, hreads, hnone]
  cases hrace : s.readsRace (s.testReads p) with
  | true => simp [hbuf]
  | false =>
    by_cases hset : s.passes o p = true ∧ s.outDesc o.out = none
    · have hnone : s.cellsOf o p = [] := State.cellsOf_eq_nil fun _ => hset.2
      simp [hbuf, hset, hnone]
    by_cases hprog : ∃ c ∈ s.cellsOf o p, s.inProgram c.1 = true
    · have hsome : ¬∀ c ∈ s.cellsOf o p, s.inProgram c.1 = false := by simpa using hprog
      simp only [List.any_eq_true, hbuf, hset, hprog, hsome]
      simp
    · have hfree : ∀ c ∈ s.cellsOf o p, s.inProgram c.1 = false := by simpa using hprog
      simp only [List.any_eq_true, hbuf, hset, hprog, iff_true_intro hfree]
      simp

end Sys2Proof.Machine
end

section
/-! PROOF. What an OUTPUT of several live processors does, as a whole (spec/41_alu_output.md R188; spec/42_texture.md R231). -/

namespace Sys2Proof.Machine

/-! ## An OUTPUT of any number of live processors (O26) -/

/-- Nothing keeps an OUTPUT from serving these processors: their index pairs differ, their tests have the buffer they need and
read nothing that another one wrote, their requests have a descriptor and touch neither the program nor what another one reads
or writes, be it by an earlier instruction or by this one. -/
structure Undisturbed (s : State) (o : OutputFields) (ps : List Proc) : Prop where
  distinct : (ps.map Proc.xy).Nodup
  buffer : ps ≠ [] → o.conditional = true → s.ctl.cond = .less → s.ctl.condBuf ≠ none
  tests : ∀ p ∈ ps, s.readsRace (s.testReads p) = false
  unread : ∀ p ∈ ps, ∀ q ∈ ps, p.xy ≠ q.xy → ∀ c ∈ s.cellsOf o p, ∀ r ∈ s.testReads q, c.1 ∉ r.addrs
  descriptor : ∀ p ∈ ps, s.passes o p = true → s.outDesc o.out ≠ none
  free : ∀ p ∈ ps, ∀ c ∈ s.cellsOf o p, s.inProgram c.1 = false ∧ s.sharedWithOther p.xy c.1 = false
  apart : ∀ p ∈ ps, ∀ q ∈ ps, p.xy ≠ q.xy → ∀ c ∈ s.cellsOf o p, ∀ d ∈ s.cellsOf o q, c.1 ≠ d.1

theorem Undisturbed.ready {s : State} {o : OutputFields} {ps : List Proc} (h : Undisturbed s o ps) (w q : Bool) :
    Undisturbed (s.ready w q) o ps where
  distinct := h.distinct
  buffer := by simpa using h.buffer
  tests := by simpa using h.tests
  unread := by simpa using h.unread
  descriptor := by simpa using h.descriptor
  free := by simpa using h.free
  apart := by simpa using h.apart

/-- The reads of the tests keep no request back that lies apart from them. -/
theorem Undisturbed.free_tested {s : State} {o : OutputFields} {ps : List Proc} (h : Undisturbed s o ps)
    (cache : List ((Word × IndexPair) × Word)) : ∀ p ∈ ps, ∀ c ∈ s.cellsOf o p, s.inProgram c.1 = false ∧
      { s with condCache := cache, reads := s.reads ++ ps.flatMap s.testReads }.sharedWithOther p.xy c.1 = false := by
  intro p hp c hc
  obtain ⟨hprogram, hshared⟩ := h.free p hp c hc
  have htests : ((ps.flatMap s.testReads).any fun r => r.xy != p.xy && r.addrs.contains c.1) = false := by
    refine List.any_eq_false.2 fun r hr => ?_
    obtain ⟨q, hq, hrq⟩ := List.mem_flatMap.1 hr
    by_cases hxy : p.xy = q.xy
    · simp [State.testReads_xy hrq, hxy]
    · simp [h.unread p hp q hq hxy c hc r hrq]
  refine ⟨hprogram, ?_⟩
  simp only [State.sharedWithOther, Bool.or_eq_false_iff] at hshared ⊢
  obtain ⟨hwritten, hread⟩ := hshared
  refine ⟨hwritten, ?_⟩
  simp only [State.readByOther] at hread ⊢
  rw [List.any_append, hread, htests]
  rfl

/-- The tests and requests of an undisturbed OUTPUT. -/
theorem sendOutputs_eq {s : State} {o : OutputFields} (h : Undisturbed s o (s.stream.procs.filter Proc.live)) :
    let live := s.stream.procs.filter Proc.live
    ∃ cache, CacheOf s live cache ∧ s.sendOutputs o = .ok ({ s with
        condCache := cache
        reads := s.reads ++ live.flatMap s.testReads
        outputs := s.outputs ++ live.map fun p =>
          { run := s.runNo, xy := p.xy, out := o.out, uncached := o.uncached, vals := s.outVals o p, written := s.passes o p }
        writes := s.writes ++ (live.filter (s.passes o)).map fun p =>
          { run := s.runNo, xy := p.xy, issued := s.tick, acquired := o.acquire && o.uncached, synced := none
            unsaid := false, cells := s.cellsOf o p }
        mem := if o.uncached then s.mem else Memory.writeAll s.mem (live.flatMap (s.cellsOf o)) },
      live.map fun p => { xy := p.xy, coords := Quad.all 0, mask := Quad.all false, cells := s.cellsOf o p }) := by
  intro live
  obtain ⟨cache, htest, hcache⟩ := testAll_eq o live s h.distinct h.buffer h.tests
  refine ⟨cache, hcache, ?_⟩
  rw [State.sendOutputs, htest]
  exact outputAll_eq o (s.passes o) (s.cellsOf o) live _ h.distinct (fun _ _ => rfl) h.descriptor (h.free_tested cache) h.apart

/-- What the tests leave in the cache is the same for a state that has waited or taken a number. -/
theorem CacheOf.of_ready {s : State} {w q : Bool} {ps : List Proc} {cache : List ((Word × IndexPair) × Word)}
    (h : CacheOf (s.ready w q) ps cache) : CacheOf s ps cache where
  untested := by simpa using h.untested
  tested := by simpa using h.tested

/-- What a source sends: the components that the mask and the predication let through (R188). -/
theorem State.outVals_eq (s : State) (o : OutputFields) (p : Proc) : s.outVals o p = o.srcs.map fun a => Quad.ofFn fun ch =>
    if o.omask.get ch && (p.enabled o.pred).get ch then some ((p.temp s.runNo (s.regOf a)).get ch) else none := by
  have hinter : ∀ ch, (maskInter o.omask (p.enabled o.pred)).get ch = (o.omask.get ch && (p.enabled o.pred).get ch) := by
    intro ch
    cases ch <;> rfl
  simp only [State.outVals, hinter]

/-- A request's cells, element by element and byte by byte (R65, R67). -/
theorem outCells_eq (d : Desc) (xy : IndexPair) (vals : List Masked) :
    outCells d xy vals = Memory.writeAll [] ((Config.outPlaces d xy vals.length).zipIdx.flatMap fun p =>
      (List.range (elemSize d.layout.format)).map fun j => (cellAddr d.base (p.1 + j), outElemByte d xy vals p.2 j)) := by
  have helem : ∀ off e, cellsFrom d.base off (outElemBytes d xy vals e) =
      (List.range (elemSize d.layout.format)).map fun j => (cellAddr d.base (off + j), outElemByte d xy vals e j) := by
    intro off e
    rw [outElemBytes_eq, cellsFrom_eq, List.length_map, List.length_range]
    refine List.map_congr_left fun j hj => ?_
    have hj' : j < elemSize d.layout.format := List.mem_range.1 hj
    simp [hj']
  simp only [outCells, helem]

/-- The value a test reads, and what it reads of memory: the value that the cache keeps, or where it keeps none an element of the
buffer (R78). -/
theorem State.condRead_eq (s : State) (base : Word) (xy : IndexPair) :
    (s.condRead base xy).1 = (s.condCached base xy).getD (Config.condWord ((List.range Config.condBytes).map fun j =>
      s.cachedByte xy (cellAddr base (Config.condPlace xy + 0)) j (cellAddr base (Config.condPlace xy + j)))) ∧
    s.condReads base xy = if s.condCached base xy = none then
      [{ xy := xy, addrs := (List.range Config.condBytes).map fun j => cellAddr base (Config.condPlace xy + j) }] else [] := by
  simp only [State.condRead, State.condReads]
  cases s.condCached base xy with
  | none => exact ⟨rfl, rfl⟩
  | some b => exact ⟨rfl, rfl⟩

/-- Settles O26: the OUTPUT is undisturbed, so its tests and requests are those of `sendOutputs_eq` from the ready state. -/
theorem outputOfLiveProcessorsCompletes : Obligations.OutputOfLiveProcessorsCompletes := by
  intro o s hacquire hholds howned hbuffer live hdistinct htests hunread hdesc hfree hapart k
  have hlive : live ≠ [] → s.anyLive = true := fun h => by
    obtain ⟨p, hp⟩ := List.exists_mem_of_ne_nil live h
    exact List.any_eq_true.2 ⟨p, List.mem_filter.1 hp⟩
  have hu : Undisturbed s o live := ⟨hdistinct, fun h => hbuffer (hlive h), htests, hunread, hdesc, hfree, hapart⟩
  obtain ⟨cache, hcache, hsend⟩ :=
    sendOutputs_eq (s := s.ready o.wait o.uncached) (by simpa using hu.ready o.wait o.uncached)
  rw [State.ready_procs] at hcache
  obtain ⟨huntested, htested⟩ := hcache.of_ready
  refine ⟨cache, ?_, huntested, s.outVals_eq o, outCells_eq, fun base xy => ?_, fun base hl hb => ?_⟩
  · rw [exec_output_ok hacquire hholds howned hsend]
    simp only [State.ready_procs, State.ready_writes, State.ready_mem, State.ready_outputs, State.ready_reads,
      State.ready_runNo, State.ready_tick, State.testReads_ready, State.passes_ready, State.cellsOf_ready, State.outVals_ready]
    rw [State.ready_eq]
    rfl
  · exact s.condRead_eq base xy
  · exact htested base hl hb

end Sys2Proof.Machine
end

section
/-! SUPPORT. The commands' encoding (spec/30_encoding.md): the decoder and the encoder agree (O40, O41), and a step of the PE runs
what the decoder says (O43). -/

namespace Sys2Proof

/-! ## The words of a command and back (O40) -/

/-- The commands that have an encoding (R102, R132), and their words. -/
theorem encode_eq_some {i : Instr} {ws : List Word} (h : encode i = some ws) :
    (∃ b f, i = .setConstiFmt b f ∧ ws = [opcodeSetConstiFmt, encodeBase b, encodeFormat f]) ∨
      ∃ c, i = .setCondTest c ∧ ws = [opcodeSetCondTest, encodeCondition c] := by
  cases i <;> simp only [encode, reduceCtorEq] at h
  case setConstiFmt b f => exact .inl ⟨b, f, rfl, (Option.some.inj h).symm⟩
  case setCondTest c => exact .inr ⟨c, rfl, (Option.some.inj h).symm⟩

/-- The decoder reads the opcode word first (R101). -/
theorem decode_wordBytes (op : Word) (bs : List Byte) : decode (wordBytes op ++ bs) = decodeAfter op bs := by
  rw [decode, takeWord_wordBytes]

theorem decodeAfter_setConstiFmt (b : BaseParam) (f : FormatParam) (rest : List Byte) :
    decodeAfter opcodeSetConstiFmt (wordBytes (encodeBase b) ++ (wordBytes (encodeFormat f) ++ rest)) =
      .ok (.setConstiFmt b f, rest) := by
  simp [decodeAfter, takeWord_wordBytes, decodeBase_encodeBase, decodeFormat_encodeFormat]

theorem decodeAfter_setCondTest (c : Condition) (rest : List Byte) :
    decodeAfter opcodeSetCondTest (wordBytes (encodeCondition c) ++ rest) = .ok (.setCondTest c, rest) := by
  have hop : opcodeSetCondTest ≠ opcodeSetConstiFmt := by decide
  simp [decodeAfter, hop, takeWord_wordBytes, decodeCondition_encodeCondition]

/-- Settles O40, command by command: each word is read back from its bytes, and each field from its word. -/
theorem decodeEncodeRoundTrip : Obligations.DecodeEncodeRoundTrip := by
  intro i ws h rest
  obtain ⟨b, f, rfl, rfl⟩ | ⟨c, rfl, rfl⟩ := encode_eq_some h
  · simp only [wordsBytes, List.append_assoc, List.nil_append, decode_wordBytes, decodeAfter_setConstiFmt]
  · simp only [wordsBytes, List.append_assoc, List.nil_append, decode_wordBytes, decodeAfter_setCondTest]

/-! ## The decoder accepts nothing but encodings (O41) -/

/-- The only opcode words are the two that the spec gives, and what follows them are parameters that decode (R102, R132). -/
theorem decodeAfter_ok {op : Word} {bs rest : List Byte} {i : Instr} (h : decodeAfter op bs = .ok (i, rest)) :
    ∃ ps, encode i = some (op :: ps) ∧ bs = wordsBytes ps ++ rest := by
  simp only [decodeAfter] at h
  split at h
  · rename_i hop
    split at h
    · cases h
    rename_i p bs₁ hp
    split at h
    · cases h
    rename_i q bs₂ hq
    split at h
    · rename_i b f hb hf
      cases h
      refine ⟨[p, q], ?_, ?_⟩
      · rw [encode, hop, encodeBase_of_decodeBase hb, encodeFormat_of_decodeFormat hf]
      · simp [wordsBytes, wordBytes_of_takeWord hp, wordBytes_of_takeWord hq]
    · cases h
    · cases h
  split at h
  · rename_i hop
    split at h
    · cases h
    rename_i p bs₁ hp
    split at h
    · rename_i c hc
      cases h
      refine ⟨[p], ?_, ?_⟩
      · rw [encode, hop, encodeCondition_of_decodeCondition hc]
      · simp [wordsBytes, wordBytes_of_takeWord hp]
    · cases h
  · cases h

/-- Bytes that decode are the words of the command and what follows (R110). -/
theorem decode_ok {bs rest : List Byte} {i : Instr} (h : decode bs = .ok (i, rest)) :
    ∃ ws, encode i = some ws ∧ bs = wordsBytes ws ++ rest := by
  simp only [decode] at h
  split at h
  · cases h
  · rename_i op bs₁ hop
    obtain ⟨ps, hi, rfl⟩ := decodeAfter_ok h
    exact ⟨op :: ps, hi, by rw [wordBytes_of_takeWord hop, wordsBytes, List.append_assoc]⟩

/-! ## Parameters of the commands whose opcode word is lost (O41) -/

@[simp] theorem withSecond_cons (q : Word) (ws : List Word) (g : Word → List Word → Except DecodeError Command) :
    withSecond (q :: ws) g = g q ws := rfl

@[simp] theorem withBase_encodeBase (b : BaseParam) (g : BaseParam → Command) : withBase (encodeBase b) g = .ok (g b) := by
  simp [withBase, decodeBase_encodeBase]

@[simp] theorem withFormat_encodeFormat (f : FormatParam) (g : FormatParam → Command) :
    withFormat (encodeFormat f) g = .ok (g f) := by
  simp [withFormat, decodeFormat_encodeFormat]

@[simp] theorem withBaseFormat_encodeBase (b : BaseParam) (q : Word) (g : BaseParam → FormatParam → Command) :
    withBaseFormat (encodeBase b) q g = withFormat q (g b) := by
  simp [withBaseFormat, decodeBase_encodeBase]

/-- A size of thirteen bits leaves the reserved bits 31:13 clear (R140). -/
@[simp] theorem decodeSize_setWidth (n : BitVec 13) (q : Word) :
    decodeSize (n.setWidth 32) q = withBase q fun b => .row (.sizeParameter ⟨n, b⟩) := by
  have hhigh : (n.setWidth 32).extractLsb' 13 19 = 0 := by
    ext i hi
    simp
  have hlow : (n.setWidth 32).extractLsb' 0 13 = n := by
    ext i hi
    simp [BitVec.getLsbD_eq_getElem hi, show i < 32 by omega]
  simp [decodeSize, hhigh, hlow]

theorem decodeSize_reserved {p : Word} (h : p.extractLsb' 13 19 ≠ 0) (q : Word) :
    decodeSize p q = .error .reservedNonzero := if_pos h

theorem decodeBase_reserved {p : Word} (h : p.extractLsb' 0 11 ≠ 0) : decodeBase p = .error .reservedNonzero := if_pos h

theorem withBase_reserved {p : Word} (h : p.extractLsb' 0 11 ≠ 0) (g : BaseParam → Command) :
    withBase p g = .error .reservedNonzero := by
  rw [withBase, decodeBase_reserved h]

theorem withBaseFormat_reserved {p : Word} (h : p.extractLsb' 0 11 ≠ 0) (q : Word)
    (g : BaseParam → FormatParam → Command) : withBaseFormat p q g = .error .reservedNonzero := by
  rw [withBaseFormat, decodeBase_reserved h]

theorem withFormat_error {q : Word} {e : DecodeError} (h : decodeFormat q = .error e) (g : FormatParam → Command) :
    withFormat q g = .error e := by
  rw [withFormat, h]

/-- The formats 5 to 7 are refused (R63). -/
theorem decodeDataFormat_lost : ∀ v : BitVec 3, 5 ≤ v.toNat → decodeDataFormat v = .error .reservedValue := by decide

/-- A format parameter is refused for a reserved bit, and where there is none for a lost format (R62, R63, R110). -/
theorem decodeFormat_error {p : Word} {e : DecodeError}
    (h : (p.extractLsb' 0 2 ≠ 0 ∨ p.extractLsb' 13 3 ≠ 0 ∨ p.extractLsb' 18 6 ≠ 0 ∨ p.extractLsb' 27 5 ≠ 0) ∧
        e = .reservedNonzero ∨
      (p.extractLsb' 0 2 = 0 ∧ p.extractLsb' 13 3 = 0 ∧ p.extractLsb' 18 6 = 0 ∧ p.extractLsb' 27 5 = 0) ∧
        5 ≤ (p.extractLsb' 24 3).toNat ∧ e = .reservedValue) : decodeFormat p = .error e := by
  obtain ⟨hbits, rfl⟩ | ⟨⟨h0, h13, h18, h27⟩, hlost, rfl⟩ := h
  · exact if_pos hbits
  · simp [decodeFormat, h0, h13, h18, h27, decodeDataFormat_lost _ hlost]

/-- Settles O41: `decode_ok` for the commands with words; for the others each parameter is read back, or refused, in the one
decoder that all commands taking it share. -/
theorem decodedBytesAreAnEncoding : Obligations.DecodedBytesAreAnEncoding := by
  refine ⟨fun _ _ _ => decode_ok, fun k p q ws b f => ?_⟩
  refine ⟨?inputBase, ?outputBase, ?condBufBase, ?inputFormat, ?outputFormat, ?floatConstFmt, ?programData, ?size,
    rfl, rfl, rfl, rfl, rfl, rfl, fun hp => ⟨?base, ?baseFormat, ?sizeBase⟩, fun hp => decodeSize_reserved hp q,
    fun e he => ⟨?format, ?formatSecond⟩⟩
  case inputBase | outputBase | condBufBase => exact withBase_encodeBase b _
  case inputFormat | outputFormat => exact withFormat_encodeFormat f _
  case floatConstFmt | programData => simp [decodeLost]
  case size => intro n; simp [decodeLost]
  case base => simp [decodeLost, withBase_reserved hp]
  case baseFormat => simp [decodeLost, withBaseFormat_reserved hp]
  case sizeBase => intro n; simp [decodeLost, withBase_reserved hp]
  case format => simp [decodeLost, withFormat_error (decodeFormat_error he)]
  case formatSecond => simp [decodeLost, withFormat_error (decodeFormat_error he)]

end Sys2Proof

namespace Sys2Proof.Machine

/-! ## A step of the PE (O43) -/

/-- The PE's step, where no program runs or waits: what it fetches is executed and its words are passed (R101, R131). -/
theorem step_of_peFetch {s t : State} {id : Word} {c : Command} {words : Nat} (hr : s.running = false)
    (hl : s.canLaunch = false) (hcur : s.pe.current = some id) (hptr : s.pe.ptr < s.pe.limit)
    (hfetch : s.peFetch = .ok (c, words)) (hexec : s.execCommand c = .next t) :
    step s = .next (t.advancePe words).endStep := by
  have hcommand : s.runCommand = .next (t.advancePe words) := by simp [State.runCommand, hfetch, hexec]
  have hagent : s.agentStep = .next (t.advancePe words) := by
    simp [State.agentStep, hl, hr, State.peStep, hcur, Nat.not_le.2 hptr, hcommand]
  simp [step, hagent]

/-- A command that decodes is fetched with as many words as its encoding has. -/
theorem State.fetchBytes_of_decode {s : State} {i : Instr} {rest : List Byte}
    (h : decode (s.peBytes s.pe.ptr (min maxCommandBytes (s.pe.limit - s.pe.ptr))) = .ok (i, rest)) :
    s.fetchBytes = .ok (.row i, (encode i).elim 0 List.length) := by
  obtain ⟨ws, hws, hbs⟩ := decode_ok h
  have hcount : ((wordsBytes ws ++ rest).length - rest.length) / 4 = ws.length := by
    rw [List.length_append, wordsBytes_length]
    omega
  simp only [State.fetchBytes, h]
  rw [hbs, hcount, hws, Option.elim_some]

/-- Where no lost opcode word stands at the pointer, the bytes there are decoded. -/
theorem State.peFetch_bytes {s : State} (halign : s.pe.ptr % 4 = 0)
    (hops : ∀ p ∈ s.pe.ops, p.addr = s.pe.ptr → s.opStands p = false) : s.peFetch = s.fetchBytes := by
  have hnone : s.pe.ops.find? (fun t => t.addr == s.pe.ptr && s.opStands t) = none :=
    List.find?_eq_none.2 fun p hp => by simpa using hops p hp
  simp [State.peFetch, halign, hnone]

/-- Where a lost opcode word stands at the pointer, the parameters after it are decoded. -/
theorem State.peFetch_op {s : State} {p : PlacedOp} {c : Command} {w : Word} {ws : List Word} {rest : List Byte}
    (halign : s.pe.ptr % 4 = 0) (hop : s.pe.ops.find? (fun q => q.addr == s.pe.ptr && s.opStands q) = some p)
    (hlimit : s.pe.ptr + 4 * (1 + p.cmd.params) ≤ s.pe.limit)
    (hwords : takeWords p.cmd.params (s.peBytes (s.pe.ptr + 4) (4 * p.cmd.params)) = some (w :: ws, rest))
    (hdecode : decodeLost p.cmd p.index w ws = .ok c) : s.peFetch = .ok (c, 1 + p.cmd.params) := by
  simp [State.peFetch, halign, hop, State.fetchOp, Nat.not_lt.2 hlimit, hwords, hdecode]

/-- Every command takes at least one parameter (R101). -/
theorem one_le_params (c : LostCommand) : 1 ≤ c.params := by
  cases c <;> simp only [LostCommand.params] <;> omega

/-- Settles O43: a step executes what is fetched, from the bytes at the pointer or from those after a lost opcode word. -/
theorem stepRunsTheDecodedCommand : Obligations.StepRunsTheDecodedCommand := by
  intro s t id hr hl hcur hptr halign
  refine ⟨fun i rest hops hdecode hexec => ?_, fun p c w ws rest hop hlimit hwords hdecode hexec => ?_, rfl, rfl,
    one_le_params⟩
  · have hfetch := (State.peFetch_bytes halign hops).trans (State.fetchBytes_of_decode hdecode)
    obtain ⟨cmdWords, hws, -⟩ := decode_ok hdecode
    rw [step_of_peFetch hr hl hcur hptr hfetch hexec, hws]
    rfl
  · rw [step_of_peFetch hr hl hcur hptr (State.peFetch_op halign hop hlimit hwords hdecode) hexec]
    rfl

end Sys2Proof.Machine
end

section
/-! PROOF. An OUTPUT under the test Never (spec/40_commands.md R147, R148). -/

namespace Sys2Proof.Machine

/-! ## The test Never (O25) -/

/-- Under Never every test fails and reads nothing (R147). -/
theorem testAll_never {s : State} (h : s.ctl.cond = .never) (o : OutputFields) (ps : List Proc) :
    testAll o ps s = .ok (ps.map fun _ => false, s) := by
  induction ps with
  | nil => rfl
  | cons p ps ih => simp [testAll, State.coTest, h, ih]

/-- The output event of a processor whose request is not dispatched. -/
def State.unwrittenEvent (s : State) (o : OutputFields) (p : Proc) : OutputEvent :=
  { run := s.runNo, xy := p.xy, out := o.out, uncached := o.uncached, vals := s.outVals o p, written := false }

/-- The lane of a processor whose request is not dispatched: it stores nothing. -/
def Proc.unwrittenLane (p : Proc) : Lane :=
  { xy := p.xy, coords := Quad.all 0, mask := Quad.all false, cells := [] }

/-- An output whose test failed leaves its event and nothing else (R148). -/
theorem outputOne_undispatched (o : OutputFields) (p : Proc) (s : State) :
    outputOne o p false s = .ok ({ s with outputs := s.outputs ++ [s.unwrittenEvent o p] }, p.unwrittenLane) := by
  simp [outputOne, State.outRequest, State.recordOutput, State.unwrittenEvent, Proc.unwrittenLane, Memory.writeAll]

theorem outputAll_undispatched (o : OutputFields) (ps : List Proc) (s : State) :
    outputAll o (ps.zip (ps.map fun _ => false)) s =
      .ok ({ s with outputs := s.outputs ++ ps.map (s.unwrittenEvent o) }, ps.map Proc.unwrittenLane) := by
  induction ps generalizing s with
  | nil => simp [outputAll]
  | cons p ps ih =>
    simp only [List.map_cons, List.zip_cons_cons, outputAll, outputOne_undispatched, ih, List.append_assoc,
      List.cons_append, List.nil_append]
    rfl

/-- Under Never the live processors' outputs leave their events and nothing else. -/
theorem sendOutputs_never {s : State} (h : s.ctl.cond = .never) (o : OutputFields) :
    s.sendOutputs o = .ok ({ s with
        outputs := s.outputs ++ (s.stream.procs.filter Proc.live).map (s.unwrittenEvent o) },
      (s.stream.procs.filter Proc.live).map Proc.unwrittenLane) := by
  simp only [State.sendOutputs, testAll_never h, outputAll_undispatched]

theorem State.unwrittenEvent_ready (s : State) (w q : Bool) (o : OutputFields) :
    (s.ready w q).unwrittenEvent o = s.unwrittenEvent o := by
  funext p
  simp [State.unwrittenEvent]

/-- Settles O25: the OUTPUT has the effect of `sendOutputs_never` from the ready state, closes and moves on. -/
theorem neverTestWritesNoOutput : Obligations.NeverTestWritesNoOutput := by
  intro o s hacquire hholds howned hnever
  have hsend := sendOutputs_never (s := s.ready o.wait o.uncached) (by simpa using hnever) o
  rw [State.unwrittenEvent_ready, State.ready_procs, State.ready_outputs] at hsend
  exact ⟨_, exec_output_ok hacquire hholds howned hsend, s.ready_mem _ _, s.ready_writes _ _, rfl,
    congrArg (· + 1) (s.ready_pc _ _), s.ready_procs _ _, rfl, s.ready_ctl _ _, s.ready_condCache _ _,
    s.ready_reads _ _, s.ready_others _ _⟩

end Sys2Proof.Machine
end

section
/-! PROOF. The set-up commands (spec/40_commands.md R134 to R141, R147; spec/20_memory.md R61, R62). -/

namespace Sys2Proof.Machine

/-! ## Descriptors as masks of the encoded words (O36) -/

/-- A base is its whole word: the bits that the mask clears are clear (R61). -/
theorem baseValue_eq_mask (b : BaseParam) : baseValue b = encodeBase b &&& 0xFFFFF800#32 := by
  have hmask : ∀ i < 32, (0xFFFFF800#32).getLsbD i = decide (11 ≤ i) := by decide
  change encodeBase b = _
  refine BitVec.eq_of_getLsbD_eq fun i hi => ?_
  rw [BitVec.getLsbD_and, hmask i hi, encodeBase_getLsbD]
  by_cases h : 11 ≤ i <;> simp [h]

/-- A pitch is bits 12:2 of its word (R62). -/
theorem pitchValue_eq_mask (f : FormatParam) : pitchValue f = encodeFormat f &&& 0x1FFC#32 := by
  have hmask : ∀ i < 32, (0x1FFC#32).getLsbD i = decide (2 ≤ i ∧ i < 13) := by decide
  refine BitVec.eq_of_getLsbD_eq fun i hi => ?_
  rw [BitVec.getLsbD_and, hmask i hi, encodeFormat_getLsbD, pitchValue, BitVec.getLsbD_setWidth, BitVec.getLsbD_append]
  by_cases hlow : i < 2
  · simp [hlow]
  · by_cases hhigh : i < 13
    · simp [hi, hlow, hhigh, Nat.le_of_not_lt hlow]
    · simp [hlow, hhigh, BitVec.getLsbD_of_ge f.pitch (i - 2) (by omega)]

/-- The fields of a format parameter that decodes lie in its word as R62 lays them out. -/
theorem fields_of_decodeFormat {w : Word} {f : FormatParam} (h : decodeFormat w = .ok f) :
    f.tiling = w.extractLsb' 16 2 ∧ encodeDataFormat f.format = w.extractLsb' 24 3 := by
  simp only [decodeFormat] at h
  split at h
  · cases h
  · split at h
    · rename_i d hd
      cases h
      exact ⟨rfl, encodeDataFormat_of_decode hd⟩
    · cases h

/-- Settles O36: the next states by unfolding; the base and the pitch as masks, the other fields as the decoder reads them. -/
theorem decodableCommandsSetTheirState : Obligations.DecodableCommandsSetTheirState := by
  intro b f c s
  obtain ⟨htiling, hformat⟩ := fields_of_decodeFormat (decodeFormat_encodeFormat f)
  exact ⟨rfl, rfl, rfl, baseValue_eq_mask b, pitchValue_eq_mask f, htiling, hformat⟩

/-! ## Sample words (O42) -/

/-- Settles O42, by running the decoder on each. -/
theorem sampleCommandWords : Obligations.SampleCommandWords := by
  refine ⟨?_, ?_, ?_, ?_, ?_⟩ <;> decide

/-! ## Inputs and outputs (O37) -/

theorem slotAt_assocSet (l : List (Nat × Slot)) (k j : Nat) (x : Slot) :
    slotAt (assocSet l k x) j = if k = j then x else slotAt l j := by
  simp only [slotAt, assocGet_assocSet]
  split <;> rfl

/-- Setting a base at a number sets it there, keeps the layout, and leaves every other number alone (R137, R138). -/
theorem slotAt_setBase (l : List (Nat × Slot)) (k : Nat) (b : BaseParam) :
    slotAt (setBase l k b) k = { slotAt l k with base := some (encodeBase b) } ∧
      ∀ j, j ≠ k → slotAt (setBase l k b) j = slotAt l j := by
  refine ⟨?_, fun j hj => ?_⟩
  · rw [setBase, slotAt_assocSet, if_pos rfl]
    rfl
  · rw [setBase, slotAt_assocSet, if_neg hj.symm]

/-- Setting a layout at a number sets it there, keeps the base, and leaves every other number alone (R41). -/
theorem slotAt_setLayout (l : List (Nat × Slot)) (k : Nat) (f : FormatParam) :
    slotAt (setLayout l k f) k = { slotAt l k with layout := some (layoutOf f) } ∧
      ∀ j, j ≠ k → slotAt (setLayout l k f) j = slotAt l j := by
  refine ⟨?_, fun j hj => ?_⟩
  · rw [setLayout, slotAt_assocSet, if_pos rfl]
  · rw [setLayout, slotAt_assocSet, if_neg hj.symm]

/-- A descriptor is read from the parts set at its number. -/
theorem slotDesc_eq (l : List (Nat × Slot)) (k : Nat) : slotDesc l k = (slotAt l k).desc := by
  simp only [slotDesc, slotAt]
  cases assocGet l k <;> rfl

/-- Once its layout is set, a descriptor is set if its base is. -/
theorem slotDesc_setLayout (l : List (Nat × Slot)) (k : Nat) (f : FormatParam) :
    slotDesc (setLayout l k f) k = (slotAt l k).base.map (fun a => { base := a, layout := layoutOf f }) ∧
      ∀ j, j ≠ k → slotDesc (setLayout l k f) j = slotDesc l j := by
  obtain ⟨hsame, hother⟩ := slotAt_setLayout l k f
  refine ⟨?_, fun j hj => by rw [slotDesc_eq, hother j hj, slotDesc_eq]⟩
  rw [slotDesc_eq, hsame]
  cases h : (slotAt l k).base <;> simp [Slot.desc, h]

/-- Settles O37: the whole next states by unfolding, the parts at each number by the laws of `setBase` and `setLayout`. -/
theorem setupCommandsSetTheirOwnState : Obligations.SetupCommandsSetTheirOwnState := by
  intro b f k v i0 j0 ws s
  exact ⟨rfl, rfl, rfl, rfl,
    ⟨_, rfl, rfl, slotAt_setBase s.ctl.inputs k b⟩, ⟨_, rfl, rfl, slotAt_setBase s.ctl.outs k b⟩,
    ⟨_, rfl, rfl, slotAt_setLayout s.ctl.inputs k f⟩, ⟨_, rfl, rfl, slotAt_setLayout s.ctl.outs k f⟩,
    slotDesc_setLayout s.ctl.inputs k f, slotDesc_setLayout s.ctl.outs k f, rfl, rfl⟩

end Sys2Proof.Machine
end

section
/-! PROOF. The counter commands and the program start (spec/40_commands.md R143 to R145; spec/60_exceptions.md R318;
spec/20_memory.md R73). -/

namespace Sys2Proof.Machine

/-! ## Performance counters (O39) -/

/-- What a keyed list holds after the values of a function are set at those keys of a list that satisfy p. -/
theorem assocGet_foldl_assocSet {α : Type} (f : Nat → α) (p : Nat → Prop) [DecidablePred p] (ks : List Nat)
    (l : List (Nat × α)) (n : Nat) :
    assocGet (ks.foldl (fun l k => if p k then assocSet l k (f k) else l) l) n =
      if n ∈ ks ∧ p n then some (f n) else assocGet l n := by
  induction ks generalizing l with
  | nil => simp
  | cons k ks ih =>
    have hhead : assocGet (if p k then assocSet l k (f k) else l) n =
        if k = n ∧ p n then some (f n) else assocGet l n := by
      by_cases hk : k = n
      · subst hk
        by_cases hp : p k <;> simp [hp, assocGet_assocSet]
      · by_cases hp : p k <;> simp [hp, hk, assocGet_assocSet]
    rw [List.foldl_cons, ih, hhead]
    by_cases hp : p n
    · by_cases hks : n ∈ ks <;> simp [hp, hks, eq_comm]
    · simp [hp]

/-- Only an enabled counter that exists counts, and only while counting is on (R318). -/
theorem Perf.value_step (p : Perf) (tick n : Nat) :
    (p.step tick).value n =
      if p.counting = true ∧ n ∈ p.enabled ∧ n < Config.nperf then
        Config.perfCount tick n (p.value n) % 2 ^ Config.perfWidth
      else p.value n := by
  cases hc : p.counting with
  | false => simp [Perf.step, hc]
  | true =>
    simp only [Perf.step, hc, if_true, Perf.value, assocGet_foldl_assocSet, true_and]
    split <;> rfl

/-- A dump in memory: at each address the last of its bytes that lies there, or what memory held (R145). -/
theorem Memory.read_perfCells (m : List Host.Cell) (w : Word) (p : Perf) (a : Nat) :
    let dump := Config.perfDump ((List.range Config.nperf).map p.value)
    Memory.read (Memory.writeAll m (perfCells w p)) a =
      ((List.range dump.length).reverse.find? fun j => cellAddr w j == a).elim (Memory.read m a) fun j => dump[j]? := by
  intro dump
  simpa only [perfCells, Nat.zero_add] using Memory.read_writeAll_cellsFrom m w 0 dump a

/-- Settles O39: the dump by `Memory.read_perfCells`, the counting by `Perf.value_step`. -/
theorem performanceCounterCommands : Obligations.PerformanceCounterCommands := by
  intro b w s
  refine ⟨rfl, rfl, fun a ha => ?_, Memory.read_perfCells s.mem w s.perf, s.perf.value_step⟩
  rw [Memory.read_perfCells, List.find?_eq_none.2 fun j hj => by simpa using ha j (by simpa using hj)]
  rfl

/-! ## The program start (O38) -/

/-- What a flush keeps of an unsaid write: the bytes that no later write replaced for certain (R73, D10). -/
theorem WriteRec.besides_covers {w : WriteRec} {later : List WriteRec} {a : Nat} (h : (w.besides later).covers a = true) :
    w.covers a = true ∧ ∀ x ∈ later, x.unsaid = false → x.covers a = false := by
  rw [WriteRec.covers, WriteRec.read_besides] at h
  split at h
  · cases h
  · rename_i hnone
    refine ⟨h, fun x hx hsaid => ?_⟩
    simpa [hsaid] using List.any_eq_false.1 (Bool.eq_false_of_not_eq_true hnone) x hx

/-- Settles O38: the index pairs are the domain's without repetition, and the records kept are those of `mem_unsaidLeft`. -/
theorem programStartQueuesTheDomain : Obligations.ProgramStartQueuesTheDomain := by
  intro s
  refine ⟨fun hunset => if_pos (by simp [hunset]), fun hset => ⟨s.startProgram, if_neg (by simpa using hset),
    fun xy => List.mem_dedup, List.nodup_dedup _, fun hflushed => ?_, fun hunflushed => if_neg (by simp [hunflushed]), rfl⟩⟩
  have hkept : s.startProgram.writes = unsaidLeft s.writes := if_pos hflushed
  rw [hkept]
  refine ⟨fun pre w post hw hu => ⟨w.besides post, mem_unsaidLeft.2 ⟨pre, w, post, hw, hu, rfl⟩, rfl, fun a => ?_⟩,
    fun v hv => ?_⟩
  · rw [WriteRec.read_besides]
    simp
  · obtain ⟨pre, w, post, hw, hu, rfl⟩ := mem_unsaidLeft.1 hv
    exact ⟨hu, pre, w, post, hw, rfl, fun a => WriteRec.besides_covers⟩

end Sys2Proof.Machine
end

section
/-! PROOF. Who moves: the PE waits for the array (spec/40_commands.md R143), and takes and ends command buffers (R151, R152). -/

namespace Sys2Proof.Machine

/-! ## The array's steps (O46) -/

/-- A running stream's step leaves the PE and control state alone. -/
theorem State.runStep_keeps {s u : State} (h : s.runStep = .next u) : u.pe = s.pe ∧ u.ctl = s.ctl := by
  simp only [State.runStep] at h
  split at h
  · cases h; exact ⟨rfl, rfl⟩
  · split at h
    · cases h; exact ⟨rfl, rfl⟩
    · rename_i m _
      cases m with
      | issue =>
        obtain ⟨i, hi⟩ := State.issueNext_next h
        rw [hi.frame.1]
        exact ⟨rfl, rfl⟩
      | perform n =>
        obtain ⟨-, rfl⟩ := refuse_next h
        rw [s.performAt_frame n]
        exact ⟨rfl, rfl⟩
      | release => cases h; exact ⟨rfl, rfl⟩

/-- A step is one agent's, and then the tick. -/
theorem step_next {s t : State} (h : step s = .next t) : ∃ u, s.agentStep = .next u ∧ t = u.endStep := by
  simp only [step] at h
  split at h
  · rename_i u hu
    cases h
    exact ⟨u, hu, rfl⟩
  · cases h
  · cases h

/-- While instances run or wait, the agent is the launch or a running stream: with nothing running there is room to launch. -/
theorem State.agentStep_array {s u : State} (hbusy : s.running = true ∨ s.waiting ≠ []) (h : s.agentStep = .next u) :
    u = s.launchGroup ∨ s.turn.runStep = .next u := by
  simp only [State.agentStep] at h
  cases hl : s.canLaunch with
  | true =>
    rw [hl, if_pos rfl] at h
    cases h
    exact .inl rfl
  | false =>
    have hr : s.running = true := by
      cases hr : s.running with
      | true => rfl
      | false =>
        have hw : s.waiting ≠ [] := hbusy.resolve_left (by simp [hr])
        exact absurd (canLaunch_idle hr hw) (by simp [hl])
    simp only [hl, hr, if_true, Bool.false_eq_true, if_false] at h
    exact .inr h

/-- Settles O46: neither a launch nor a running stream's step touches the PE or control state. -/
theorem peWaitsUntilAllProcessorsAreIdle : Obligations.PeWaitsUntilAllProcessorsAreIdle := by
  intro s t hbusy h
  obtain ⟨u, hu, rfl⟩ := step_next h
  obtain rfl | hrun := State.agentStep_array hbusy hu
  · exact ⟨rfl, rfl⟩
  · obtain ⟨hpe, hctl⟩ := State.runStep_keeps hrun
    exact ⟨hpe.trans s.turn_pe, hctl.trans s.turn_ctl⟩

/-! ## Command buffers (O47) -/

/-- With nothing running and no launch possible, the step is the PE's. -/
theorem State.agentStep_pe {s : State} (hr : s.running = false) (hl : s.canLaunch = false) : s.agentStep = s.peStep := by
  simp [State.agentStep, hr, hl]

theorem step_of_peStep {s t : State} (hr : s.running = false) (hl : s.canLaunch = false) (h : s.peStep = .next t) :
    step s = .next t.endStep := by
  simp [step, State.agentStep_pe hr hl, h]

/-- What a command does leaves the PE alone; moving past its words is the step's (R101). -/
theorem State.execCommand_pe {s u : State} {c : Command} (h : s.execCommand c = .next u) : u.pe = s.pe := by
  cases c with
  | row i =>
    obtain ⟨-, -, -, -, hpe, -⟩ := instructionsAndCommandsKeepApart i s u h
    exact hpe
  | extra x => cases h; cases x <;> rfl

/-- A command that the PE reads consumes no buffer. -/
theorem State.runCommand_consumed {s u : State} (h : s.runCommand = .next u) : u.pe.consumed = s.pe.consumed := by
  simp only [State.runCommand] at h
  split at h
  · rename_i e _
    cases e <;> cases h
  · split at h
    · rename_i v hv
      cases h
      rw [State.advancePe_pe, State.execCommand_pe hv]
    · cases h
    · cases h

/-- Without a buffer the PE takes the next one, if there is one (R152). -/
theorem State.peStep_take {s : State} (hcur : s.pe.current = none) : s.peStep = .next s.takeBuffer := by
  simp [State.peStep, hcur]

theorem State.takeBuffer_cons {s : State} {b : Submission} {rest : List Submission} (h : s.pe.queue = b :: rest) :
    s.takeBuffer =
      { s with pe := { s.pe with current := some b.id, ptr := b.addr, limit := b.addr + b.size, queue := rest } } := by
  simp [State.takeBuffer, h]

theorem State.takeBuffer_nil {s : State} (h : s.pe.queue = []) : s.takeBuffer = s := by
  simp [State.takeBuffer, h]

theorem State.takeBuffer_consumed (s : State) : s.takeBuffer.pe.consumed = s.pe.consumed := by
  cases h : s.pe.queue with
  | nil => rw [State.takeBuffer_nil h]
  | cons b rest => rw [State.takeBuffer_cons h]

/-- At its buffer's end the PE consumes it (R151). -/
theorem State.peStep_end {s : State} {id : Word} (hcur : s.pe.current = some id) (hptr : s.pe.limit ≤ s.pe.ptr) :
    s.peStep = .next (s.consumeBuffer id) := by
  simp [State.peStep, hcur, hptr]

/-- Before its buffer's end the PE runs a command (R131). -/
theorem State.peStep_command {s : State} {id : Word} (hcur : s.pe.current = some id) (hptr : ¬ s.pe.limit ≤ s.pe.ptr) :
    s.peStep = s.runCommand := by
  simp [State.peStep, hcur, hptr]

/-- The PE consumes a buffer only where it has read it to its end. -/
theorem State.peStep_consumed {s u : State} (h : s.peStep = .next u) : u.pe.consumed = s.pe.consumed ∨
    ∃ id, s.pe.current = some id ∧ s.pe.limit ≤ s.pe.ptr ∧ u = s.consumeBuffer id := by
  cases hcur : s.pe.current with
  | none =>
    rw [State.peStep_take hcur] at h
    cases h
    exact .inl s.takeBuffer_consumed
  | some id =>
    by_cases hptr : s.pe.limit ≤ s.pe.ptr
    · rw [State.peStep_end hcur hptr] at h
      cases h
      exact .inr ⟨id, rfl, hptr, rfl⟩
    · rw [State.peStep_command hcur hptr] at h
      exact .inl (State.runCommand_consumed h)

/-- A buffer counts as consumed after a step only if it did before, or the idle PE was at its end. -/
theorem step_bufferConsumed {s t : State} {id : Word} (h : step s = .next t) (hc : t.bufferConsumed id = true) :
    s.bufferConsumed id = true ∨
      (s.running = false ∧ s.waiting = [] ∧ s.pe.current = some id ∧ s.pe.limit ≤ s.pe.ptr) := by
  by_cases hbusy : s.running = true ∨ s.waiting ≠ []
  · refine .inl ?_
    rwa [State.bufferConsumed, (peWaitsUntilAllProcessorsAreIdle s t hbusy h).1] at hc
  · obtain ⟨hr, hw⟩ : s.running = false ∧ s.waiting = [] := by simpa using hbusy
    obtain ⟨u, hu, rfl⟩ := step_next h
    rw [State.agentStep_pe hr (canLaunch_nil hw)] at hu
    obtain heq | ⟨cur, hcur, hptr, rfl⟩ := State.peStep_consumed hu
    · refine .inl ?_
      rwa [State.bufferConsumed, State.endStep_pe, heq] at hc
    · have hid : s.bufferConsumed id = true ∨ id = cur := by simpa [State.bufferConsumed] using hc
      exact hid.imp_right fun he => ⟨hr, hw, hcur.trans (congrArg some he.symm), hptr⟩

/-- Settles O47: the idle PE's three steps by `State.peStep`, and nothing else consumes by `step_bufferConsumed`. -/
theorem commandBuffersAreTakenAndConsumed : Obligations.CommandBuffersAreTakenAndConsumed := by
  intro s
  refine ⟨fun _ _ => rfl, fun hr hl => ⟨fun b rest hcur hqueue => ?_, fun hcur hqueue => ?_, fun id hcur hptr => ?_⟩,
    fun t id => step_bufferConsumed⟩
  · rw [step_of_peStep hr hl (State.peStep_take hcur), State.takeBuffer_cons hqueue]
    rfl
  · rw [step_of_peStep hr hl (State.peStep_take hcur), State.takeBuffer_nil hqueue]
    rfl
  · exact ⟨_, step_of_peStep hr hl (State.peStep_end hcur hptr), by simp [State.bufferConsumed], rfl⟩

end Sys2Proof.Machine
end

section
/-! PROOF. The ALU rows (spec/41_alu_output.md R170 to R184, R190): which components of which registers an instruction's two
engines write and what they leave alone (O16, O17), the cross-engine copy (O18), and the row as a whole (O15). -/

namespace Sys2Proof

/-! ## Components -/

@[simp] theorem Quad.get_ofFn {α : Type} (f : Comp → α) (ch : Comp) : (Quad.ofFn f).get ch = f ch := by cases ch <;> rfl

@[simp] theorem Quad.get_all {α : Type} (v : α) (ch : Comp) : (Quad.all v).get ch = v := by cases ch <;> rfl

theorem Quad.get_merge {α : Type} (mask : Mask) (new old : Quad α) (ch : Comp) :
    (Quad.merge mask new old).get ch = if mask.get ch then new.get ch else old.get ch := Quad.get_ofFn _ ch

/-- Four equal components make equal contents. -/
theorem Quad.eq_of_get {α : Type} {q q' : Quad α} (h : ∀ ch, q.get ch = q'.get ch) : q = q' := by
  obtain ⟨r, g, b, a⟩ := q
  obtain rfl : r = q'.r := h .r
  obtain rfl : g = q'.g := h .g
  obtain rfl : b = q'.b := h .b
  obtain rfl : a = q'.a := h .a
  rfl

end Sys2Proof

namespace Sys2Proof.Machine

theorem get_maskInter (m n : Mask) (ch : Comp) : (maskInter m n).get ch = (m.get ch && n.get ch) := Quad.get_ofFn _ ch

/-! ## What an ALU row writes (O16) -/

/-- A result reaches the components of its destination that its write mask and the predication let it, and nothing else
(R182). -/
theorem writeResult_temp (s : State) (pred : Option Nat) (old : Proc) (dst : Nat) (wmask pmask : Mask) (v : Vec4) (p : Proc)
    (d : Nat) (ch : Comp) : ((writeResult s pred old dst wmask pmask v p).temp s.runNo d).get ch =
      if dst = d ∧ (wmask.get ch && (old.enabled pred).get ch) = true then v.get ch else (p.temp s.runNo d).get ch := by
  cases hany : wmask.r || wmask.g || wmask.b || wmask.a with
  | true =>
    have hwrite : (writeResult s pred old dst wmask pmask v p).temp s.runNo d =
        (p.writeTemp s.runNo dst (maskInter wmask (old.enabled pred)) v).temp s.runNo d := by
      simp only [writeResult, hany, if_true]
      rfl
    rw [hwrite, Proc.temp_writeTemp]
    by_cases hd : dst = d
    · simp [hd, Quad.get_merge, get_maskInter]
    · simp [hd]
  | false =>
    have hnone : wmask.get ch = false := by
      simp only [Bool.or_eq_false_iff] at hany
      obtain ⟨⟨⟨hr, hg⟩, hb⟩, ha⟩ := hany
      cases ch
      exacts [hr, hg, hb, ha]
    have hkeep : (writeResult s pred old dst wmask pmask v p).temp s.runNo d = p.temp s.runNo d := by
      simp only [writeResult, hany]
      rfl
    simp [hkeep, hnone]

theorem alphaWmask_get {h : AlphaPart} {ch : Comp} (hch : ch ≠ .a) : (alphaWmask h).get ch = false := by
  cases ch
  case a => exact absurd rfl hch
  all_goals rfl

/-- What the RGB engine writes. -/
theorem State.writeRgb_temp (s : State) (c : AluCommon) (old : Proc) (alpha : Option AlphaHalf) (h : RgbHalf) (p : Proc)
    (d : Nat) (ch : Comp) : ((s.writeRgb c old alpha h p).temp s.runNo d).get ch =
      if s.regOf h.part.dst = d ∧ ((rgbWmask h.part).get ch && (old.enabled c.pred).get ch) = true
      then resultPath h.part.omod h.part.clamp (s.rgbRaw c old alpha h ch) else (p.temp s.runNo d).get ch := by
  rw [State.writeRgb, writeResult_temp, State.rgbFinal, Quad.get_ofFn]

/-- What the alpha engine writes. -/
theorem State.writeAlpha_temp (s : State) (c : AluCommon) (old : Proc) (rgb : Option RgbHalf) (h : AlphaHalf) (p : Proc)
    (d : Nat) (ch : Comp) : ((s.writeAlpha c old rgb h p).temp s.runNo d).get ch =
      if s.regOf h.part.dst = d ∧ ((alphaWmask h.part).get ch && (old.enabled c.pred).get ch) = true
      then resultPath h.part.omod h.part.clamp (s.alphaRaw c old rgb h) else (p.temp s.runNo d).get ch := by
  rw [State.writeAlpha, writeResult_temp, State.alphaFinal, Quad.get_all]

/-- An ALU row's registers are what the RGB engine and after it the alpha engine wrote. -/
theorem State.aluProc_temp (s : State) (c : AluCommon) (rgb : Option RgbHalf) (alpha : Option AlphaHalf) (p : Proc) (d : Nat) :
    (s.aluProc c rgb alpha p).temp s.runNo d = (alpha.elim (rgb.elim p fun h => s.writeRgb c p alpha h p) fun h =>
      s.writeAlpha c p rgb h (rgb.elim p fun h => s.writeRgb c p alpha h p)).temp s.runNo d := rfl

/-- The RGB channels of a register after an ALU row: the alpha engine does not write them. -/
theorem State.aluProc_temp_rgb (s : State) (c : AluCommon) (rgb : Option RgbHalf) (alpha : Option AlphaHalf) (p : Proc)
    (d : Nat) {ch : Comp} (hch : ch ≠ .a) : ((s.aluProc c rgb alpha p).temp s.runNo d).get ch =
      rgb.elim ((p.temp s.runNo d).get ch) fun h =>
        if s.regOf h.part.dst = d ∧ ((rgbWmask h.part).get ch && (p.enabled c.pred).get ch) = true
        then resultPath h.part.omod h.part.clamp (s.rgbRaw c p alpha h ch) else (p.temp s.runNo d).get ch := by
  have hno : ∀ h : AlphaPart, (alphaWmask h).get ch = false := fun h => alphaWmask_get hch
  rw [State.aluProc_temp]
  cases rgb <;> cases alpha <;> simp [State.writeRgb_temp, State.writeAlpha_temp, hno]

/-- The alpha channel of a register after an ALU row: the RGB engine does not write it. -/
theorem State.aluProc_temp_alpha (s : State) (c : AluCommon) (rgb : Option RgbHalf) (alpha : Option AlphaHalf) (p : Proc)
    (d : Nat) : ((s.aluProc c rgb alpha p).temp s.runNo d).get .a = alpha.elim ((p.temp s.runNo d).get .a) fun h =>
        if s.regOf h.part.dst = d ∧ (h.part.wa && (p.enabled c.pred).get .a) = true
        then resultPath h.part.omod h.part.clamp (s.alphaRaw c p rgb h) else (p.temp s.runNo d).get .a := by
  have hno : ∀ h : RgbPart, (rgbWmask h).get .a = false := fun _ => rfl
  have hown : ∀ h : AlphaPart, (alphaWmask h).get .a = h.wa := fun _ => rfl
  rw [State.aluProc_temp]
  cases rgb <;> cases alpha <;> simp [State.writeRgb_temp, State.writeAlpha_temp, hno, hown]

/-- What a floating-point constant is made of: one element of its buffer, read through the cache (R35). -/
theorem State.floatConst_eq {s : State} {b : ConstBuf} (hb : s.ctl.floatConsts = some b) (xy : IndexPair) (n : Nat) :
    s.floatConst xy n = Config.floatConstValue b (s.constElem xy b n) := by
  simp [State.floatConst, hb]

/-- Settles O16: each engine's raw result is its operation's where it does not copy. -/
theorem engineResultsReachMaskedComponents : Obligations.EngineResultsReachMaskedComponents := by
  intro s c p
  refine ⟨fun h alpha ch hch hop => ?_, fun h rgb hop => ?_, fun o => ⟨rfl, rfl, rfl⟩, fun o => rfl, rfl,
    fun a b d => ⟨rfl, rfl, rfl, rfl, rfl, rfl, fun n => rfl⟩, fun ch => ⟨Quad.get_all _ ch, fun code => Quad.get_ofFn _ ch⟩,
    fun a => rfl, fun v => rfl, fun n b hb => ?_⟩
  · simp [s.aluProc_temp_rgb c _ _ _ _ hch, State.rgbRaw, State.rgbOwn, hop]
  · refine (s.aluProc_temp_alpha c rgb (some h) p _).trans ?_
    simp only [Option.elim, true_and, State.alphaRaw, hop, if_false]
    rfl
  · exact State.floatConst_eq hb p.xy n

/-! ## What an ALU row leaves alone (O17) -/

/-- A result changes a processor's registers and predicate bits alone. -/
theorem writeResult_keeps (s : State) (pred : Option Nat) (old : Proc) (dst : Nat) (wmask pmask : Mask) (v : Vec4) (p : Proc) :
    ∃ temps bits, writeResult s pred old dst wmask pmask v p = { p with temps := temps, pred := bits } := by
  simp only [writeResult]
  split <;> exact ⟨_, _, rfl⟩

/-- An ALU row changes a processor's registers, condition bits and results for later copies alone. -/
theorem State.aluProc_keeps (s : State) (c : AluCommon) (rgb : Option RgbHalf) (alpha : Option AlphaHalf) (p : Proc) :
    ∃ temps bits, s.aluProc c rgb alpha p = { p with
      temps := temps, pred := bits, last := s.lastAfter c p rgb alpha, aluResult := p.aluResultAfter s.tick } := by
  have hrgb : ∃ temps bits, (rgb.elim p fun h => s.writeRgb c p alpha h p) = { p with temps := temps, pred := bits } := by
    cases rgb with
    | none => exact ⟨_, _, rfl⟩
    | some h => exact writeResult_keeps ..
  obtain ⟨temps, bits, e⟩ := hrgb
  cases alpha with
  | none => exact ⟨temps, bits, by simp [State.aluProc, e]⟩
  | some h =>
    obtain ⟨temps', bits', e'⟩ := writeResult_keeps s c.pred p (s.regOf h.part.dst) (alphaWmask h.part) (alphaPmask h.part)
      (Quad.all (s.alphaFinal c p rgb h)) { p with temps := temps, pred := bits }
    exact ⟨temps', bits', by simp [State.aluProc, e, State.writeAlpha, e']⟩

/-- The alpha channel of a register stays where no alpha half writes it. -/
theorem State.aluProc_keeps_alpha (s : State) (c : AluCommon) (rgb : Option RgbHalf) {alpha : Option AlphaHalf} (p : Proc)
    {d : Nat} (h : ∀ h, alpha = some h → d ≠ s.regOf h.part.dst ∨ h.part.wa = false) :
    ((s.aluProc c rgb alpha p).temp s.runNo d).get .a = (p.temp s.runNo d).get .a := by
  rw [s.aluProc_temp_alpha]
  cases alpha with
  | none => rfl
  | some q =>
    refine if_neg fun hw => ?_
    obtain hd | hmask := h q rfl
    · exact hd hw.1.symm
    · simp [hmask] at hw

/-- An RGB channel of a register stays where no RGB half writes it. -/
theorem State.aluProc_keeps_rgb (s : State) (c : AluCommon) {rgb : Option RgbHalf} (alpha : Option AlphaHalf) (p : Proc)
    {d : Nat} {ch : Comp} (hch : ch ≠ .a)
    (h : ∀ h, rgb = some h → d ≠ s.regOf h.part.dst ∨ (rgbWmask h.part).get ch = false) :
    ((s.aluProc c rgb alpha p).temp s.runNo d).get ch = (p.temp s.runNo d).get ch := by
  rw [s.aluProc_temp_rgb c _ _ _ _ hch]
  cases rgb with
  | none => rfl
  | some q =>
    refine if_neg fun hw => ?_
    obtain hd | hmask := h q rfl
    · exact hd hw.1.symm
    · simp [hmask] at hw

/-- Settles O17: a register that is no engine's destination keeps each of its components. -/
theorem aluKeepsOtherRegisters : Obligations.AluKeepsOtherRegisters := by
  intro s c rgb alpha p
  obtain ⟨temps, bits, e⟩ := s.aluProc_keeps c rgb alpha p
  refine ⟨fun d hrgb halpha => Quad.eq_of_get fun ch => ?_, fun d h => s.aluProc_keeps_alpha c rgb p h,
    fun d ch hch h => s.aluProc_keeps_rgb c alpha p hch h, fun r => ⟨rfl, rfl, rfl⟩, by rw [e], by rw [e], by rw [e], by rw [e]⟩
  by_cases hch : ch = .a
  · subst hch
    exact s.aluProc_keeps_alpha c rgb p fun h hh => .inl (halpha h hh)
  · exact s.aluProc_keeps_rgb c alpha p hch fun h hh => .inl (hrgb h hh)

/-! ## The cross-engine copy (O18) -/

/-- The RGB result that an alpha copy takes on a channel (R190). -/
def State.rgbSource (s : State) (c : AluCommon) (p : Proc) (rgb : Option RgbHalf) (ch : Comp) : Word :=
  match rgb with
  | none => p.last.get ch
  | some h => if h.op = .copy then p.last.get ch else copied h.part.omod h.part.clamp (s.rgbOwn c p h ch)

theorem State.copySourceRgb_eq (s : State) (c : AluCommon) (p : Proc) (rgb : Option RgbHalf) :
    s.copySourceRgb c p rgb = Config.copyToAlpha (s.rgbSource c p rgb .r) (s.rgbSource c p rgb .g) (s.rgbSource c p rgb .b) := by
  cases rgb with
  | none => rfl
  | some h =>
    simp only [State.copySourceRgb, State.rgbSource]
    split <;> rfl

/-- What an instruction leaves for later copies on an RGB channel. -/
theorem State.lastAfter_rgb (s : State) (c : AluCommon) (p : Proc) (rgb : Option RgbHalf) (alpha : Option AlphaHalf)
    {ch : Comp} (hch : ch ≠ .a) : (s.lastAfter c p rgb alpha).get ch =
      rgb.elim (p.last.get ch) fun h => copied h.part.omod h.part.clamp (s.rgbRaw c p alpha h ch) := by
  cases ch
  case a => exact absurd rfl hch
  all_goals rfl

@[simp] theorem resultPath_disabled (w : Word) : resultPath .disabled false w = w := rfl

@[simp] theorem copied_disabled (w : Word) : copied .disabled false w = w := by simp [copied]

@[simp] theorem enabled_none (p : Proc) : p.enabled none = Quad.all true := rfl

/-- A copy into the RGB engine writes what it takes of the alpha engine. -/
theorem State.aluProc_copyRgb (s : State) (c : AluCommon) (p : Proc) {h : RgbHalf} (alpha : Option AlphaHalf) {ch : Comp}
    (hch : ch ≠ .a) (hop : h.op = .copy) : ((s.aluProc c (some h) alpha p).temp s.runNo (s.regOf h.part.dst)).get ch =
      if (rgbWmask h.part).get ch && (p.enabled c.pred).get ch
      then resultPath h.part.omod h.part.clamp (s.copySourceAlpha c p alpha)
      else (p.temp s.runNo (s.regOf h.part.dst)).get ch := by
  simp [s.aluProc_temp_rgb c _ _ _ _ hch, State.rgbRaw, hop]

/-- A copy into the alpha engine writes what it takes of the RGB engine. -/
theorem State.aluProc_copyAlpha (s : State) (c : AluCommon) (p : Proc) {h : AlphaHalf} (rgb : Option RgbHalf)
    (hop : h.op = .copy) : ((s.aluProc c rgb (some h) p).temp s.runNo (s.regOf h.part.dst)).get .a =
      if h.part.wa && (p.enabled c.pred).get .a then resultPath h.part.omod h.part.clamp (s.copySourceRgb c p rgb)
      else (p.temp s.runNo (s.regOf h.part.dst)).get .a := by
  simp [s.aluProc_temp_alpha, State.alphaRaw, hop]

/-- The results an instruction leaves for later copies. -/
theorem State.aluProc_last (s : State) (c : AluCommon) (rgb : Option RgbHalf) (alpha : Option AlphaHalf) (p : Proc) :
    (s.aluProc c rgb alpha p).last = s.lastAfter c p rgb alpha := rfl

/-- Settles O18: the copy's path is every result's, and what it takes is `copySourceAlpha` or `copySourceRgb`. -/
theorem copyBringsTheOtherEnginesResult : Obligations.CopyBringsTheOtherEnginesResult := by
  refine ⟨fun s c p => ?_, fun s c p hpred => ⟨?_, ?_⟩⟩
  · intro rgbValue alphaValue taken fromAlpha fromRgb scalar
    have hfromAlpha : ∀ alpha, fromAlpha alpha = s.copySourceAlpha c p alpha := fun alpha => by cases alpha <;> rfl
    have hscalar : ∀ rgb, scalar rgb = s.copySourceRgb c p rgb := fun rgb => by
      rw [State.copySourceRgb_eq]
      cases rgb <;> rfl
    simp only [hfromAlpha, hscalar]
    refine ⟨fun h alpha ch hch hop => s.aluProc_copyRgb c p alpha hch hop,
      fun h rgb hop => s.aluProc_copyAlpha c p rgb hop, fun rgb alpha ch hch => ?_, fun rgb alpha => ?_⟩
    · rw [State.aluProc_last, s.lastAfter_rgb c p rgb alpha hch]
      cases rgb <;> rfl
    · cases alpha <;> rfl
  · intro r ch hch homod hclamp hmask
    have hcopy : ∀ alpha, ((s.aluProc c (some ⟨.copy, r⟩) alpha p).temp s.runNo (s.regOf r.dst)).get ch =
        s.copySourceAlpha c p alpha := fun alpha => by
      simp [s.aluProc_copyRgb c p (h := ⟨.copy, r⟩) alpha hch rfl, hpred, homod, hclamp, hmask]
    refine ⟨hcopy none, fun q hop hqomod hqclamp => ⟨?_, ?_⟩⟩
    · simp [hcopy, State.copySourceAlpha, hop, hqomod, hqclamp, State.alphaOwn]
    · simp [State.aluProc_last, State.lastAfter, State.alphaRaw, hop, hqomod, hqclamp, State.alphaOwn]
  · intro r homod hclamp hmask
    have hcopy : ∀ rgb, ((s.aluProc c rgb (some ⟨.copy, r⟩) p).temp s.runNo (s.regOf r.dst)).get .a =
        s.copySourceRgb c p rgb := fun rgb => by
      simp [s.aluProc_copyAlpha c p (h := ⟨.copy, r⟩) rgb rfl, hpred, homod, hclamp, hmask]
    refine ⟨hcopy none, fun q hop hqomod hqclamp => ⟨(hcopy (some q)).trans ?_, fun ch hch => ?_⟩⟩
    · simp [State.copySourceRgb, hop, hqomod, hqclamp, State.rgbOwn]
    · simp [State.aluProc_last, s.lastAfter_rgb c p _ _ hch, State.rgbRaw, hop, hqomod, hqclamp, State.rgbOwn]

/-! ## The whole row (O15) -/

/-- An ALU row that does not hold and touches no owned register: one of two refusals, or its effect on every live processor. -/
theorem exec_alu_free {i : Instr} {c : AluCommon} {rgb : Option RgbHalf} {alpha : Option AlphaHalf} {s : State}
    (hi : aluHalves i = some (rgb, alpha, c)) (hh : s.holds c.wait = false)
    (hown : s.anyLive = true → (s.aluReads c rgb alpha).any s.stream.owned = false ∧
      (s.aluWrites rgb alpha).any s.stream.owned = false) :
    exec i s = if s.constsUnset c rgb alpha then .refused .descriptorNotSet
      else if s.readsRace (s.constReads c rgb alpha) then .refused .outputRace
      else .next ((((s.waited c.wait).onLive (s.aluProc c rgb alpha)).noteReads (s.constReads c rgb alpha)).finishIssue
        false s.stream.seq) := by
  obtain ⟨hreads, hwrites⟩ : (if s.anyLive then s.aluReads c rgb alpha else []).any s.stream.owned = false ∧
      (if s.anyLive then s.aluWrites rgb alpha else []).any s.stream.owned = false := by
    cases hl : s.anyLive with
    | false => exact ⟨rfl, rfl⟩
    | true => exact hown hl
  rw [← s.owned_ready c.wait false] at hreads hwrites
  rw [exec_alu hi, issueAlu, issue_pass (fun h => absurd h Bool.false_ne_true) hh, issueBody]
  simp only [aluEffect, State.anyLive_ready, State.aluReads_ready, State.aluWrites_ready, checkRegs_free hreads hwrites,
    State.constsUnset_ready, State.constReads_ready, State.aluProc_ready, takeReads, State.readsRace_ready]
  cases s.constsUnset c rgb alpha with
  | true => rfl
  | false =>
    cases s.readsRace (s.constReads c rgb alpha) with
    | true => rfl
    | false => simp [State.ready_false]

/-- When the reading of an ALU row's constants races (R320). -/
theorem State.readsRace_constReads_iff {s : State} {c : AluCommon} {rgb : Option RgbHalf} {alpha : Option AlphaHalf} :
    s.readsRace (s.constReads c rgb alpha) = true ↔ ∃ p ∈ s.stream.procs, p.live = true ∧ ∃ n ∈ aluConsts c rgb alpha,
      ∃ a ∈ constAddrs s.ctl.floatConsts n, s.writtenByOther p.xy a = true := by
  simp [State.readsRace, State.constReads]

/-- Settles O15, by the row's three outcomes. -/
theorem aluRowsActOnEveryLiveProcessor : Obligations.AluRowsActOnEveryLiveProcessor := by
  intro i c rgb alpha s hi hh hown
  rw [exec_alu_free hi hh hown]
  refine ⟨fun hunset => by simp [hunset], fun hset hrace => by simp [hset, hrace], fun hset hrace => ?_, fun hnone => ?_, ?_⟩
  · simp only [hset, hrace, Bool.false_eq_true, if_false]
    cases c.wait <;> rfl
  · simp [State.constReads, hnone]
  · simp only [State.readsRace_constReads_iff, State.writtenByOther_iff]

end Sys2Proof.Machine
end

section
/-! PROOF. The component operations and the result path (spec/41_alu_output.md R174 to R181; spec/44_floating_point.md R290 to
R295): the maximum and the selects (O19, O20), the fraction (O21), the output modifier (O22) and the clamp (O23). -/

namespace Sys2Proof.Machine

/-! ## MAX, CND and CMP (O19, O20) -/

theorem floatOrder_lt {a b : Word} (ha : isNaN a = false) (hb : isNaN b = false) (h : floatKey a < floatKey b) :
    floatOrder a b = .lt := by
  simp [floatOrder, ha, hb, h]

theorem floatOrder_gt {a b : Word} (ha : isNaN a = false) (hb : isNaN b = false) (h : floatKey b < floatKey a) :
    floatOrder a b = .gt := by
  simp [floatOrder, ha, hb, h.ne', h.not_gt]

/-- Settles O19: keys are ordered as values are. -/
theorem maxReturnsTheGreater : Obligations.MaxReturnsTheGreater := by
  intro a b ha hb h
  have hkey := floatKey_lt_of_floatScaled_lt h
  exact ⟨by rw [floatMax, floatOrder_lt ha hb hkey], by rw [floatMax, floatOrder_gt hb ha hkey]⟩

/-- A condition selects A always, or B always. -/
theorem select_constant (b : Bool) : (∀ x y : Word, (if b then x else y) = x) ∨ ∀ x y : Word, (if b then x else y) = y := by
  cases b
  · exact .inr fun _ _ => rfl
  · exact .inl fun _ _ => rfl

/-- The order that CMP's choice goes by. -/
def cmpOrder (c : Word) : FloatOrder :=
  if isDenormal c then Config.denormalOrder c else floatOrder c 0

theorem floatCnd_congr {c d : Word} (h : floatOrder c floatHalf = floatOrder d floatHalf) (a b : Word) :
    floatCnd a b c = floatCnd a b d := by
  rw [floatCnd, h, floatCnd]

theorem floatCmp_congr {c d : Word} (h : cmpOrder c = cmpOrder d) (a b : Word) : floatCmp a b c = floatCmp a b d := by
  rw [floatCmp, ← cmpOrder, h, floatCmp, cmpOrder]

/-- CND yields A always, or B always. -/
theorem floatCnd_constant (c : Word) : (∀ a b, floatCnd a b c = a) ∨ ∀ a b, floatCnd a b c = b := select_constant _

/-- CMP yields A always, or B always. -/
theorem floatCmp_constant (c : Word) : (∀ a b, floatCmp a b c = a) ∨ ∀ a b, floatCmp a b c = b := select_constant _

/-- Settles O20: conditions that stand alike select alike. -/
theorem conditionalSelectsDependOnTheConditionOnly : Obligations.ConditionalSelectsDependOnTheConditionOnly := by
  intro c d
  refine ⟨fun h => ?_, fun hc hd h => ?_, floatCmp_constant c, fun hc hd h => ?_⟩
  · simp only [← floatCnd_congr h, and_self]
    exact floatCnd_constant c
  · have horder : cmpOrder c = cmpOrder d := by simpa [cmpOrder, hc, hd] using h
    simp only [← floatCmp_congr horder, and_self]
    exact floatCmp_constant c
  · exact floatCmp_congr (by simp [cmpOrder, hc, hd, h])

/-! ## FRC (O21) -/

/-- The two zeros. -/
def IsZero (w : Word) : Prop :=
  w = 0 ∨ w = floatNegZero

theorem isZero_ite (b : Bool) : IsZero (if b then floatNegZero else 0) := by
  cases b
  · exact .inl rfl
  · exact .inr rfl

theorem not_isNaN_of_exp {w : Word} (h : floatExp w ≠ 255) : isNaN w = false := by simp [isNaN, h]

/-- A pattern with a sign that is not -0 has a positive magnitude. -/
theorem floatMag_pos_of_ne_negZero {w : Word} (hs : w.msb = true) (h : w ≠ floatNegZero) : 0 < floatMag w := by
  by_contra h0
  exact h (eq_of_fields (hs.trans (by decide)) (by rw [show floatMag floatNegZero = 0 by decide]; omega))

theorem floatSize_pos {w : Word} (h : 0 < floatMag w) : 0 < floatSize w :=
  Nat.lt_of_le_of_lt (Nat.zero_le _) (floatSize_lt (v := 0) (by rw [show floatMag 0 = 0 by decide]; exact h))

theorem floatScaled_of_pos {w : Word} (h : w.msb = false) : floatScaled w = floatSize w := by
  simp [floatScaled_eq, h]

/-- A value that is not negative, -0 apart, has no sign. -/
theorem msb_of_floatScaled_nonneg {w : Word} (h : 0 ≤ floatScaled w) (hz : w ≠ floatNegZero) : w.msb = false := by
  by_contra hs
  rw [Bool.not_eq_false] at hs
  have hpos := floatSize_pos (floatMag_pos_of_ne_negZero hs hz)
  rw [floatScaled_eq, if_pos hs] at h
  omega

/-- Between two positive patterns that follow on each other there is no value. -/
theorem no_value_between {v w : Word} (hs : w.msb = false) (hs' : (w + 1).msb = false) :
    ¬(floatScaled w < floatScaled v ∧ floatScaled v < floatScaled (w + 1)) := by
  rintro ⟨hlow, hhigh⟩
  have hsucc : (w + 1).toNat = w.toNat + 1 := by
    rw [BitVec.toNat_add, show (1 : Word).toNat = 1 from rfl]
    rw [msb_eq, decide_eq_false_iff_not] at hs
    omega
  have klow := floatKey_lt_of_floatScaled_lt hlow
  have khigh := floatKey_lt_of_floatScaled_lt hhigh
  have hw := toNat_fields w
  have hw' := toNat_fields (w + 1)
  simp only [floatKey, hs, hs', Bool.false_eq_true, if_false] at klow khigh hw hw'
  cases hv : v.msb <;> simp only [hv, Bool.false_eq_true, if_false, if_true] at klow khigh <;> omega

/-- What rounding n gives: n where that is a single-precision number, else one of its two neighbours. -/
theorem floatRound_isNeighbour {n : Nat} (h : n < 2 ^ 150) (up : Bool) :
    isNeighbour (floatRound up n) n ∧ (floatRound up n).msb = false := by
  obtain ⟨hs, he, hsize⟩ := floatDown_size h
  obtain ⟨hs', he', hsize'⟩ := floatDown_succ_size h
  have hbetween := fun v => no_value_between (v := v) hs hs'
  have hlow : floatSize (floatDown n) ≤ n := hsize ▸ Nat.div_mul_le_self _ _
  have hhigh : n < floatSize (floatDown n + 1) := by
    rw [hsize', Nat.mul_comm]
    exact Nat.lt_mul_div_succ n (Nat.two_pow_pos _)
  simp only [floatScaled_of_pos hs, floatScaled_of_pos hs'] at hbetween
  rw [floatRound]
  split
  · rename_i hround
    have hinexact : floatSize (floatDown n) < n := by
      have hmod := Nat.div_add_mod' n (2 ^ lowestBit n)
      omega
    refine ⟨⟨he'.ne, fun v _ => ?_⟩, hs'⟩
    have hv := hbetween v
    rw [floatScaled_of_pos hs']
    omega
  · refine ⟨⟨he.ne, fun v _ => ?_⟩, hs⟩
    have hv := hbetween v
    rw [floatScaled_of_pos hs]
    omega

/-- A neighbour of a number that is not above the value v is not above v. -/
theorem isNeighbour_le {w v : Word} {r : Int} (h : isNeighbour w r) (hv : floatExp v ≠ 255) (hr : r ≤ floatScaled v) :
    floatScaled w ≤ floatScaled v := by
  by_contra hlt
  exact (h.2 v hv).2 ⟨hr, by omega⟩

/-- FRC of a finite value that is neither -0 nor flushed. -/
theorem floatFrc_finite {a : Word} (he : floatExp a ≠ 255) (hz : a ≠ floatNegZero)
    (hf : (isDenormal a && Config.frcFlushes a) = false) :
    floatFrc a = floatRound (Config.frcRoundsUp a) (floatScaled a % 2 ^ 149).toNat := by
  simp [floatFrc, he, hz, hf]

/-- FRC of -0 or of a denormal that is flushed is a zero. -/
theorem floatFrc_zero {a : Word} (he : floatExp a ≠ 255) (h : a = floatNegZero ∨ (isDenormal a && Config.frcFlushes a) = true) :
    IsZero (floatFrc a) := by
  have hcond : (a == floatNegZero || (isDenormal a && Config.frcFlushes a)) = true := by simpa using h
  rw [floatFrc, if_neg (by simpa using he), if_pos hcond]
  exact isZero_ite _

/-- FRC is exact where the fraction is a single-precision number. -/
theorem floatFrc_exact {a w : Word} (he : floatExp a ≠ 255) (hz : a ≠ floatNegZero)
    (hf : (isDenormal a && Config.frcFlushes a) = false) (hs : w.msb = false)
    (h : floatScaled a % 2 ^ 149 = floatScaled w) : floatFrc a = w := by
  rw [floatFrc_finite he hz hf, h, floatScaled_of_pos hs, Int.toNat_natCast, floatRound_floatSize hs]

/-- FRC of a finite value that is neither -0 nor flushed is next to the fraction, and at most 1. -/
theorem floatFrc_isNeighbour {a : Word} (he : floatExp a ≠ 255) (hz : a ≠ floatNegZero)
    (hf : (isDenormal a && Config.frcFlushes a) = false) :
    isNeighbour (floatFrc a) (floatScaled a % 2 ^ 149) ∧ (floatFrc a).msb = false ∧ floatScaled (floatFrc a) ≤ 2 ^ 149 := by
  have hcast : ((floatScaled a % 2 ^ 149).toNat : Int) = floatScaled a % 2 ^ 149 := by omega
  obtain ⟨hnext, hs⟩ :=
    floatRound_isNeighbour (n := (floatScaled a % 2 ^ 149).toNat) (by omega) (Config.frcRoundsUp a)
  rw [hcast, ← floatFrc_finite he hz hf] at hnext
  rw [← floatFrc_finite he hz hf] at hs
  have hone : floatScaled floatOne = 2 ^ 149 := by decide
  exact ⟨hnext, hs, hone ▸ isNeighbour_le hnext (by decide) (by omega)⟩

theorem isDenormal_iff {w : Word} : isDenormal w = true ↔ floatExp w = 0 ∧ floatFrac w ≠ 0 := by simp [isDenormal]

theorem ne_negZero_of_isDenormal {w : Word} (h : isDenormal w = true) : w ≠ floatNegZero := by
  rintro rfl
  exact absurd h (by decide)

/-- Settles O21: the fraction is rounded to a neighbour, which rounding leaves alone where it is a number already. -/
theorem fractionIsExactWhereRepresentable : Obligations.FractionIsExactWhereRepresentable := by
  refine ⟨fun a he hz => ?_, fun a hd hs => ?_, floatFrc_zero (by decide) (.inl rfl),
    fun a w he hd hz _ _ hwz hlow hhigh ⟨n, hn⟩ => ?_⟩
  · cases hf : isDenormal a && Config.frcFlushes a with
    | false => exact .inl (floatFrc_isNeighbour he hz hf)
    | true => exact .inr ⟨(Bool.and_eq_true_iff.1 hf).1, floatFrc_zero he (.inr hf)⟩
  · obtain ⟨hexp, -⟩ := isDenormal_iff.1 hd
    have he : floatExp a ≠ 255 := by omega
    cases hf : isDenormal a && Config.frcFlushes a with
    | true => exact .inr (floatFrc_zero he (.inr hf))
    | false =>
      have hsize : floatScaled a = floatFrac a := by simp [floatScaled_of_pos hs, floatSize, hexp]
      have hlt := floatFrac_lt a
      exact .inl (floatFrc_exact he (ne_negZero_of_isDenormal hd) hf hs (Int.emod_eq_of_lt (by omega) (by omega)))
  · refine floatFrc_exact he hz (by simp [hd]) (msb_of_floatScaled_nonneg hlow hwz) ?_
    rw [hn, Int.add_mul_emod_self_right, Int.emod_eq_of_lt hlow hhigh]

/-! ## The output modifier (O22) -/

theorem isNaN_iff {w : Word} : isNaN w = true ↔ floatExp w = 255 ∧ floatFrac w ≠ 0 := by simp [isNaN]

theorem isNaN_standardNaN : isNaN standardNaN = true := by
  have hones : ∀ w : Word, floatExp (w ||| 0x7F800000#32) = 255 := fun w => by
    rw [floatExp, BitVec.extractLsb'_or, show BitVec.extractLsb' 23 8 0x7F800000#32 = BitVec.allOnes 8 by decide,
      BitVec.or_allOnes]
    rfl
  have hlow : ∀ w : Word, floatExp (w ||| 1#32) = floatExp w := fun w => by
    rw [floatExp, BitVec.extractLsb'_or, show BitVec.extractLsb' 23 8 1#32 = 0#8 by decide, BitVec.or_zero, floatExp]
  have hfrac : ∀ w : Word, floatFrac (w ||| 1#32) ≠ 0 := fun w => by
    rw [floatFrac, BitVec.extractLsb'_or]
    intro h
    exact absurd (BitVec.or_eq_zero_iff.1 (BitVec.eq_of_toNat_eq h)).2 (by decide)
  rw [isNaN_iff]
  simp only [standardNaN]
  split
  · exact ⟨(hlow _).trans (hones _), hfrac _⟩
  · rename_i hne
    exact ⟨hones _, hne⟩

theorem floatExp_ne_of_finite {w : Word} (hn : isNaN w = false) (hi : isInf w = false) : floatExp w ≠ 255 := by
  intro he
  by_cases hf : floatFrac w = 0
  · simp [isInf, he, hf] at hi
  · simp [isNaN, he, hf] at hn

theorem not_isDenormal_of_isNaN {w : Word} (h : isNaN w = true) : isDenormal w = false := by
  obtain ⟨hexp, -⟩ := isNaN_iff.1 h
  simp [isDenormal, hexp]

theorem not_isNaN_of_isDenormal {w : Word} (h : isDenormal w = true) : isNaN w = false :=
  not_isNaN_of_exp (by rw [(isDenormal_iff.1 h).1]; decide)

theorem flushedZero_isZero (w : Word) : IsZero (flushedZero w) := isZero_ite _

/-- A value that is neither a NaN nor a denormal is standard already. -/
theorem standardize_self {w : Word} (hn : isNaN w = false) (hd : isDenormal w = false) : standardize w = w := by
  simp [standardize, hn, hd]

theorem standardize_nan {w : Word} (h : isNaN w = true) : standardize w = standardNaN := by simp [standardize, h]

theorem standardize_denormal {w : Word} (h : isDenormal w = true) : standardize w = flushedZero w := by
  simp [standardize, h, not_isNaN_of_isDenormal h]

theorem standardize_zero {w : Word} (h : IsZero w) : standardize w = w := by
  obtain rfl | rfl := h <;> exact standardize_self (by decide) (by decide)

/-- What standardizing gives: the standard NaN or no NaN, and no denormal (R181, R293). -/
theorem standardize_standard (w : Word) :
    (standardize w = standardNaN ∨ isNaN (standardize w) = false) ∧ isDenormal (standardize w) = false := by
  cases hn : isNaN w with
  | true =>
    rw [standardize_nan hn]
    exact ⟨.inl rfl, not_isDenormal_of_isNaN isNaN_standardNaN⟩
  | false =>
    cases hd : isDenormal w with
    | true =>
      rw [standardize_denormal hd]
      obtain e | e := flushedZero_isZero w <;> rw [e] <;> exact ⟨.inr (by decide), by decide⟩
    | false =>
      rw [standardize_self hn hd]
      exact ⟨.inr hn, hd⟩

theorem floatDivPow_self {k : Nat} {w : Word} (h : isNaN w = true ∨ isInf w = true ∨ w = 0) : floatDivPow k w = w :=
  if_pos (by simpa [or_assoc] using h)

theorem floatDivPow_negZero (k : Nat) : IsZero (floatDivPow k floatNegZero) := isZero_ite _

theorem floatDivPow_denormal {k : Nat} {w : Word} (hk : k ≠ 0) (h : isDenormal w = true) : floatDivPow k w = flushedZero w := by
  obtain ⟨hexp, hfrac⟩ := isDenormal_iff.1 h
  have hzero : w ≠ 0#32 := by
    rintro rfl
    exact hfrac (by decide)
  have hinf : isInf w = false := by simp [isInf, hexp]
  simp [floatDivPow, not_isNaN_of_isDenormal h, hinf, hzero, ne_negZero_of_isDenormal h, hexp, hk.symm]

/-- Where the quotient is a normal number only the exponent changes (R179). -/
theorem floatDivPow_normal {k : Nat} {w : Word} (hk : k < floatExp w) (he : floatExp w ≠ 255) :
    floatDivPow k w = w - BitVec.ofNat 32 (k * 2 ^ 23) := by
  have hinf : isInf w = false := by simp [isInf, he]
  have hzero : w ≠ 0#32 ∧ w ≠ floatNegZero := by
    constructor <;> rintro rfl <;> exact absurd hk (by simp [floatExp, floatNegZero])
  simp [floatDivPow, not_isNaN_of_exp he, hinf, hzero, hk.ne', hk.not_ge]

/-- Subtracting from the exponent field divides by a power of two. -/
theorem sub_exponent {k : Nat} {w : Word} (hk : k < floatExp w) :
    (w - BitVec.ofNat 32 (k * 2 ^ 23)).msb = w.msb ∧ floatExp (w - BitVec.ofNat 32 (k * 2 ^ 23)) = floatExp w - k ∧
    floatFrac (w - BitVec.ofNat 32 (k * 2 ^ 23)) = floatFrac w := by
  have hlt := w.isLt
  have hx := floatExp_lt w
  have hsub : (w - BitVec.ofNat 32 (k * 2 ^ 23)).toNat = w.toNat - k * 2 ^ 23 := by
    rw [floatExp_eq] at hk
    rw [BitVec.toNat_sub, BitVec.toNat_ofNat]
    omega
  simp only [msb_eq, floatExp_eq, floatFrac_eq, hsub] at hk ⊢
  refine ⟨decide_eq_decide.2 ?_, ?_, ?_⟩ <;> omega

/-- A division by 2^k with a normal quotient is exact, and standardizing keeps that quotient (R179, R181). -/
theorem floatDivPow_exact {k : Nat} {w : Word} (hk : k < floatExp w) (he : floatExp w ≠ 255) :
    floatScaled (standardize (floatDivPow k w)) * 2 ^ k = floatScaled w := by
  obtain ⟨hs, hexp, hfrac⟩ := sub_exponent hk
  rw [← floatDivPow_normal hk he] at hs hexp hfrac
  have hlt := floatExp_lt w
  have hsize : floatSize (floatDivPow k w) * 2 ^ k = floatSize w := by
    rw [floatSize, floatSize, hexp, hfrac, if_neg (by omega), if_neg (by omega), Nat.mul_assoc, ← Nat.pow_add,
      show floatExp w - k - 1 + k = floatExp w - 1 by omega]
  rw [standardize_self (not_isNaN_of_exp (by omega)) (by simp [isDenormal, hexp]; omega), floatScaled_eq, floatScaled_eq, hs,
    ← hsize]
  split <;> push_cast <;> ring

/-- Every setting that enables the output modifier standardizes some value, which for a NaN is that NaN and for a denormal is it
or a zero. -/
theorem omodApply_standardizes {m : Omod} (hm : m ≠ .disabled) (w : Word) : ∃ v, omodApply m w = standardize v ∧
    (isNaN w = true → v = w) ∧ (isDenormal w = true → v = w ∨ IsZero v) := by
  have hdiv : ∀ k, k ≠ 0 → (isNaN w = true → floatDivPow k w = w) ∧
      (isDenormal w = true → floatDivPow k w = w ∨ IsZero (floatDivPow k w)) := fun k hk =>
    ⟨fun h => floatDivPow_self (.inl h), fun h => .inr (floatDivPow_denormal hk h ▸ flushedZero_isZero w)⟩
  cases m with
  | disabled => exact absurd rfl hm
  | div4 => exact ⟨_, rfl, hdiv 2 (by decide)⟩
  | div8 => exact ⟨_, rfl, hdiv 3 (by decide)⟩
  | other n =>
    cases hn : isNaN w with
    | true => exact ⟨w, by simp [omodApply, hn, standardize_nan], fun _ => rfl, fun _ => .inl rfl⟩
    | false =>
      cases hd : isDenormal w with
      | true => exact ⟨w, by simp [omodApply, hn, hd, standardize_denormal], fun _ => rfl, fun _ => .inl rfl⟩
      | false => exact ⟨Config.omodOther n w, by simp [omodApply, hn, hd], nofun, nofun⟩

theorem standardize_of_isInf {w : Word} (h : isInf w = true) : standardize w = w := by
  have hinf : floatExp w = 255 ∧ floatFrac w = 0 := by simpa [isInf] using h
  exact standardize_self (by simp [isNaN, hinf]) (by simp [isDenormal, hinf])

/-- Settles O22: both divisions standardize `floatDivPow`, and every enabled setting standardizes. -/
theorem outputModifierDividesAndStandardizes : Obligations.OutputModifierDividesAndStandardizes := by
  refine ⟨fun w hn hi => ?_, fun w m hm => ?_, fun w => rfl, fun m w hm => ?_⟩
  · have he := floatExp_ne_of_finite hn hi
    exact ⟨fun hk => floatDivPow_exact hk he, fun hk => floatDivPow_exact hk he⟩
  · have hdiv : ∃ k, ∀ w, omodApply m w = standardize (floatDivPow k w) := by
      simp only [List.mem_cons, List.not_mem_nil, or_false] at hm
      obtain rfl | rfl := hm
      exacts [⟨2, fun _ => rfl⟩, ⟨3, fun _ => rfl⟩]
    obtain ⟨k, hdiv⟩ := hdiv
    refine ⟨fun h => ?_, ?_, ?_⟩
    · rw [hdiv, floatDivPow_self (.inr (.inl h)), standardize_of_isInf h]
    · rintro rfl
      rw [hdiv, floatDivPow_self (.inr (.inr rfl)), standardize_zero (.inl rfl)]
    · rintro rfl
      rw [hdiv, standardize_zero (floatDivPow_negZero k)]
      exact floatDivPow_negZero k
  · obtain ⟨v, e, hnan, hden⟩ := omodApply_standardizes hm w
    obtain ⟨hstd, hnd⟩ := standardize_standard v
    rw [e]
    refine ⟨fun h => ?_, fun h => ?_, hstd, hnd, isNaN_standardNaN⟩
    · rw [hnan h, standardize_nan h]
    · obtain rfl | hz := hden h
      · rw [standardize_denormal h]
        exact flushedZero_isZero _
      · rw [standardize_zero hz]
        exact hz

/-! ## The clamp (O23) -/

theorem floatKey_floatOne : floatKey floatOne = 0x3F800000 := by decide

theorem floatKey_of_neg {w : Word} (h : w.msb = true) : floatKey w = -(floatMag w : Int) := if_pos h

theorem floatKey_of_pos {w : Word} (h : w.msb = false) : floatKey w = floatMag w := by simp [floatKey, h]

theorem msb_of_floatKey_neg {w : Word} (h : floatKey w < 0) : w.msb = true := by
  cases hs : w.msb with
  | true => rfl
  | false =>
    rw [floatKey_of_pos hs] at h
    omega

theorem msb_of_floatKey_pos {w : Word} (h : 0 < floatKey w) : w.msb = false := by
  cases hs : w.msb with
  | false => rfl
  | true =>
    rw [floatKey_of_neg hs] at h
    omega

theorem floatKey_of_isZero {w : Word} (h : IsZero w) : floatKey w = 0 := by
  obtain rfl | rfl := h <;> decide

/-- What has a sign is clamped to a zero. -/
theorem clampApply_neg {w : Word} (hn : isNaN w = false) (hs : w.msb = true) : IsZero (clampApply w) := by
  simp only [clampApply, hn, hs, Bool.false_eq_true, if_false, if_true, Bool.true_and]
  split
  · exact isZero_ite _
  · exact .inl rfl

theorem clampApply_pos {w : Word} (hn : isNaN w = false) (hs : w.msb = false) :
    clampApply w = if isDenormal w && Config.clampFlushes w then (if Config.clampZeroNegative w then floatNegZero else 0)
      else if floatKey floatOne < floatKey w then floatOne else w := by
  simp [clampApply, hn, hs]

/-- What lies above 1 is clamped to 1. -/
theorem clampApply_above {w : Word} (hn : isNaN w = false) (h : floatKey floatOne < floatKey w) : clampApply w = floatOne := by
  have hs : w.msb = false := msb_of_floatKey_pos (lt_trans (by decide) h)
  have hd : isDenormal w = false := by
    by_contra hd
    rw [Bool.not_eq_false] at hd
    obtain ⟨hexp, -⟩ := isDenormal_iff.1 hd
    rw [floatKey_floatOne, floatKey_of_pos hs, floatMag_fields, hexp] at h
    have hlt := floatFrac_lt w
    omega
  rw [clampApply_pos hn hs, hd, Bool.false_and, if_neg Bool.false_ne_true, if_pos h]

/-- What lies in the range stays, or is a denormal that is flushed. -/
theorem clampApply_within {w : Word} (hn : isNaN w = false) (hs : w.msb = false) (h : floatKey w ≤ floatKey floatOne) :
    clampApply w = w ∨ isDenormal w = true ∧ IsZero (clampApply w) := by
  rw [clampApply_pos hn hs]
  split
  · rename_i hflush
    exact .inr ⟨(Bool.and_eq_true_iff.1 hflush).1, isZero_ite _⟩
  · exact .inl (if_neg h.not_gt)

/-- What the clamp gives lies between 0 and 1 (R180). -/
theorem floatKey_clampApply {w : Word} (hn : isNaN w = false) :
    0 ≤ floatKey (clampApply w) ∧ floatKey (clampApply w) ≤ floatKey floatOne := by
  have hzero : ∀ v, IsZero v → 0 ≤ floatKey v ∧ floatKey v ≤ floatKey floatOne := fun v hv => by
    rw [floatKey_of_isZero hv, floatKey_floatOne]
    decide
  cases hs : w.msb with
  | true => exact hzero _ (clampApply_neg hn hs)
  | false =>
    by_cases h : floatKey w ≤ floatKey floatOne
    · obtain e | ⟨-, hz⟩ := clampApply_within hn hs h
      · rw [e]
        exact ⟨by rw [floatKey_of_pos hs]; omega, h⟩
      · exact hzero _ hz
    · rw [clampApply_above hn (not_le.1 h), floatKey_floatOne]
      decide

/-- Settles O23, by where the value lies. -/
theorem clampBringsIntoRange : Obligations.ClampBringsIntoRange := by
  refine fun m w => ⟨rfl, fun hn => ⟨floatKey_clampApply hn, fun hd hz hlow hhigh => ?_, fun h => ?_, clampApply_above hn⟩⟩
  · have hs : w.msb = false := by
      by_contra hs
      rw [Bool.not_eq_false] at hs
      have hpos := floatMag_pos_of_ne_negZero hs hz
      rw [floatKey_of_neg hs] at hlow
      omega
    exact (clampApply_within hn hs hhigh).resolve_right fun h => by simp [hd] at h
  · exact clampApply_neg hn (msb_of_floatKey_neg h)

end Sys2Proof.Machine
end

section
/-! PROOF. The frame of an OUTPUT of any number of processors (spec/41_alu_output.md R182, R188; spec/42_texture.md R231). -/

namespace Sys2Proof.Machine

/-! ## What an OUTPUT leaves alone (O27) -/

/-- What the tests of an OUTPUT's live processors record as read: nothing where the CO has no buffer to look at. -/
theorem sendOutputs_reads {o : OutputFields} {s t : State} {ls : List Lane} (h : s.sendOutputs o = .ok (t, ls)) :
    ∃ rs, t.reads = s.reads ++ rs ∧ (s.ctl.cond = .never ∨ s.ctl.condBuf = none → rs = []) ∧
      ∀ r ∈ rs, ∃ p ∈ s.stream.procs, p.live = true ∧ r ∈ s.testReads p := by
  obtain ⟨⟨rs, e, hnone⟩, -⟩ := sendOutputs_ok h
  have hreads : t.reads = s.reads ++ rs := congrArg State.reads e
  refine ⟨rs, hreads, hnone, fun r hr => ?_⟩
  simp only [State.sendOutputs] at h
  split at h
  · cases h
  · rename_i bs u hu
    obtain ⟨qs, etests, hqs⟩ := testAll_reads hu
    have eall : t.reads = u.reads := by rw [(outputAll_ok h).1]
    have hsame : rs = qs := List.append_cancel_left (hreads.symm.trans (eall.trans etests))
    obtain ⟨p, hp, hrp⟩ := hqs r (hsame ▸ hr)
    exact ⟨p, (List.mem_filter.1 hp).1, (List.mem_filter.1 hp).2, hrp⟩

/-- An OUTPUT changes memory nowhere but in the cells of its live processors' requests, and nowhere if it is uncached. -/
theorem sendOutputs_mem {o : OutputFields} {s t : State} {ls : List Lane} (h : s.sendOutputs o = .ok (t, ls)) :
    (o.uncached = true → t.mem = s.mem) ∧
    ∀ a, (∀ p ∈ s.stream.procs, p.live = true → ∀ d, s.outDesc o.out = some d →
        ∀ c ∈ outCells d p.xy (s.outVals o p), c.1 ≠ a) → Memory.read t.mem a = Memory.read s.mem a := by
  obtain ⟨-, hmem, hlanes⟩ := sendOutputs_ok h
  refine ⟨fun hu => by rw [hmem, if_pos hu], fun a ha => ?_⟩
  rw [hmem]
  split
  · rfl
  · refine Memory.read_writeAll_of_not_mem fun c hc => ?_
    obtain ⟨l, hl, hcl⟩ := List.mem_flatMap.1 hc
    obtain ⟨p, hp, hlive, hnil | ⟨d, hd, e⟩⟩ := hlanes l hl
    · rw [hnil] at hcl
      cases hcl
    · exact ha p hp hlive d hd c (e ▸ hcl)

/-- Settles O27: it holds, which changes nothing, or sends the outputs from the ready state and closes. -/
theorem outputKeepsAllButItsCells : Obligations.OutputKeepsAllButItsCells := by
  intro o s t h
  obtain rfl | ⟨-, v, lanes, hsend, rfl⟩ := output_next h
  · exact ⟨rfl, rfl, rfl, rfl, rfl, rfl, rfl, rfl, rfl, ⟨[], by simp, fun _ => rfl, nofun⟩, rfl, rfl, fun _ => rfl,
      fun _ _ => rfl⟩
  · obtain ⟨⟨rs, e, -⟩, -⟩ := sendOutputs_ok hsend
    have hreads := sendOutputs_reads hsend
    have hmem := sendOutputs_mem hsend
    simp only [State.ready_reads, State.ready_ctl, State.ready_procs, State.testReads_ready] at hreads
    simp only [State.ready_mem, State.ready_procs, State.outDesc_ready, State.outVals_ready] at hmem
    obtain ⟨huncached, hcells⟩ := hmem
    rw [State.ready_eq] at e
    refine ⟨?_, ?_, ?_, ?_, ?_, ?_, ?_, ?_, ?_, hreads, ?_, ?_, huncached, hcells⟩
    all_goals rw [e]; rfl

end Sys2Proof.Machine
end

section
/-! PROOF. The texture unit's discipline: outstanding operations, the semaphore and owned registers (spec/42_texture.md R212,
R223, R229). -/

namespace Sys2Proof.Machine

/-! ## What every step keeps (O52) -/

/-- What the texture unit may rely on in one stream. -/
def Stream.semOk (st : Stream) : Prop :=
  st.seqOrdered ∧ st.semKnown ∧ st.ownersDistinct

theorem State.semInv_iff {s : State} : s.SemInv ↔ s.stream.semOk ∧ ∀ st ∈ s.others, st.semOk :=
  List.forall_mem_cons

/-- The discipline depends on the stream in front and on the other streams. -/
theorem State.semInv_of_stream {s t : State} (h : s.SemInv) (hf : s.stream.semOk → t.stream.semOk) (ho : t.others = s.others) :
    t.SemInv := by
  rw [State.semInv_iff] at h ⊢
  exact ⟨hf h.1, ho ▸ h.2⟩

/-- A stream keeps the discipline while its operations are performed, its numbers rise and its semaphore is freed or acquired
under a number it has issued. -/
theorem Stream.semOk.weaken {st st' : Stream} (h : st.semOk) (hpend : st'.pending.Sublist st.pending)
    (hseq : st.seq ≤ st'.seq) (hsem : ∀ k, st'.sem = .held k → st.sem = .held k ∨ k ≤ st'.seq) : st'.semOk := by
  obtain ⟨⟨hord, hle⟩, hknown, hown⟩ := h
  refine ⟨⟨hord.sublist (hpend.map _), fun e he => (hle e (hpend.subset he)).trans hseq⟩, fun k hk => ?_,
    hown.sublist ((hpend.filter _).map _)⟩
  obtain hold | hnew := hsem k hk
  · exact (hknown k hold).trans hseq
  · exact hnew

/-- An operation under the next number, with a destination that nothing owns, may become outstanding. -/
theorem Stream.semOk.append {st st' : Stream} {e : Pend} (h : st.semOk) (hpend : st'.pending = st.pending ++ [e])
    (hnum : e.seq = st.seq + 1) (hseq : st'.seq = st.seq + 1)
    (hsem : ∀ k, st'.sem = .held k → st.sem = .held k ∨ k ≤ st'.seq)
    (hfree : e.isLookup = true → st.owned e.dst = false) : st'.semOk := by
  obtain ⟨⟨hord, hle⟩, hknown, hown⟩ := h
  refine ⟨⟨?_, fun x hx => ?_⟩, fun k hk => ?_, ?_⟩
  · rw [hpend, List.map_append, List.pairwise_append]
    refine ⟨hord, List.pairwise_singleton _ _, fun a ha b hb => ?_⟩
    obtain ⟨x, hx, rfl⟩ := List.mem_map.1 ha
    have := hle x hx
    rw [List.mem_singleton.1 hb]
    omega
  · rw [hpend] at hx
    rcases List.mem_append.1 hx with hx | hx
    · have := hle x hx
      omega
    · rw [List.mem_singleton.1 hx]
      omega
  · obtain hold | hnew := hsem k hk
    · have := hknown k hold
      omega
    · exact hnew
  · rw [Stream.ownersDistinct, hpend, List.filter_append, List.map_append]
    cases hl : e.isLookup with
    | false => simpa [hl, Stream.ownersDistinct] using hown
    | true =>
      have hno : ∀ x ∈ st.pending, x.isLookup = true → x.dst ≠ e.dst := by simpa [Stream.owned] using hfree hl
      refine List.nodup_append.2 ⟨hown, by simp [hl], fun a ha b hb => ?_⟩
      obtain ⟨x, hx, rfl⟩ := List.mem_map.1 ha
      obtain ⟨hxp, hxl⟩ := List.mem_filter.1 hx
      obtain rfl : b = e.dst := by simpa [hl] using hb
      exact hno x hxp hxl

/-- An uncached OUTPUT is outstanding as a write, which owns no register. -/
theorem State.closeOutput_uncached {o : OutputFields} (hu : o.uncached = true) (s : State) (k : Nat) (ls : List Lane) :
    ∃ e : Pend, (s.closeOutput o k ls).stream.pending = s.stream.pending ++ [e] ∧ e.seq = k ∧ e.isLookup = false :=
  ⟨_, by simp [State.closeOutput, hu]; rfl, rfl, rfl⟩

/-- The semaphore after steps 4 and 5 of R212 is as it was, or held under the number given. -/
theorem State.finishIssue_sem_held {s : State} {a : Bool} {n k : Nat} (h : (s.finishIssue a n).stream.sem = .held k) :
    s.stream.sem = .held k ∨ k = n := by
  cases a with
  | false => exact .inl h
  | true => cases h; exact .inr rfl

/-- An instruction of the array keeps the discipline of its stream. -/
theorem DppNext.semOk {i : Instr} {s u : State} (h : DppNext s i u) (hs : s.stream.semOk) : u.stream.semOk := by
  cases h with
  | held => exact hs
  | texNop t =>
    have hseq : (s.ready t.wait true).stream.seq = s.stream.seq + 1 := s.ready_seq _ _
    refine hs.weaken (by simp) (by simp [hseq]) fun k hk => ?_
    exact (State.finishIssue_sem_held hk).imp (by simp) (by simp [hseq]; omega)
  | texPend i e acquire hnum hcells hfree =>
    have hseq : (s.ready i.semWait true).stream.seq = s.stream.seq + 1 := s.ready_seq _ _
    refine hs.append (by simp) hnum (by simp [hseq]) (fun k hk => ?_) hfree
    exact (State.finishIssue_sem_held hk).imp (by simp) (by simp [hseq]; omega)
  | alu i rgb alpha c => exact hs.weaken (by simp) (by simp) fun k hk => .inl (by simpa using hk)
  | output o v lanes hsend =>
    have hstream := (sendOutputs_stream hsend).1
    have hseq := s.ready_seq o.wait o.uncached
    cases hu : o.uncached with
    | false =>
      rw [hu] at hseq hstream
      exact hs.weaken (by simp [State.closeOutput, hu, hstream]) (by simp [State.closeOutput, hstream, hseq]) fun k hk =>
        .inl (by simpa [State.closeOutput, hstream] using hk)
    | true =>
      rw [hu] at hseq hstream
      obtain ⟨e, hpend, hnum, hkind⟩ := v.closeOutput_uncached hu (s.ready o.wait true).stream.seq lanes
      refine hs.append (e := e) (by simp [hpend, hstream]) (hnum.trans hseq) (by simp [State.closeOutput, hstream, hseq])
        (fun k hk => ?_) (by simp [hkind])
      exact (State.finishIssue_sem_held hk).imp (by simp [State.closeOutput, hstream])
        (by simp [State.closeOutput, hstream]; omega)
  | flow i f taken loops rs =>
    rw [State.branched_waited]
    exact hs.weaken (List.Sublist.refl _) le_rfl fun k hk => .inl hk

theorem exec_semInv {i : Instr} {s u : State} (hs : s.SemInv) (h : exec i s = .next u) : u.SemInv := by
  cases hd : i.isDpp with
  | true =>
    have hn := exec_dppNext hd h
    exact State.semInv_of_stream hs hn.semOk (by rw [hn.frame.1])
  | false =>
    rw [exec_command_frame hd h]
    exact hs

/-- Of the stream, performing an operation changes the processors and what is outstanding alone. -/
theorem State.performAt_stream (s : State) (n : Nat) : (s.performAt n).stream = { s.stream with
    procs := (s.performAt n).stream.procs, pending := s.stream.pending.eraseIdx n } := by
  simp only [State.performAt]
  split
  · rename_i hn
    rw [List.eraseIdx_of_length_le (List.getElem?_eq_none_iff.1 hn)]
  · simp only [State.performElem]
    split <;> rfl

theorem State.performAt_sem (s : State) (n : Nat) : (s.performAt n).stream.sem = s.stream.sem := by
  rw [s.performAt_stream n]

theorem State.performAt_semOk {s : State} (n : Nat) (h : s.stream.semOk) : (s.performAt n).stream.semOk := by
  rw [s.performAt_stream n]
  exact h.weaken (List.eraseIdx_sublist _ _) le_rfl fun k hk => .inl hk

/-- A launched stream has nothing outstanding and its semaphore free. -/
theorem State.launchGroup_semInv {s : State} (h : s.SemInv) : s.launchGroup.SemInv := by
  refine State.semInv_iff.2 ⟨⟨⟨.nil, nofun⟩, nofun, .nil⟩, fun st hst => h st ?_⟩
  rw [State.launchGroup_others] at hst
  split at hst
  · exact hst
  · cases hst

theorem AgentNext.semInv {s u : State} (hs : s.SemInv) (h : AgentNext s u) : u.SemInv := by
  have hturn : s.turn.SemInv := turn_forall.2 hs
  cases h with
  | launch => exact State.launchGroup_semInv hs
  | retire => exact fun st hst => hturn st (s.turn.retire_streams_subset hst)
  | stay => exact hturn
  | issue i u h => exact State.semInv_of_stream hturn h.semOk (by rw [h.frame.1])
  | perform n => exact State.semInv_of_stream hturn (State.performAt_semOk n) (by rw [s.turn.performAt_frame n])
  | release => exact State.semInv_of_stream hturn (fun h => h.weaken (List.Sublist.refl _) le_rfl nofun) rfl
  | takeBuffer =>
    rw [s.takeBuffer_frame]
    exact hs
  | consumeBuffer id => exact hs
  | row i v words h => exact exec_semInv (u := v) hs h
  | extra x words => cases x <;> exact hs

/-- Settles O52: every agent's turn keeps the discipline, and the tick does not touch the streams. -/
theorem stepsKeepSemaphoreDiscipline : Obligations.StepsKeepSemaphoreDiscipline := by
  intro s t hs h
  obtain ⟨u, hu, rfl⟩ := step_agentNext h
  have hnext : u.SemInv := hu.semInv hs
  exact hnext

end Sys2Proof.Machine
end

section
/-! PROOF. What the texture instructions do when they issue (spec/42_texture.md R212 to R217), and the registers that
outstanding lookups own (R229; spec/60_exceptions.md R313). -/

namespace Sys2Proof.Machine

/-! ## Register faults -/

/-- A register that is read and owned faults first (R229). -/
theorem checkRegs_read {s : State} {rs ws : List Nat} {k : Result} (h : rs.any s.stream.owned = true) :
    checkRegs s rs ws k = .fault .ownedRegisterRead := by
  simp [checkRegs, h]

/-- A register that is written and owned faults where none that is read does. -/
theorem checkRegs_write {s : State} {rs ws : List Nat} {k : Result} (hr : rs.any s.stream.owned = false)
    (hw : ws.any s.stream.owned = true) : checkRegs s rs ws k = .fault .ownedRegisterWrite := by
  simp [checkRegs, hr, hw]

/-- An instruction that does not hold faults as its effect does. -/
theorem issue_fault {s : State} {w a q : Bool} {e : State → Nat → Result} {f : Fault} (hw : a = true → w = true)
    (hh : s.holds w = false) (he : ∀ k, e (s.ready w q) k = .fault f) : issue w a q s e = .fault f := by
  simp [issue_pass hw hh, issueBody, he]

/-- An instruction that does not hold is refused as its effect is. -/
theorem issue_refused {s : State} {w a q : Bool} {e : State → Nat → Result} {r : Refusal} (hw : a = true → w = true)
    (hh : s.holds w = false) (he : ∀ k, e (s.ready w q) k = .refused r) : issue w a q s e = .refused r := by
  simp [issue_pass hw hh, issueBody, he]

/-- An instruction that does not hold and whose effect answers moves on. -/
theorem issue_done {s u : State} {w a q : Bool} {e : State → Nat → Result} (hw : a = true → w = true)
    (hh : s.holds w = false) (he : e (s.ready w q) (s.ready w q).stream.seq = .next u) :
    issue w a q s e = .next (u.finishIssue a (s.ready w q).stream.seq) := by
  simp [issue_pass hw hh, issueBody, he]

/-- The registers an instruction reads for its live processors, where none of them is owned. -/
theorem State.readBy_free {s : State} {d : Nat} (h : s.anyLive = true → s.stream.owned d = false) :
    (s.readBy [d]).any s.stream.owned = false := by
  cases hl : s.anyLive with
  | false => simp [State.readBy, hl]
  | true => simpa [State.readBy, hl] using h hl

@[simp] theorem State.readBy_ready (s : State) (w q : Bool) (rs : List Nat) : (s.ready w q).readBy rs = s.readBy rs := by
  simp [State.readBy]

/-! ## NOP (O1) -/

/-- Settles O1: the effect is nothing, so what is left is the number, the semaphore and the pc. -/
theorem texNopOnlyTakesANumberAndTheSemaphore : Obligations.TexNopOnlyTakesANumberAndTheSemaphore := by
  intro t s hw hh
  have hexec : exec (.texNop t) s = .next ((s.ready t.wait true).finishIssue t.acquire (s.ready t.wait true).stream.seq) :=
    issue_done hw hh rfl
  refine ⟨?_, fun ha u hu => ?_⟩
  · rw [hexec]
    cases t.wait <;> rfl
  · rw [hexec] at hu
    cases hu
    simp [State.releasable, Stream.releasable, ha, State.ready_seq]

/-! ## Lookups (O2) -/

section
variable {t : TexFields} {s : State} (hw : t.acquire = true → t.wait = true) (hh : s.holds t.wait = false)
include hw hh

/-- A lookup of a descriptor that no command has set is refused. -/
theorem issue_lookup_unset {o : LookupOp} (hsrc : s.anyLive = true → s.stream.owned (s.regOf t.src) = false)
    (hdst : s.stream.owned (s.regOf t.dst) = false) (hunset : s.inputUnset t.sampler = true) :
    issue t.wait t.acquire true s (lookupEffect o t) = .refused .descriptorNotSet := by
  refine issue_refused hw hh fun k => ?_
  rw [lookupEffect, checkRegs_free (by simpa using State.readBy_free hsrc) (by simpa using hdst)]
  simp [hunset]

/-- A lookup of a descriptor that is set becomes outstanding. -/
theorem issue_lookup_set {o : LookupOp} (hsrc : s.anyLive = true → s.stream.owned (s.regOf t.src) = false)
    (hdst : s.stream.owned (s.regOf t.dst) = false) (hset : s.inputUnset t.sampler = false) :
    issue t.wait t.acquire true s (lookupEffect o t) = .next (((s.ready t.wait true).addPending
      (lookupPend o t (s.ready t.wait true) (s.ready t.wait true).stream.seq)).finishIssue t.acquire
        (s.ready t.wait true).stream.seq) := by
  refine issue_done hw hh ?_
  rw [lookupEffect, checkRegs_free (by simpa using State.readBy_free hsrc) (by simpa using hdst)]
  simp [hset]

/-- A kill becomes outstanding. -/
theorem issue_kill (hsrc : s.anyLive = true → s.stream.owned (s.regOf t.src) = false) :
    exec (.texKillLtZero t) s = .next (((s.ready t.wait true).addPending
      (killPend t (s.ready t.wait true) (s.ready t.wait true).stream.seq)).finishIssue t.acquire
        (s.ready t.wait true).stream.seq) := by
  refine issue_done hw hh ?_
  rw [killEffect, checkRegs_free (by simpa using State.readBy_free hsrc) List.any_nil]

end

/-- The three lookups differ in the operation they record alone. -/
theorem exec_lookup {t : TexFields} {i : Instr} {o : LookupOp}
    (h : (i, o) ∈ [(Instr.texLookup t, LookupOp.standard), (Instr.texLookupProj t, LookupOp.projected),
      (Instr.texLookupUncached t, LookupOp.uncached)]) (s : State) :
    exec i s = issue t.wait t.acquire true s (lookupEffect o t) := by
  simp only [List.mem_cons, Prod.mk.injEq, List.not_mem_nil, or_false] at h
  obtain ⟨rfl, rfl⟩ | ⟨rfl, rfl⟩ | ⟨rfl, rfl⟩ := h <;> rfl

/-- The register a temporary address names, in the order R24 gives: not relative, relative within NTEMP, or neither. -/
theorem State.regOf_eq (s : State) (a : TempAddr) : s.regOf a =
    if a.rel = false then a.base
    else if 0 ≤ (a.base : Int) + s.stream.loops.aL ∧ (a.base : Int) + s.stream.loops.aL < Config.ntemp
      then ((a.base : Int) + s.stream.loops.aL).toNat
    else Config.relOutside a.base s.stream.loops.aL := by
  cases h : a.rel <;> simp [State.regOf, relReg, h]

/-- Settles O2: the three lookups are one, which is refused or becomes outstanding. -/
theorem lookupsQueueTheirCoordinates : Obligations.LookupsQueueTheirCoordinates := by
  refine ⟨fun sw v ch => Quad.get_ofFn _ ch, State.regOf_eq, fun t s hw hh hsrc hdst i o hi => ?_⟩
  rw [exec_lookup hi]
  refine ⟨issue_lookup_unset hw hh hsrc hdst, fun hset => ?_⟩
  rw [issue_lookup_set hw hh hsrc hdst hset]
  cases t.wait <;> rfl

/-! ## Kills (O3) -/

/-- Settles O3: the kill becomes outstanding, and the ready state differs in the number and the record of the wait alone. -/
theorem killQueuesUnswizzledComponents : Obligations.KillQueuesUnswizzledComponents := by
  intro t s hw hh hsrc
  rw [issue_kill hw hh hsrc]
  cases t.wait <;> rfl

/-! ## Owned registers (O6) -/

section
variable {t : TexFields} {s : State} (hw : t.acquire = true → t.wait = true) (hh : s.holds t.wait = false)
include hw hh

/-- A lookup or a kill whose source is owned faults. -/
theorem exec_tex_ownedRead (hlive : s.anyLive = true) (hsrc : s.stream.owned (s.regOf t.src) = true) :
    ∀ i ∈ [Instr.texLookup t, .texKillLtZero t, .texLookupProj t, .texLookupUncached t],
      exec i s = .fault .ownedRegisterRead := by
  have hread : ((s.ready t.wait true).readBy [(s.ready t.wait true).regOf t.src]).any (s.ready t.wait true).stream.owned =
      true := by simp [State.readBy, hlive, hsrc]
  have hlookup : ∀ o, issue t.wait t.acquire true s (lookupEffect o t) = .fault .ownedRegisterRead := fun o =>
    issue_fault hw hh fun k => checkRegs_read hread
  have hkill : exec (.texKillLtZero t) s = .fault .ownedRegisterRead := issue_fault hw hh fun k => checkRegs_read hread
  simpa using ⟨hlookup .standard, hkill, hlookup .projected, hlookup .uncached⟩

/-- A lookup whose destination is owned faults where its source is not. -/
theorem exec_tex_ownedWrite (hsrc : s.anyLive = true → s.stream.owned (s.regOf t.src) = false)
    (hdst : s.stream.owned (s.regOf t.dst) = true) :
    ∀ i ∈ [Instr.texLookup t, .texLookupProj t, .texLookupUncached t], exec i s = .fault .ownedRegisterWrite := by
  have hlookup : ∀ o, issue t.wait t.acquire true s (lookupEffect o t) = .fault .ownedRegisterWrite := fun o =>
    issue_fault hw hh fun k => checkRegs_write (by simpa using State.readBy_free hsrc) (by simpa using hdst)
  simpa using ⟨hlookup .standard, hlookup .projected, hlookup .uncached⟩

end

/-- Settles O6: each effect checks what it reads, then what it writes, in the ready state, which owns the same registers. -/
theorem ownedRegistersFault : Obligations.OwnedRegistersFault := by
  intro s
  refine ⟨fun t hw hh => ⟨exec_tex_ownedRead hw hh, exec_tex_ownedWrite hw hh⟩,
    fun c rgb alpha i hi hh hlive => ⟨fun hr => ?_, fun hr hwr => ?_⟩, fun o hw hh hlive hr => ?_⟩
  · rw [exec_alu hi]
    exact issue_fault nofun hh fun k => checkRegs_read (by simpa [hlive] using hr)
  · rw [exec_alu hi]
    exact issue_fault nofun hh fun k => checkRegs_write (by simpa [hlive] using hr) (by simpa [hlive] using hwr)
  · exact issue_fault (by simpa using hw) hh fun k => checkRegs_read (by simpa [hlive] using hr)

end Sys2Proof.Machine
end

section
/-! PROOF. Instructions and the semaphore (spec/42_texture.md R222, R223): WAIT holds, and without it nothing that an
instruction does depends on the semaphore. -/

namespace Sys2Proof.Machine

/-! ## Without WAIT (O5) -/

/-- A result with its next state changed. -/
def onNext (g : State → State) : Result → Result
  | .next u => .next (g u)
  | .fault f => .fault f
  | .refused r => .refused r

theorem onNext_ite (g : State → State) {c : Prop} [Decidable c] (x y : Result) :
    onNext g (if c then x else y) = if c then onNext g x else onNext g y :=
  apply_ite (onNext g) c x y

/-- `Blind e`: what e answers does not depend on the semaphore, but for the semaphore of its next state. -/
def Blind (e : State → Result) : Prop :=
  ∀ (s : State) (m : Sem), e (s.withSem m) = onNext (fun u => u.withSem m) (e s)

@[simp] theorem State.withSem_ctl (s : State) (m : Sem) : (s.withSem m).ctl = s.ctl := rfl
@[simp] theorem State.withSem_procs (s : State) (m : Sem) : (s.withSem m).stream.procs = s.stream.procs := rfl
@[simp] theorem State.withSem_loops (s : State) (m : Sem) : (s.withSem m).stream.loops = s.stream.loops := rfl
@[simp] theorem State.withSem_seq (s : State) (m : Sem) : (s.withSem m).stream.seq = s.stream.seq := rfl
@[simp] theorem State.withSem_self (s : State) : s.withSem s.stream.sem = s := rfl
@[simp] theorem State.outVals_withSem (s : State) (m : Sem) : (s.withSem m).outVals = s.outVals := rfl

/-- A register check goes by what is outstanding. -/
theorem checkRegs_withSem {s : State} {m : Sem} {k k' : Result} (rs ws : List Nat)
    (h : k' = onNext (fun u => u.withSem m) k) :
    checkRegs (s.withSem m) rs ws k' = onNext (fun u => u.withSem m) (checkRegs s rs ws k) := by
  simp only [checkRegs, onNext_ite, h]
  rfl

theorem issueBody_blind {a : Bool} {e : State → Nat → Result} (ha : a = false) (he : ∀ k, Blind fun s => e s k) :
    Blind (issueBody a e) := by
  intro s m
  have heffect : e (s.withSem m) s.stream.seq = onNext (fun u => u.withSem m) (e s s.stream.seq) := he _ s m
  simp only [issueBody, State.withSem_seq, heffect, ha]
  cases e s s.stream.seq <;> rfl

/-- An instruction without WAIT is blind to the semaphore if its effect is; with ACQUIRE it faults. -/
theorem issue_blind {w a q : Bool} {e : State → Nat → Result} (hw : w = false) (he : ∀ k, Blind fun s => e s k) :
    Blind fun s => issue w a q s e := by
  subst hw
  intro s m
  cases a with
  | true => rfl
  | false =>
    have hready : (s.withSem m).ready false q = (s.ready false q).withSem m := by cases q <;> rfl
    have hpass : ∀ t, issue false false q t e = issueBody false e (t.ready false q) := fun _ => rfl
    simp only [hpass, hready]
    exact issueBody_blind rfl he _ m

theorem nopEffect_blind (k : Nat) : Blind fun s => nopEffect s k := fun _ _ => rfl

theorem lookupEffect_blind (o : LookupOp) (t : TexFields) (k : Nat) : Blind fun s => lookupEffect o t s k := fun _ _ =>
  checkRegs_withSem _ _ (by rw [onNext_ite]; rfl)

theorem killEffect_blind (t : TexFields) (k : Nat) : Blind fun s => killEffect t s k := fun _ _ =>
  checkRegs_withSem _ _ rfl

theorem aluEffect_blind (c : AluCommon) (rgb : Option RgbHalf) (alpha : Option AlphaHalf) (k : Nat) :
    Blind fun s => aluEffect c rgb alpha s k := fun _ _ =>
  checkRegs_withSem _ _ (by simp only [takeReads, onNext_ite]; rfl)

/-- The CO's test goes by control state, memory, the cache and the records. -/
theorem State.coTest_withSem (s : State) (m : Sem) (o : OutputFields) (xy : IndexPair) (vals : List Masked) :
    (s.withSem m).coTest o xy vals = (s.coTest o xy vals).map fun r => (r.1, r.2.withSem m) := by
  have hread : ∀ base, (s.withSem m).condRead base xy = ((s.condRead base xy).1, (s.condRead base xy).2.withSem m) := by
    intro base
    have hcached : (s.withSem m).condCached base xy = s.condCached base xy := rfl
    have hreads : (s.withSem m).condReads base xy = s.condReads base xy := rfl
    simp only [State.condRead, hcached, hreads]
    cases s.condCached base xy <;> rfl
  simp only [State.coTest, hread, State.withSem_ctl]
  split
  · rfl
  · rw [apply_ite (Except.map _)]
    rfl
  · rw [apply_ite (Except.map _)]
    rfl

theorem testAll_withSem (m : Sem) (o : OutputFields) (ps : List Proc) (s : State) :
    testAll o ps (s.withSem m) = (testAll o ps s).map fun r => (r.1, r.2.withSem m) := by
  induction ps generalizing s with
  | nil => rfl
  | cons p ps ih =>
    simp only [testAll, State.outVals_withSem, State.coTest_withSem]
    cases s.coTest o p.xy (s.outVals o p) with
    | error r => rfl
    | ok r =>
      simp only [Except.map, ih]
      cases testAll o ps r.2 <;> rfl

theorem outputOne_withSem (m : Sem) (o : OutputFields) (p : Proc) (pass : Bool) (s : State) :
    outputOne o p pass (s.withSem m) = (outputOne o p pass s).map fun r => (r.1.withSem m, r.2) := by
  have hrequest : (s.withSem m).outRequest o p.xy (s.outVals o p) pass = s.outRequest o p.xy (s.outVals o p) pass := rfl
  simp only [outputOne, State.outVals_withSem, hrequest]
  cases s.outRequest o p.xy (s.outVals o p) pass <;> rfl

theorem outputAll_withSem (m : Sem) (o : OutputFields) (es : List (Proc × Bool)) (s : State) :
    outputAll o es (s.withSem m) = (outputAll o es s).map fun r => (r.1.withSem m, r.2) := by
  induction es generalizing s with
  | nil => rfl
  | cons e es ih =>
    simp only [outputAll, outputOne_withSem]
    cases outputOne o e.1 e.2 s with
    | error r => rfl
    | ok r =>
      simp only [Except.map, ih]
      cases outputAll o es r.1 <;> rfl

theorem State.sendOutputs_withSem (s : State) (m : Sem) (o : OutputFields) :
    (s.withSem m).sendOutputs o = (s.sendOutputs o).map fun r => (r.1.withSem m, r.2) := by
  simp only [State.sendOutputs, State.withSem_procs, testAll_withSem]
  cases testAll o (s.stream.procs.filter Proc.live) s with
  | error r => rfl
  | ok r => exact outputAll_withSem m o _ r.2

theorem outputEffect_blind (o : OutputFields) (k : Nat) : Blind fun s => outputEffect o s k := fun s m =>
  checkRegs_withSem _ _ (by
    rw [State.sendOutputs_withSem]
    cases s.sendOutputs o <;> rfl)

theorem flowGo_blind (f : Flow) (b : Bool) : Blind (flowGo f b) := fun _ _ => by
  simp only [flowGo, onNext_ite]
  rfl

theorem loopStart_blind (f : Flow) (used : LoopState → Nat) (enter : LoopState → IntConst → LoopState) (c : IntConst) :
    Blind (loopStart f used enter c) := fun s m => by
  simp only [loopStart, onNext_ite, ← flowGo_blind f _ _ m]
  rfl

theorem withIntConst_blind (f : Flow) (k : Nat) {body : IntConst → State → Result} (hb : ∀ c, Blind (body c)) :
    Blind fun s => withIntConst f k s body := fun s m => by
  simp only [withIntConst, onNext_ite, ← hb _ _ m]
  rfl

theorem endloopEffect_blind (f : Flow) : Blind (endloopEffect f) := fun s m => by
  simp only [endloopEffect, State.withSem_loops]
  cases s.stream.loops.loopStack with
  | nil => rfl
  | cons fr rest =>
    simp only [onNext_ite, ← flowGo_blind f _ _ m]
    rfl

theorem endrepEffect_blind (f : Flow) : Blind (endrepEffect f) := fun s m => by
  simp only [endrepEffect, State.withSem_loops]
  cases s.stream.loops.repStack with
  | nil => rfl
  | cons n rest =>
    simp only [onNext_ite, ← flowGo_blind f _ _ m]
    rfl

/-- Effect of CONTINUE, as `execFcContinue` gives it (R262). -/
def continueEffect (f : Flow) (s : State) : Result :=
  flowGo f (s.jumps f) (s.withLoops (continuedLoops s.stream.loops))

theorem exec_fcContinue (f : Flow) (s : State) : exec (.fcContinue f) s = gate f.wait s (continueEffect f) := rfl

theorem continueEffect_blind (f : Flow) : Blind (continueEffect f) := fun s =>
  flowGo_blind f (s.jumps f) (s.withLoops (continuedLoops s.stream.loops))

/-- A flow-control instruction without WAIT goes on from the state as it is. -/
theorem gate_blind {w : Bool} {e : State → Result} (hw : w = false) (he : Blind e) : Blind fun s => gate w s e := by
  subst hw
  exact he

theorem execProgramStart_blind : Blind execProgramStart := fun _ _ => by
  simp only [execProgramStart, onNext_ite]
  rfl

/-- What an instruction without WAIT does is the same under any semaphore, but for the semaphore itself. -/
theorem exec_blind {i : Instr} (hw : i.semWait = false) : Blind (exec i) := by
  cases hi : aluHalves i with
  | some x =>
    obtain ⟨rgb, alpha, c⟩ := x
    rw [funext (exec_alu hi)]
    exact issue_blind (semWait_of_aluHalves hi ▸ hw) (aluEffect_blind c rgb alpha)
  | none =>
    cases i <;> simp only [Instr.semWait, aluHalves, reduceCtorEq] at hw hi
    case aluUnnamed x c => cases x <;> cases hi
    case aluCrossEngineCopy x c => cases x <;> cases hi
    case texNop t => exact issue_blind hw nopEffect_blind
    case texLookup t => exact issue_blind hw (lookupEffect_blind .standard t)
    case texLookupProj t => exact issue_blind hw (lookupEffect_blind .projected t)
    case texLookupUncached t => exact issue_blind hw (lookupEffect_blind .uncached t)
    case texKillLtZero t => exact issue_blind hw (killEffect_blind t)
    case output o => exact issue_blind hw (outputEffect_blind o)
    case fcJump f => exact gate_blind (e := fun t => flowGo f (t.jumps f) t) hw fun s => flowGo_blind f (s.jumps f) s
    case fcLoop f k => exact gate_blind hw (withIntConst_blind f k (loopStart_blind f (fun l => l.loopStack.length) enterLoop))
    case fcRep f k => exact gate_blind hw (withIntConst_blind f k (loopStart_blind f (fun l => l.repStack.length) enterRep))
    case fcEndloop f => exact gate_blind hw (endloopEffect_blind f)
    case fcEndrep f => exact gate_blind hw (endrepEffect_blind f)
    case fcContinue f => exact gate_blind hw (continueEffect_blind f)
    case programStart => exact execProgramStart_blind
    all_goals exact fun _ _ => rfl

/-- An instruction of any type with WAIT does nothing while the semaphore is held. -/
theorem exec_hold {i : Instr} {s : State} {k : Nat} (hw : i.semWait = true) (hk : s.stream.sem = .held k) :
    exec i s = .next s := by
  have hholds : ∀ w, w = true → s.holds w = true := fun w h => by simp [State.holds, h, hk]
  cases hi : aluHalves i with
  | some x =>
    obtain ⟨rgb, alpha, c⟩ := x
    rw [exec_alu hi]
    exact issue_hold (hholds _ (semWait_of_aluHalves hi ▸ hw))
  | none =>
    cases i <;> simp only [Instr.semWait, aluHalves, reduceCtorEq] at hw hi
    case aluUnnamed x c => cases x <;> cases hi
    case aluCrossEngineCopy x c => cases x <;> cases hi
    case fcContinue f => exact (exec_fcContinue f s).trans (gate_hold (hholds _ hw))
    case fcJump | fcLoop | fcRep | fcEndloop | fcEndrep => exact gate_hold (hholds _ hw)
    all_goals exact issue_hold (hholds _ hw)

/-- Settles O5: with WAIT every instruction's gate holds, and without it none looks at the semaphore. -/
theorem waitBitDecidesWhetherToHold : Obligations.WaitBitDecidesWhetherToHold := by
  refine fun i s => ⟨fun k hw hk => exec_hold hw hk, fun m hw => ?_⟩
  rw [exec_blind hw s m]
  cases exec i s <;> rfl

/-! ## ACQUIRE (O4) -/

/-- ACQUIRE without WAIT faults. -/
theorem issue_acquire {w a q : Bool} (s : State) (e : State → Nat → Result) (ha : a = true) (hw : w = false) :
    issue w a q s e = .fault .acquireWithoutWait := by
  simp [issue, ha, hw]

/-- No instruction ends or replaces an acquire: with WAIT it holds, and without it the semaphore is what it was. -/
theorem exec_keeps_held {i : Instr} {s t : State} {k : Nat} (hk : s.stream.sem = .held k) (h : exec i s = .next t) :
    t.stream.sem = .held k := by
  cases hw : i.semWait with
  | true =>
    rw [exec_hold hw hk] at h
    cases h
    exact hk
  | false =>
    have hsame := exec_blind hw s s.stream.sem
    rw [State.withSem_self, h] at hsame
    have ht : t = t.withSem s.stream.sem := by simpa [onNext] using hsame
    rw [ht, ← hk]
    rfl

/-- Settles O4: the fault by the common issue procedure, the rest by `exec_keeps_held`. -/
theorem acquireRequiresWait : Obligations.AcquireRequiresWait := by
  refine fun s => ⟨fun t ha hw => ?_, fun o ha hu hw => issue_acquire s _ (by simp [ha, hu]) hw, fun i t k => exec_keeps_held⟩
  have hfault : ∀ e, issue t.wait t.acquire true s e = .fault .acquireWithoutWait := fun e => issue_acquire s e ha hw
  simpa using ⟨hfault nopEffect, hfault (lookupEffect .standard t), hfault (killEffect t),
    hfault (lookupEffect .projected t), hfault (lookupEffect .uncached t)⟩

end Sys2Proof.Machine
end

section
/-! PROOF. What performing an outstanding operation does (spec/42_texture.md R214, R215, R219, R231 to R234). -/

namespace Sys2Proof.Machine

/-! ## Performing -/

/-- Performing the operation at a place of the list. -/
theorem State.performAt_eq {s : State} {n : Nat} {e : Pend} (he : s.stream.pending[n]? = some e) :
    s.performAt n = (s.performElem e).dropPending n := by
  simp [State.performAt, he]

/-- The step Perform is refused where its operation races. -/
theorem State.doMove_perform {s : State} {n : Nat} {e : Pend} (he : s.stream.pending[n]? = some e) :
    s.doMove (.perform n) = if s.races e then .refused .outputRace else .next (s.performAt n) := by
  simp [State.doMove, State.performStep, he]

/-- Performing an operation that is no lookup is never refused. -/
theorem State.doMove_perform_unrefused {s : State} {n : Nat} {e : Pend} (he : s.stream.pending[n]? = some e)
    (h : e.isLookup = false) : s.doMove (.perform n) = .next (s.performAt n) := by
  have hraces : s.races e = false := by
    simp only [Pend.isLookup] at h
    simp only [State.races]
    split <;> simp_all
  simp [State.doMove_perform he, hraces]

theorem State.races_lookup {s : State} {e : Pend} {o : LookupOp} (ho : e.op = .lookup o) :
    s.races e = s.readsRace (s.lookupReads o e) := by
  simp [State.races, ho]

/-! ## Lookups (O7) -/

/-- When a lookup would read what other instances of the run wrote (R320). -/
theorem State.races_iff {s : State} {e : Pend} {o : LookupOp} (ho : e.op = .lookup o) :
    s.races e = true ↔ ∃ l ∈ e.lanes, ∃ a ∈ s.lookupAddrs o e l, s.writtenByOther l.xy a = true := by
  simp [State.races_lookup ho, State.readsRace, State.lookupReads]

/-- An element takes 16 bytes at most (R63). -/
theorem elemSize_le (f : DataFormat) : elemSize f ≤ 16 := by
  cases f <;> decide

/-- Above a 2K-aligned base there is room for an element. -/
theorem baseAligned_le {b : Word} (h : baseAligned b) : b.toNat + 2048 ≤ 2 ^ 32 := by
  have hmod : b.toNat % 2048 = 0 := by
    have := congrArg BitVec.toNat h
    simpa [BitVec.extractLsb'_toNat] using this
  have := b.isLt
  omega

theorem elemSize_le_bufferBytes (d : Desc) : elemSize d.layout.format ≤ bufferBytes d :=
  Nat.le_add_right _ _

/-- A buffer at an aligned base ends within the address space. -/
theorem bufferBytes_le {d : Desc} (h : baseAligned d.base) : d.base.toNat + bufferBytes d ≤ 2 ^ 32 := by
  have hbase := baseAligned_le h
  have helem := elemSize_le d.layout.format
  have hslack := Nat.mod_lt (Config.bufferSlack d) (y := 2 ^ 32 - d.base.toNat - elemSize d.layout.format + 1) (by omega)
  simp only [bufferBytes]
  omega

/-- The bytes of an element inside its buffer (R232 b). -/
theorem elemPlace_lt (d : Desc) (n : Nat) {j : Nat} (hj : j < elemSize d.layout.format) :
    elemPlace d n + j < bufferBytes d := by
  have := Nat.mod_lt n (y := bufferBytes d - elemSize d.layout.format + 1) (by omega)
  have := elemSize_le_bufferBytes d
  simp only [elemPlace]
  omega

/-- The byte address at an offset inside a buffer at an aligned base. -/
theorem cellAddr_of_lt {d : Desc} (h : baseAligned d.base) {off : Nat} (hoff : off < bufferBytes d) :
    cellAddr d.base off = d.base.toNat + off := by
  have := bufferBytes_le h
  rw [cellAddr, BitVec.toNat_add, BitVec.toNat_ofNat]
  omega

/-- The addresses a lookup reads for a lane: the bytes of its elements. -/
theorem State.mem_lookupAddrs {s : State} {o : LookupOp} {e : Pend} {l : Lane} {a : Nat} :
    a ∈ s.lookupAddrs o e l ↔ ∃ n ∈ Config.texElems o (s.pendDesc e) e.unscaled l.coords,
      ∃ j < elemSize (s.pendDesc e).layout.format, a = cellAddr (s.pendDesc e).base (elemPlace (s.pendDesc e) n + j) := by
  simp [State.lookupAddrs, State.lookupPlaces, elemAddrs, eq_comm]

/-- A lookup reads inside the buffer its descriptor names (R232 b). -/
theorem State.lookupAddrs_within {s : State} {o : LookupOp} {e : Pend} {l : Lane} {a : Nat}
    (h : baseAligned (s.pendDesc e).base) (ha : a ∈ s.lookupAddrs o e l) :
    (s.pendDesc e).base.toNat ≤ a ∧ a < (s.pendDesc e).base.toNat + bufferBytes (s.pendDesc e) := by
  obtain ⟨n, -, j, hj, rfl⟩ := State.mem_lookupAddrs.1 ha
  have hlt := elemPlace_lt (s.pendDesc e) n hj
  rw [cellAddr_of_lt h hlt]
  omega

/-- A lookup writes a register of a processor that it recorded. -/
theorem performLookup_some {s : State} {o : LookupOp} {e : Pend} {p : Proc} {l : Lane} (h : e.lane p = some l) :
    performLookup s o e p = p.writeTemp s.runNo e.dst l.mask (s.texFetch o e l) := by
  simp [performLookup, h]

theorem performLookup_none {s : State} {o : LookupOp} {e : Pend} {p : Proc} (h : e.lane p = none) :
    performLookup s o e p = p := by
  simp [performLookup, h]

/-- A lookup changes a processor's registers alone. -/
theorem performLookup_keeps (s : State) (o : LookupOp) (e : Pend) (p : Proc) :
    performLookup s o e p = { p with temps := (performLookup s o e p).temps } := by
  cases h : e.lane p with
  | none => rw [performLookup_none h]
  | some l => rw [performLookup_some h]; rfl

/-- Settles O7: what the step does by `State.doMove_perform`, what it reads by `State.mem_lookupAddrs`. -/
theorem performedLookupWritesItsDestination : Obligations.PerformedLookupWritesItsDestination := by
  intro s n e o he ho
  refine ⟨?_, ?_, fun ha => ⟨bufferBytes_le ha, fun l a => State.lookupAddrs_within ha⟩, fun d hd => ?_,
    fun l => ⟨?_, fun a => State.mem_lookupAddrs⟩,
    fun p => ⟨fun l hl => ?_, fun d hd => ?_, performLookup_none, performLookup_keeps s o e p⟩⟩
  · rw [State.doMove_perform he, State.performAt_eq he, State.performElem, ho]
    rfl
  · simp only [State.races_iff ho, State.writtenByOther_iff]
  · simp [State.pendDesc, hd]
  · simp [State.texFetch, State.lookupPlaces, State.lookupElem, Function.comp_def]
  · rw [performLookup_some hl, Proc.temp_writeTemp, if_pos rfl]
    rfl
  · cases hl : e.lane p with
    | none => rw [performLookup_none hl]
    | some l => rw [performLookup_some hl, Proc.temp_writeTemp, if_neg hd.symm]

/-! ## Kills (O8) -/

/-- A kill lands on a processor where an examined component is less than zero (R215). -/
theorem Pend.kills_eq (e : Pend) (p : Proc) : e.kills p = match e.lane p with
    | none => false
    | some l => [Comp.r, .g, .b, .a].any fun c => l.mask.get c && ltZero (l.coords.get c) := by
  simp only [Pend.kills]
  cases e.lane p with
  | none => rfl
  | some l => exact killTest_eq_any _ _

theorem Pend.kills_iff {e : Pend} {p : Proc} : e.kills p = true ↔ ∃ l, e.lane p = some l ∧
    [Comp.r, .g, .b, .a].any (fun c => l.mask.get c && ltZero (l.coords.get c)) = true := by
  rw [Pend.kills_eq]
  cases e.lane p <;> simp

theorem performKill_eq (e : Pend) (p : Proc) : performKill e p = { p with killed := p.killed || e.kills p } := by
  cases h : e.kills p <;> simp [performKill, h]

/-- Settles O8, by `State.mem_killedOutputs` and the addresses of `State.unsaidCells_covers`. -/
theorem performedKillKillsNegativeComponents : Obligations.PerformedKillKillsNegativeComponents := by
  intro s n e he ho
  refine ⟨?_, fun w hw => ?_, fun p hp hk l hl hneg o hout hcond d hd => ?_⟩
  · have hkill : performKill e = fun p => { p with killed := p.killed || e.kills p } := funext (performKill_eq e)
    rw [State.doMove_perform_unrefused he (by simp [Pend.isLookup, ho]), State.performAt_eq he]
    simp only [State.performElem, ho, hkill, Pend.kills_eq]
    rfl
  · obtain ⟨p, hp, hk, hkills, o, hout, rfl⟩ := State.mem_killedOutputs.1 hw
    refine ⟨rfl, rfl, p, hp, hk, rfl, Pend.kills_iff.1 hkills, o, hout, fun a ha => ?_⟩
    exact ((s.unsaidCells_covers p.xy o (by simp [State.outVals]) a).1 ha).2
  · have hkills := Pend.kills_iff.2 ⟨l, hl, hneg⟩
    refine ⟨_, State.mem_killedOutputs.2 ⟨p, hp, hk, hkills, o, hout, rfl⟩, rfl, fun c hc => ?_⟩
    exact (s.unsaidCells_covers p.xy o (by simp [State.outVals]) c.1).2 ⟨hcond, d, hd, c, hc, rfl⟩

/-! ## Uncached writes (O10) -/

/-- Settles O10: memory is written cell by cell, the last one last. -/
theorem performedWriteStoresItsCells : Obligations.PerformedWriteStoresItsCells := by
  intro s n e he ho
  have hperform : s.performAt n = { s with
      mem := Memory.writeAll s.mem (e.lanes.flatMap Lane.cells)
      stream := { s.stream with pending := s.stream.pending.eraseIdx n } } := by
    rw [State.performAt_eq he, State.performElem, ho]
    rfl
  refine ⟨State.doMove_perform_unrefused he (by simp [Pend.isLookup, ho]), hperform, fun a ha => ?_,
    fun pre post a v hcells hpost => ?_⟩
  · rw [hperform]
    refine Memory.read_writeAll_of_not_mem fun c hc => ?_
    obtain ⟨l, hl, hcl⟩ := List.mem_flatMap.1 hc
    exact ha l hl c hcl
  · rw [hperform, hcells]
    exact Memory.read_writeAll_append post hpost

/-! ## Less than zero (O9) -/

/-- Off the zeros and denormals that are negative, and off NaN, the sign decides. -/
theorem ltZero_eq_msb {w : Word} (hn : isNaN w = false) (hz : (w.msb && floatExp w == 0) = false) : ltZero w = w.msb := by
  simp [ltZero, hn, hz]

/-- Settles O9: the sign decides on ordinary values and on the three patterns. -/
theorem lessThanZeroOnOrdinaryValues : Obligations.LessThanZeroOnOrdinaryValues := by
  refine fun w => ⟨fun hm he hn => ?_, fun hm hn => ?_, ?_, ?_, ?_⟩
  · rw [ltZero_eq_msb hn (by simp [he.ne']), hm]
  · rw [ltZero_eq_msb hn (by simp [hm]), hm]
  all_goals exact ltZero_eq_msb (by decide) (by decide)

end Sys2Proof.Machine
end

section
/-! PROOF. The texture unit's moves among a stream's: which are enabled, when the semaphore is released, and how a stream ends
(spec/42_texture.md R219, R226, R236; spec/70_reset_and_hazards.md R352). -/

namespace Sys2Proof.Machine

/-! ## Enabled moves -/

/-- The semaphore can be released when it is held(k) and nothing of number at most k is outstanding (R226). -/
theorem State.releasable_iff {s : State} :
    s.releasable = true ↔ ∃ k, s.stream.sem = .held k ∧ ∀ e ∈ s.stream.pending, k < e.seq := by
  simp only [State.releasable, Stream.releasable]
  cases s.stream.sem <;> simp

theorem State.issue_mem_moves {s : State} : Move.issue ∈ s.moves ↔ s.issuedAll = false ∧ s.nextHolds = false := by
  simp only [State.moves]
  cases s.issuedAll <;> cases s.nextHolds <;> simp

theorem State.perform_mem_moves {s : State} {n : Nat} : Move.perform n ∈ s.moves ↔ n < s.stream.pending.length := by
  simp only [State.moves]
  cases s.issuedAll <;> cases s.nextHolds <;> simp

theorem State.release_mem_moves {s : State} : Move.release ∈ s.moves ↔ s.releasable = true := by
  simp only [State.moves]
  cases s.issuedAll <;> cases s.nextHolds <;> simp

theorem State.finished_iff {s : State} :
    s.finished = true ↔ s.issuedAll = true ∧ s.stream.pending = [] ∧ s.stream.sem = .free := by
  simp [State.finished, and_assoc]

theorem State.issuedAll_iff {s : State} :
    s.issuedAll = true ↔ s.stream.done = true ∨ ∀ p ∈ s.stream.procs, p.killed = true := by
  simp [State.issuedAll, State.allKilled]

/-- While a stream's semaphore is held its run is not final (R236). -/
theorem State.not_finished_of_held {s : State} {k : Nat} (h : s.stream.sem = .held k) : s.finished = false := by
  simp [State.finished, h]

/-! ## A step of the stream whose turn it is -/

/-- With a stream running and no group to launch, the step is one of the stream whose turn it is. -/
theorem State.agentStep_stream {s : State} (hr : s.running = true) (hl : s.canLaunch = false) :
    s.agentStep = s.turn.runStep := by
  simp [State.agentStep, hr, hl]

theorem State.runStep_finished {s : State} (h : s.finished = true) : s.runStep = .next s.retire := by
  simp [State.runStep, h]

theorem State.runStep_move {s : State} {m : Move} (hf : s.finished = false) (hm : s.pickMove = some m) :
    s.runStep = s.doMove m := by
  simp [State.runStep, hf, hm]

/-- A step of a stream that is not final: nothing, or one of the enabled moves. -/
theorem State.runStep_unfinished {s u : State} (hf : s.finished = false) (h : s.runStep = .next u) :
    u = s ∨ ∃ m ∈ s.moves, s.doMove m = .next u := by
  cases hm : s.pickMove with
  | none =>
    simp only [State.runStep, hf, hm] at h
    cases h
    exact .inl rfl
  | some m => exact .inr ⟨m, pickMove_mem hm, State.runStep_move hf hm ▸ h⟩

/-! ## Issuing (O44) -/

/-- A well-formed instruction of the array at the pc is executed. -/
theorem State.issueNext_exec {s : State} {i : Instr} (hi : s.program[s.stream.pc]? = some i) (hd : i.isDpp = true)
    (hwf : i.wf = true) : s.issueNext = exec i s := by
  simp [State.issueNext, hi, hd, hwf]

/-- Settles O44: the agent issues, and the step adds the tick. -/
theorem stepIssuesTheInstructionAtThePc : Obligations.StepIssuesTheInstructionAtThePc := by
  intro s i hr hl hf hm hi hd hwf
  have hexec : s.turn.issueNext = exec i s.turn := State.issueNext_exec (by simpa using hi) hd hwf
  rw [step, State.agentStep_issue hr hl hf hm, hexec]
  cases exec i s.turn <;> rfl

/-! ## Release (O11) -/

/-- An issue changes no other stream. -/
theorem State.issueNext_others {s u : State} (h : s.issueNext = .next u) : u.others = s.others := by
  obtain ⟨i, hi⟩ := State.issueNext_next h
  rw [hi.frame.1]

/-- An issue does not end a held semaphore (R223). -/
theorem State.issueNext_keeps_held {s u : State} {k : Nat} (hk : s.stream.sem = .held k) (h : s.issueNext = .next u) :
    u.stream.sem = .held k := by
  simp only [State.issueNext] at h
  split at h
  · cases h
  · split at h
    · cases h
    · split at h
      · cases h
      · exact exec_keeps_held hk h

/-- What a move leaves of the other streams and of a held semaphore: only Release ends it, once all prior operations have been
performed. -/
theorem State.doMove_held {s u : State} {m : Move} {k : Nat} (hk : s.stream.sem = .held k) (hm : m ∈ s.moves)
    (h : s.doMove m = .next u) : u.others = s.others ∧
      (u.stream.sem = .held k ∨ u.stream.sem = .free ∧ ∀ e ∈ u.stream.pending, k < e.seq) := by
  cases m with
  | issue => exact ⟨State.issueNext_others h, .inl (State.issueNext_keeps_held hk h)⟩
  | perform n =>
    obtain ⟨-, rfl⟩ := refuse_next h
    exact ⟨by rw [s.performAt_frame n], .inl ((s.performAt_sem n).trans hk)⟩
  | release =>
    cases h
    obtain ⟨j, hj, hprior⟩ := State.releasable_iff.1 (State.release_mem_moves.1 hm)
    rw [hk] at hj
    cases hj
    exact ⟨rfl, .inr ⟨rfl, hprior⟩⟩

/-- Settles O11: a stream that holds its semaphore is not final, and of its moves only Release ends it. -/
theorem releaseNeedsAllPriorOperations : Obligations.ReleaseNeedsAllPriorOperations := by
  intro s
  refine ⟨?_, rfl, s.performAt_sem, fun t k hr hl hk h => ?_⟩
  · simp only [State.release_mem_moves, State.releasable_iff, Nat.not_le]
  · obtain ⟨u, hu, rfl⟩ := step_next h
    rw [State.agentStep_stream hr hl] at hu
    obtain rfl | ⟨m, hm, hdo⟩ := State.runStep_unfinished (State.not_finished_of_held hk) hu
    · exact ⟨rfl, fun hne => absurd hk hne⟩
    · obtain ⟨hothers, hsem⟩ := State.doMove_held hk hm hdo
      exact ⟨hothers, hsem.resolve_left⟩

/-! ## The end of a stream (O49) -/

/-- Only the end of a stream ends instances or stops the array. -/
theorem State.runStep_unfinished_keeps {s u : State} (hf : s.finished = false) (h : s.runStep = .next u) :
    u.ended = s.ended ∧ u.running = s.running := by
  obtain rfl | ⟨m, -, hdo⟩ := State.runStep_unfinished hf h
  · exact ⟨rfl, rfl⟩
  · cases m with
    | issue =>
      obtain ⟨i, hi⟩ := State.issueNext_next hdo
      rw [hi.frame.1]
      exact ⟨rfl, rfl⟩
    | perform n =>
      obtain ⟨-, rfl⟩ := refuse_next hdo
      rw [s.performAt_frame n]
      exact ⟨rfl, rfl⟩
    | release => cases hdo; exact ⟨rfl, rfl⟩

/-- The streams after one has ended are the others, if any. -/
theorem State.retire_streams {s : State} (h : s.retire.running = true) : s.retire.streams = s.others := by
  simp only [State.retire_running] at h
  simp only [State.streams, State.retire_stream, State.retire_others]
  cases ho : s.others with
  | nil => simp [ho] at h
  | cons st rest => rfl

/-- Settles O49: a stream ends exactly when its run is final, and nothing else ends instances. -/
theorem instancesEndWhenNothingIsOutstanding : Obligations.InstancesEndWhenNothingIsOutstanding := by
  intro s t hr hl h st
  obtain ⟨u, hu, rfl⟩ := step_next h
  rw [State.agentStep_stream hr hl] at hu
  have hdone : s.turn.issuedAll = true ↔ st.done = true ∨ ∀ p ∈ st.procs, p.killed = true := State.issuedAll_iff
  refine ⟨fun hall hmem => ?_, fun hend => ?_, fun hall hpend hsem => ?_⟩
  · obtain ⟨hnot, -⟩ := State.issue_mem_moves.1 hmem
    simp [hdone.2 hall] at hnot
  · cases hf : s.turn.finished with
    | true => rwa [State.finished_iff, hdone] at hf
    | false =>
      obtain ⟨hended, hrunning⟩ := State.runStep_unfinished_keeps hf hu
      exact absurd hend (by simp [hended, hrunning, hr])
  · have hf : s.turn.finished = true := State.finished_iff.2 ⟨hdone.2 hall, hpend, hsem⟩
    rw [State.runStep_finished hf] at hu
    cases hu
    refine ⟨?_, rfl, fun hrun => State.retire_streams hrun, ?_⟩
    · rw [State.endStep_ended, State.retire_ended, State.turn_ended]
      rfl
    · rw [State.endStep_writes, State.retire_writes, State.turn_writes, State.turn_runNo]
      rfl

/-! ## Processors that instructions do not touch (O58) -/

/-- What an instruction of the array does to a processor that is not live: nothing, but for flow control. -/
theorem DppNext.proc_not_live {i : Instr} {s u : State} (h : DppNext s i u) {n : Nat} {p : Proc}
    (hp : s.stream.procs[n]? = some p) (hl : p.live = false) :
    u.stream.procs[n]? = some p ∨ ∃ f taken, u.stream.procs[n]? = some (s.branchedProc f taken p) := by
  cases h with
  | held => exact .inl hp
  | texNop t => exact .inl (by simpa using hp)
  | texPend i e acquire => exact .inl (by simpa using hp)
  | alu i rgb alpha c => exact .inl (by simp [hp, hl])
  | output o v lanes hsend =>
    obtain ⟨hstream, -⟩ := sendOutputs_stream hsend
    exact .inl (by simp [State.closeOutput, hstream, hp])
  | flow i f taken loops rs => exact .inr ⟨f, taken, by rw [State.branched_waited]; simp [hp]⟩

/-- Flow control leaves a killed processor alone. -/
theorem State.branchedProc_killed (s : State) (f : Flow) (taken : Bool) {p : Proc} (h : p.killed = true) :
    s.branchedProc f taken p = p := by
  simp [State.branchedProc, branchProc, lostColumns, h]

/-- Settles O58: of what reaches a processor that is not live there is only flow control, which a killed one does not follow. -/
theorem killedAndInactiveProcessorsAreUntouched : Obligations.KilledAndInactiveProcessorsAreUntouched := by
  intro i s t n p h hp
  cases hd : i.isDpp with
  | false =>
    rw [exec_command_frame hd h]
    exact ⟨fun _ => hp, fun _ => ⟨p, hp, rfl⟩⟩
  | true =>
    have hnext := exec_dppNext hd h
    refine ⟨fun hk => ?_, fun ha => ?_⟩
    · obtain e | ⟨f, taken, e⟩ := hnext.proc_not_live hp (by simp [Proc.live, hk])
      · exact e
      · rwa [State.branchedProc_killed s f taken hk] at e
    · obtain e | ⟨f, taken, e⟩ := hnext.proc_not_live hp (by simp [Proc.live, ha])
      · exact ⟨p, e, rfl⟩
      · obtain ⟨active, counter, hq⟩ := s.branchedProc_keeps f taken p
        exact ⟨_, e, by rw [hq]⟩

end Sys2Proof.Machine
end

section
/-! PROOF. How soon the texture unit acts (spec/42_texture.md R219, R222, R226; spec/92_eei_decisions.md D7). -/

namespace Sys2Proof.Machine

/-! ## What is due is not put off (O12) -/

/-- The stream at a place, brought to the front. -/
theorem focus_stream {s : State} {i : Nat} {st : Stream} (h : s.streams[i]? = some st) : (s.focus i).stream = st := by
  cases i with
  | zero => exact Option.some.inj h
  | succ i =>
    have ho : s.others[i]? = some st := h
    simp [State.focus, ho]

theorem turnPlaces_ne_nil (s : State) : s.turnPlaces ≠ [] := by
  simp only [State.turnPlaces]
  split
  · simp [State.streams]
  · simp

/-- While a stream has something due, the turn goes to one that has. -/
theorem overdue_of_mem_turnPlaces {s : State} (h : ∃ st ∈ s.streams, st.overdue s.tick = true) {i : Nat}
    (hi : i ∈ s.turnPlaces) : ∃ st, s.streams[i]? = some st ∧ st.overdue s.tick = true := by
  rw [State.turnPlaces] at hi
  split at hi
  · rename_i hnone
    obtain ⟨st, hst, hdue⟩ := h
    obtain ⟨j, hj, rfl⟩ := List.mem_iff_getElem.1 hst
    have hnot := List.filter_eq_nil_iff.1 hnone j (List.mem_range.2 hj)
    simp [List.getElem?_eq_getElem hj, hdue] at hnot
  · rename_i j js hsome
    rw [← hsome] at hi
    exact (Option.any_eq_true _ _).1 (List.mem_filter.1 hi).2

/-- While a stream has something due, one that has is in front. -/
theorem turn_overdue {s : State} (h : ∃ st ∈ s.streams, st.overdue s.tick = true) : s.turn.stream.overdue s.tick = true := by
  have hlt := pickIndex_lt s.tick 1 (turnPlaces_ne_nil s)
  obtain ⟨st, hst, hdue⟩ := overdue_of_mem_turnPlaces h (List.getElem_mem hlt)
  rw [State.turn, List.getElem?_eq_getElem hlt, Option.getD_some, focus_stream hst]
  exact hdue

/-- A stream that has something due has a move that is. -/
theorem State.exists_due_move {s : State} (h : s.stream.overdue s.tick = true) :
    ∃ m ∈ s.moves, s.stream.isDue s.tick m = true := by
  simp only [Stream.overdue, Bool.or_eq_true, List.any_eq_true] at h
  obtain ⟨e, he, hdue⟩ | hdue := h
  · obtain ⟨n, hn, rfl⟩ := List.mem_iff_getElem.1 he
    exact ⟨.perform n, State.perform_mem_moves.2 hn, by simpa [Stream.isDue, List.getElem?_eq_getElem hn] using hdue⟩
  · refine ⟨.release, State.release_mem_moves.2 ?_, hdue⟩
    simp only [Stream.isDue, Bool.and_eq_true] at hdue
    exact hdue.1

/-- A move that is due performs an operation that is, or releases. -/
theorem Stream.isDue_iff {st : Stream} {tick : Nat} {m : Move} (h : st.isDue tick m = true) :
    m = .release ∨ ∃ n e, m = .perform n ∧ st.pending[n]? = some e ∧ e.due ≤ tick := by
  cases m with
  | issue => cases h
  | release => exact .inl rfl
  | perform n =>
    simp only [Stream.isDue] at h
    cases he : st.pending[n]? with
    | none => simp [he] at h
    | some e => exact .inr ⟨n, e, rfl, he, by simpa [he] using h⟩

/-- A stream that has something due is not final. -/
theorem State.not_finished_of_overdue {s : State} (h : s.stream.overdue s.tick = true) : s.finished = false := by
  obtain ⟨m, hm, hdue⟩ := State.exists_due_move h
  refine Bool.eq_false_iff.2 fun hf => ?_
  obtain ⟨-, hpend, hsem⟩ := State.finished_iff.1 hf
  obtain rfl | ⟨n, e, rfl, he, -⟩ := Stream.isDue_iff hdue
  · obtain ⟨k, hk, -⟩ := State.releasable_iff.1 (State.release_mem_moves.1 hm)
    rw [hsem] at hk
    cases hk
  · simp [hpend] at he

/-- A stream that has something due makes a move that is. -/
theorem State.runStep_overdue {s : State} (h : s.stream.overdue s.tick = true) :
    ∃ m, s.runStep = s.doMove m ∧ s.stream.isDue s.tick m = true := by
  obtain ⟨d, hd, hdue⟩ := State.exists_due_move h
  obtain ⟨m, hm⟩ := pickMove_isSome (List.ne_nil_of_mem hd)
  exact ⟨m, State.runStep_move (State.not_finished_of_overdue h) hm, pickMove_due hd hdue hm⟩

/-! ## What performing makes of the races to come (O12) -/

/-- Performing an operation changes each processor in place: it keeps its index pair, and is not brought back if killed. -/
theorem State.performAt_procs (s : State) (n : Nat) : ∃ f : Proc → Proc, (s.performAt n).stream.procs = s.stream.procs.map f ∧
    ∀ p, (f p).xy = p.xy ∧ ((f p).killed = false → p.killed = false) := by
  have hid : s.stream.procs = s.stream.procs.map id := (List.map_id _).symm
  simp only [State.performAt]
  split
  · exact ⟨id, hid, fun p => ⟨rfl, id⟩⟩
  · rename_i e _
    simp only [State.performElem]
    split
    · rename_i o _
      refine ⟨performLookup s o e, rfl, fun p => ?_⟩
      rw [performLookup_keeps]
      exact ⟨rfl, id⟩
    · refine ⟨performKill e, rfl, fun p => ?_⟩
      rw [performKill_eq]
      exact ⟨rfl, fun h => (Bool.or_eq_false_iff.1 h).1⟩
    · exact ⟨id, hid, fun p => ⟨rfl, id⟩⟩

/-- Performing an operation records no writes but those of a kill (R215). -/
theorem State.mem_performAt_writes {s : State} {n : Nat} {w : WriteRec} (h : w ∈ (s.performAt n).writes) :
    w ∈ s.writes ∨ ∃ e ∈ s.stream.pending, e.op = .kill ∧ w ∈ s.killedOutputs e := by
  simp only [State.performAt] at h
  split at h
  · exact .inl h
  · rename_i e he
    simp only [State.performElem] at h
    split at h
    · exact .inl h
    · rename_i hop
      exact (List.mem_append.1 h).imp_right fun hw => ⟨e, List.mem_of_getElem? he, hop, hw⟩
    · exact .inl h

theorem State.mem_afterKills_writes {s : State} {w : WriteRec} : w ∈ s.afterKills.writes ↔
    w ∈ s.writes ∨ ∃ e ∈ s.stream.pending, e.op = .kill ∧ w ∈ s.killedOutputs e := by
  simp [State.afterKills, and_assoc]

/-- A kill that may be performed later makes no other bytes unsaid than it would now. -/
theorem State.killedOutputs_performAt {s : State} {n : Nat} {e : Pend} {w : WriteRec}
    (h : w ∈ (s.performAt n).endStep.killedOutputs e) : ∃ v ∈ s.killedOutputs e, v.run = w.run ∧ v.xy = w.xy ∧
      ∀ a, w.covers a = true → v.covers a = true := by
  obtain ⟨f, hprocs, hf⟩ := s.performAt_procs n
  have hframe := s.performAt_frame n
  have hctl : (s.performAt n).endStep.ctl = s.ctl := by rw [State.endStep_ctl, hframe]
  have hprogram : (s.performAt n).endStep.program = s.program := by rw [State.endStep_program, hframe]
  have hrun : (s.performAt n).endStep.runNo = s.runNo := by rw [State.endStep_runNo, hframe]
  obtain ⟨q, hq, hk, hkills, o, ho, rfl⟩ := State.mem_killedOutputs.1 h
  rw [State.endStep_stream, hprocs] at hq
  obtain ⟨p, hp, rfl⟩ := List.mem_map.1 hq
  obtain ⟨hxy, hkilled⟩ := hf p
  rw [Pend.kills, Pend.lane, hxy] at hkills
  refine ⟨_, State.mem_killedOutputs.2 ⟨p, hp, hkilled hk, hkills, o, hprogram ▸ ho, rfl⟩, hrun.symm, hxy.symm,
    fun a ha => ?_⟩
  have hlen : (o.srcs.map fun _ => (Quad.all none : Masked)).length = o.srcs.length := List.length_map _
  have hsame := (State.unsaidCells_covers _ _ o hlen a).1 ha
  rw [State.outDesc, hctl, hxy] at hsame
  exact (State.unsaidCells_covers s p.xy o hlen a).2 hsame

/-- Performing an operation adds nothing to what others have written or the outstanding kills may yet make unsaid. -/
theorem State.writtenByOther_performAt {s : State} {n : Nat} {xy : IndexPair} {a : Nat}
    (h : (s.performAt n).endStep.afterKills.writtenByOther xy a = true) : s.afterKills.writtenByOther xy a = true := by
  have hframe := s.performAt_frame n
  have hrun : (s.performAt n).runNo = s.runNo := by rw [hframe]
  obtain ⟨w, hw, hwrun, hwxy, hcov⟩ := State.writtenByOther_iff.1 h
  have hwrun' : w.run = s.runNo := hwrun.trans hrun
  obtain hw | ⟨e, he, hop, hw⟩ := State.mem_afterKills_writes.1 hw
  · exact State.writtenByOther_iff.2 ⟨w, State.mem_afterKills_writes.2 (State.mem_performAt_writes hw), hwrun', hwxy, hcov⟩
  · obtain ⟨v, hv, hvrun, hvxy, hvcov⟩ := State.killedOutputs_performAt hw
    rw [State.endStep_stream, s.performAt_stream n] at he
    exact State.writtenByOther_iff.2 ⟨v, State.mem_afterKills_writes.2 (.inr ⟨e, List.mem_of_mem_eraseIdx he, hop, hv⟩),
      hvrun.trans hwrun', hvxy ▸ hwxy, hvcov a hcov⟩

/-- What a lookup reads goes by its descriptor; so it races no more where no more has been written. -/
theorem State.races_mono {s t : State} (hctl : t.ctl = s.ctl)
    (hw : ∀ xy a, t.writtenByOther xy a = true → s.writtenByOther xy a = true) {e : Pend} (h : t.races e = true) :
    s.races e = true := by
  cases hop : e.op with
  | lookup o =>
    obtain ⟨l, hl, a, ha, hother⟩ := (State.races_iff hop).1 h
    have haddrs : t.lookupAddrs o e l = s.lookupAddrs o e l := by
      simp only [State.lookupAddrs, State.lookupPlaces, State.pendDesc, State.inputDesc, hctl]
    exact (State.races_iff hop).2 ⟨l, hl, a, haddrs ▸ ha, hw l.xy a hother⟩
  | kill => simp [State.races, hop] at h
  | write => simp [State.races, hop] at h

/-! ## A hold is lifted (O12) -/

/-- The only stream runs and its next instruction holds; no outstanding lookup races, whatever the outstanding kills make
unsaid. -/
structure State.HoldsAlone (s : State) : Prop where
  running : s.running = true
  noLaunch : s.canLaunch = false
  alone : s.others = []
  holds : s.nextHolds = true
  noRace : ∀ e ∈ s.stream.pending, s.afterKills.races e = false

theorem State.sem_of_nextHolds {s : State} (h : s.nextHolds = true) : ∃ k, s.stream.sem = .held k := by
  simp only [State.nextHolds] at h
  split at h
  · cases h
  · cases hs : s.stream.sem with
    | free => simp [State.holds, hs] at h
    | held k => exact ⟨k, rfl⟩

/-- While nothing has been released, an operation or the release is a move. -/
theorem State.moves_ne_nil {s : State} (h : s.nextHolds = true) : s.moves ≠ [] := by
  obtain ⟨k, hk⟩ := State.sem_of_nextHolds h
  cases hp : s.stream.pending with
  | nil => exact List.ne_nil_of_mem (State.release_mem_moves.2 (State.releasable_iff.2 ⟨k, hk, by simp [hp]⟩))
  | cons e es => exact List.ne_nil_of_mem (State.perform_mem_moves (n := 0).2 (by simp [hp]))

/-- An operation outstanding in a state that holds does not race there. -/
theorem State.HoldsAlone.races {s : State} (h : s.HoldsAlone) {e : Pend} (he : e ∈ s.stream.pending) : s.races e = false := by
  have hmore : ∀ xy a, s.writtenByOther xy a = true → s.afterKills.writtenByOther xy a = true := fun xy a ha => by
    obtain ⟨w, hw, hrest⟩ := State.writtenByOther_iff.1 ha
    exact State.writtenByOther_iff.2 ⟨w, State.mem_afterKills_writes.2 (.inl hw), hrest⟩
  exact Bool.eq_false_iff.2 fun hr =>
    absurd (State.races_mono (t := s) (s := s.afterKills) rfl hmore hr) (by simp [h.noRace e he])

theorem State.busy_performAt (s : State) (n : Nat) : (s.performAt n).busy = s.busy := by
  obtain ⟨f, hprocs, -⟩ := s.performAt_procs n
  have hrunning : (s.performAt n).running = s.running := by rw [s.performAt_frame n]
  have hothers : (s.performAt n).others = s.others := by rw [s.performAt_frame n]
  simp [State.busy, State.streams, hrunning, hothers, hprocs]

/-- After an operation is performed the stream still holds. -/
theorem State.HoldsAlone.performAt {s : State} (h : s.HoldsAlone) (n : Nat) : (s.performAt n).endStep.HoldsAlone := by
  have hframe := s.performAt_frame n
  have hstream := s.performAt_stream n
  have hctl : (s.performAt n).ctl = s.ctl := by rw [hframe]
  have hprogram : (s.performAt n).program = s.program := by rw [hframe]
  have hwaiting : (s.performAt n).waiting = s.waiting := by rw [hframe]
  have hpc : (s.performAt n).stream.pc = s.stream.pc := by rw [hstream]
  have hsem := s.performAt_sem n
  refine ⟨?_, ?_, ?_, ?_, fun e he => ?_⟩
  · rw [State.endStep_running, hframe]
    exact h.running
  · have hcan : (s.performAt n).endStep.canLaunch = (s.performAt n).canLaunch := rfl
    rw [hcan, State.canLaunch, hwaiting, s.busy_performAt n]
    exact h.noLaunch
  · rw [State.endStep_others, hframe]
    exact h.alone
  · have hnext := h.holds
    simp only [State.nextHolds, State.holds, State.endStep_program, State.endStep_stream, hprogram, hpc, hsem] at hnext ⊢
    exact hnext
  · rw [State.endStep_stream, hstream] at he
    refine Bool.eq_false_iff.2 fun hr => ?_
    have hbefore := State.races_mono (t := (s.performAt n).endStep.afterKills) (s := s.afterKills) hctl
      (fun xy a => State.writtenByOther_performAt) hr
    simp [h.noRace e (List.mem_of_mem_eraseIdx he)] at hbefore

/-- While it holds, the stream's step releases the semaphore or performs an outstanding operation. -/
theorem State.HoldsAlone.step {s : State} (h : s.HoldsAlone) : step s = .next s.release.endStep ∨
    ∃ n < s.stream.pending.length, step s = .next (s.performAt n).endStep := by
  obtain ⟨k, hk⟩ := State.sem_of_nextHolds h.holds
  obtain ⟨m, hm⟩ := pickMove_isSome (State.moves_ne_nil h.holds)
  have hagent : s.agentStep = s.doMove m := by
    rw [State.agentStep_stream h.running h.noLaunch, turn_alone h.alone]
    exact State.runStep_move (State.not_finished_of_held hk) hm
  have hstep : ∀ u, s.doMove m = .next u → Machine.step s = .next u.endStep := fun u hu => by
    simp [Machine.step, hagent, hu]
  have hmem := pickMove_mem hm
  cases m with
  | issue => exact absurd (State.issue_mem_moves.1 hmem).2 (by simp [h.holds])
  | perform n =>
    have hn := State.perform_mem_moves.1 hmem
    have he := List.getElem?_eq_getElem hn
    refine .inr ⟨n, hn, hstep _ ?_⟩
    rw [State.doMove_perform he, h.races (List.getElem_mem hn), if_neg Bool.false_ne_true]
  | release => exact .inl (hstep _ rfl)

theorem run_succ {s u : State} (h : step s = .next u) (m : Nat) : Host.Core.run core (m + 1) s = Host.Core.run core m u := by
  have hcore : core.step s = .next u := h
  simp only [Host.Core.run, hcore]

/-- A hold is lifted within as many steps as operations are outstanding and one more, and nothing issues meanwhile. -/
theorem State.HoldsAlone.lifted {s : State} (h : s.HoldsAlone) : ∃ (m : Nat) (t : State), m ≤ s.stream.pending.length + 1 ∧
    Host.Core.run core m s = .next t ∧ t.stream.sem = .free ∧ t.stream.pc = s.stream.pc ∧ t.stream.seq = s.stream.seq ∧
      t.running = true := by
  induction hlen : s.stream.pending.length generalizing s with
  | zero =>
    obtain hstep | ⟨n, hn, -⟩ := h.step
    · exact ⟨1, _, le_rfl, run_succ hstep 0, rfl, rfl, rfl, h.running⟩
    · omega
  | succ len ih =>
    obtain hstep | ⟨n, hn, hstep⟩ := h.step
    · exact ⟨1, _, by omega, run_succ hstep 0, rfl, rfl, rfl, h.running⟩
    · have hstream : (s.performAt n).endStep.stream = _ := s.performAt_stream n
      have hless : (s.performAt n).endStep.stream.pending.length = len := by
        rw [hstream, List.length_eraseIdx_of_lt hn]
        omega
      obtain ⟨m, t, hm, hrun, hfree, hpc, hseq, hrunning⟩ := ih (h.performAt n) hless
      rw [hstream] at hpc hseq
      exact ⟨m + 1, t, by omega, (run_succ hstep m).trans hrun, hfree, hpc, hseq, hrunning⟩

/-- Settles O12: the hold by `State.HoldsAlone.lifted`, the rest by the turn and the move that are picked while something is
due. -/
theorem holdIsLiftedWithinPendingSteps : Obligations.HoldIsLiftedWithinPendingSteps := by
  refine fun s hr hl => ⟨fun ha _ hh hrace => State.HoldsAlone.lifted ⟨hr, hl, ha, hh, hrace⟩, fun hdue => ?_⟩
  have hturn := turn_overdue hdue
  rw [← s.turn_tick] at hturn
  obtain ⟨m, hm, hmdue⟩ := State.runStep_overdue hturn
  rw [s.turn_tick] at hmdue
  exact ⟨m, (State.agentStep_stream hr hl).trans hm, hmdue, Stream.isDue_iff hmdue⟩

end Sys2Proof.Machine
end

section
/-! PROOF. Flow control: the jump decision, the branch operations and where each instruction goes (spec/43_flow_control.md R260
to R267). -/

namespace Sys2Proof.Machine

/-! ## The branch operations (O30) -/

theorem branchProc_killed {p : Proc} (hk : p.killed = true) (op : BranchOp) (n : Nat) (d : Bool) : branchProc op n d p = p :=
  if_pos hk

theorem branchProc_none (n : Nat) (d : Bool) (p : Proc) : branchProc .none n d p = p := ite_self _

section
variable {p : Proc} (hk : p.killed = false)
include hk

theorem branchProc_decr_active (ha : p.active = true) (n : Nat) (d : Bool) : branchProc .decr n d p = p := by
  simp [branchProc, hk, ha]

theorem branchProc_incr_active (ha : p.active = true) (n : Nat) (d : Bool) :
    branchProc .incr n d p = if d then { p with active := false, counter := 0 } else p := by
  simp [branchProc, hk, ha]

theorem branchProc_decr_inactive (ha : p.active = false) (n : Nat) (d : Bool) :
    branchProc .decr n d p = { p with counter := p.counter - n, active := decide (p.counter - n < 0) } := by
  simp [branchProc, hk, ha]

theorem branchProc_incr_inactive (ha : p.active = false) (n : Nat) (d : Bool) :
    branchProc .incr n d p = { p with counter := p.counter + 1 } := by
  simp [branchProc, hk, ha]

end

/-- Settles O30, by the equations of `branchProc`. -/
theorem branchOperationsMoveCounters : Obligations.BranchOperationsMoveCounters := by
  refine fun n b p => ⟨fun hk op => branchProc_killed hk op n b, fun hk ha => ?_, fun hk ha => ?_, branchProc_none n b p⟩
  · exact ⟨branchProc_decr_inactive hk ha n b, branchProc_incr_inactive hk ha n b⟩
  · have hincr := branchProc_incr_active hk ha n
    refine ⟨branchProc_decr_active hk ha n b, ?_, hincr false, hincr true⟩
    rw [hincr]
    cases b with
    | false => exact ha
    | true => rfl

/-! ## The jump decision (O29) -/

theorem State.jumpCond_zeros (s : State) {f : Flow} (h : f.func = 0x00#8) (p : Proc) : s.jumpCond f p = false := by
  rw [State.jumpCond, h]
  exact BitVec.getLsbD_zero

theorem State.jumpCond_ones (s : State) {f : Flow} (h : f.func = 0xff#8) (p : Proc) : s.jumpCond f p = true := by
  have hones : (0xff#8) = BitVec.allOnes 8 := rfl
  rw [State.jumpCond, h, hones, BitVec.getLsbD_allOnes]
  exact decide_eq_true (Fin.isLt _)

theorem State.jumps_zeros (s : State) {f : Flow} (h : f.func = 0x00#8) : s.jumps f = false := if_pos h

theorem State.jumps_ones (s : State) {f : Flow} (h : f.func = 0xff#8) : s.jumps f = true := by
  simp [State.jumps, h]

/-- Where JUMP_FUNC decides neither way by itself, the live processors' common condition does. -/
theorem State.jumps_of_agree {s : State} {f : Flow} {d : Bool} (hlive : s.anyLive = true)
    (hd : ∀ q ∈ s.stream.procs, q.live = true → s.jumpCond f q = d) : s.jumps f = d := by
  obtain ⟨p, hp, hpl⟩ := List.any_eq_true.1 hlive
  by_cases hzeros : f.func = 0x00#8
  · rw [s.jumps_zeros hzeros, ← s.jumpCond_zeros hzeros p, hd p hp hpl]
  by_cases hones : f.func = 0xff#8
  · rw [s.jumps_ones hones, ← s.jumpCond_ones hones p, hd p hp hpl]
  have hagree : ∀ b ∈ (s.stream.procs.filter Proc.live).map (s.jumpCond f), b = d :=
    List.forall_mem_map.2 fun q hq => hd q (List.mem_filter.1 hq).1 (List.mem_filter.1 hq).2
  have hsome : (s.stream.procs.filter Proc.live).map (s.jumpCond f) ≠ [] := by
    simpa using ⟨p, hp, hpl⟩
  rw [State.jumps, if_neg hzeros, if_neg hones]
  cases hconds : (s.stream.procs.filter Proc.live).map (s.jumpCond f) with
  | nil => exact absurd hconds hsome
  | cons c cs =>
    rw [hconds, List.forall_mem_cons] at hagree
    obtain ⟨rfl, hrest⟩ := hagree
    exact if_pos (List.all_eq_true.2 fun x hx => beq_iff_eq.2 (hrest x hx))

theorem jumpCode_injective : ∀ a b c a' b' c' : Bool, jumpCode a b c = jumpCode a' b' c' → a = a' ∧ b = b' ∧ c = c' := by
  decide

/-- Settles O29: an order of the table's lines is a permutation, so it keeps the eight combinations apart. -/
theorem jumpFuncDecidesTheJump : Obligations.JumpFuncDecidesTheJump := fun s _ p =>
  ⟨rfl, fun h => ⟨s.jumpCond_zeros h p, s.jumps_zeros h⟩, fun h => ⟨s.jumpCond_ones h p, s.jumps_ones h⟩,
    fun _ _ _ _ _ _ h => jumpCode_injective _ _ _ _ _ _ (Config.jumpIndex.injective h), fun _ => State.jumps_of_agree⟩

/-! ## Where each instruction goes (O31, O33, O34) -/

theorem flowGo_overflow_iff {f : Flow} {b : Bool} {s : State} :
    flowGo f b s = .fault .stackOverflow ↔ s.tooDeep (branchOpOf f b) = true := by
  cases hd : s.tooDeep (branchOpOf f b) <;> simp [flowGo, hd]

section
variable {f : Flow} {b : Bool} {s : State} (l : LoopState)

/-- The whole next state of a flow-control instruction that has waited and sets the loop state. -/
theorem flowGo_waited (hd : s.tooDeep (branchOpOf f b) = false) :
    flowGo f b ((s.waited f.wait).withLoops l) = .next { s with
      stream := { s.stream with
        pc := if b then f.addr else s.stream.pc + 1
        depth := depthAfter (branchOpOf f b) f.popCnt s.stream.depth
        loops := l
        procs := s.stream.procs.map (s.branchedProc f b) }
      writes := (s.waited f.wait).writes } := by
  have hd' : ((s.waited f.wait).withLoops l).tooDeep (branchOpOf f b) = false := (s.tooDeep_ready f.wait false _).trans hd
  have hbranched := s.branched_waited f.wait [] l f b
  rw [State.noteReads_nil, List.append_nil] at hbranched
  rw [flowGo_free hd', hbranched]

theorem flowGo_waited_deep (hd : s.tooDeep (branchOpOf f b) = true) :
    flowGo f b ((s.waited f.wait).withLoops l) = .fault .stackOverflow :=
  flowGo_overflow_iff.2 ((s.tooDeep_ready f.wait false _).trans hd)

end

section
variable {f : Flow} {s : State} (hh : s.holds f.wait = false)
include hh

/-- A JUMP leaves the loops as they are. -/
theorem exec_fcJump_free :
    exec (.fcJump f) s = flowGo f (s.jumps f) ((s.waited f.wait).withLoops s.stream.loops) := by
  have hj : (s.waited f.wait).jumps f = s.jumps f := s.jumps_ready f.wait false f
  have hl : (s.waited f.wait).withLoops s.stream.loops = s.waited f.wait := by
    rw [← s.waited_stream f.wait]
    rfl
  rw [hl, ← hj]
  exact gate_pass hh

theorem exec_fcContinue_free :
    exec (.fcContinue f) s = flowGo f (s.jumps f) ((s.waited f.wait).withLoops (continuedLoops s.stream.loops)) := by
  have hj : (s.waited f.wait).jumps f = s.jumps f := s.jumps_ready f.wait false f
  rw [exec_fcContinue, gate_pass hh, continueEffect, hj, s.waited_stream]

/-- An ENDLOOP of an open loop goes back with its next iteration, or on without it. -/
theorem exec_fcEndloop_open {fr : LoopFrame} {rest : List LoopFrame} (hopen : s.stream.loops.loopStack = fr :: rest) :
    exec (.fcEndloop f) s = flowGo f (decide (1 < fr.left) && s.jumps f) ((s.waited f.wait).withLoops
      (if decide (1 < fr.left) && s.jumps f then stepLoop s.stream.loops fr rest
        else leaveLoop s.stream.loops s.tick fr rest)) := by
  have hj : (s.waited f.wait).jumps f = s.jumps f := s.jumps_ready f.wait false f
  refine (gate_pass hh).trans ?_
  simp only [endloopEffect, State.waited_stream, State.waited_tick, hopen, hj]
  cases decide (1 < fr.left) && s.jumps f <;> rfl

theorem exec_fcEndrep_open {n : Int} {rest : List Int} (hopen : s.stream.loops.repStack = n :: rest) :
    exec (.fcEndrep f) s = flowGo f (decide (1 < n) && s.jumps f) ((s.waited f.wait).withLoops
      { s.stream.loops with repStack := if decide (1 < n) && s.jumps f then (n - 1) :: rest else rest }) := by
  have hj : (s.waited f.wait).jumps f = s.jumps f := s.jumps_ready f.wait false f
  refine (gate_pass hh).trans ?_
  simp only [endrepEffect, State.waited_stream, hopen, hj]
  cases decide (1 < n) && s.jumps f <;> rfl

end

/-- Columns c5 and c9 do nothing where they are NONE and 0 (R267). -/
theorem State.branchedProc_plain (s : State) {f : Flow} (h5 : f.c5 = 0) (h9 : f.c9 = 0) (taken : Bool) (p : Proc) :
    s.branchedProc f taken p = branchProc (branchOpOf f taken) f.popCnt (s.jumpCond f p != taken) p := by
  simp [State.branchedProc, lostColumns, h5, h9]

/-- Settles O31: the next state by `flowGo_waited`, with the loops that are open. -/
theorem jumpSetsThePc : Obligations.JumpSetsThePc := by
  refine fun f s hh hd => ⟨(exec_fcJump_free hh).trans (flowGo_waited _ hd), fun hz => ?_, fun ho => ?_,
    s.branchedProc_plain⟩
  · rw [s.jumps_zeros hz]
    rfl
  · rw [s.jumps_ones ho]
    rfl

/-- Settles O33: the next state by `flowGo_waited`, with the loops for the next iteration or without the loop that ends. -/
theorem loopEndGoesBackOrOn : Obligations.LoopEndGoesBackOrOn := by
  intro f s hh
  constructor
  · intro fr rest hopen back hd
    have hloops : (if back then stepLoop s.stream.loops fr rest else leaveLoop s.stream.loops s.tick fr rest) =
        { s.stream.loops with
          aL := if back then loopSum s.stream.loops.aL fr.step
            else if rest = [] then Config.outsideAL s.tick else fr.savedAL
          loopStack := if back then { left := fr.left - 1, step := fr.step, savedAL := fr.savedAL } :: rest else rest } := by
      cases back with
      | true => rfl
      | false => cases rest <;> rfl
    rw [exec_fcEndloop_open hh hopen, flowGo_waited _ hd, hloops]
  · intro n rest hopen back hd
    rw [exec_fcEndrep_open hh hopen, flowGo_waited _ hd]

/-- Settles O34: a CONTINUE takes its loops from as many as are open, so that none is opened. -/
theorem continueJumpsAsItsFieldsSay : Obligations.ContinueJumpsAsItsFieldsSay := fun _ s hh hd =>
  ⟨continuedLoops s.stream.loops, (exec_fcContinue_free hh).trans (flowGo_waited _ hd), List.length_take_le _ _,
    List.length_take_le _ _⟩

/-! ## Overflow and underflow (O35) -/

theorem State.tooDeep_iff {s : State} {op : BranchOp} :
    s.tooDeep op = true ↔ op = .incr ∧ Config.branchDepth s.ctl.mode ≤ s.stream.depth := by
  simp [State.tooDeep]

/-- When a LOOP or REP overflows, once its constant is read: by its branch, or for want of room for its loop. -/
theorem loopStart_overflow_iff {f : Flow} {used : LoopState → Nat} {enter : LoopState → IntConst → LoopState} {c : IntConst}
    {s : State} : loopStart f used enter c s = .fault .stackOverflow ↔ s.tooDeep (branchOpOf f (s.skipsLoop f c)) = true ∨
      (s.skipsLoop f c = false ∧ Config.loopStackSize s.ctl.mode ≤ used s.stream.loops) := by
  cases hskip : s.skipsLoop f c with
  | true => simp [loopStart, hskip, flowGo_overflow_iff]
  | false =>
    have henter : ∀ l, (s.withLoops l).tooDeep (branchOpOf f false) = s.tooDeep (branchOpOf f false) := fun _ => rfl
    by_cases hfull : Config.loopStackSize s.ctl.mode ≤ used s.stream.loops
    · simp [loopStart, hskip, State.loopsFull, hfull]
    · simp [loopStart, hskip, State.loopsFull, hfull, flowGo_overflow_iff, henter]

/-- When a LOOP or REP overflows that does not hold and is not refused. -/
theorem gate_loopStart_overflow_iff {f : Flow} {k : Nat} {s : State} {used : LoopState → Nat}
    {enter : LoopState → IntConst → LoopState} (hh : s.holds f.wait = false) (hu : s.constiUnset f = false)
    (hr : s.readsRace (s.constiReads f k) = false) :
    gate f.wait s (fun t => withIntConst f k t (loopStart f used enter)) = .fault .stackOverflow ↔
      s.tooDeep (branchOpOf f (s.skipsLoop f (s.intConst k))) = true ∨
        (s.skipsLoop f (s.intConst k) = false ∧ Config.loopStackSize s.ctl.mode ≤ used s.stream.loops) := by
  have hskip : ((s.waited f.wait).noteReads (s.constiReads f k)).skipsLoop f (s.intConst k) =
      s.skipsLoop f (s.intConst k) := s.skipsLoop_ready f.wait false f (s.intConst k)
  have hdeep : ∀ op, ((s.waited f.wait).noteReads (s.constiReads f k)).tooDeep op = s.tooDeep op :=
    s.tooDeep_ready f.wait false
  rw [gate_withIntConst hh, hu, hr]
  simp [loopStart_overflow_iff, hskip, hdeep]

/-- Settles O35: the ends of loops by the stack they find, the rest by when `flowGo` and `loopStart` overflow. -/
theorem stackMisuseFaults : Obligations.StackMisuseFaults := by
  refine fun f s hh => ⟨fun hnone => ?_, fun hnone => ?_, fun hd => ⟨?_, ?_⟩, fun fr rest hopen hd => ?_,
    fun n rest hopen hd => ?_, fun k hu hr => ⟨?_, ?_⟩, fun op => State.tooDeep_iff, rfl, rfl, ?_⟩
  · exact (gate_pass hh).trans (by simp [endloopEffect, hnone])
  · exact (gate_pass hh).trans (by simp [endrepEffect, hnone])
  · exact (exec_fcJump_free hh).trans (flowGo_waited_deep _ hd)
  · exact (exec_fcContinue_free hh).trans (flowGo_waited_deep _ hd)
  · exact (exec_fcEndloop_open hh hopen).trans (flowGo_waited_deep _ hd)
  · exact (exec_fcEndrep_open hh hopen).trans (flowGo_waited_deep _ hd)
  · rw [exec_fcLoop]
    exact gate_loopStart_overflow_iff hh hu hr
  · rw [exec_fcRep]
    exact gate_loopStart_overflow_iff hh hu hr
  · simp only [Config.branchDepth]
    omega

end Sys2Proof.Machine
end

section
/-! PROOF. How deep branches nest, and how far an inactive processor's counter goes (spec/43_flow_control.md R260, R264). -/

namespace Sys2Proof.Machine

/-! ## What every step keeps of branches and counters (O54) -/

/-- A processor that waits for the end of a branch has fewer branches to leave than are open. -/
def Proc.inNest (depth : Nat) (p : Proc) : Prop :=
  p.killed = false → p.active = false → 0 ≤ p.counter ∧ p.counter < (depth : Int)

theorem Stream.branchesWithin_iff {st : Stream} {mode : FlowMode} :
    st.branchesWithin mode ↔ st.depth ≤ Config.branchDepth mode ∧ ∀ p ∈ st.procs, p.inNest st.depth := Iff.rfl

/-- An update of processors that brings none back and touches no activity and no counter. -/
def KeepsNest (g : Proc → Proc) : Prop :=
  ∀ p, ((g p).killed = false → p.killed = false) ∧ (g p).active = p.active ∧ (g p).counter = p.counter

theorem KeepsNest.inNest {g : Proc → Proc} (hg : KeepsNest g) {n : Nat} {p : Proc} (h : p.inNest n) : (g p).inNest n := by
  obtain ⟨hkilled, hactive, hcounter⟩ := hg p
  intro hk ha
  rw [hcounter]
  exact h (hkilled hk) (hactive ▸ ha)

theorem keepsNest_id : KeepsNest id := fun _ => ⟨id, rfl, rfl⟩

/-- An ALU row changes neither (R182). -/
theorem State.keepsNest_aluProc (s : State) (c : AluCommon) (rgb : Option RgbHalf) (alpha : Option AlphaHalf) :
    KeepsNest fun p => if p.live then s.aluProc c rgb alpha p else p := by
  intro p
  obtain ⟨_, _, e⟩ := s.aluProc_keeps c rgb alpha p
  dsimp only
  split
  · rw [e]
    exact ⟨id, rfl, rfl⟩
  · exact ⟨id, rfl, rfl⟩

/-- A lookup changes neither (R214). -/
theorem keepsNest_performLookup (s : State) (o : LookupOp) (e : Pend) : KeepsNest (performLookup s o e) := fun p => by
  rw [performLookup_keeps]
  exact ⟨id, rfl, rfl⟩

/-- A kill changes neither (R215). -/
theorem keepsNest_performKill (e : Pend) : KeepsNest (performKill e) := fun p => by
  rw [performKill_eq]
  exact ⟨fun h => (Bool.or_eq_false_iff.1 h).1, rfl, rfl⟩

theorem State.performElem_keepsNest (s : State) (e : Pend) :
    ∃ g, KeepsNest g ∧ (s.performElem e).stream.procs = s.stream.procs.map g := by
  simp only [State.performElem]
  split
  · exact ⟨_, keepsNest_performLookup s _ e, rfl⟩
  · exact ⟨_, keepsNest_performKill e, rfl⟩
  · exact ⟨id, keepsNest_id, (List.map_id _).symm⟩

theorem State.performAt_keepsNest (s : State) (n : Nat) :
    ∃ g, KeepsNest g ∧ (s.performAt n).stream.procs = s.stream.procs.map g := by
  simp only [State.performAt]
  split
  · exact ⟨id, keepsNest_id, (List.map_id _).symm⟩
  · exact s.performElem_keepsNest _

/-- A stream stays within the nesting while no branch is entered or left. -/
theorem Stream.branchesWithin.map {st st' : Stream} {mode : FlowMode} (h : st.branchesWithin mode)
    (hdepth : st'.depth = st.depth) {g : Proc → Proc} (hg : KeepsNest g) (hprocs : st'.procs = st.procs.map g) :
    st'.branchesWithin mode := by
  rw [Stream.branchesWithin_iff] at h ⊢
  rw [hdepth, hprocs]
  exact ⟨h.1, List.forall_mem_map.2 fun p hp => hg.inNest (h.2 p hp)⟩

theorem Stream.branchesWithin.congr {st st' : Stream} {mode : FlowMode} (h : st.branchesWithin mode)
    (hdepth : st'.depth = st.depth) (hprocs : st'.procs = st.procs) : st'.branchesWithin mode :=
  h.map hdepth keepsNest_id (by rw [hprocs, List.map_id])

/-- A branch operation moves an inactive processor's counter with the number of open branches. -/
theorem branchProc_inNest {p : Proc} {depth : Nat} (h : p.inNest depth) (op : BranchOp) (n : Nat) (d : Bool) :
    (branchProc op n d p).inNest (depthAfter op n depth) := by
  cases hk : p.killed with
  | true =>
    rw [branchProc_killed hk]
    exact fun hk' => absurd hk' (by simp [hk])
  | false =>
    cases op with
    | none => rwa [branchProc_none]
    | incr =>
      cases ha : p.active with
      | true =>
        rw [branchProc_incr_active hk ha]
        cases d with
        | false => exact fun _ ha' => absurd ha' (by simp [ha])
        | true => exact fun _ _ => ⟨le_rfl, Int.natCast_pos.2 depth.succ_pos⟩
      | false =>
        rw [branchProc_incr_inactive hk ha]
        obtain ⟨hle, hlt⟩ := h hk ha
        refine fun _ _ => ⟨?_, ?_⟩ <;> simp only [depthAfter] <;> omega
    | decr =>
      cases ha : p.active with
      | true =>
        rw [branchProc_decr_active hk ha]
        exact fun _ ha' => absurd ha' (by simp [ha])
      | false =>
        rw [branchProc_decr_inactive hk ha]
        obtain ⟨hle, hlt⟩ := h hk ha
        intro _ hleft
        have hpos : ¬ p.counter - n < 0 := of_decide_eq_false hleft
        refine ⟨?_, ?_⟩ <;> simp only [depthAfter] <;> omega

/-- What columns c5 and c9 do leaves the counter below the open branches, and the processor active where none is open. -/
theorem lostColumns_inNest {p : Proc} {depth : Nat} (h : p.inNest depth) (f : Flow) (d : Bool) :
    (lostColumns f depth d p).inNest depth := by
  simp only [lostColumns]
  split
  · exact h
  · intro _ ha
    have hopen : depth ≠ 0 := by simpa using (Bool.or_eq_false_iff.1 ha).2
    exact ⟨Int.natCast_nonneg _, Int.ofNat_lt.2 (Nat.mod_lt _ (Nat.pos_of_ne_zero hopen))⟩

/-- A branch that is not too deep stays within the mode's nesting. -/
theorem depthAfter_le {s : State} {op : BranchOp} (h : s.stream.depth ≤ Config.branchDepth s.ctl.mode)
    (hop : s.tooDeep op = false) (n : Nat) : depthAfter op n s.stream.depth ≤ Config.branchDepth s.ctl.mode := by
  cases op with
  | none => exact h
  | incr => exact Nat.succ_le_of_lt (by simpa [State.tooDeep] using hop)
  | decr => exact (Nat.sub_le _ _).trans h

/-- An instruction of the array keeps its stream within the nesting. -/
theorem DppNext.branchesWithin {i : Instr} {s u : State} (h : DppNext s i u) (hs : s.stream.branchesWithin s.ctl.mode) :
    u.stream.branchesWithin s.ctl.mode := by
  cases h with
  | held => exact hs
  | texNop t => exact hs.congr (by simp) (by simp)
  | texPend i e acquire => exact hs.congr (by simp) (by simp)
  | alu i rgb alpha c => exact hs.map (by simp) (s.keepsNest_aluProc c rgb alpha) (by simp)
  | output o v lanes hsend =>
    have hstream := (sendOutputs_stream hsend).1
    exact hs.congr (by simp [State.closeOutput, hstream]) (by simp [State.closeOutput, hstream])
  | flow i f taken loops rs hi hdepth =>
    obtain ⟨hle, hprocs⟩ := Stream.branchesWithin_iff.1 hs
    rw [State.branched_waited, Stream.branchesWithin_iff]
    exact ⟨depthAfter_le hle hdepth f.popCnt, List.forall_mem_map.2 fun p hp =>
      lostColumns_inNest (branchProc_inNest (hprocs p hp) _ _ _) f _⟩

theorem State.branchInv_iff {s : State} :
    s.BranchInv ↔ s.stream.branchesWithin s.ctl.mode ∧ ∀ st ∈ s.others, st.branchesWithin s.ctl.mode :=
  List.forall_mem_cons

/-- The invariant depends on the mode, on the stream in front and on the other streams. -/
theorem State.branchInv_of_stream {s t : State} (h : s.BranchInv) (hmode : t.ctl.mode = s.ctl.mode)
    (hf : s.stream.branchesWithin s.ctl.mode → t.stream.branchesWithin s.ctl.mode) (ho : t.others = s.others) :
    t.BranchInv := by
  rw [State.branchInv_iff] at h ⊢
  rw [hmode, ho]
  exact ⟨hf h.1, h.2⟩

theorem State.turn_branchInv {s : State} (h : s.BranchInv) : s.turn.BranchInv := by
  unfold State.BranchInv
  rw [s.turn_ctl]
  exact turn_forall.2 h

/-- A launched stream is inside no branch, and its processors are active. -/
theorem State.launchGroup_branchInv {s : State} (h : s.BranchInv) : s.launchGroup.BranchInv := by
  refine State.branchInv_iff.2 ⟨⟨Nat.zero_le _, List.forall_mem_map.2 fun xy _ _ ha => ?_⟩, fun st hst => h st ?_⟩
  · cases ha
  · rw [State.launchGroup_others] at hst
    split at hst
    · exact hst
    · cases hst

/-- No command sets the mode (log entry 45). -/
theorem exec_command_mode {i : Instr} {s u : State} (hd : i.isDpp = false) (h : exec i s = .next u) :
    u.ctl.mode = s.ctl.mode := by
  cases i <;> simp only [Instr.isDpp, reduceCtorEq] at hd
  case programStart =>
    obtain ⟨-, rfl⟩ := refuse_next h
    rfl
  all_goals cases h; rfl

theorem exec_branchInv {i : Instr} {s u : State} (hs : s.BranchInv) (h : exec i s = .next u) : u.BranchInv := by
  cases hd : i.isDpp with
  | true =>
    have hn := exec_dppNext hd h
    exact State.branchInv_of_stream hs (by rw [hn.frame.1]) hn.branchesWithin (by rw [hn.frame.1])
  | false =>
    have hframe := exec_command_frame hd h
    exact State.branchInv_of_stream hs (exec_command_mode hd h) (fun hf => by rwa [hframe]) (by rw [hframe])

theorem State.execExtra_branchInv {s : State} (x : ExtraCommand) (h : s.BranchInv) : (s.execExtra x).BranchInv := by
  cases x <;> exact h

theorem AgentNext.branchInv {s u : State} (hs : s.BranchInv) (h : AgentNext s u) : u.BranchInv := by
  have hturn := State.turn_branchInv hs
  cases h with
  | launch => exact State.launchGroup_branchInv hs
  | retire => exact fun st hst => hturn st (s.turn.retire_streams_subset hst)
  | stay => exact hturn
  | issue i u h => exact State.branchInv_of_stream hturn (by rw [h.frame.1]) h.branchesWithin (by rw [h.frame.1])
  | perform n =>
    obtain ⟨g, hg, hprocs⟩ := s.turn.performAt_keepsNest n
    have hframe := s.turn.performAt_frame n
    exact State.branchInv_of_stream hturn (by rw [hframe]) (fun hf => hf.map (by rw [s.turn.performAt_stream n]) hg hprocs)
      (by rw [hframe])
  | release => exact State.branchInv_of_stream hturn rfl (fun hf => hf.congr rfl rfl) rfl
  | takeBuffer =>
    rw [s.takeBuffer_frame]
    exact hs
  | consumeBuffer id => exact hs
  | row i v words h => exact exec_branchInv (u := v) hs h
  | extra x words => exact State.execExtra_branchInv x hs

/-- Settles O54: every agent's turn keeps the nesting, and the tick touches neither the streams nor the mode. -/
theorem stepsKeepBranchCountersInRange : Obligations.StepsKeepBranchCountersInRange := by
  intro s t hs h
  obtain ⟨u, hu, rfl⟩ := step_agentNext h
  have hnext : u.BranchInv := hu.branchInv hs
  exact hnext

end Sys2Proof.Machine
end

section
/-! PROOF. The bit-exact move (spec/44_floating_point.md R295): with the output modifier disabled it copies every bit (O24). -/

namespace Sys2Proof.Machine

/-- A move's result is its first operand, bit for bit. -/
@[simp] theorem aluEval_mov (a b d : Word) : aluEval (.unnamed .mov) a b d = a := rfl

/-- An RGB operand with no swizzle is its source, channel by channel. -/
theorem State.rgbOperand_unswizzled (s : State) (c : AluCommon) (p : Proc) (sel : SrcSel) {ch : Comp} (hch : ch ≠ .a) :
    s.rgbOperand c p ⟨sel, .r, .g, .b⟩ ch = (s.srcValue p (pickSource c.src sel)).get ch := by
  cases ch
  case a => exact absurd rfl hch
  all_goals rfl

/-- An RGB engine that writes its three channels has them in its mask. -/
theorem rgbWmask_get_full {r : RgbPart} (hr : r.wr = true) (hg : r.wg = true) (hb : r.wb = true) {ch : Comp} (hch : ch ≠ .a) :
    (rgbWmask r).get ch = true := by
  cases ch
  case r => exact hr
  case g => exact hg
  case b => exact hb
  case a => exact absurd rfl hch

/-- Settles O24: each engine's result reaches its channels (O16), and a move's is its operand, which the disabled result path
leaves as it is. -/
theorem movPreservesEveryBit : Obligations.MovPreservesEveryBit := by
  intro s c p r q sel ha hqa homod hqomod hclamp hqclamp hr hg hb hwa hdst hpred
  obtain ⟨hrgb, halpha, -⟩ := engineResultsReachMaskedComponents s c p
  refine Quad.eq_of_get fun ch => ?_
  by_cases hch : ch = .a
  · subst hch
    rw [hdst]
    refine (halpha ⟨.unnamed .mov, q⟩ (some ⟨.unnamed .mov, r⟩) AluOp.noConfusion).trans ?_
    simp [hwa, hpred, hqomod, hqclamp, hqa, Quad.all, State.alphaOperand]
  · refine (hrgb ⟨.unnamed .mov, r⟩ (some ⟨.unnamed .mov, q⟩) ch hch AluOp.noConfusion).trans ?_
    simp [rgbWmask_get_full hr hg hb hch, hpred, homod, hclamp, ha, s.rgbOperand_unswizzled c p sel hch]

end Sys2Proof.Machine
end

section
/-! PROOF. The launch of a group of instances, and its entry registers (spec/70_reset_and_hazards.md R341). -/

namespace Sys2Proof.Machine

/-! ## Entry registers (R341) -/

/-- Setting pairs one after the other leaves every key that none of them names as it was. -/
theorem assocGet_foldl_pairs_of_not_mem {α : Type} {rs : List (Nat × α)} {d : Nat} (h : ∀ r ∈ rs, r.1 ≠ d)
    (l : List (Nat × α)) : assocGet (rs.foldl (fun l r => assocSet l r.1 r.2) l) d = assocGet l d := by
  induction rs generalizing l with
  | nil => rfl
  | cons r rs ih =>
    rw [List.foldl_cons, ih (fun x hx => h x (List.mem_cons_of_mem r hx)), assocGet_assocSet, if_neg (h r List.mem_cons_self)]

/-- Of the pairs set at a key, the last one stays. -/
theorem assocGet_foldl_pairs_last {α : Type} (pre : List (Nat × α)) {post : List (Nat × α)} {d : Nat} (v : α)
    (h : ∀ r ∈ post, r.1 ≠ d) (l : List (Nat × α)) :
    assocGet ((pre ++ (d, v) :: post).foldl (fun l r => assocSet l r.1 r.2) l) d = some v := by
  rw [List.foldl_append, List.foldl_cons, assocGet_foldl_pairs_of_not_mem h, assocGet_assocSet, if_pos rfl]

theorem State.entryTemps_some {s : State} {xy : IndexPair} {e : EntryRegs}
    (h : s.ctl.entryRegs.find? (fun e => e.xy == xy) = some e) :
    s.entryTemps xy = e.regs.foldl (fun l r => assocSet l r.1 r.2) [] := by
  simp only [State.entryTemps, h]

theorem State.entryTemps_none {s : State} {xy : IndexPair} (h : ∀ e ∈ s.ctl.entryRegs, e.xy ≠ xy) :
    s.entryTemps xy = [] := by
  have hnone : s.ctl.entryRegs.find? (fun e => e.xy == xy) = none :=
    List.find?_eq_none.2 fun e he => by simpa using h e he
  simp only [State.entryTemps, hnone]

/-- A launched processor's temporaries are those of its index pair's entry registers, the others unwritten. -/
theorem State.launchProc_temp (s : State) (xy : IndexPair) (run d : Nat) :
    (s.launchProc xy).temp run d = (assocGet (s.entryTemps xy) d).getD (initialTemp run xy d) := rfl

/-- A register that entry_regs names for the index pair holds the last value given for it. -/
theorem State.launchProc_temp_named {s : State} {xy : IndexPair} {e : EntryRegs} {pre post : List (Nat × Vec4)} {d : Nat}
    {v : Vec4} (he : s.ctl.entryRegs.find? (fun e => e.xy == xy) = some e) (hregs : e.regs = pre ++ (d, v) :: post)
    (hpost : ∀ r ∈ post, r.1 ≠ d) (run : Nat) : (s.launchProc xy).temp run d = v := by
  rw [State.launchProc_temp, State.entryTemps_some he, hregs, assocGet_foldl_pairs_last pre v hpost, Option.getD_some]

/-- A register that entry_regs does not name for the index pair is unwritten. -/
theorem State.launchProc_temp_unnamed {s : State} {xy : IndexPair} {e : EntryRegs} {d : Nat}
    (he : s.ctl.entryRegs.find? (fun e => e.xy == xy) = some e) (hd : ∀ r ∈ e.regs, r.1 ≠ d) (run : Nat) :
    (s.launchProc xy).temp run d = initialTemp run xy d := by
  rw [State.launchProc_temp, State.entryTemps_some he, assocGet_foldl_pairs_of_not_mem hd]
  rfl

/-- Where entry_regs has nothing for the index pair, every register is unwritten. -/
theorem State.launchProc_temp_no_entry {s : State} {xy : IndexPair} (h : ∀ e ∈ s.ctl.entryRegs, e.xy ≠ xy) (run d : Nat) :
    (s.launchProc xy).temp run d = initialTemp run xy d := by
  rw [State.launchProc_temp, State.entryTemps_none h]
  rfl

/-! ## The launch (R341, R40) -/

theorem State.launchStream_procs (s : State) (xys : List IndexPair) :
    (s.launchStream xys).procs = xys.map s.launchProc := rfl

/-- The processors of a launched stream work on the index pairs it was given. -/
theorem State.launchStream_xys (s : State) (xys : List IndexPair) : (s.launchStream xys).procs.map Proc.xy = xys := by
  have hxy : Proc.xy ∘ s.launchProc = id := rfl
  rw [State.launchStream_procs, List.map_map, hxy, List.map_id]

/-- A group has no more members than it may have. -/
theorem length_drawGroup_le (tick g : Nat) (l : List IndexPair) : (drawGroup tick g l).1.length ≤ g := by
  induction g generalizing l with
  | zero => exact Nat.le_refl 0
  | succ g ih =>
    simp only [drawGroup]
    split
    · exact Nat.zero_le _
    · exact Nat.succ_le_succ (ih _)

/-- A launch adds its group to the processors at work. -/
theorem State.busy_launchGroup (s : State) :
    s.launchGroup.busy = (drawGroup s.tick Config.group s.waiting).1.length + s.busy := by
  cases hr : s.running <;> simp [State.busy, State.streams, State.launchStream_procs, hr]

theorem State.canLaunch_iff {s : State} :
    s.canLaunch = true ↔ s.waiting ≠ [] ∧ s.busy + Config.group ≤ Config.nproc := by
  simp [State.canLaunch]

/-- A launch finds an idle processor for each instance of its group. -/
theorem State.busy_launchGroup_le {s : State} (h : s.canLaunch = true) : s.launchGroup.busy ≤ Config.nproc := by
  obtain ⟨-, hroom⟩ := State.canLaunch_iff.1 h
  have hgroup := length_drawGroup_le s.tick Config.group s.waiting
  rw [State.busy_launchGroup]
  omega

/-- Where a group can be launched, the step launches it. -/
theorem step_of_canLaunch {s : State} (h : s.canLaunch = true) : step s = .next s.launchGroup.endStep := by
  simp [step, State.agentStep, h]

/-- Settles O48: the step is the launch; its group is `drawGroup`'s, its registers are by the `launchProc_temp` laws. -/
theorem launchStartsInstances : Obligations.LaunchStartsInstances := by
  refine fun s => ⟨canLaunch_idle, fun h => ⟨_, step_of_canLaunch h, rfl, rfl, rfl, rfl, rfl, rfl, rfl, rfl, rfl, rfl, rfl,
    ?started, fun p hp => ?registers, fun xy d => ⟨rfl, fun n => rfl⟩, ?pairs, rfl, State.busy_launchGroup_le h⟩⟩
  case started =>
    obtain ⟨hw, -⟩ := State.canLaunch_iff.1 h
    exact List.map_eq_nil_iff.not.2 (drawGroup_ne_nil s.tick Config.groupExtra hw)
  case registers =>
    obtain ⟨xy, -, rfl⟩ := List.mem_map.1 hp
    exact ⟨rfl, rfl,
      fun e he => ⟨fun pre d v post hregs hpost => State.launchProc_temp_named he hregs hpost s.runNo,
        fun d hd => State.launchProc_temp_unnamed he hd s.runNo⟩,
      fun hnone d => State.launchProc_temp_no_entry hnone s.runNo d⟩
  case pairs =>
    change ((s.launchStream (drawGroup s.tick Config.group s.waiting).1).procs.map Proc.xy ++
      (drawGroup s.tick Config.group s.waiting).2).Perm s.waiting
    rw [State.launchStream_xys]
    exact drawGroup_perm s.tick Config.group s.waiting

end Sys2Proof.Machine
end

section
/-! PROOF. The loader of executable files (spec/70_reset_and_hazards.md R342 to R348). -/

namespace Sys2Proof.Machine

/-! ## The executable file (R343 to R346) -/

theorem ElfSection.isText_iff {x : ElfSection} :
    x.isText = true ↔ x.name = textName ∧ x.type = .progbits ∧ x.alloc = true ∧ x.execInstr = true := by
  simp [ElfSection.isText, and_assoc]

/-- The section of the executable instructions is one of the file's and is .text (R344). -/
theorem ObjectFile.text_some {f : ObjectFile} {x : ElfSection} (h : f.text = some x) :
    x.isText = true ∧ ∃ g ∈ f.segments, x ∈ g.sections :=
  ⟨List.find?_some h, List.mem_flatMap.1 (List.mem_of_find?_eq_some h)⟩

theorem ObjectFile.text_none {f : ObjectFile} (h : ∀ g ∈ f.segments, ∀ x ∈ g.sections, x.isText = false) :
    f.text = none := by
  refine List.find?_eq_none.2 fun x hx => ?_
  obtain ⟨g, hg, hxg⟩ := List.mem_flatMap.1 hx
  simp [h g hg x hxg]

/-- A file without the Int32 Constants note references no constant. -/
theorem ObjectFile.int32Refs_without {f : ObjectFile} (h : ∀ n ∈ f.notes, n.int32Consts = none) : f.int32Refs = [] := by
  rw [ObjectFile.int32Refs, List.findSome?_eq_none_iff.2 h, Option.getD_none]

/-- A file's references are those of the first note that lists any. -/
theorem ObjectFile.int32Refs_first {f : ObjectFile} {pre rest : List Note} {n : Note} {ws : List Word}
    (hf : f.notes = pre ++ n :: rest) (hpre : ∀ m ∈ pre, m.int32Consts = none) (hn : n.int32Consts = some ws) :
    f.int32Refs = ws := by
  rw [ObjectFile.int32Refs, hf, List.findSome?_append, List.findSome?_eq_none_iff.2 hpre, Option.none_or,
    List.findSome?_cons_of_isSome (by simp [hn]), hn, Option.getD_some]

/-- A note of type 6 named ELF_NOTE_ATI lists the words of its descriptor (R346). -/
theorem Note.int32Consts_typed (desc : List Byte) :
    (Note.typed [0x06, 0x00, 0x00, 0x00] noteNameAti desc).int32Consts = some (wordsOf desc) := by
  have hsix : takeWord [0x06, 0x00, 0x00, 0x00] = some (6#32, []) := by decide
  rw [Note.int32Consts, if_pos ⟨hsix, rfl⟩]

/-! ## The loader (R342, R347) -/

theorem State.loadProgram_class64 (s : State) {f : ObjectFile} (b : BaseParam) (h : f.elfClass ≠ .class32) :
    s.loadProgram f b = .error .notAnExecutable := by
  cases hc : f.elfClass with
  | class32 => exact absurd hc h
  | class64 => simp [State.loadProgram, hc]

theorem State.loadProgram_no_text (s : State) {f : ObjectFile} (b : BaseParam) (h : f.text = none) :
    s.loadProgram f b = .error .notAnExecutable := by
  cases hc : f.elfClass <;> simp [State.loadProgram, hc, h]

/-- A 32-bit file with a .text section is loaded, unless a reserved word is set. -/
theorem State.loadProgram_text (s : State) {f : ObjectFile} (b : BaseParam) {x : ElfSection} (hc : f.elfClass = .class32)
    (hx : f.text = some x) :
    s.loadProgram f b =
      if f.notes.any Note.reservedSet then .error .reservedNonzero
      else .ok { s.hostWrite (programCells x.contents (encodeBase b)) with
        program := x.contents, programAt := some (encodeBase b), int32Refs := f.int32Refs
        earlyExit := f.notes.any Note.isEarlyExit } := by
  simp only [State.loadProgram, hc, hx]
  rfl

/-- Memory after a program is placed: at each address the last of its bytes that lies there, or what memory held (R342). -/
theorem Memory.read_programCells (m : List Host.Cell) (code : List Instr) (base : Word) (a : Nat) :
    Memory.read (Memory.writeAll m (programCells code base)) a =
      ((List.range (Config.instrBytes * code.length)).reverse.find? fun j => cellAddr base j == a).elim (Memory.read m a)
        fun j => some (Config.programByte code base j) := by
  simp only [programCells, Memory.read_writeAll_cellsFrom, List.length_map, List.length_range, Nat.zero_add]
  cases hf : (List.range (Config.instrBytes * code.length)).reverse.find? fun j => cellAddr base j == a with
  | none => rfl
  | some j =>
    have hj : j < Config.instrBytes * code.length := by simpa using List.mem_of_find?_eq_some hf
    simp [List.getElem?_range hj]

/-- Settles O60: the refusals and the loaded state by the `loadProgram` laws, its bytes by `Memory.read_programCells`. -/
theorem loaderReadsTheFile : Obligations.LoaderReadsTheFile := by
  refine fun s f b => ⟨?refused, fun x hc hx => ⟨fun hset => ?reserved, fun hunset => ?loaded⟩, fun x hx => ?text,
    ObjectFile.int32Refs_without, ?first⟩
  case refused =>
    rintro (hc | htext)
    · exact s.loadProgram_class64 b hc
    · exact s.loadProgram_no_text b (ObjectFile.text_none htext)
  case reserved => exact (s.loadProgram_text b hc hx).trans (if_pos (List.any_eq_true.2 hset))
  case loaded =>
    have hany : ¬ f.notes.any Note.reservedSet = true := by simpa using hunset
    exact ⟨_, (s.loadProgram_text b hc hx).trans (if_neg hany), rfl,
      Memory.read_programCells s.mem x.contents (encodeBase b)⟩
  case text =>
    obtain ⟨htext, hsection⟩ := ObjectFile.text_some hx
    obtain ⟨hname, htype, halloc, hexec⟩ := ElfSection.isText_iff.1 htext
    exact ⟨hname, htype, halloc, hexec, hsection⟩
  case first =>
    rintro pre n rest hf hpre desc rfl
    exact ObjectFile.int32Refs_first hf hpre (Note.int32Consts_typed desc)

end Sys2Proof.Machine
end
